-- ==== Sys2Proof/Word.lean ====
section
/-! DEFINITION. The word types of the ZKA-900: bytes, 32-bit register words and 64-bit words (R2, R3). -/

namespace Sys2Proof

/-- One byte of memory. -/
abbrev Byte := BitVec 8

/-- A 32-bit general register, shared register or control register half. -/
abbrev Word := BitVec 32

/-- A 64-bit instruction word, clause header, address or register pair. -/
abbrev DWord := BitVec 64

/-- The low word of a 64-bit value: the even register of a pair (R41, R108). -/
def DWord.lo (x : DWord) : Word := x.extractLsb' 0 32

/-- The high word of a 64-bit value: the odd register of a pair. -/
def DWord.hi (x : DWord) : Word := x.extractLsb' 32 32

/-- A register pair as one value, low word first. -/
def Word.pair (lo hi : Word) : DWord := hi ++ lo

end Sys2Proof
end

