-- ==== Sys2Proof/Syntax.lean ====
section
/-! DEFINITION. The syntax of the ZKA-900: operand kinds, the guard and mask every word carries, and
`Instr` with one constructor per row of spec/opcode_table.json: instruction words first, then the
device's events, host operations and management commands. -/

namespace Sys2Proof

/-- g0 to g255 (R41). -/
abbrev GReg := Fin 256
/-- p0 to p15 (R41). -/
abbrev PReg := Fin 16
/-- s0 to s63 (R41). -/
abbrev SReg := Fin 64
/-- kg0 to kg15 (R41). -/
abbrev KReg := Fin 16
/-- ob0 to ob3 (R41). -/
abbrev ObReg := Fin 4
/-- Tile slots t0 to t15 (R229). -/
abbrev Slot := Fin 16
/-- The signed byte or unit offset of M and BR words (R44, R47). -/
abbrev Off := BitVec 24

/-- TYPE codes of Table 3.5. -/
inductive Ty where
  | i32 | n32 | i64 | n64 | i16 | n16 | i8 | n8 | i4
  | f32 | f64 | f16 | bf16 | f8e4 | f8e5 | f6e3 | f6e2 | f4 | e8m0
  deriving DecidableEq, Repr, Inhabited

/-- RND codes of Table 3.5. -/
inductive Rnd where
  | rn | rz | ru | rd | rna | sr
  deriving DecidableEq, Repr, Inhabited

/-- WIDTH codes of Table 3.7. -/
inductive Width where
  | n8 | i8 | n16 | i16 | n32 | n64 | n128
  deriving DecidableEq, Repr, Inhabited

/-- SCOPE codes of Table 3.7; `plain` is code 0. -/
inductive Scope where
  | plain | team | course | die | pair | sys
  deriving DecidableEq, Repr, Inhabited

/-- ORDER codes of Table 3.6. -/
inductive Order where
  | plain | acq | rel | acqRemote
  deriving DecidableEq, Repr, Inhabited

/-- FN codes of CMP (Table 5.5). -/
inductive CmpFn where
  | eq | ne | lt | le | gt | ge
  deriving DecidableEq, Repr, Inhabited

/-- FN codes of FCMP and DCMP (Table 6.6). -/
inductive FCmpFn where
  | eq | ne | lt | le | gt | ge | num | nan
  deriving DecidableEq, Repr, Inhabited

/-- How a compare combines with a predicate (R93). -/
inductive Comb where
  | none | and (q : PReg) | or (q : PReg) | xor (q : PReg)
  deriving DecidableEq, Repr, Inhabited

/-- Source modifiers of a V3 word (Table 3.4). -/
structure Mods where
  negA : Bool
  negB : Bool
  absA : Bool
  absB : Bool
  deriving DecidableEq, Repr, Inhabited

/-- The mask of a companion word (R48, R50). -/
structure Mask where
  pred : PReg
  neg : Bool
  /-- MZ: masked-off lanes are zeroed. -/
  zero : Bool
  deriving DecidableEq, Repr, Inhabited

/-- What every instruction word carries besides its operands: SW, the guard, and the companion word's
mask and rounding override if there is one (R39, R40, R48). -/
structure Ctl where
  sw : Bool
  pred : PReg
  pneg : Bool
  mask : Option Mask
  xrnd : Option Rnd
  deriving DecidableEq, Repr, Inhabited

/-- Control registers of Table 19.2. -/
inductive CReg where
  | tveclo | tvechi | epclo | epchi | ecause | evalo | evahi | eclause | edifflo | ediffhi | efrid
  deriving DecidableEq, Repr, Inhabited

/-- Special registers of Table 5.2. -/
inductive SpReg where
  | strandid | teamid | gangid | lanepos | width | launchid | coreid | courseid | dieid
  | maxabs | rng0 | rng1 | rng2 | rng3 | ctrs | clklo | clkhi
  deriving DecidableEq, Repr, Inhabited

/-- The two directions of MOVS (R146). -/
inductive MovsDir where
  | read (d : GReg) (s : SReg)
  | write (s : SReg) (a : GReg)
  deriving DecidableEq, Repr, Inhabited

/-- The lane selector of XLANE: a register or an immediate (R152). -/
inductive LaneSel where
  | reg (b : GReg)
  | imm (v : BitVec 7)
  deriving DecidableEq, Repr, Inhabited

/-- The forms of VOTE with their destinations (R154). -/
inductive VoteOp where
  | all (d : PReg) | any (d : PReg) | uni (d : PReg) | ballot (d : GReg)
  deriving DecidableEq, Repr, Inhabited

/-- Reduction operations of Table 7.5. -/
inductive RedFn where
  | add | min | max | and | or | xor
  deriving DecidableEq, Repr, Inhabited

/-- Segment modes of BREDUCE and BSCAN (R157). -/
inductive Seg where
  | whole | head (q : PReg) | key (b : GReg)
  deriving DecidableEq, Repr, Inhabited

/-- AOP codes of Table 9.3. -/
inductive AtomOp where
  | exch | cas | add | and | or | xor | min | max | inc | dec | fadd
  deriving DecidableEq, Repr, Inhabited

/-- RTYPE codes of Table 9.4. -/
inductive RType where
  | f32 | f16 | bf16 | i32 | n32 | i64
  deriving DecidableEq, Repr, Inhabited

/-- ROP codes of Table 9.4. -/
inductive ROp where
  | add | min | max
  deriving DecidableEq, Repr, Inhabited

/-- Operand sources of the MMA forms (R237 to R239). -/
inductive MSrc where
  | reg (g : GReg) | mem (g : GReg) | ob (o : ObReg)
  deriving DecidableEq, Repr, Inhabited

/-- A SEND on a queue pair that carries a doorbell (Table 13.3). -/
structure Doorbell where
  /-- The queue pair it arrives on. -/
  qpn : Nat
  /-- Its length in bytes. -/
  len : Nat
  queue : Fin 64
  producer : Word
  deriving DecidableEq, Repr, Inhabited

/-- A management SEND on QPN 1 (R392): header TAG, its length in bytes, and ARG0 to ARG6. -/
structure MgmtMsg where
  tag : Word
  len : Nat
  arg0 : DWord
  arg1 : DWord
  arg2 : DWord
  arg3 : DWord
  arg4 : DWord
  arg5 : DWord
  arg6 : DWord
  /-- Bytes 64 to 127 of an ATTEST. -/
  nonce : List Byte
  deriving DecidableEq, Repr, Inhabited

/-- The sources of Table 19.5. -/
inductive McSource where
  /-- an uncorrectable delta word at a physical word address of a course -/
  | delta (course word : Nat)
  /-- an uncorrectable dirty KEYED word at a physical word address -/
  | keyed (course word : Nat)
  /-- an uncorrectable cache or memory word, read by a strand or engine of a launch (0: write-back) -/
  | memory (seq : Nat) (word : Nat)
  deriving DecidableEq, Repr, Inhabited

/-- One constructor per row of spec/opcode_table.json, in its order. `c` is what every word carries;
`d a b` are the operand fields, `cc` the companion's C. -/
inductive Instr where
  -- control (file 05), launch (13), system (19)
  | bra (c : Ctl) (off : Off)
  | brx (c : Ctl) (a : GReg)
  | call (c : Ctl) (d : GReg) (off : Off)
  | callx (c : Ctl) (d a : GReg)
  | ret (c : Ctl) (a : GReg)
  | exit (c : Ctl)
  | yield (c : Ctl) (off : Off)
  | mwait (c : Ctl) (w : Width) (sc : Scope) (d a : GReg) (off : Off)
  | nop (c : Ctl)
  | launch (c : Ctl) (d a : GReg) (off : Off)
  | qstatQ (c : Ctl) (d a : GReg)
  | qstatLast (c : Ctl) (d a : GReg)
  | qstatSeq (c : Ctl) (d a : GReg)
  | trap (c : Ctl) (code : BitVec 16)
  | brk (c : Ctl) (code : BitVec 16)
  | eret (c : Ctl)
  | mfc (c : Ctl) (d : GReg) (r : CReg)
  | mtc (c : Ctl) (r : CReg) (a : GReg)
  -- integer, address, predicate (05)
  | add (c : Ctl) (ty : Ty) (sat : Bool) (d a b : GReg)
  | sub (c : Ctl) (ty : Ty) (sat : Bool) (d a b : GReg)
  | mul (c : Ctl) (ty : Ty) (d a b : GReg)
  | mulh (c : Ctl) (ty : Ty) (d a b : GReg)
  | mad (c : Ctl) (ty : Ty) (d a b cc : GReg)
  | madl (c : Ctl) (ty : Ty) (d a b cc : GReg)
  | div (c : Ctl) (ty : Ty) (d a b : GReg)
  | rem (c : Ctl) (ty : Ty) (d a b : GReg)
  | min (c : Ctl) (ty : Ty) (d a b : GReg)
  | max (c : Ctl) (ty : Ty) (d a b : GReg)
  | abs (c : Ctl) (ty : Ty) (sat : Bool) (d a : GReg)
  | and (c : Ctl) (d a b : GReg)
  | or (c : Ctl) (d a b : GReg)
  | xor (c : Ctl) (d a b : GReg)
  | andn (c : Ctl) (d a b : GReg)
  | not (c : Ctl) (d a : GReg)
  | shl (c : Ctl) (ty : Ty) (d a b : GReg)
  | shr (c : Ctl) (ty : Ty) (d a b : GReg)
  | sar (c : Ctl) (ty : Ty) (d a b : GReg)
  | rot (c : Ctl) (right : Bool) (d a b : GReg)
  | catsh (c : Ctl) (left : Bool) (d a b cc : GReg)
  | popc (c : Ctl) (d a : GReg)
  | clz (c : Ctl) (d a : GReg)
  | ctz (c : Ctl) (d a : GReg)
  | brev (c : Ctl) (d a : GReg)
  | fext (c : Ctl) (ty : Ty) (d a b : GReg)
  | fins (c : Ctl) (d a b cc : GReg)
  | bsel (c : Ctl) (d a b : GReg)
  | lea (c : Ctl) (ty : Ty) (d a b : GReg) (sh : Fin 8)
  | sel (c : Ctl) (ty : Ty) (d a b : GReg) (q : PReg) (inv : Bool)
  | mov (c : Ctl) (ty : Ty) (d a : GReg)
  | cmp (c : Ctl) (ty : Ty) (fn : CmpFn) (k : Comb) (d : PReg) (a b : GReg)
  | pand (c : Ctl) (negA negB : Bool) (d a b : PReg)
  | por (c : Ctl) (negA negB : Bool) (d a b : PReg)
  | pxor (c : Ctl) (negA negB : Bool) (d a b : PReg)
  | ptog (c : Ctl) (d : GReg)
  | gtop (c : Ctl) (a b : GReg)
  | addImm (c : Ctl) (d a : GReg) (imm : Word)
  | subImm (c : Ctl) (d a : GReg) (imm : Word)
  | mulImm (c : Ctl) (d a : GReg) (imm : Word)
  | andImm (c : Ctl) (d a : GReg) (imm : Word)
  | orImm (c : Ctl) (d a : GReg) (imm : Word)
  | xorImm (c : Ctl) (d a : GReg) (imm : Word)
  | shlImm (c : Ctl) (d a : GReg) (imm : Word)
  | shrImm (c : Ctl) (d a : GReg) (imm : Word)
  | sarImm (c : Ctl) (d a : GReg) (imm : Word)
  | movi (c : Ctl) (d : GReg) (imm : Word)
  | movh (c : Ctl) (d a : GReg) (imm : BitVec 16)
  -- floating point, convert, random (06)
  | fadd (c : Ctl) (rnd : Rnd) (sat : Bool) (m : Mods) (d a b : GReg)
  | fsub (c : Ctl) (rnd : Rnd) (sat : Bool) (m : Mods) (d a b : GReg)
  | fmul (c : Ctl) (rnd : Rnd) (sat : Bool) (m : Mods) (d a b : GReg)
  | ffma (c : Ctl) (rnd : Rnd) (sat : Bool) (m : Mods) (d a b cc : GReg)
  | fmin (c : Ctl) (m : Mods) (d a b : GReg)
  | fmax (c : Ctl) (m : Mods) (d a b : GReg)
  | fcmp (c : Ctl) (m : Mods) (fn : FCmpFn) (k : Comb) (d : PReg) (a b : GReg)
  | fclass (c : Ctl) (ty : Ty) (mask : BitVec 10) (d : PReg) (a : GReg)
  | fscale (c : Ctl) (ty : Ty) (rnd : Rnd) (m : Mods) (d a b : GReg)
  | frnd (c : Ctl) (ty : Ty) (rnd : Rnd) (m : Mods) (d a : GReg)
  | ffrac (c : Ctl) (ty : Ty) (m : Mods) (d a : GReg)
  | frcp (c : Ctl) (m : Mods) (d a : GReg)
  | frsq (c : Ctl) (m : Mods) (d a : GReg)
  | fsqrt (c : Ctl) (rnd : Rnd) (m : Mods) (d a : GReg)
  | fexp2 (c : Ctl) (m : Mods) (d a : GReg)
  | flog2 (c : Ctl) (m : Mods) (d a : GReg)
  | fsin (c : Ctl) (m : Mods) (d a : GReg)
  | fcos (c : Ctl) (m : Mods) (d a : GReg)
  | fdiv (c : Ctl) (rnd : Rnd) (m : Mods) (d a b : GReg)
  | dadd (c : Ctl) (rnd : Rnd) (sat : Bool) (m : Mods) (d a b : GReg)
  | dsub (c : Ctl) (rnd : Rnd) (sat : Bool) (m : Mods) (d a b : GReg)
  | dmul (c : Ctl) (rnd : Rnd) (sat : Bool) (m : Mods) (d a b : GReg)
  | dfma (c : Ctl) (rnd : Rnd) (sat : Bool) (m : Mods) (d a b cc : GReg)
  | dmin (c : Ctl) (m : Mods) (d a b : GReg)
  | dmax (c : Ctl) (m : Mods) (d a b : GReg)
  | dcmp (c : Ctl) (m : Mods) (fn : FCmpFn) (k : Comb) (d : PReg) (a b : GReg)
  | hadd2 (c : Ctl) (ty : Ty) (rnd : Rnd) (sat : Bool) (m : Mods) (d a b : GReg)
  | hmul2 (c : Ctl) (ty : Ty) (rnd : Rnd) (sat : Bool) (m : Mods) (d a b : GReg)
  | hfma2 (c : Ctl) (ty : Ty) (rnd : Rnd) (sat : Bool) (m : Mods) (d a b cc : GReg)
  | hmin2 (c : Ctl) (ty : Ty) (m : Mods) (d a b : GReg)
  | hmax2 (c : Ctl) (ty : Ty) (m : Mods) (d a b : GReg)
  | cvt (c : Ctl) (dst src : Ty) (rnd : Rnd) (sat : Bool) (d a : GReg)
  | cvtpk (c : Ctl) (ty : Ty) (rnd : Rnd) (sat : Bool) (d a : GReg)
  | cvtx (c : Ctl) (ty : Ty) (rnd : Rnd) (sat : Bool) (d a b : GReg) (fw : Option GReg)
  | amaxrd (c : Ctl) (d : GReg)
  | amaxclr (c : Ctl) (d : GReg)
  | rngseed (c : Ctl) (a b : GReg)
  | rngnext (c : Ctl) (ty : Ty) (d : GReg)
  | nzcnt (c : Ctl) (ty : Ty) (d a : GReg)
  | nzmask (c : Ctl) (ty : Ty) (d a : GReg)
  -- team registers, keyrings, cross-lane (07)
  | mfs (c : Ctl) (d : GReg) (r : SpReg)
  | mts (c : Ctl) (r : SpReg) (a : GReg)
  | movs (c : Ctl) (dir : MovsDir)
  | ksetCount (c : Ctl) (k : KReg) (a : GReg)
  | ksetMask (c : Ctl) (k : KReg) (a b : GReg)
  | ksetFree (c : Ctl) (k : KReg)
  | ksignAbstain (c : Ctl) (k : KReg)
  | ksignStat (c : Ctl) (d : GReg) (k : KReg)
  | xlaneSel (c : Ctl) (ty : Ty) (d a : GReg) (s : LaneSel)
  | xlaneShift (c : Ctl) (ty : Ty) (d a : GReg) (s : LaneSel)
  | xlaneRot (c : Ctl) (ty : Ty) (d a : GReg) (s : LaneSel)
  | xlaneMirr (c : Ctl) (ty : Ty) (d a : GReg) (s : LaneSel)
  | shfx (c : Ctl) (d a b : GReg) (lg : Fin 4)
  | vote (c : Ctl) (op : VoteOp) (neg : Bool) (a : PReg)
  | laneMatch (c : Ctl) (ty : Ty) (all : Bool) (d a : GReg) (q : PReg)
  | conflict (c : Ctl) (ty : Ty) (d a : GReg) (q : PReg)
  | compact (c : Ctl) (d a : GReg) (q : PReg) (inv : Bool)
  | expand (c : Ctl) (d a : GReg) (q : PReg) (inv : Bool)
  | breduce (c : Ctl) (ty : Ty) (rnd : Rnd) (sat : Bool) (fn : RedFn) (sg : Seg) (d a : GReg)
  | bscan (c : Ctl) (ty : Ty) (rnd : Rnd) (sat : Bool) (fn : RedFn) (sg : Seg) (excl : Bool) (d a : GReg)
  | bcast (c : Ctl) (ty : Ty) (d a : GReg) (lane : Option (BitVec 6))
  | mergek (c : Ctl) (ty : Ty) (rnd : Rnd) (sat dz : Bool) (sg : Option GReg) (d a : GReg) (q : PReg) (inv : Bool)
  -- memory (08, 09, 10, 16, 18)
  | ld (c : Ctl) (w : Width) (sc : Scope) (o : Order) (d a : GReg) (off : Off)
  | st (c : Ctl) (w : Width) (sc : Scope) (o : Order) (d a : GReg) (off : Off)
  | lds (c : Ctl) (w : Width) (swz : Fin 8) (d a : GReg) (off : Off)
  | sts (c : Ctl) (w : Width) (swz : Fin 8) (d a : GReg) (off : Off)
  | gather (c : Ctl) (w : Width) (sc : Scope) (o : Order) (d a : GReg) (off : Off)
  | scatter (c : Ctl) (w : Width) (sc : Scope) (o : Order) (d a : GReg) (off : Off)
  | pref (c : Ctl) (sc : Scope) (a : GReg) (off : Off)
  | lda (c : Ctl) (w : Width) (d a : GReg) (off : Off)
  | atom (c : Ctl) (w : Width) (sc : Scope) (o : Order) (op : AtomOp) (signed acqrel : Bool) (d a cc : GReg) (off : Off)
  | red (c : Ctl) (sc : Scope) (o : Order) (ty : RType) (op : ROp) (d a : GReg) (off : Off)
  | fence (c : Ctl) (sc : Scope) (o : Order)
  | syncg (c : Ctl) (sc : Scope)
  | keyget (c : Ctl) (d a : GReg) (off : Off)
  | keypass (c : Ctl) (d a : GReg) (off : Off)
  | keydrop (c : Ctl) (a : GReg) (off : Off)
  | cwb (c : Ctl) (sc : Scope) (d a : GReg) (off : Off)
  | cinv (c : Ctl) (sc : Scope) (d a : GReg) (off : Off)
  | cdisc (c : Ctl) (d a : GReg) (off : Off)
  | carve (c : Ctl) (d a : GReg) (l1u scu : Byte)
  | cpstat (c : Ctl) (d a : GReg) (off : Off)
  | linit (c : Ctl) (d a : GReg) (off : Off)
  | arrive (c : Ctl) (d a : GReg) (off : Off)
  | arwait (c : Ctl) (a : GReg) (off : Off)
  | lwait (c : Ctl) (d a : GReg) (off : Off)
  | lexp (c : Ctl) (d a : GReg) (off : Off)
  | ltry (c : Ctl) (d : PReg) (a : GReg) (off : Off)
  -- matrix and neural (11, 12)
  | mma (c : Ctl) (k : KReg) (t : Slot) (a b : MSrc) (cc : GReg) (sa sb : GReg)
  | mmaSp (c : Ctl) (k : KReg) (t : Slot) (a b : MSrc) (cc : GReg) (sa sb md : GReg)
  | mmaCx (c : Ctl) (k : KReg) (t : Slot) (a b : MSrc) (cc : GReg) (sa sb : GReg)
  | tclr (c : Ctl) (bind : Bool) (t : Slot) (a b : GReg)
  | wmrd (c : Ctl) (t : Slot) (d : GReg)
  | twait (c : Ctl) (t : Slot) (a : GReg)
  | obst (c : Ctl) (o : ObReg) (a b : GReg)
  | neval (c : Ctl) (ty : Ty) (f16out : Bool) (outc inc : Fin 16) (d a b : GReg)
  | nhandleBind (c : Ctl) (d a : GReg)
  | nhandleRevoke (c : Ctl) (d a : GReg)
  -- records and traversal (14, 15)
  | trace (c : Ctl) (d a b : GReg)
  | traceE (c : Ctl) (d a b : GReg)
  | traceVis (c : Ctl) (d a b : GReg)
  | spawn (c : Ctl) (d a b : GReg)
  | spawnE (c : Ctl) (d a b : GReg)
  | post (c : Ctl) (d a b : GReg)
  | postE (c : Ctl) (d a b : GReg)
  | retire (c : Ctl)
  | rld (c : Ctl) (w : Width) (d : GReg) (off : Fin 128)
  | rst (c : Ctl) (w : Width) (d : GReg) (off : Fin 128)
  | hitattr (c : Ctl) (d : GReg)
  | accept (c : Ctl) (fin : Bool)
  | ignore (c : Ctl)
  | report (c : Ctl) (d : PReg) (a b : GReg) (kind : BitVec 7)
  -- device events
  | issueSlot (core : Nat)
  | clauseFetch (k : Nat)
  | loadSectorReturn (id sector : Nat) (fromL1 : Bool)
  | sfuResult (id : Nat)
  | divResult (id : Nat)
  | storeAccept (id : Nat)
  | storeHomePerform (id : Nat)
  | redHomeApply (id : Nat)
  | atomHomePerform (id : Nat)
  | deltaMerge (course word : Nat)
  | dieCacheEviction (line : Nat)
  | windowWriteback (entry : Nat)
  | prefFill (id : Nat)
  | keyRecall (id : Nat)
  | keypassComplete (id : Nat)
  | keydropComplete (id : Nat)
  | cacheOpPerform (id : Nat)
  | syncgComplete (seq gang : Nat)
  | monitorReadReturn (id : Nat)
  | monitorWriteWake (sid : Nat)
  | monitorTimeout (sid : Nat)
  | monitorOtherWake (sid : Nat)
  | mmaRoundEnqueue (course : Nat)
  | mmaRoundStart (course : Nat)
  | mmaRowApply (course : Nat)
  | mmaOperandReadDone (course : Nat)
  | tclrApply (id : Nat)
  | obstComplete (id : Nat)
  | nevalRequestArrival (id : Nat)
  | nevalEntryTimeout (course entry : Nat)
  | nevalTileStart (course : Nat)
  | nevalResultWrite (id : Nat)
  | nhandleRevokeComplete (id : Nat)
  | ringPublication (id : Nat)
  | copyEntryBegin (team ring : Nat)
  | copyEntryComplete (team ring : Nat)
  | bindingStore (id : Nat)
  | windowUnbindComplete (entry : Nat)
  | pageWalkComplete (course : Nat) (va : DWord)
  | doorbellSubmit (m : Doorbell)
  | doorbellEnable (m : Doorbell)
  | doorbellDisable (m : Doorbell)
  | doorbellAbort (m : Doorbell)
  | abortComplete (seq : Nat)
  | commandAccept (queue : Nat)
  | admissionTurn
  | gangSave (seq gang : Nat)
  | gangResume (seq gang : Nat)
  | teamCarveoutRelease (tid : Nat)
  | launchRetire (seq : Nat)
  | entryRecordCreate (seq : Nat)
  | waveTimeout (course bin : Nat)
  | wavePlace (course : Nat)
  | stalledTeamSave (course : Nat)
  | traversalHandover (course unit : Nat)
  | traversalStep (course unit : Nat) (extra : Byte)
  | brickFetchComplete (course brick : Nat)
  | faultRecordPost
  | faultAnswerRetry (frid : Nat)
  | faultAnswerSkip (frid : Nat)
  | faultAnswerTrap (frid : Nat)
  | faultRecordFree (frid : Nat)
  | faultRecordRestore (frid : Nat)
  | machineCheck (src : McSource)
  | avgerLinkLoss
  -- host operations
  | rdmaWrite (qpn : Nat) (rkey : Word) (va : DWord) (data : List Byte)
  | rdmaRead (qpn : Nat) (rkey : Word) (va : DWord) (len : Nat)
  | compareSwap (qpn : Nat) (rkey : Word) (va cmp new : DWord)
  | fetchAdd (qpn : Nat) (rkey : Word) (va v : DWord)
  | unsupportedPacket (qpn : Nat)
  -- management commands
  | hello (m : MgmtMsg)
  | settroot (m : MgmtMsg)
  | shootdown (m : MgmtMsg)
  | setpset (m : MgmtMsg)
  | setbrick (m : MgmtMsg)
  | setreg (m : MgmtMsg)
  | setregion (m : MgmtMsg)
  | stream (m : MgmtMsg)
  | attest (m : MgmtMsg)
  | readlife (m : MgmtMsg)
  | fwload (m : MgmtMsg)
  | courseFence (m : MgmtMsg)
  | reinstate (m : MgmtMsg)
  | retrainChannel (m : MgmtMsg)
  | retrainLink (m : MgmtMsg)
  | qpset (m : MgmtMsg)
  | provision (m : MgmtMsg)
  -- device, firmware and stream-engine events
  | deviceReset
  | portLinkUp
  | bootMessageRepeat
  | streamTrigger (id : Nat)
  | streamFrameStart (engine : Nat)
  | streamFrameDone (engine : Nat)
  | counterSnapshot
  | lifeRecordUpdate
  | thermalThrottle (degrees : Nat)
  | thermalPoweroff (degrees : Nat)
  | ethernetLaneRetrain (lane : Nat)
  | powerLoss
  deriving DecidableEq, Repr, Inhabited

/-- What the device or an agent outside the die does that the opcode table has no row for. -/
inductive DeviceMove where
  /-- an access of a unit misses its TLBs: it joins the walk of its page, or starts one (R351) -/
  | pageMiss (unit : Nat) (va : DWord)
  /-- a core takes over an entry of its course's TLB; an entry of a TLB or of the walk cache is replaced (R350) -/
  | coreFill (core : Nat) (va : DWord)
  | tlbReplace (k : Nat)
  | walkReplace (k : Nat)
  /-- a course replaces a line of its cache that is not pinned (Table 8.1) -/
  | courseEviction (course line : Nat)
  /-- a read of the peer die, and a write, a release or not, in this die's memory, at PAIR or SYS scope (R15) -/
  | peerRead (pa n : Nat)
  | peerWrite (pa : Nat) (data : List Byte) (release : Bool)
  /-- a correctable error is corrected: in a register, or in memory, of the item that the life record counts (R370, R379) -/
  | corrected (item : Nat)
  /-- a register of a strand becomes uncorrectable (R379) -/
  | registerError (sid : Nat) (reg : GReg)
  /-- the host refuses the payload, or the stamp, of a copy ring's oldest begun entry (R340) -/
  | hostRefusal (team ring : Nat) (stamp : Bool)
  /-- a management message whose OP and SUB name no command (R391) -/
  | unknownCommand (op sub : Byte) (m : MgmtMsg)
  deriving DecidableEq, Repr, Inhabited

/-- Which agent moves in a turn: the k-th issuing bundle issues its next word, an event happens, the device acts on its own account,
or the bytes of a SEND arrive on a queue pair, as a doorbell or a management command (Tables 13.3 and 20.5). -/
inductive Move where
  | word (k : Nat)
  | event (i : Instr)
  | device (d : DeviceMove)
  | send (qpn : Nat) (bytes : List Byte)
  deriving DecidableEq, Repr, Inhabited

/-- One turn of the machine: the core cycles that pass before it, the move, the virtual addresses at which its accesses walk although
a TLB holds the page (R352), and which words of a result that it returns it writes (R58). -/
structure Turn where
  cycles : Nat
  move : Move
  afresh : List Nat
  words : BitVec 64
  deriving DecidableEq, Repr, Inhabited

end Sys2Proof
end

