-- ==== Sys2Proof/WellFormed.lean ====
section
/-! DEFINITION. Which instruction words are well formed: the operand types, widths, scopes, orders, span
alignments and companion-word rules that each entry accepts (R40 to R50, Tables 4.1, 5.3, 5.8, 6.5, 7.3,
7.4, 8.3, 9.2 to 9.4, 10.1, 10.4, 11.6, 11.7, 12.4, 14.6, 15.7, 18.3). A word that is not well formed
raises ILLEGAL-ENCODING (R61). Device events are always well formed: they are not words. -/

namespace Sys2Proof

/-- A register operand that starts an aligned span of `n` (R41). -/
def al (n : Nat) (r : GReg) : Bool := r.val % n == 0

/-- A "g or pair" operand: an even pair for the 64-bit types (R86). -/
def gOrPair (ty : Ty) (r : GReg) : Bool :=
  match ty with
  | .i64 | .n64 | .f64 => al 2 r
  | _ => true

/-- The guard and mask are not the always-false `!p15` (R40, R48). -/
def Ctl.predsOk (c : Ctl) : Bool :=
  !(c.pred == 15 && c.pneg) &&
    match c.mask with
    | none => true
    | some m => !(m.pred == 15 && m.neg)

/-- Companion word forbidden (F of Table 4.1). -/
def Ctl.okF (c : Ctl) : Bool := c.predsOk && c.mask.isNone && c.xrnd.isNone

/-- Companion word permitted, carrying a mask and no rounding override. -/
def Ctl.okM (c : Ctl) : Bool := c.predsOk && c.xrnd.isNone

/-- Companion word required, carrying no rounding override. -/
def Ctl.okQ (c : Ctl) : Bool := c.predsOk && c.mask.isSome && c.xrnd.isNone

/-- Companion word permitted on a V3 word that takes the rounding modes `modes`: the word's own RND must be one of them, and so
must an override that replaces it (R42, R50; DEDUCED, log 39). -/
def Ctl.okV (c : Ctl) (rnd : Rnd) (modes : List Rnd) : Bool :=
  c.predsOk && (c.xrnd.isNone || c.mask.isSome) && modes.contains rnd && modes.contains (c.xrnd.getD rnd)

/-- As `okV`, for an opcode that requires the companion word. -/
def Ctl.okVQ (c : Ctl) (rnd : Rnd) (modes : List Rnd) : Bool := c.okV rnd modes && c.mask.isSome

/-- The mode a word rounds in: its companion's override, else its own (R50). -/
def Ctl.rnd (c : Ctl) (r : Rnd) : Rnd := c.xrnd.getD r

/-- All six rounding modes. -/
def Rnd.all : List Rnd := [.rn, .rz, .ru, .rd, .rna, .sr]

/-- A V3 word that does not round (R42). -/
def Ctl.ok1 (c : Ctl) : Bool := c.okV .rn [.rn]
/-- A V3 word that does not round and requires its companion. -/
def Ctl.ok1Q (c : Ctl) : Bool := c.okVQ .rn [.rn]

/-- No source modifier. -/
def Mods.none : Mods := ⟨false, false, false, false⟩
/-- Only source A is modified. -/
def Mods.onlyA (m : Mods) : Bool := !m.negB && !m.absB

def Ty.is32 (t : Ty) : Bool := [Ty.i32, .n32].contains t
def Ty.isInt (t : Ty) : Bool := [Ty.i32, .n32, .i64, .n64].contains t
def Ty.isN (t : Ty) : Bool := [Ty.n32, .n64].contains t
def Ty.isF (t : Ty) : Bool := [Ty.f32, .f64].contains t
def Ty.isH (t : Ty) : Bool := [Ty.f16, .bf16].contains t
/-- The floating types but E8M0. -/
def Ty.isFloat (t : Ty) : Bool :=
  [Ty.f64, .f32, .f16, .bf16, .f8e4, .f8e5, .f6e3, .f6e2, .f4].contains t
/-- The integer types CVT accepts: I8 to I64 and N8 to N64. -/
def Ty.isCvtInt (t : Ty) : Bool := [Ty.i8, .i16, .i32, .i64, .n8, .n16, .n32, .n64].contains t

/-- The number of F32 elements CVTPK and CVTX pack for a destination type (R133); 0 if not accepted. -/
def Ty.packCount : Ty → Nat
  | .f16 | .bf16 => 2
  | .f8e4 | .f8e5 | .f6e3 | .f6e2 => 4
  | .f4 => 8
  | _ => 0

/-- CVT's accepted pairs with their rounding modes and SAT (R132). -/
def cvtOk (dst src : Ty) (rnd : Rnd) (sat : Bool) : Bool :=
  if src.isFloat && dst.isFloat then true
  else if src.isFloat && dst.isCvtInt then !sat
  else if src.isCvtInt && dst.isFloat then true
  else if src == .f32 && dst == .e8m0 then (rnd == .ru || rnd == .rd) && !sat
  else if src == .e8m0 && dst == .f32 then rnd == .rn && !sat
  else false

/-- Registers a width covers (Table 3.7). -/
def Width.regs : Width → Nat
  | .n64 => 2
  | .n128 => 4
  | _ => 1

/-- Bytes of a width (Table 3.7). -/
def Width.bytes : Width → Nat
  | .n8 | .i8 => 1
  | .n16 | .i16 => 2
  | .n32 => 4
  | .n64 => 8
  | .n128 => 16

/-- The span of a width's data register (R174). -/
def Width.alOk (w : Width) (r : GReg) : Bool := al w.regs r

/-- Store widths: no signed codes (R174). -/
def Width.storeOk (w : Width) : Bool := w != .i8 && w != .i16

/-- ORDER 3 needs SCOPE TEAM and any order needs a scope (R45). -/
def ordScope (o : Order) (sc : Scope) : Bool :=
  match o with
  | .plain => true
  | .acqRemote => sc == .team
  | _ => sc != .plain

/-- Loads accept ORDER 0, 1, 3 (Table 8.3). -/
def loadOrd (o : Order) (sc : Scope) : Bool := o != .rel && ordScope o sc
/-- Stores accept ORDER 0, 2 (Table 8.3). -/
def storeOrd (o : Order) (sc : Scope) : Bool := (o == .plain || o == .rel) && ordScope o sc

/-- A register-sourced or descriptor-sourced MMA operand (Table 11.6). -/
def MSrc.ok : MSrc → Bool
  | .reg g => al 4 g
  | .mem g => al 2 g
  | .ob _ => true

/-- B of MMA.SP: kind 1, or kind 2 with an even buffer (Table 11.6). -/
def MSrc.okSpB : MSrc → Bool
  | .reg _ => false
  | .mem g => al 2 g
  | .ob o => o.val % 2 == 0

/-- The operation, type and SAT combinations of Table 7.5. -/
def redFnOk (ty : Ty) (fn : RedFn) (sat : Bool) : Bool :=
  match fn with
  | .add => [Ty.i32, .n32, .f32].contains ty && (!sat || ty.is32)
  | .min | .max => [Ty.i32, .n32, .f32].contains ty && !sat
  | _ => ty == .n32 && !sat

/-- Modes of the cross-lane forms: only F32 forms round, never stochastically (R151). -/
def xlnModes (ty : Ty) : List Rnd := if ty == .f32 then [.rn, .rz, .ru, .rd, .rna] else [.rn]

/-- Well-formedness of one instruction. -/
def Instr.wf : Instr → Bool
  | .bra c _ => c.okF
  | .brx c a => c.okF && al 2 a
  | .call c d _ => c.okF && al 2 d
  | .callx c d a => c.okF && al 2 d && al 2 a
  | .ret c a => c.okF && al 2 a
  | .exit c => c.okF
  | .yield c _ => c.okF
  | .mwait c w sc d a _ => c.okF && (w == .n32 || w == .n64) && sc != .plain && w.alOk d && al 2 a
  | .nop c => c.okF
  | .launch c _ a _ => c.okF && al 2 a
  | .qstatQ c _ _ => c.okF
  | .qstatLast c _ _ => c.okF
  | .qstatSeq c _ _ => c.okF
  | .trap c _ => c.okF
  | .brk c _ => c.okF
  | .eret c => c.okF
  | .mfc c _ _ => c.okF
  | .mtc c r _ => c.okF && [CReg.tveclo, .tvechi, .epclo, .epchi, .eclause].contains r
  | .add c ty sat d a b => c.ok1 && ty.isInt && (!sat || ty.is32) && gOrPair ty d && gOrPair ty a && gOrPair ty b
  | .sub c ty sat d a b => c.ok1 && ty.isInt && (!sat || ty.is32) && gOrPair ty d && gOrPair ty a && gOrPair ty b
  | .mul c ty _ _ _ => c.ok1 && ty.is32
  | .mulh c ty _ _ _ => c.ok1 && ty.is32
  | .mad c ty _ _ _ _ => c.ok1Q && ty.is32
  | .madl c ty d _ _ cc => c.ok1Q && ty.is32 && al 2 d && al 2 cc
  | .div c ty _ _ _ => c.ok1 && ty.is32
  | .rem c ty _ _ _ => c.ok1 && ty.is32
  | .min c ty d a b => c.ok1 && ty.isInt && gOrPair ty d && gOrPair ty a && gOrPair ty b
  | .max c ty d a b => c.ok1 && ty.isInt && gOrPair ty d && gOrPair ty a && gOrPair ty b
  | .abs c ty _ d a => c.ok1 && (ty == .i32 || ty == .i64) && gOrPair ty d && gOrPair ty a
  | .and c _ _ _ => c.ok1
  | .or c _ _ _ => c.ok1
  | .xor c _ _ _ => c.ok1
  | .andn c _ _ _ => c.ok1
  | .not c _ _ => c.ok1
  | .shl c ty d a _ => c.ok1 && ty.isN && gOrPair ty d && gOrPair ty a
  | .shr c ty d a _ => c.ok1 && ty.isN && gOrPair ty d && gOrPair ty a
  | .sar c ty d a _ => c.ok1 && (ty == .i32 || ty == .i64) && gOrPair ty d && gOrPair ty a
  | .rot c _ _ _ _ => c.ok1
  | .catsh c _ _ _ _ _ => c.ok1Q
  | .popc c _ _ => c.ok1
  | .clz c _ _ => c.ok1
  | .ctz c _ _ => c.ok1
  | .brev c _ _ => c.ok1
  | .fext c ty _ _ _ => c.ok1 && ty.is32
  | .fins c _ _ _ _ => c.ok1Q
  | .bsel c _ a _ => c.ok1 && al 2 a
  | .lea c ty d a _ _ => c.ok1 && ty.is32 && al 2 d && al 2 a
  | .sel c ty d a b _ _ => c.ok1 && ty.isN && gOrPair ty d && gOrPair ty a && gOrPair ty b
  | .mov c ty d a => c.ok1 && ty.isN && gOrPair ty d && gOrPair ty a
  | .cmp c ty _ _ _ a b => c.ok1 && ty.isInt && gOrPair ty a && gOrPair ty b
  | .pand c _ _ _ _ _ => c.ok1
  | .por c _ _ _ _ _ => c.ok1
  | .pxor c _ _ _ _ _ => c.ok1
  | .ptog c _ => c.ok1
  | .gtop c _ _ => c.ok1
  | .addImm c _ _ _ => c.okM
  | .subImm c _ _ _ => c.okM
  | .mulImm c _ _ _ => c.okM
  | .andImm c _ _ _ => c.okM
  | .orImm c _ _ _ => c.okM
  | .xorImm c _ _ _ => c.okM
  | .shlImm c _ _ _ => c.okM
  | .shrImm c _ _ _ => c.okM
  | .sarImm c _ _ _ => c.okM
  | .movi c _ _ => c.okM
  | .movh c _ _ _ => c.okM
  | .fadd c r _ _ _ _ _ => c.okV r Rnd.all
  | .fsub c r _ _ _ _ _ => c.okV r Rnd.all
  | .fmul c r _ _ _ _ _ => c.okV r Rnd.all
  | .ffma c r _ _ _ _ _ _ => c.okVQ r Rnd.all
  | .fmin c _ _ _ _ => c.ok1
  | .fmax c _ _ _ _ => c.ok1
  | .fcmp c _ _ _ _ _ _ => c.ok1
  | .fclass c ty _ _ a => c.ok1 && ty.isF && gOrPair ty a
  | .fscale c ty r m d a _ => c.okV r Rnd.all && ty.isF && m.onlyA && gOrPair ty d && gOrPair ty a
  | .frnd c ty r m d a => c.okV r [.rn, .rz, .ru, .rd, .rna] && ty.isF && m.onlyA && gOrPair ty d && gOrPair ty a
  | .ffrac c ty m d a => c.ok1 && ty.isF && m.onlyA && gOrPair ty d && gOrPair ty a
  | .frcp c m _ _ => c.ok1 && m.onlyA
  | .frsq c m _ _ => c.ok1 && m.onlyA
  | .fsqrt c r m _ _ => c.okV r [.rn, .rz, .ru, .rd] && m.onlyA
  | .fexp2 c m _ _ => c.ok1 && m.onlyA
  | .flog2 c m _ _ => c.ok1 && m.onlyA
  | .fsin c m _ _ => c.ok1 && m.onlyA
  | .fcos c m _ _ => c.ok1 && m.onlyA
  | .fdiv c r _ _ _ _ => c.okV r [.rn, .rz, .ru, .rd]
  | .dadd c r _ _ d a b => c.okV r Rnd.all && al 2 d && al 2 a && al 2 b
  | .dsub c r _ _ d a b => c.okV r Rnd.all && al 2 d && al 2 a && al 2 b
  | .dmul c r _ _ d a b => c.okV r Rnd.all && al 2 d && al 2 a && al 2 b
  | .dfma c r _ _ d a b cc => c.okVQ r Rnd.all && al 2 d && al 2 a && al 2 b && al 2 cc
  | .dmin c _ d a b => c.ok1 && al 2 d && al 2 a && al 2 b
  | .dmax c _ d a b => c.ok1 && al 2 d && al 2 a && al 2 b
  | .dcmp c _ _ _ _ a b => c.ok1 && al 2 a && al 2 b
  | .hadd2 c ty r _ _ _ _ _ => c.okV r Rnd.all && ty.isH
  | .hmul2 c ty r _ _ _ _ _ => c.okV r Rnd.all && ty.isH
  | .hfma2 c ty r _ _ _ _ _ _ => c.okVQ r Rnd.all && ty.isH
  | .hmin2 c ty _ _ _ _ => c.ok1 && ty.isH
  | .hmax2 c ty _ _ _ _ => c.ok1 && ty.isH
  | .cvt c dst src r sat d a =>
      c.okV r Rnd.all && cvtOk dst src r sat && cvtOk dst src (c.rnd r) sat && gOrPair dst d && gOrPair src a
  | .cvtpk c ty r _ _ a => c.okV r Rnd.all && ty.packCount != 0 && al ty.packCount a
  | .cvtx c ty r _ _ a _ fw => c.okV r Rnd.all && ty.packCount != 0 && al ty.packCount a && (fw.isNone || c.mask.isSome)
  | .amaxrd c _ => c.ok1
  | .amaxclr c _ => c.ok1
  | .rngseed c a _ => c.ok1 && al 2 a
  | .rngnext c ty d => c.ok1 && ty.isN && gOrPair ty d
  | .nzcnt c ty _ _ => c.ok1 && !([Ty.f64, .i64, .n64, .e8m0].contains ty)
  | .nzmask c ty _ _ => c.ok1 && !([Ty.f64, .i64, .n64, .e8m0].contains ty)
  | .mfs c _ _ => c.ok1
  | .mts c r _ => c.ok1 && [SpReg.maxabs, .rng0, .rng1, .rng2, .rng3].contains r
  | .movs c _ => c.ok1
  | .ksetCount c _ _ => c.okF
  | .ksetMask c _ a _ => c.okF && al 2 a
  | .ksetFree c _ => c.okF
  | .ksignAbstain c _ => c.okF
  | .ksignStat c _ _ => c.okF
  | .xlaneSel c ty d a _ => c.ok1 && ty.isN && gOrPair ty d && gOrPair ty a
  | .xlaneShift c ty d a _ => c.ok1 && ty.isN && gOrPair ty d && gOrPair ty a
  | .xlaneRot c ty d a _ => c.ok1 && ty.isN && gOrPair ty d && gOrPair ty a
  | .xlaneMirr c ty d a _ => c.ok1 && ty.isN && gOrPair ty d && gOrPair ty a
  | .shfx c _ a _ lg => c.ok1 && al (2 ^ lg.val) a
  | .vote c op _ _ => c.ok1 && (match op with | .ballot d => al 2 d | _ => true)
  | .laneMatch c ty _ d a _ => c.ok1 && ty.isN && al 2 d && gOrPair ty a
  | .conflict c ty d a _ => c.ok1 && ty.isN && al 2 d && gOrPair ty a
  | .compact c _ _ _ _ => c.ok1
  | .expand c _ _ _ _ => c.ok1
  | .breduce c ty r sat fn _ _ _ => c.okV r (xlnModes ty) && redFnOk ty fn sat
  | .bscan c ty r sat fn _ _ _ _ => c.okV r (xlnModes ty) && redFnOk ty fn sat
  | .bcast c ty d a _ => c.ok1 && ty.isN && gOrPair ty d && gOrPair ty a
  | .mergek c ty r sat _ _ d a _ _ =>
      c.okV r (xlnModes ty) && (ty == .i32 || ty == .f32) && (!sat || ty == .i32) && al 4 d && al 2 a
  | .ld c w sc o d a _ => c.okM && w.alOk d && al 2 a && loadOrd o sc
  | .st c w sc o d a _ => c.okM && w.storeOk && w.alOk d && al 2 a && storeOrd o sc
  | .lds c w _ d _ _ => c.okM && w.alOk d
  | .sts c w _ d _ _ => c.okM && w.storeOk && w.alOk d
  | .gather c w sc o d a _ => c.okM && w.alOk d && al 2 a && loadOrd o sc
  | .scatter c w sc o d a _ => c.okM && w.storeOk && w.alOk d && al 2 a && storeOrd o sc
  | .pref c sc a _ => c.okM && (sc == .team || sc == .course || sc == .die) && al 2 a
  | .lda c w d a _ => c.okM && (w == .n32 || w == .n64 || w == .n128) && w.alOk d && al 2 a
  | .atom c w sc o op signed acqrel d a cc _ =>
      c.okQ && (w == .n32 || w == .n64) && sc != .plain && ordScope o sc && w.alOk d && al 2 a &&
      (if op == .cas then al (2 * w.regs) cc else w.alOk cc) &&
      (!signed || op == .min || op == .max) && (!acqrel || o == .acq || o == .acqRemote) &&
      (op != .fadd || w == .n32)
  | .red c sc o ty _ d a _ =>
      c.okQ && sc != .plain && (o == .plain || o == .rel) && (if ty == .i64 then al 2 d else true) && al 2 a
  | .fence c sc o => c.okF && sc != .plain && ordScope o sc
  | .syncg c sc => c.okF && (sc == .die || sc == .pair)
  | .keyget c _ a _ => c.okM && al 2 a
  | .keypass c _ a _ => c.okM && al 2 a
  | .keydrop c a _ => c.okM && al 2 a
  | .cwb c sc _ a _ => c.okM && (sc == .die || sc == .sys) && al 2 a
  | .cinv c sc _ a _ => c.okM && (sc == .team || sc == .course) && al 2 a
  | .cdisc c _ a _ => c.okM && al 2 a
  | .carve c _ _ _ _ => c.okF
  | .cpstat c _ a _ => c.okM && al 2 a
  | .linit c d _ _ => c.okF && al 2 d
  | .arrive c _ _ _ => c.okF
  | .arwait c _ _ => c.okF
  | .lwait c _ _ _ => c.okF
  | .lexp c _ _ _ => c.okF
  | .ltry c _ _ _ => c.okF
  | .mma c _ _ a b _ _ _ => c.okQ && a.ok && b.ok
  | .mmaSp c _ _ a b _ _ _ m => c.okQ && a.ok && b.okSpB && al 4 m
  | .mmaCx c _ _ a b _ _ _ => c.okQ && a.ok && b.ok
  | .tclr c _ _ a b => c.okM && al 2 a && al 2 b
  | .wmrd c _ _ => c.okM
  | .twait c _ _ => c.okM
  | .obst c _ a _ => c.okM && al 4 a
  | .neval c ty _ _ inc d a _ =>
      c.okM && [Ty.f16, .bf16, .f8e4, .f8e5].contains ty && 3 ≤ inc.val && al 4 d && al 4 a
  | .nhandleBind c _ a => c.okM && al 2 a
  | .nhandleRevoke c _ _ => c.okM
  | .trace c d a _ => c.okM && al 4 d && al 8 a
  | .traceE c d a _ => c.okF && al 4 d && al 8 a
  | .traceVis c d a _ => c.okM && al 2 d && al 8 a
  | .spawn c d a _ => c.okM && al 4 d && al 8 a
  | .spawnE c d a _ => c.okF && al 4 d && al 8 a
  | .post c d a b => c.okM && al 4 d && al 2 a && al 2 b
  | .postE c d a b => c.okF && al 4 d && al 2 a && al 2 b
  | .retire c => c.okF
  | .rld c w d off => c.okM && (w == .n32 || w == .n64 || w == .n128) && w.alOk d && off.val % w.bytes == 0
  | .rst c w d off => c.okM && (w == .n32 || w == .n64 || w == .n128) && w.alOk d && off.val % w.bytes == 0
  | .hitattr c d => c.okM && al 8 d
  | .accept c _ => c.okM
  | .ignore c => c.okM
  | .report c _ _ b _ => c.okM && al 2 b
  | _ => true

end Sys2Proof
end

