-- ==== Sys2Proof/Decode.lean ====
section
/-! DEFINITION. Decoding and encoding of instruction words (R39 to R50, R61 to R64, Table 4.1).
A word is decoded by reading its fields into a candidate instruction and accepting the candidate only if it
is well formed and encodes back to the very same words, so no must-be-zero bit can pass unseen. -/

namespace Sys2Proof

/-! ### Field layouts -/

/-- The fields every leading word has (Table 3.3) with its 24 format-specific bits. -/
structure Lead where
  sw : Bool
  op : BitVec 10
  pred : BitVec 4
  pneg : Bool
  d : BitVec 8 := 0
  a : BitVec 8 := 0
  b : BitVec 8 := 0
  low : BitVec 24 := 0
  deriving DecidableEq, Repr

def Lead.toWord (f : Lead) : DWord :=
  BitVec.ofBool f.sw ++ f.op ++ f.pred ++ BitVec.ofBool f.pneg ++ f.d ++ f.a ++ f.b ++ f.low

def Lead.ofWord (w : DWord) : Lead where
  sw := w.getLsbD 63
  op := w.extractLsb' 53 10
  pred := w.extractLsb' 49 4
  pneg := w.getLsbD 48
  d := w.extractLsb' 40 8
  a := w.extractLsb' 32 8
  b := w.extractLsb' 24 8
  low := w.extractLsb' 0 24

/-- Bits 23:0 of a V3 word (Table 3.4). -/
structure V3 where
  ty : BitVec 5 := 0
  rnd : BitVec 3 := 0
  sat : Bool := false
  nega : Bool := false
  negb : Bool := false
  absa : Bool := false
  absb : Bool := false
  fn : BitVec 3 := 0
  aux : BitVec 8 := 0
  deriving DecidableEq, Repr

def V3.toBits (v : V3) : BitVec 24 :=
  v.ty ++ v.rnd ++ BitVec.ofBool v.sat ++ BitVec.ofBool v.nega ++ BitVec.ofBool v.negb ++
    BitVec.ofBool v.absa ++ BitVec.ofBool v.absb ++ v.fn ++ v.aux

def V3.ofBits (x : BitVec 24) : V3 where
  ty := x.extractLsb' 19 5
  rnd := x.extractLsb' 16 3
  sat := x.getLsbD 15
  nega := x.getLsbD 14
  negb := x.getLsbD 13
  absa := x.getLsbD 12
  absb := x.getLsbD 11
  fn := x.extractLsb' 8 3
  aux := x.extractLsb' 0 8

/-- Bits 31:24 of an M word (Table 3.6). -/
structure MB where
  width : BitVec 3 := 0
  scope : BitVec 3 := 0
  order : BitVec 2 := 0
  deriving DecidableEq, Repr

def MB.toBits (m : MB) : BitVec 8 := m.width ++ m.scope ++ m.order

def MB.ofBits (x : BitVec 8) : MB where
  width := x.extractLsb' 5 3
  scope := x.extractLsb' 2 3
  order := x.extractLsb' 0 2

/-- The companion word (Table 3.8) without its must-be-zero bits. -/
structure Comp where
  pred : BitVec 4
  neg : Bool
  c : BitVec 8 := 0
  xrnd : BitVec 3 := 0
  mz : Bool
  xaux : Word := 0
  deriving DecidableEq, Repr

/-- The OP of a companion word (R48). -/
def compOp : BitVec 10 := 0x3FF

def Comp.toWord (x : Comp) : DWord :=
  (0 : BitVec 1) ++ compOp ++ x.pred ++ BitVec.ofBool x.neg ++ x.c ++ x.xrnd ++ BitVec.ofBool x.mz ++
    (0 : BitVec 4) ++ x.xaux

def Comp.ofWord (w : DWord) : Comp where
  pred := w.extractLsb' 49 4
  neg := w.getLsbD 48
  c := w.extractLsb' 40 8
  xrnd := w.extractLsb' 37 3
  mz := w.getLsbD 36
  xaux := w.extractLsb' 0 32

/-! ### Codes -/

/-- Register fields. -/
def gBits (r : GReg) : BitVec 8 := ⟨r⟩
def gOf (x : BitVec 8) : GReg := x.toFin
def pBits4 (r : PReg) : BitVec 4 := ⟨r⟩
def pOf4 (x : BitVec 4) : PReg := x.toFin
/-- p, kg and slot numbers in an 8-bit field: bits 7:4 zero (R41). -/
def pBits (r : Fin 16) : BitVec 8 := (pBits4 r).setWidth 8
def pOf (x : BitVec 8) : Fin 16 := pOf4 (x.setWidth 4)
def sBits (r : SReg) : BitVec 8 := BitVec.ofNat 8 r.val
def sOf (x : BitVec 8) : SReg := (x.setWidth 6).toFin
def obBits (r : ObReg) : BitVec 8 := BitVec.ofNat 8 r.val
def obOf (x : BitVec 8) : ObReg := (x.setWidth 2).toFin

/-- Table 3.5. -/
def Ty.code : Ty → BitVec 5
  | .i32 => 0 | .n32 => 1 | .i64 => 2 | .n64 => 3 | .i16 => 4 | .n16 => 5 | .i8 => 6 | .n8 => 7
  | .i4 => 8 | .f32 => 9 | .f64 => 10 | .f16 => 11 | .bf16 => 12 | .f8e4 => 13 | .f8e5 => 14
  | .f6e3 => 15 | .f6e2 => 16 | .f4 => 17 | .e8m0 => 18

def Ty.ofCode (x : BitVec 5) : Option Ty :=
  match x.toNat with
  | 0 => some .i32 | 1 => some .n32 | 2 => some .i64 | 3 => some .n64 | 4 => some .i16
  | 5 => some .n16 | 6 => some .i8 | 7 => some .n8 | 8 => some .i4 | 9 => some .f32
  | 10 => some .f64 | 11 => some .f16 | 12 => some .bf16 | 13 => some .f8e4 | 14 => some .f8e5
  | 15 => some .f6e3 | 16 => some .f6e2 | 17 => some .f4 | 18 => some .e8m0
  | _ => none

def Rnd.code : Rnd → BitVec 3
  | .rn => 0 | .rz => 1 | .ru => 2 | .rd => 3 | .rna => 4 | .sr => 5

def Rnd.ofCode (x : BitVec 3) : Option Rnd :=
  match x.toNat with
  | 0 => some .rn | 1 => some .rz | 2 => some .ru | 3 => some .rd | 4 => some .rna | 5 => some .sr
  | _ => none

/-- XRND of Table 3.8: 0 is no override. -/
def xrndCode : Option Rnd → BitVec 3
  | none => 0 | some .rn => 1 | some .rz => 2 | some .ru => 3 | some .rd => 4 | some .rna => 5
  | some .sr => 6

def xrndOf (x : BitVec 3) : Option (Option Rnd) :=
  match x.toNat with
  | 0 => some none | 1 => some (some .rn) | 2 => some (some .rz) | 3 => some (some .ru)
  | 4 => some (some .rd) | 5 => some (some .rna) | 6 => some (some .sr) | _ => none

/-- Table 3.7. -/
def Width.code : Width → BitVec 3
  | .n8 => 0 | .i8 => 1 | .n16 => 2 | .i16 => 3 | .n32 => 4 | .n64 => 5 | .n128 => 6

def Width.ofCode (x : BitVec 3) : Option Width :=
  match x.toNat with
  | 0 => some .n8 | 1 => some .i8 | 2 => some .n16 | 3 => some .i16 | 4 => some .n32 | 5 => some .n64
  | 6 => some .n128 | _ => none

def Scope.code : Scope → BitVec 3
  | .plain => 0 | .team => 1 | .course => 2 | .die => 3 | .pair => 4 | .sys => 5

def Scope.ofCode (x : BitVec 3) : Option Scope :=
  match x.toNat with
  | 0 => some .plain | 1 => some .team | 2 => some .course | 3 => some .die | 4 => some .pair
  | 5 => some .sys | _ => none

def Order.code : Order → BitVec 2
  | .plain => 0 | .acq => 1 | .rel => 2 | .acqRemote => 3

def Order.ofCode (x : BitVec 2) : Order :=
  match x.toNat with
  | 0 => .plain | 1 => .acq | 2 => .rel | _ => .acqRemote

/-- Table 5.5. -/
def CmpFn.code : CmpFn → BitVec 3
  | .eq => 0 | .ne => 1 | .lt => 2 | .le => 3 | .gt => 4 | .ge => 5

def CmpFn.ofCode (x : BitVec 3) : Option CmpFn :=
  match x.toNat with
  | 0 => some .eq | 1 => some .ne | 2 => some .lt | 3 => some .le | 4 => some .gt | 5 => some .ge
  | _ => none

/-- Table 6.6. -/
def FCmpFn.code : FCmpFn → BitVec 3
  | .eq => 0 | .ne => 1 | .lt => 2 | .le => 3 | .gt => 4 | .ge => 5 | .num => 6 | .nan => 7

def FCmpFn.ofCode (x : BitVec 3) : FCmpFn :=
  match x.toNat with
  | 0 => .eq | 1 => .ne | 2 => .lt | 3 => .le | 4 => .gt | 5 => .ge | 6 => .num | _ => .nan

/-- AUX of a compare (R93): bits 5:4 combine, 3:0 predicate. -/
def Comb.code : Comb → BitVec 8
  | .none => 0
  | .and q => (1 : BitVec 4) ++ pBits4 q
  | .or q => (2 : BitVec 4) ++ pBits4 q
  | .xor q => (3 : BitVec 4) ++ pBits4 q

def Comb.ofCode (x : BitVec 8) : Option Comb :=
  let q := pOf x
  match (x.extractLsb' 4 4).toNat with
  | 0 => some .none | 1 => some (.and q) | 2 => some (.or q) | 3 => some (.xor q) | _ => Option.none

/-- Table 7.5. -/
def RedFn.code : RedFn → BitVec 3
  | .add => 0 | .min => 1 | .max => 2 | .and => 3 | .or => 4 | .xor => 5

def RedFn.ofCode (x : BitVec 3) : Option RedFn :=
  match x.toNat with
  | 0 => some .add | 1 => some .min | 2 => some .max | 3 => some .and | 4 => some .or | 5 => some .xor
  | _ => none

/-- Segment mode and head predicate, AUX bits 5:0 (R157). -/
def Seg.code : Seg → BitVec 6
  | .whole => 0
  | .head q => (1 : BitVec 2) ++ pBits4 q
  | .key _ => 0x20

def Seg.keyBits : Seg → BitVec 8
  | .key b => gBits b
  | _ => 0

def Seg.ofCode (x : BitVec 6) (b : BitVec 8) : Option Seg :=
  match (x.extractLsb' 4 2).toNat with
  | 0 => some .whole | 1 => some (.head (pOf4 (x.setWidth 4))) | 2 => some (.key (gOf b)) | _ => none

/-- Table 9.3. -/
def AtomOp.code : AtomOp → BitVec 4
  | .exch => 0 | .cas => 1 | .add => 2 | .and => 3 | .or => 4 | .xor => 5 | .min => 6 | .max => 7
  | .inc => 8 | .dec => 9 | .fadd => 10

def AtomOp.ofCode (x : BitVec 4) : Option AtomOp :=
  match x.toNat with
  | 0 => some .exch | 1 => some .cas | 2 => some .add | 3 => some .and | 4 => some .or | 5 => some .xor
  | 6 => some .min | 7 => some .max | 8 => some .inc | 9 => some .dec | 10 => some .fadd | _ => none

/-- Table 9.4. -/
def RType.code : RType → BitVec 3
  | .f32 => 0 | .f16 => 1 | .bf16 => 2 | .i32 => 3 | .n32 => 4 | .i64 => 5

def RType.ofCode (x : BitVec 3) : Option RType :=
  match x.toNat with
  | 0 => some .f32 | 1 => some .f16 | 2 => some .bf16 | 3 => some .i32 | 4 => some .n32 | 5 => some .i64
  | _ => none

/-- The WIDTH a RED type takes (R199). -/
def RType.width : RType → Width
  | .i64 => .n64
  | _ => .n32

def ROp.code : ROp → BitVec 2
  | .add => 0 | .min => 1 | .max => 2

def ROp.ofCode (x : BitVec 2) : Option ROp :=
  match x.toNat with
  | 0 => some .add | 1 => some .min | 2 => some .max | _ => none

/-- Table 5.2. -/
def SpReg.code : SpReg → BitVec 8
  | .strandid => 0 | .teamid => 1 | .gangid => 2 | .lanepos => 3 | .width => 4 | .launchid => 5
  | .coreid => 6 | .courseid => 7 | .dieid => 8 | .maxabs => 9 | .rng0 => 10 | .rng1 => 11
  | .rng2 => 12 | .rng3 => 13 | .ctrs => 14 | .clklo => 15 | .clkhi => 16

def SpReg.ofCode (x : BitVec 8) : Option SpReg :=
  match x.toNat with
  | 0 => some .strandid | 1 => some .teamid | 2 => some .gangid | 3 => some .lanepos | 4 => some .width
  | 5 => some .launchid | 6 => some .coreid | 7 => some .courseid | 8 => some .dieid | 9 => some .maxabs
  | 10 => some .rng0 | 11 => some .rng1 | 12 => some .rng2 | 13 => some .rng3 | 14 => some .ctrs
  | 15 => some .clklo | 16 => some .clkhi | _ => none

/-- Table 19.2. -/
def CReg.code : CReg → BitVec 8
  | .tveclo => 0 | .tvechi => 1 | .epclo => 2 | .epchi => 3 | .ecause => 4 | .evalo => 5 | .evahi => 6
  | .eclause => 7 | .edifflo => 8 | .ediffhi => 9 | .efrid => 10

def CReg.ofCode (x : BitVec 8) : Option CReg :=
  match x.toNat with
  | 0 => some .tveclo | 1 => some .tvechi | 2 => some .epclo | 3 => some .epchi | 4 => some .ecause
  | 5 => some .evalo | 6 => some .evahi | 7 => some .eclause | 8 => some .edifflo | 9 => some .ediffhi
  | 10 => some .efrid | _ => none

/-- MMA operand kinds (Table 11.6). -/
def MSrc.kind : MSrc → BitVec 2
  | .reg _ => 0 | .mem _ => 1 | .ob _ => 2

def MSrc.bits : MSrc → BitVec 8
  | .reg g => gBits g | .mem g => gBits g | .ob o => obBits o

def MSrc.ofCode (k : BitVec 2) (x : BitVec 8) : Option MSrc :=
  match k.toNat with
  | 0 => some (.reg (gOf x)) | 1 => some (.mem (gOf x)) | 2 => some (.ob (obOf x)) | _ => none

/-! ### Encoding -/

/-- A leading word's common fields. -/
def Ctl.lead (c : Ctl) (op : BitVec 10) : Lead :=
  { sw := c.sw, op := op, pred := pBits4 c.pred, pneg := c.pneg }

/-- The words of an instruction: the leading word, and its companion if it has a mask. -/
def Ctl.words (c : Ctl) (f : Lead) (cc : BitVec 8 := 0) (xaux : Word := 0) : List DWord :=
  match c.mask with
  | none => [f.toWord]
  | some m =>
    [f.toWord,
      Comp.toWord { pred := pBits4 m.pred, neg := m.neg, c := cc, xrnd := xrndCode c.xrnd, mz := m.zero, xaux := xaux }]

/-- A V3 instruction. -/
def encV3 (c : Ctl) (op : BitVec 10) (d a b : BitVec 8) (v : V3) (cc : BitVec 8 := 0) (xaux : Word := 0) :
    List DWord :=
  c.words { c.lead op with d := d, a := a, b := b, low := v.toBits } cc xaux

/-- A VI instruction. -/
def encVI (c : Ctl) (op : BitVec 10) (d a : BitVec 8) (imm : Word) : List DWord :=
  c.words { c.lead op with d := d, a := a, b := imm.extractLsb' 24 8, low := imm.extractLsb' 0 24 }

/-- An M instruction. -/
def encM (c : Ctl) (op : BitVec 10) (d a : BitVec 8) (m : MB) (off : BitVec 24) (cc : BitVec 8 := 0)
    (xaux : Word := 0) : List DWord :=
  c.words { c.lead op with d := d, a := a, b := m.toBits, low := off } cc xaux

/-- A BR instruction. -/
def encBR (c : Ctl) (op : BitVec 10) (d a : BitVec 8) (off : BitVec 24) : List DWord :=
  c.words { c.lead op with d := d, a := a, low := off }

/-- The modifier bits of a V3 word. -/
def V3.withMods (v : V3) (m : Mods) : V3 :=
  { v with nega := m.negA, negb := m.negB, absa := m.absA, absb := m.absB }

/-- AUX of a predicate with an invert bit (SEL, COMPACT, EXPAND, MERGEK). -/
def predAux (q : PReg) (inv : Bool) : BitVec 8 := (0 : BitVec 3) ++ BitVec.ofBool inv ++ pBits4 q

/-- AUX of BREDUCE and BSCAN. -/
def segAux (sg : Seg) (excl : Bool) : BitVec 8 := (0 : BitVec 1) ++ BitVec.ofBool excl ++ sg.code

/-- FN of a 1-bit selector. -/
def fn1 (b : Bool) : BitVec 3 := (BitVec.ofBool b).setWidth 3

/-- B, FN bit 0 and AUX of an XLANE selector. -/
def LaneSel.b : LaneSel → BitVec 8
  | .reg b => gBits b
  | .imm _ => 0
def LaneSel.isImm : LaneSel → Bool
  | .reg _ => false
  | .imm _ => true
def LaneSel.aux : LaneSel → BitVec 8
  | .reg _ => 0
  | .imm v => v.setWidth 8

def VoteOp.fn : VoteOp → BitVec 3
  | .all _ => 0 | .any _ => 1 | .uni _ => 2 | .ballot _ => 3
def VoteOp.d : VoteOp → BitVec 8
  | .all d => pBits d | .any d => pBits d | .uni d => pBits d | .ballot d => gBits d

/-- XAUX of ATOM (Table 9.3). -/
def atomXaux (op : AtomOp) (signed acqrel : Bool) : Word :=
  (0 : BitVec 23) ++ BitVec.ofBool acqrel ++ (0 : BitVec 3) ++ BitVec.ofBool signed ++ op.code

/-- XAUX of RED (Table 9.4). -/
def redXaux (ty : RType) (op : ROp) : Word := (0 : BitVec 25) ++ ty.code ++ (0 : BitVec 2) ++ op.code

/-- XAUX of the MMA forms (Table 11.6). -/
def mmaXaux (md sb sa : BitVec 8) : Word := (0 : BitVec 8) ++ md ++ sb ++ sa

/-- Fields of the three MMA forms. -/
def encMma (c : Ctl) (op : BitVec 10) (k : KReg) (t : Slot) (a b : MSrc) (cc : GReg) (xaux : Word) : List DWord :=
  encV3 c op (pBits k) a.bits b.bits
    { fn := a.kind.setWidth 3, aux := pBits4 t ++ (0 : BitVec 2) ++ b.kind } (gBits cc) xaux

/-- The words of a well-formed instruction; a device event has none. -/
def encode : Instr → List DWord
  | .bra c off => encBR c 0x001 0 0 off
  | .brx c a => encBR c 0x002 0 (gBits a) 0
  | .call c d off => encBR c 0x003 (gBits d) 0 off
  | .callx c d a => encBR c 0x004 (gBits d) (gBits a) 0
  | .ret c a => encBR c 0x005 0 (gBits a) 0
  | .exit c => encBR c 0x006 0 0 0
  | .yield c off => encBR c 0x007 0 0 off
  | .mwait c w sc d a off => encM c 0x008 (gBits d) (gBits a) { width := w.code, scope := sc.code } off
  | .nop c => encBR c 0x009 0 0 0
  | .launch c d a off => encM c 0x010 (gBits d) (gBits a) {} off
  | .qstatQ c d a => encV3 c 0x011 (gBits d) (gBits a) 0 { ty := 1 }
  | .qstatLast c d a => encV3 c 0x011 (gBits d) (gBits a) 0 { ty := 1, fn := 1 }
  | .qstatSeq c d a => encV3 c 0x011 (gBits d) (gBits a) 0 { ty := 1, fn := 2 }
  | .trap c code => encVI c 0x018 0 0 (code.setWidth 32)
  | .brk c code => encVI c 0x019 0 0 (code.setWidth 32)
  | .eret c => encBR c 0x01A 0 0 0
  | .mfc c d r => encV3 c 0x01B (gBits d) 0 0 { ty := 1, aux := r.code }
  | .mtc c r a => encV3 c 0x01C 0 (gBits a) 0 { ty := 1, aux := r.code }
  | .add c ty sat d a b => encV3 c 0x040 (gBits d) (gBits a) (gBits b) { ty := ty.code, sat := sat }
  | .sub c ty sat d a b => encV3 c 0x041 (gBits d) (gBits a) (gBits b) { ty := ty.code, sat := sat }
  | .mul c ty d a b => encV3 c 0x042 (gBits d) (gBits a) (gBits b) { ty := ty.code }
  | .mulh c ty d a b => encV3 c 0x043 (gBits d) (gBits a) (gBits b) { ty := ty.code }
  | .mad c ty d a b cc => encV3 c 0x044 (gBits d) (gBits a) (gBits b) { ty := ty.code } (gBits cc)
  | .madl c ty d a b cc => encV3 c 0x045 (gBits d) (gBits a) (gBits b) { ty := ty.code } (gBits cc)
  | .div c ty d a b => encV3 c 0x046 (gBits d) (gBits a) (gBits b) { ty := ty.code }
  | .rem c ty d a b => encV3 c 0x047 (gBits d) (gBits a) (gBits b) { ty := ty.code }
  | .min c ty d a b => encV3 c 0x048 (gBits d) (gBits a) (gBits b) { ty := ty.code }
  | .max c ty d a b => encV3 c 0x049 (gBits d) (gBits a) (gBits b) { ty := ty.code }
  | .abs c ty sat d a => encV3 c 0x04A (gBits d) (gBits a) 0 { ty := ty.code, sat := sat }
  | .and c d a b => encV3 c 0x04B (gBits d) (gBits a) (gBits b) { ty := 1 }
  | .or c d a b => encV3 c 0x04C (gBits d) (gBits a) (gBits b) { ty := 1 }
  | .xor c d a b => encV3 c 0x04D (gBits d) (gBits a) (gBits b) { ty := 1 }
  | .andn c d a b => encV3 c 0x04E (gBits d) (gBits a) (gBits b) { ty := 1 }
  | .not c d a => encV3 c 0x04F (gBits d) (gBits a) 0 { ty := 1 }
  | .shl c ty d a b => encV3 c 0x050 (gBits d) (gBits a) (gBits b) { ty := ty.code }
  | .shr c ty d a b => encV3 c 0x051 (gBits d) (gBits a) (gBits b) { ty := ty.code }
  | .sar c ty d a b => encV3 c 0x052 (gBits d) (gBits a) (gBits b) { ty := ty.code }
  | .rot c right d a b => encV3 c 0x053 (gBits d) (gBits a) (gBits b) { ty := 1, fn := fn1 right }
  | .catsh c left d a b cc => encV3 c 0x054 (gBits d) (gBits a) (gBits b) { ty := 1, fn := fn1 left } (gBits cc)
  | .popc c d a => encV3 c 0x055 (gBits d) (gBits a) 0 { ty := 1 }
  | .clz c d a => encV3 c 0x056 (gBits d) (gBits a) 0 { ty := 1 }
  | .ctz c d a => encV3 c 0x057 (gBits d) (gBits a) 0 { ty := 1 }
  | .brev c d a => encV3 c 0x058 (gBits d) (gBits a) 0 { ty := 1 }
  | .fext c ty d a b => encV3 c 0x059 (gBits d) (gBits a) (gBits b) { ty := ty.code }
  | .fins c d a b cc => encV3 c 0x05A (gBits d) (gBits a) (gBits b) { ty := 1 } (gBits cc)
  | .bsel c d a b => encV3 c 0x05B (gBits d) (gBits a) (gBits b) { ty := 1 }
  | .lea c ty d a b sh => encV3 c 0x05C (gBits d) (gBits a) (gBits b) { ty := ty.code, aux := BitVec.ofNat 8 sh.val }
  | .sel c ty d a b q inv => encV3 c 0x05D (gBits d) (gBits a) (gBits b) { ty := ty.code, aux := predAux q inv }
  | .mov c ty d a => encV3 c 0x05E (gBits d) (gBits a) 0 { ty := ty.code }
  | .cmp c ty fn k d a b => encV3 c 0x05F (pBits d) (gBits a) (gBits b) { ty := ty.code, fn := fn.code, aux := k.code }
  | .pand c na nb d a b => encV3 c 0x060 (pBits d) (pBits a) (pBits b) { ty := 1, nega := na, negb := nb }
  | .por c na nb d a b => encV3 c 0x061 (pBits d) (pBits a) (pBits b) { ty := 1, nega := na, negb := nb }
  | .pxor c na nb d a b => encV3 c 0x062 (pBits d) (pBits a) (pBits b) { ty := 1, nega := na, negb := nb }
  | .ptog c d => encV3 c 0x063 (gBits d) 0 0 { ty := 1 }
  | .gtop c a b => encV3 c 0x064 0 (gBits a) (gBits b) { ty := 1 }
  | .addImm c d a imm => encVI c 0x070 (gBits d) (gBits a) imm
  | .subImm c d a imm => encVI c 0x071 (gBits d) (gBits a) imm
  | .mulImm c d a imm => encVI c 0x072 (gBits d) (gBits a) imm
  | .andImm c d a imm => encVI c 0x073 (gBits d) (gBits a) imm
  | .orImm c d a imm => encVI c 0x074 (gBits d) (gBits a) imm
  | .xorImm c d a imm => encVI c 0x075 (gBits d) (gBits a) imm
  | .shlImm c d a imm => encVI c 0x076 (gBits d) (gBits a) imm
  | .shrImm c d a imm => encVI c 0x077 (gBits d) (gBits a) imm
  | .sarImm c d a imm => encVI c 0x078 (gBits d) (gBits a) imm
  | .movi c d imm => encVI c 0x07E (gBits d) 0 imm
  | .movh c d a imm => encVI c 0x07F (gBits d) (gBits a) (imm.setWidth 32)
  | .fadd c r sat m d a b => encV3 c 0x0C0 (gBits d) (gBits a) (gBits b) (V3.withMods { ty := 9, rnd := r.code, sat := sat } m)
  | .fsub c r sat m d a b => encV3 c 0x0C1 (gBits d) (gBits a) (gBits b) (V3.withMods { ty := 9, rnd := r.code, sat := sat } m)
  | .fmul c r sat m d a b => encV3 c 0x0C2 (gBits d) (gBits a) (gBits b) (V3.withMods { ty := 9, rnd := r.code, sat := sat } m)
  | .ffma c r sat m d a b cc =>
      encV3 c 0x0C3 (gBits d) (gBits a) (gBits b) (V3.withMods { ty := 9, rnd := r.code, sat := sat } m) (gBits cc)
  | .fmin c m d a b => encV3 c 0x0C4 (gBits d) (gBits a) (gBits b) (V3.withMods { ty := 9 } m)
  | .fmax c m d a b => encV3 c 0x0C5 (gBits d) (gBits a) (gBits b) (V3.withMods { ty := 9 } m)
  | .fcmp c m fn k d a b =>
      encV3 c 0x0C6 (pBits d) (gBits a) (gBits b) (V3.withMods { ty := 9, fn := fn.code, aux := k.code } m)
  | .fclass c ty mask d a =>
      encV3 c 0x0C7 (pBits d) (gBits a) 0
        { ty := ty.code, fn := (mask.extractLsb' 8 2).setWidth 3, aux := mask.setWidth 8 }
  | .fscale c ty r m d a b => encV3 c 0x0C8 (gBits d) (gBits a) (gBits b) (V3.withMods { ty := ty.code, rnd := r.code } m)
  | .frnd c ty r m d a => encV3 c 0x0C9 (gBits d) (gBits a) 0 (V3.withMods { ty := ty.code, rnd := r.code } m)
  | .ffrac c ty m d a => encV3 c 0x0CA (gBits d) (gBits a) 0 (V3.withMods { ty := ty.code } m)
  | .frcp c m d a => encV3 c 0x0CB (gBits d) (gBits a) 0 (V3.withMods { ty := 9 } m)
  | .frsq c m d a => encV3 c 0x0CC (gBits d) (gBits a) 0 (V3.withMods { ty := 9 } m)
  | .fsqrt c r m d a => encV3 c 0x0CD (gBits d) (gBits a) 0 (V3.withMods { ty := 9, rnd := r.code } m)
  | .fexp2 c m d a => encV3 c 0x0CE (gBits d) (gBits a) 0 (V3.withMods { ty := 9 } m)
  | .flog2 c m d a => encV3 c 0x0CF (gBits d) (gBits a) 0 (V3.withMods { ty := 9 } m)
  | .fsin c m d a => encV3 c 0x0D0 (gBits d) (gBits a) 0 (V3.withMods { ty := 9 } m)
  | .fcos c m d a => encV3 c 0x0D1 (gBits d) (gBits a) 0 (V3.withMods { ty := 9 } m)
  | .fdiv c r m d a b => encV3 c 0x0D2 (gBits d) (gBits a) (gBits b) (V3.withMods { ty := 9, rnd := r.code } m)
  | .dadd c r sat m d a b => encV3 c 0x0D8 (gBits d) (gBits a) (gBits b) (V3.withMods { ty := 10, rnd := r.code, sat := sat } m)
  | .dsub c r sat m d a b => encV3 c 0x0D9 (gBits d) (gBits a) (gBits b) (V3.withMods { ty := 10, rnd := r.code, sat := sat } m)
  | .dmul c r sat m d a b => encV3 c 0x0DA (gBits d) (gBits a) (gBits b) (V3.withMods { ty := 10, rnd := r.code, sat := sat } m)
  | .dfma c r sat m d a b cc =>
      encV3 c 0x0DB (gBits d) (gBits a) (gBits b) (V3.withMods { ty := 10, rnd := r.code, sat := sat } m) (gBits cc)
  | .dmin c m d a b => encV3 c 0x0DC (gBits d) (gBits a) (gBits b) (V3.withMods { ty := 10 } m)
  | .dmax c m d a b => encV3 c 0x0DD (gBits d) (gBits a) (gBits b) (V3.withMods { ty := 10 } m)
  | .dcmp c m fn k d a b =>
      encV3 c 0x0DE (pBits d) (gBits a) (gBits b) (V3.withMods { ty := 10, fn := fn.code, aux := k.code } m)
  | .hadd2 c ty r sat m d a b =>
      encV3 c 0x0E0 (gBits d) (gBits a) (gBits b) (V3.withMods { ty := ty.code, rnd := r.code, sat := sat } m)
  | .hmul2 c ty r sat m d a b =>
      encV3 c 0x0E1 (gBits d) (gBits a) (gBits b) (V3.withMods { ty := ty.code, rnd := r.code, sat := sat } m)
  | .hfma2 c ty r sat m d a b cc =>
      encV3 c 0x0E2 (gBits d) (gBits a) (gBits b) (V3.withMods { ty := ty.code, rnd := r.code, sat := sat } m) (gBits cc)
  | .hmin2 c ty m d a b => encV3 c 0x0E3 (gBits d) (gBits a) (gBits b) (V3.withMods { ty := ty.code } m)
  | .hmax2 c ty m d a b => encV3 c 0x0E4 (gBits d) (gBits a) (gBits b) (V3.withMods { ty := ty.code } m)
  | .cvt c dst src r sat d a =>
      encV3 c 0x100 (gBits d) (gBits a) 0 { ty := dst.code, rnd := r.code, sat := sat, aux := src.code.setWidth 8 }
  | .cvtpk c ty r sat d a => encV3 c 0x101 (gBits d) (gBits a) 0 { ty := ty.code, rnd := r.code, sat := sat, aux := 9 }
  | .cvtx c ty r sat d a b fw =>
      encV3 c 0x102 (gBits d) (gBits a) (gBits b) { ty := ty.code, rnd := r.code, sat := sat, aux := 9 }
        (match fw with | some g => gBits g | none => 0) (match fw with | some _ => 1 | none => 0)
  | .amaxrd c d => encV3 c 0x103 (gBits d) 0 0 { ty := 1 }
  | .amaxclr c d => encV3 c 0x104 (gBits d) 0 0 { ty := 1 }
  | .rngseed c a b => encV3 c 0x105 0 (gBits a) (gBits b) { ty := 1 }
  | .rngnext c ty d => encV3 c 0x106 (gBits d) 0 0 { ty := ty.code }
  | .nzcnt c ty d a => encV3 c 0x107 (gBits d) (gBits a) 0 { ty := ty.code }
  | .nzmask c ty d a => encV3 c 0x108 (gBits d) (gBits a) 0 { ty := ty.code }
  | .mfs c d r => encV3 c 0x110 (gBits d) 0 0 { ty := 1, aux := r.code }
  | .mts c r a => encV3 c 0x111 0 (gBits a) 0 { ty := 1, aux := r.code }
  | .movs c (.read d s) => encV3 c 0x112 (gBits d) (sBits s) 0 { ty := 1 }
  | .movs c (.write s a) => encV3 c 0x112 (sBits s) (gBits a) 0 { ty := 1, fn := 1 }
  | .ksetCount c k a => encV3 c 0x113 (pBits k) (gBits a) 0 { ty := 1 }
  | .ksetMask c k a b => encV3 c 0x113 (pBits k) (gBits a) (gBits b) { ty := 1, fn := 1 }
  | .ksetFree c k => encV3 c 0x113 (pBits k) 0 0 { ty := 1, fn := 2 }
  | .ksignAbstain c k => encV3 c 0x114 0 (pBits k) 0 { ty := 1 }
  | .ksignStat c d k => encV3 c 0x114 (gBits d) (pBits k) 0 { ty := 1, fn := 1 }
  | .xlaneSel c ty d a s => encV3 c 0x140 (gBits d) (gBits a) s.b { ty := ty.code, fn := fn1 s.isImm, aux := s.aux }
  | .xlaneShift c ty d a s => encV3 c 0x141 (gBits d) (gBits a) s.b { ty := ty.code, fn := fn1 s.isImm, aux := s.aux }
  | .xlaneRot c ty d a s => encV3 c 0x142 (gBits d) (gBits a) s.b { ty := ty.code, fn := fn1 s.isImm, aux := s.aux }
  | .xlaneMirr c ty d a s => encV3 c 0x143 (gBits d) (gBits a) s.b { ty := ty.code, fn := fn1 s.isImm, aux := s.aux }
  | .shfx c d a b lg => encV3 c 0x144 (gBits d) (gBits a) (gBits b) { ty := 1, aux := BitVec.ofNat 8 lg.val }
  | .vote c op neg a => encV3 c 0x145 op.d (pBits a) 0 { ty := 1, nega := neg, fn := op.fn }
  | .laneMatch c ty all d a q => encV3 c 0x146 (gBits d) (gBits a) 0 { ty := ty.code, fn := fn1 all, aux := pBits q }
  | .conflict c ty d a q => encV3 c 0x147 (gBits d) (gBits a) 0 { ty := ty.code, aux := pBits q }
  | .compact c d a q inv => encV3 c 0x148 (gBits d) (gBits a) 0 { ty := 1, aux := predAux q inv }
  | .expand c d a q inv => encV3 c 0x149 (gBits d) (gBits a) 0 { ty := 1, aux := predAux q inv }
  | .breduce c ty r sat fn sg d a =>
      encV3 c 0x14A (gBits d) (gBits a) sg.keyBits { ty := ty.code, rnd := r.code, sat := sat, fn := fn.code, aux := segAux sg false }
  | .bscan c ty r sat fn sg excl d a =>
      encV3 c 0x14B (gBits d) (gBits a) sg.keyBits { ty := ty.code, rnd := r.code, sat := sat, fn := fn.code, aux := segAux sg excl }
  | .bcast c ty d a lane =>
      encV3 c 0x14C (gBits d) (gBits a) 0
        { ty := ty.code, fn := fn1 lane.isSome, aux := (match lane with | some l => l.setWidth 8 | none => 0) }
  | .mergek c ty r sat dz sg d a q inv =>
      encV3 c 0x14D (gBits d) (gBits a) (match sg with | some b => gBits b | none => 0)
        { ty := ty.code, rnd := r.code, sat := sat,
          fn := (0 : BitVec 1) ++ BitVec.ofBool sg.isSome ++ BitVec.ofBool dz, aux := predAux q inv }
  | .ld c w sc o d a off => encM c 0x180 (gBits d) (gBits a) ⟨w.code, sc.code, o.code⟩ off
  | .st c w sc o d a off => encM c 0x181 (gBits d) (gBits a) ⟨w.code, sc.code, o.code⟩ off
  | .lds c w swz d a off => encM c 0x182 (gBits d) (gBits a) ⟨w.code, BitVec.ofNat 3 swz.val, 0⟩ off
  | .sts c w swz d a off => encM c 0x183 (gBits d) (gBits a) ⟨w.code, BitVec.ofNat 3 swz.val, 0⟩ off
  | .gather c w sc o d a off => encM c 0x184 (gBits d) (gBits a) ⟨w.code, sc.code, o.code⟩ off
  | .scatter c w sc o d a off => encM c 0x185 (gBits d) (gBits a) ⟨w.code, sc.code, o.code⟩ off
  | .pref c sc a off => encM c 0x186 0 (gBits a) { scope := sc.code } off
  | .lda c w d a off => encM c 0x187 (gBits d) (gBits a) { width := w.code, scope := 2 } off
  | .atom c w sc o op signed acqrel d a cc off =>
      encM c 0x188 (gBits d) (gBits a) ⟨w.code, sc.code, o.code⟩ off (gBits cc) (atomXaux op signed acqrel)
  | .red c sc o ty op d a off =>
      encM c 0x189 (gBits d) (gBits a) ⟨ty.width.code, sc.code, o.code⟩ off 0 (redXaux ty op)
  | .fence c sc o => encM c 0x18A 0 0 { scope := sc.code, order := o.code } 0
  | .syncg c sc => encM c 0x18B 0 0 { scope := sc.code } 0
  | .keyget c d a off => encM c 0x18C (gBits d) (gBits a) {} off
  | .keypass c d a off => encM c 0x18D (gBits d) (gBits a) {} off
  | .keydrop c a off => encM c 0x18E 0 (gBits a) {} off
  | .cwb c sc d a off => encM c 0x18F (gBits d) (gBits a) { scope := sc.code } off
  | .cinv c sc d a off => encM c 0x190 (gBits d) (gBits a) { scope := sc.code } off
  | .cdisc c d a off => encM c 0x191 (gBits d) (gBits a) { scope := 2 } off
  | .carve c d a l1u scu => encM c 0x192 (gBits d) (gBits a) {} ((0 : BitVec 8) ++ l1u ++ scu)
  | .cpstat c d a off => encM c 0x193 (gBits d) (gBits a) {} off
  | .linit c d a off => encM c 0x194 (gBits d) (gBits a) {} off
  | .arrive c d a off => encM c 0x195 (gBits d) (gBits a) {} off
  | .arwait c a off => encM c 0x196 0 (gBits a) {} off
  | .lwait c d a off => encM c 0x197 (gBits d) (gBits a) {} off
  | .lexp c d a off => encM c 0x198 (gBits d) (gBits a) {} off
  | .ltry c d a off => encM c 0x199 (pBits d) (gBits a) {} off
  | .mma c k t a b cc sa sb => encMma c 0x1C0 k t a b cc (mmaXaux 0 (gBits sb) (gBits sa))
  | .mmaSp c k t a b cc sa sb md => encMma c 0x1C1 k t a b cc (mmaXaux (gBits md) (gBits sb) (gBits sa))
  | .mmaCx c k t a b cc sa sb => encMma c 0x1C2 k t a b cc (mmaXaux 0 (gBits sb) (gBits sa))
  | .tclr c bind t a b => encV3 c 0x1C3 0 (gBits a) (gBits b) { fn := fn1 bind, aux := pBits t }
  | .wmrd c t d => encV3 c 0x1C4 (gBits d) 0 0 { aux := pBits t }
  | .twait c t a => encV3 c 0x1C5 0 (gBits a) 0 { aux := pBits t }
  | .obst c o a b => encV3 c 0x1C6 (obBits o) (gBits a) (gBits b) {}
  | .neval c ty f16out outc inc d a b =>
      encV3 c 0x1C8 (gBits d) (gBits a) (gBits b) { ty := ty.code, fn := fn1 f16out, aux := pBits4 outc ++ pBits4 inc }
  | .nhandleBind c d a => encV3 c 0x1C9 (gBits d) (gBits a) 0 { ty := 1 }
  | .nhandleRevoke c d a => encV3 c 0x1C9 (gBits d) (gBits a) 0 { ty := 1, fn := 1 }
  | .trace c d a b => encV3 c 0x200 (gBits d) (gBits a) (gBits b) {}
  | .traceE c d a b => encV3 c 0x201 (gBits d) (gBits a) (gBits b) {}
  | .traceVis c d a b => encV3 c 0x202 (gBits d) (gBits a) (gBits b) {}
  | .spawn c d a b => encV3 c 0x203 (gBits d) (gBits a) (gBits b) {}
  | .spawnE c d a b => encV3 c 0x204 (gBits d) (gBits a) (gBits b) {}
  | .post c d a b => encV3 c 0x205 (gBits d) (gBits a) (gBits b) {}
  | .postE c d a b => encV3 c 0x206 (gBits d) (gBits a) (gBits b) {}
  | .retire c => encBR c 0x207 0 0 0
  | .rld c w d off => encM c 0x208 (gBits d) 0 { width := w.code } (BitVec.ofNat 24 off.val)
  | .rst c w d off => encM c 0x209 (gBits d) 0 { width := w.code } (BitVec.ofNat 24 off.val)
  | .hitattr c d => encV3 c 0x20A (gBits d) 0 0 {}
  | .accept c fin => encV3 c 0x20B 0 0 0 { fn := fn1 fin }
  | .ignore c => encV3 c 0x20C 0 0 0 {}
  | .report c d a b kind => encV3 c 0x20D (pBits d) (gBits a) (gBits b) { aux := kind.setWidth 8 }
  | _ => []

/-! ### Decoding -/

/-- Why a word is no instruction (Table 3.10). -/
inductive DecodeError where
  /-- the OP is not assigned in Table 4.1: ILLEGAL-OPCODE -/
  | illegalOpcode
  /-- a companion word where a leading word must stand (R49): ILLEGAL-ENCODING -/
  | strayCompanion
  /-- no companion word where one is required (R37, R49): ILLEGAL-ENCODING -/
  | missingCompanion
  /-- a nonzero must-be-zero bit, a reserved code, or a value the entry does not accept: ILLEGAL-ENCODING -/
  | illegalField
  deriving DecidableEq, Repr, Inhabited

/-- The companion rule of an opcode (column X of Table 4.1). -/
inductive CompRule where
  | forbidden | permitted | required
  deriving DecidableEq, Repr, Inhabited

/-- Table 4.1: the companion rule of every assigned opcode. -/
def compRule (op : BitVec 10) : Option CompRule :=
  let n := op.toNat
  let inR (lo hi : Nat) : Bool := lo ≤ n && n ≤ hi
  if inR 0x001 0x009 || inR 0x010 0x011 || inR 0x018 0x01C || inR 0x113 0x114 || inR 0x18A 0x18B || n == 0x192 ||
      inR 0x194 0x199 || n == 0x201 || n == 0x204 || n == 0x206 || n == 0x207 then some .forbidden
  else if inR 0x044 0x045 || n == 0x054 || n == 0x05A || n == 0x0C3 || n == 0x0DB || n == 0x0E2 ||
      inR 0x188 0x189 || inR 0x1C0 0x1C2 then some .required
  else if inR 0x040 0x064 || inR 0x070 0x078 || inR 0x07E 0x07F || inR 0x0C0 0x0D2 || inR 0x0D8 0x0DE ||
      inR 0x0E0 0x0E4 || inR 0x100 0x108 || inR 0x110 0x112 || inR 0x140 0x14D || inR 0x180 0x187 ||
      inR 0x18C 0x191 || n == 0x193 || inR 0x1C3 0x1C6 || inR 0x1C8 0x1C9 || n == 0x200 || n == 0x202 ||
      n == 0x203 || n == 0x205 || inR 0x208 0x20D then some .permitted
  else none

/-- The control part of a word: SW, guard, and the companion's mask and rounding override. -/
def ctlOf (f : Lead) (x : Option Comp) : Option Ctl :=
  match x with
  | none => some ⟨f.sw, pOf4 f.pred, f.pneg, none, none⟩
  | some x => (xrndOf x.xrnd).map fun r => ⟨f.sw, pOf4 f.pred, f.pneg, some ⟨pOf4 x.pred, x.neg, x.mz⟩, r⟩

/-- Everything the candidate reader needs of one word and its companion. -/
structure Parts where
  c : Ctl
  f : Lead
  v : V3
  m : MB
  cc : BitVec 8
  xaux : Word
  deriving Repr

def Parts.d (p : Parts) : GReg := gOf p.f.d
def Parts.a (p : Parts) : GReg := gOf p.f.a
def Parts.b (p : Parts) : GReg := gOf p.f.b
def Parts.g4 (p : Parts) : GReg := gOf p.cc
def Parts.imm (p : Parts) : Word := p.f.b ++ p.f.low
def Parts.off (p : Parts) : Off := p.f.low
def Parts.mods (p : Parts) : Mods := ⟨p.v.nega, p.v.negb, p.v.absa, p.v.absb⟩
def Parts.fnBit (p : Parts) : Bool := p.v.fn.getLsbD 0
def Parts.q (p : Parts) : PReg := pOf p.v.aux
def Parts.inv (p : Parts) : Bool := p.v.aux.getLsbD 4

def Parts.sel (p : Parts) : LaneSel :=
  if p.fnBit then .imm (p.v.aux.setWidth 7) else .reg p.b

/-- Candidates of class CTL. -/
def candCtl (p : Parts) : Option Instr :=
  match p.f.op.toNat with
  | 0x001 => some (.bra p.c p.off)
  | 0x002 => some (.brx p.c p.a)
  | 0x003 => some (.call p.c p.d p.off)
  | 0x004 => some (.callx p.c p.d p.a)
  | 0x005 => some (.ret p.c p.a)
  | 0x006 => some (.exit p.c)
  | 0x007 => some (.yield p.c p.off)
  | 0x008 => do some (.mwait p.c (← Width.ofCode p.m.width) (← Scope.ofCode p.m.scope) p.d p.a p.off)
  | 0x009 => some (.nop p.c)
  | 0x010 => some (.launch p.c p.d p.a p.off)
  | 0x011 =>
    match p.v.fn.toNat with
    | 0 => some (.qstatQ p.c p.d p.a)
    | 1 => some (.qstatLast p.c p.d p.a)
    | 2 => some (.qstatSeq p.c p.d p.a)
    | _ => none
  | 0x018 => some (.trap p.c (p.imm.setWidth 16))
  | 0x019 => some (.brk p.c (p.imm.setWidth 16))
  | 0x01A => some (.eret p.c)
  | 0x01B => do some (.mfc p.c p.d (← CReg.ofCode p.v.aux))
  | 0x01C => do some (.mtc p.c (← CReg.ofCode p.v.aux) p.a)
  | _ => none

/-- Candidates of the integer, address and predicate family. -/
def candInt (p : Parts) : Option Instr :=
  match p.f.op.toNat with
  | 0x040 => do some (.add p.c (← Ty.ofCode p.v.ty) p.v.sat p.d p.a p.b)
  | 0x041 => do some (.sub p.c (← Ty.ofCode p.v.ty) p.v.sat p.d p.a p.b)
  | 0x042 => do some (.mul p.c (← Ty.ofCode p.v.ty) p.d p.a p.b)
  | 0x043 => do some (.mulh p.c (← Ty.ofCode p.v.ty) p.d p.a p.b)
  | 0x044 => do some (.mad p.c (← Ty.ofCode p.v.ty) p.d p.a p.b p.g4)
  | 0x045 => do some (.madl p.c (← Ty.ofCode p.v.ty) p.d p.a p.b p.g4)
  | 0x046 => do some (.div p.c (← Ty.ofCode p.v.ty) p.d p.a p.b)
  | 0x047 => do some (.rem p.c (← Ty.ofCode p.v.ty) p.d p.a p.b)
  | 0x048 => do some (.min p.c (← Ty.ofCode p.v.ty) p.d p.a p.b)
  | 0x049 => do some (.max p.c (← Ty.ofCode p.v.ty) p.d p.a p.b)
  | 0x04A => do some (.abs p.c (← Ty.ofCode p.v.ty) p.v.sat p.d p.a)
  | 0x04B => some (.and p.c p.d p.a p.b)
  | 0x04C => some (.or p.c p.d p.a p.b)
  | 0x04D => some (.xor p.c p.d p.a p.b)
  | 0x04E => some (.andn p.c p.d p.a p.b)
  | 0x04F => some (.not p.c p.d p.a)
  | 0x050 => do some (.shl p.c (← Ty.ofCode p.v.ty) p.d p.a p.b)
  | 0x051 => do some (.shr p.c (← Ty.ofCode p.v.ty) p.d p.a p.b)
  | 0x052 => do some (.sar p.c (← Ty.ofCode p.v.ty) p.d p.a p.b)
  | 0x053 => some (.rot p.c p.fnBit p.d p.a p.b)
  | 0x054 => some (.catsh p.c p.fnBit p.d p.a p.b p.g4)
  | 0x055 => some (.popc p.c p.d p.a)
  | 0x056 => some (.clz p.c p.d p.a)
  | 0x057 => some (.ctz p.c p.d p.a)
  | 0x058 => some (.brev p.c p.d p.a)
  | 0x059 => do some (.fext p.c (← Ty.ofCode p.v.ty) p.d p.a p.b)
  | 0x05A => some (.fins p.c p.d p.a p.b p.g4)
  | 0x05B => some (.bsel p.c p.d p.a p.b)
  | 0x05C => do some (.lea p.c (← Ty.ofCode p.v.ty) p.d p.a p.b (p.v.aux.setWidth 3).toFin)
  | 0x05D => do some (.sel p.c (← Ty.ofCode p.v.ty) p.d p.a p.b p.q p.inv)
  | 0x05E => do some (.mov p.c (← Ty.ofCode p.v.ty) p.d p.a)
  | 0x05F => do
    some (.cmp p.c (← Ty.ofCode p.v.ty) (← CmpFn.ofCode p.v.fn) (← Comb.ofCode p.v.aux) (pOf p.f.d) p.a p.b)
  | 0x060 => some (.pand p.c p.v.nega p.v.negb (pOf p.f.d) (pOf p.f.a) (pOf p.f.b))
  | 0x061 => some (.por p.c p.v.nega p.v.negb (pOf p.f.d) (pOf p.f.a) (pOf p.f.b))
  | 0x062 => some (.pxor p.c p.v.nega p.v.negb (pOf p.f.d) (pOf p.f.a) (pOf p.f.b))
  | 0x063 => some (.ptog p.c p.d)
  | 0x064 => some (.gtop p.c p.a p.b)
  | 0x070 => some (.addImm p.c p.d p.a p.imm)
  | 0x071 => some (.subImm p.c p.d p.a p.imm)
  | 0x072 => some (.mulImm p.c p.d p.a p.imm)
  | 0x073 => some (.andImm p.c p.d p.a p.imm)
  | 0x074 => some (.orImm p.c p.d p.a p.imm)
  | 0x075 => some (.xorImm p.c p.d p.a p.imm)
  | 0x076 => some (.shlImm p.c p.d p.a p.imm)
  | 0x077 => some (.shrImm p.c p.d p.a p.imm)
  | 0x078 => some (.sarImm p.c p.d p.a p.imm)
  | 0x07E => some (.movi p.c p.d p.imm)
  | 0x07F => some (.movh p.c p.d p.a (p.imm.setWidth 16))
  | _ => none

/-- Candidates of the floating-point, convert, random and team-register families. -/
def candFloat (p : Parts) : Option Instr :=
  match p.f.op.toNat with
  | 0x0C0 => do some (.fadd p.c (← Rnd.ofCode p.v.rnd) p.v.sat p.mods p.d p.a p.b)
  | 0x0C1 => do some (.fsub p.c (← Rnd.ofCode p.v.rnd) p.v.sat p.mods p.d p.a p.b)
  | 0x0C2 => do some (.fmul p.c (← Rnd.ofCode p.v.rnd) p.v.sat p.mods p.d p.a p.b)
  | 0x0C3 => do some (.ffma p.c (← Rnd.ofCode p.v.rnd) p.v.sat p.mods p.d p.a p.b p.g4)
  | 0x0C4 => some (.fmin p.c p.mods p.d p.a p.b)
  | 0x0C5 => some (.fmax p.c p.mods p.d p.a p.b)
  | 0x0C6 => do some (.fcmp p.c p.mods (FCmpFn.ofCode p.v.fn) (← Comb.ofCode p.v.aux) (pOf p.f.d) p.a p.b)
  | 0x0C7 => do some (.fclass p.c (← Ty.ofCode p.v.ty) (p.v.fn.setWidth 2 ++ p.v.aux) (pOf p.f.d) p.a)
  | 0x0C8 => do some (.fscale p.c (← Ty.ofCode p.v.ty) (← Rnd.ofCode p.v.rnd) p.mods p.d p.a p.b)
  | 0x0C9 => do some (.frnd p.c (← Ty.ofCode p.v.ty) (← Rnd.ofCode p.v.rnd) p.mods p.d p.a)
  | 0x0CA => do some (.ffrac p.c (← Ty.ofCode p.v.ty) p.mods p.d p.a)
  | 0x0CB => some (.frcp p.c p.mods p.d p.a)
  | 0x0CC => some (.frsq p.c p.mods p.d p.a)
  | 0x0CD => do some (.fsqrt p.c (← Rnd.ofCode p.v.rnd) p.mods p.d p.a)
  | 0x0CE => some (.fexp2 p.c p.mods p.d p.a)
  | 0x0CF => some (.flog2 p.c p.mods p.d p.a)
  | 0x0D0 => some (.fsin p.c p.mods p.d p.a)
  | 0x0D1 => some (.fcos p.c p.mods p.d p.a)
  | 0x0D2 => do some (.fdiv p.c (← Rnd.ofCode p.v.rnd) p.mods p.d p.a p.b)
  | 0x0D8 => do some (.dadd p.c (← Rnd.ofCode p.v.rnd) p.v.sat p.mods p.d p.a p.b)
  | 0x0D9 => do some (.dsub p.c (← Rnd.ofCode p.v.rnd) p.v.sat p.mods p.d p.a p.b)
  | 0x0DA => do some (.dmul p.c (← Rnd.ofCode p.v.rnd) p.v.sat p.mods p.d p.a p.b)
  | 0x0DB => do some (.dfma p.c (← Rnd.ofCode p.v.rnd) p.v.sat p.mods p.d p.a p.b p.g4)
  | 0x0DC => some (.dmin p.c p.mods p.d p.a p.b)
  | 0x0DD => some (.dmax p.c p.mods p.d p.a p.b)
  | 0x0DE => do some (.dcmp p.c p.mods (FCmpFn.ofCode p.v.fn) (← Comb.ofCode p.v.aux) (pOf p.f.d) p.a p.b)
  | 0x0E0 => do some (.hadd2 p.c (← Ty.ofCode p.v.ty) (← Rnd.ofCode p.v.rnd) p.v.sat p.mods p.d p.a p.b)
  | 0x0E1 => do some (.hmul2 p.c (← Ty.ofCode p.v.ty) (← Rnd.ofCode p.v.rnd) p.v.sat p.mods p.d p.a p.b)
  | 0x0E2 => do some (.hfma2 p.c (← Ty.ofCode p.v.ty) (← Rnd.ofCode p.v.rnd) p.v.sat p.mods p.d p.a p.b p.g4)
  | 0x0E3 => do some (.hmin2 p.c (← Ty.ofCode p.v.ty) p.mods p.d p.a p.b)
  | 0x0E4 => do some (.hmax2 p.c (← Ty.ofCode p.v.ty) p.mods p.d p.a p.b)
  | 0x100 => do
    some (.cvt p.c (← Ty.ofCode p.v.ty) (← Ty.ofCode (p.v.aux.setWidth 5)) (← Rnd.ofCode p.v.rnd) p.v.sat p.d p.a)
  | 0x101 => do some (.cvtpk p.c (← Ty.ofCode p.v.ty) (← Rnd.ofCode p.v.rnd) p.v.sat p.d p.a)
  | 0x102 => do
    some (.cvtx p.c (← Ty.ofCode p.v.ty) (← Rnd.ofCode p.v.rnd) p.v.sat p.d p.a p.b
      (if p.xaux.getLsbD 0 then some p.g4 else none))
  | 0x103 => some (.amaxrd p.c p.d)
  | 0x104 => some (.amaxclr p.c p.d)
  | 0x105 => some (.rngseed p.c p.a p.b)
  | 0x106 => do some (.rngnext p.c (← Ty.ofCode p.v.ty) p.d)
  | 0x107 => do some (.nzcnt p.c (← Ty.ofCode p.v.ty) p.d p.a)
  | 0x108 => do some (.nzmask p.c (← Ty.ofCode p.v.ty) p.d p.a)
  | 0x110 => do some (.mfs p.c p.d (← SpReg.ofCode p.v.aux))
  | 0x111 => do some (.mts p.c (← SpReg.ofCode p.v.aux) p.a)
  | 0x112 =>
    some (if p.fnBit then .movs p.c (.write (sOf p.f.d) p.a) else .movs p.c (.read p.d (sOf p.f.a)))
  | 0x113 =>
    match p.v.fn.toNat with
    | 0 => some (.ksetCount p.c (pOf p.f.d) p.a)
    | 1 => some (.ksetMask p.c (pOf p.f.d) p.a p.b)
    | 2 => some (.ksetFree p.c (pOf p.f.d))
    | _ => none
  | 0x114 =>
    some (if p.fnBit then .ksignStat p.c p.d (pOf p.f.a) else .ksignAbstain p.c (pOf p.f.a))
  | _ => none

/-- Candidates of class XLN. -/
def candXln (p : Parts) : Option Instr :=
  match p.f.op.toNat with
  | 0x140 => do some (.xlaneSel p.c (← Ty.ofCode p.v.ty) p.d p.a p.sel)
  | 0x141 => do some (.xlaneShift p.c (← Ty.ofCode p.v.ty) p.d p.a p.sel)
  | 0x142 => do some (.xlaneRot p.c (← Ty.ofCode p.v.ty) p.d p.a p.sel)
  | 0x143 => do some (.xlaneMirr p.c (← Ty.ofCode p.v.ty) p.d p.a p.sel)
  | 0x144 => some (.shfx p.c p.d p.a p.b (p.v.aux.setWidth 2).toFin)
  | 0x145 =>
    match p.v.fn.toNat with
    | 0 => some (.vote p.c (.all (pOf p.f.d)) p.v.nega (pOf p.f.a))
    | 1 => some (.vote p.c (.any (pOf p.f.d)) p.v.nega (pOf p.f.a))
    | 2 => some (.vote p.c (.uni (pOf p.f.d)) p.v.nega (pOf p.f.a))
    | 3 => some (.vote p.c (.ballot p.d) p.v.nega (pOf p.f.a))
    | _ => none
  | 0x146 => do some (.laneMatch p.c (← Ty.ofCode p.v.ty) p.fnBit p.d p.a p.q)
  | 0x147 => do some (.conflict p.c (← Ty.ofCode p.v.ty) p.d p.a p.q)
  | 0x148 => some (.compact p.c p.d p.a p.q p.inv)
  | 0x149 => some (.expand p.c p.d p.a p.q p.inv)
  | 0x14A => do
    some (.breduce p.c (← Ty.ofCode p.v.ty) (← Rnd.ofCode p.v.rnd) p.v.sat (← RedFn.ofCode p.v.fn)
      (← Seg.ofCode (p.v.aux.setWidth 6) p.f.b) p.d p.a)
  | 0x14B => do
    some (.bscan p.c (← Ty.ofCode p.v.ty) (← Rnd.ofCode p.v.rnd) p.v.sat (← RedFn.ofCode p.v.fn)
      (← Seg.ofCode (p.v.aux.setWidth 6) p.f.b) (p.v.aux.getLsbD 6) p.d p.a)
  | 0x14C => do
    some (.bcast p.c (← Ty.ofCode p.v.ty) p.d p.a (if p.fnBit then some (p.v.aux.setWidth 6) else none))
  | 0x14D => do
    some (.mergek p.c (← Ty.ofCode p.v.ty) (← Rnd.ofCode p.v.rnd) p.v.sat p.fnBit
      (if p.v.fn.getLsbD 1 then some p.b else none) p.d p.a p.q p.inv)
  | _ => none

/-- Candidates of class MEM. -/
def candMem (p : Parts) : Option Instr :=
  match p.f.op.toNat with
  | 0x180 => do
    some (.ld p.c (← Width.ofCode p.m.width) (← Scope.ofCode p.m.scope) (Order.ofCode p.m.order) p.d p.a p.off)
  | 0x181 => do
    some (.st p.c (← Width.ofCode p.m.width) (← Scope.ofCode p.m.scope) (Order.ofCode p.m.order) p.d p.a p.off)
  | 0x182 => do some (.lds p.c (← Width.ofCode p.m.width) p.m.scope.toFin p.d p.a p.off)
  | 0x183 => do some (.sts p.c (← Width.ofCode p.m.width) p.m.scope.toFin p.d p.a p.off)
  | 0x184 => do
    some (.gather p.c (← Width.ofCode p.m.width) (← Scope.ofCode p.m.scope) (Order.ofCode p.m.order) p.d p.a p.off)
  | 0x185 => do
    some (.scatter p.c (← Width.ofCode p.m.width) (← Scope.ofCode p.m.scope) (Order.ofCode p.m.order) p.d p.a p.off)
  | 0x186 => do some (.pref p.c (← Scope.ofCode p.m.scope) p.a p.off)
  | 0x187 => do some (.lda p.c (← Width.ofCode p.m.width) p.d p.a p.off)
  | 0x188 => do
    some (.atom p.c (← Width.ofCode p.m.width) (← Scope.ofCode p.m.scope) (Order.ofCode p.m.order)
      (← AtomOp.ofCode (p.xaux.setWidth 4)) (p.xaux.getLsbD 4) (p.xaux.getLsbD 8) p.d p.a p.g4 p.off)
  | 0x189 => do
    some (.red p.c (← Scope.ofCode p.m.scope) (Order.ofCode p.m.order) (← RType.ofCode (p.xaux.extractLsb' 4 3))
      (← ROp.ofCode (p.xaux.setWidth 2)) p.d p.a p.off)
  | 0x18A => do some (.fence p.c (← Scope.ofCode p.m.scope) (Order.ofCode p.m.order))
  | 0x18B => do some (.syncg p.c (← Scope.ofCode p.m.scope))
  | 0x18C => some (.keyget p.c p.d p.a p.off)
  | 0x18D => some (.keypass p.c p.d p.a p.off)
  | 0x18E => some (.keydrop p.c p.a p.off)
  | 0x18F => do some (.cwb p.c (← Scope.ofCode p.m.scope) p.d p.a p.off)
  | 0x190 => do some (.cinv p.c (← Scope.ofCode p.m.scope) p.d p.a p.off)
  | 0x191 => some (.cdisc p.c p.d p.a p.off)
  | 0x192 => some (.carve p.c p.d p.a (p.off.extractLsb' 8 8) (p.off.setWidth 8))
  | 0x193 => some (.cpstat p.c p.d p.a p.off)
  | 0x194 => some (.linit p.c p.d p.a p.off)
  | 0x195 => some (.arrive p.c p.d p.a p.off)
  | 0x196 => some (.arwait p.c p.a p.off)
  | 0x197 => some (.lwait p.c p.d p.a p.off)
  | 0x198 => some (.lexp p.c p.d p.a p.off)
  | 0x199 => some (.ltry p.c (pOf p.f.d) p.a p.off)
  | _ => none

/-- Candidates of classes MXN and REC. -/
def candMxnRec (p : Parts) : Option Instr :=
  let slot : Slot := pOf4 (p.v.aux.extractLsb' 4 4)
  match p.f.op.toNat with
  | 0x1C0 => do
    some (.mma p.c (pOf p.f.d) slot (← MSrc.ofCode (p.v.fn.setWidth 2) p.f.a) (← MSrc.ofCode (p.v.aux.setWidth 2) p.f.b)
      p.g4 (gOf (p.xaux.setWidth 8)) (gOf (p.xaux.extractLsb' 8 8)))
  | 0x1C1 => do
    some (.mmaSp p.c (pOf p.f.d) slot (← MSrc.ofCode (p.v.fn.setWidth 2) p.f.a) (← MSrc.ofCode (p.v.aux.setWidth 2) p.f.b)
      p.g4 (gOf (p.xaux.setWidth 8)) (gOf (p.xaux.extractLsb' 8 8)) (gOf (p.xaux.extractLsb' 16 8)))
  | 0x1C2 => do
    some (.mmaCx p.c (pOf p.f.d) slot (← MSrc.ofCode (p.v.fn.setWidth 2) p.f.a) (← MSrc.ofCode (p.v.aux.setWidth 2) p.f.b)
      p.g4 (gOf (p.xaux.setWidth 8)) (gOf (p.xaux.extractLsb' 8 8)))
  | 0x1C3 => some (.tclr p.c p.fnBit (pOf p.v.aux) p.a p.b)
  | 0x1C4 => some (.wmrd p.c (pOf p.v.aux) p.d)
  | 0x1C5 => some (.twait p.c (pOf p.v.aux) p.a)
  | 0x1C6 => some (.obst p.c (obOf p.f.d) p.a p.b)
  | 0x1C8 => do some (.neval p.c (← Ty.ofCode p.v.ty) p.fnBit slot (pOf p.v.aux) p.d p.a p.b)
  | 0x1C9 => some (if p.fnBit then .nhandleRevoke p.c p.d p.a else .nhandleBind p.c p.d p.a)
  | 0x200 => some (.trace p.c p.d p.a p.b)
  | 0x201 => some (.traceE p.c p.d p.a p.b)
  | 0x202 => some (.traceVis p.c p.d p.a p.b)
  | 0x203 => some (.spawn p.c p.d p.a p.b)
  | 0x204 => some (.spawnE p.c p.d p.a p.b)
  | 0x205 => some (.post p.c p.d p.a p.b)
  | 0x206 => some (.postE p.c p.d p.a p.b)
  | 0x207 => some (.retire p.c)
  | 0x208 => do some (.rld p.c (← Width.ofCode p.m.width) p.d (p.off.setWidth 7).toFin)
  | 0x209 => do some (.rst p.c (← Width.ofCode p.m.width) p.d (p.off.setWidth 7).toFin)
  | 0x20A => some (.hitattr p.c p.d)
  | 0x20B => some (.accept p.c p.fnBit)
  | 0x20C => some (.ignore p.c)
  | 0x20D => some (.report p.c (pOf p.f.d) p.a p.b (p.v.aux.setWidth 7))
  | _ => none

/-- The one instruction a leading word and its companion can stand for, read field by field. -/
def candidate (w : DWord) (x : Option DWord) : Option Instr := do
  let f := Lead.ofWord w
  let comp := x.map Comp.ofWord
  let c ← ctlOf f comp
  let p : Parts := ⟨c, f, V3.ofBits f.low, MB.ofBits f.b, (comp.map (·.c)).getD 0, (comp.map (·.xaux)).getD 0⟩
  candCtl p <|> candInt p <|> candFloat p <|> candXln p <|> candMem p <|> candMxnRec p

/-- Whether a slot holds a companion word (R49). -/
def isComp (w : DWord) : Bool := w.extractLsb' 53 10 == compOp

/-- An instruction and the number of slots it takes. -/
structure Decoded where
  instr : Instr
  slots : Nat
  deriving DecidableEq, Repr

/-- A candidate is accepted when it is well formed and its words are exactly those read. -/
def accept (words : List DWord) (cand : Option Instr) : Except DecodeError Decoded :=
  match cand with
  | none => .error .illegalField
  | some i => if i.wf && encode i == words then .ok ⟨i, words.length⟩ else .error .illegalField

/-- Decode the instruction that begins at a slot: `w` is the slot, `next` the following slot of the same
clause, if there is one (R49, R61). -/
def decode (w : DWord) (next : Option DWord) : Except DecodeError Decoded :=
  if isComp w then .error .strayCompanion
  else
    match compRule (w.extractLsb' 53 10) with
    | none => .error .illegalOpcode
    | some .forbidden => accept [w] (candidate w none)
    | some .permitted =>
      match next with
      | some x => if isComp x then accept [w, x] (candidate w (some x)) else accept [w] (candidate w none)
      | none => accept [w] (candidate w none)
    | some .required =>
      match next with
      | some x => if isComp x then accept [w, x] (candidate w (some x)) else .error .missingCompanion
      | none => .error .missingCompanion

/-- The words of a table row's bits: 64-bit words, the first the least significant. -/
def tableWords (nbits w : Nat) : DWord × Option DWord :=
  (BitVec.ofNat 64 w, if 64 < nbits then some (BitVec.ofNat 64 (w / 2 ^ 64)) else some 0)

/-- The instruction the decoder reads from a row's bits; the bits above `nbits` are 0. -/
def decodeTableWord (nbits w : Nat) : Option Instr :=
  let (x, y) := tableWords nbits w
  match decode x y with
  | .ok r => some r.instr
  | .error _ => none

end Sys2Proof
end

