-- ==== Sys2Proof/Config.lean ====
section
/-! DEFINITION. What the spec leaves to the device: free values, as constants with no body.
Nothing in Lean can evaluate one, so a statement holds for every value it may take. -/

namespace Sys2Proof

/-- Which agent moves next when `State.plan` names none, and how many cycles pass first (DESIGN CHOICE, log 5).
The spec orders agents only by its rules, so the turn is free. -/
opaque Config.freeTurn : Nat → Turn

/-- The FRCP result the device would like to give (R131); kept only inside the bound of Table 6.7. -/
opaque Config.frcp : Word → Word
/-- As `Config.frcp`, for FRSQ. -/
opaque Config.frsq : Word → Word
/-- As `Config.frcp`, for FEXP2. -/
opaque Config.fexp2 : Word → Word
/-- As `Config.frcp`, for FLOG2. -/
opaque Config.flog2 : Word → Word
/-- As `Config.frcp`, for FSIN. -/
opaque Config.fsin : Word → Word
/-- As `Config.frcp`, for FCOS. -/
opaque Config.fcos : Word → Word

/-- A value the spec does not state at all, fresh for each value of `State.fresh` (DESIGN CHOICE, log 6). -/
opaque Config.freeWord : Nat → DWord

/-- The bay whose die cache portion, half-stack and channel group hold a 128-byte line: the spec gives each bay a quarter of memory and
not which (R10, DESIGN CHOICE, log 49). -/
opaque Config.lineBay : Nat → Fin 4

/-- As what COMPRESS reads an element, by element size code: an integer 0, a floating value with its sign on top 1, and, of one byte,
a six-bit floating value in its container 2. R116 decides a zero by the element's format, which an entry does not name (DESIGN
CHOICE, log 22). -/
opaque Config.elemKind : Nat → Fin 3

/-- Whether the boot ROM accepts a firmware image: ML-DSA-87 over its SHA3-512 digest (R397, DESIGN CHOICE, log 7). -/
opaque Config.firmwareAccepted : List Byte → Bool
/-- The version a firmware image carries; the spec gives no layout of an image (DESIGN CHOICE, log 7). -/
opaque Config.firmwareVersion : List Byte → Word
/-- The signature bytes of an attestation report (R398, DESIGN CHOICE, log 7). -/
opaque Config.attestSignature : List Byte → List Byte
/-- The bitstream a stream engine encodes from composed frame bytes (R395, DESIGN CHOICE, log 8). -/
opaque Config.encodedFrame : Nat → List Byte → List Byte

end Sys2Proof
end

