-- ==== Sys2Proof/Machine/State.lean ====
section
/-! DEFINITION. The state of one ZKA-900 die and its memory, as plain data, and its value after device reset
(Tables 2.1, 5.1, 7.1, 8.1, 11.1, 12.1, 13.1, 14.3, 16.1, 17.1, 18.1, 19.2, 20.3). -/

namespace Sys2Proof.Machine

/-- Bytes at addresses, strictly rising. -/
abbrev Bytes := List Host.Cell

/-! ### Strands, teams and bundles -/

/-- The clause state of a strand inside a clause (R55). -/
structure Cls where
  eng : BitVec 6
  term : Bool
  /-- slots left, counting the slot at the PC -/
  left : Nat
  /-- slot index of the PC -/
  idx : Nat
  deriving DecidableEq, Repr, Inhabited

/-- Page attributes a translation carries (Table 17.3). -/
structure Page where
  pa : Nat
  read : Bool
  write : Bool
  exec : Bool
  keyed : Bool
  redOk : Bool
  brick : Bool
  home : Nat
  pinc : Nat
  smidx : Nat
  large : Bool
  deriving DecidableEq, Repr, Inhabited

/-- One translated access: virtual and physical address and the page's attributes. -/
structure Acc where
  va : DWord
  pa : Nat
  page : Page
  deriving DecidableEq, Repr, Inhabited

/-- What a strand in MONITOR holds (R102, R103). -/
structure Monitor where
  ea : DWord
  width : Width
  scope : Scope
  cmp : DWord
  /-- the span as translated; the monitor is armed when the read has returned -/
  acc : Acc
  armed : Bool
  /-- cycles left when armed, and the cycle of arming -/
  remaining : Nat
  since : Nat
  /-- a write to the armed span has become visible -/
  written : Bool
  deriving DecidableEq, Repr, Inhabited

/-- A captured record of a stalled SPAWN, POST or TRACE.VIS lane (R298, R324). -/
structure Stall where
  image : BitVec 1024
  /-- charged to a node, or to the episode reserve (none) -/
  charge : Option Nat
  course : Nat
  /-- the visibility entry of a TRACE.VIS ray -/
  vis : Option Acc
  /-- the strand ends at the grant (an .E form) -/
  ends : Bool
  /-- order of stalls -/
  order : Nat
  deriving DecidableEq, Repr, Inhabited

/-- Strand states of Table 2.3. SAVED strands live in their context area. -/
inductive SState where
  | ready
  | issuing
  /-- counters that must reach zero, in WAIT bit order -/
  | parked (mask : BitVec 4)
  /-- counters that must fall to 254 (R52) -/
  | parkedFull (mask : BitVec 4)
  | monitor (m : Monitor)
  /-- latch address, token, and the status register of a CARVE -/
  | latch (addr : Nat) (token : Bool) (carve : Option GReg)
  /-- LATCH at SYNCG (R204) -/
  | barrier (sc : Scope)
  | recordStall (x : Stall)
  /-- FAULT-HELD on the cause with this name -/
  | faultHeld (cause : Nat)
  | ended
  deriving DecidableEq, Repr, Inhabited

/-- One strand (Tables 2.1 and 5.1). -/
structure Strand where
  /-- the model's name of the strand -/
  sid : Nat
  tid : Nat
  strandId : Nat
  age : Nat
  pc : DWord
  g : Vector Word 256
  /-- p0 to p15; p15 is read as true whatever stands here -/
  p : Vector Bool 16
  maxabs : Word
  rng : BitVec 128
  ld : Nat
  st : Nat
  mx : Nat
  cp : Nat
  clkhi : Word
  yielded : Bool
  /-- the cycle in which it entered the PC table (R25) -/
  since : Nat
  cls : Option Cls
  state : SState
  tvec : DWord
  epc : DWord
  ecause : Word
  eva : DWord
  eclause : Word
  ediff : DWord
  efrid : Word
  /-- the pool slot it owns on its course (R285), SAMPLE of the record owned last, and RDEPTH of a node strand -/
  owned : Option Nat
  sample : DWord
  rdepth : Nat
  /-- side block as read at wave formation, updated by its REPORTs (R325) -/
  side : BitVec 512
  /-- T of the last REPORT taken (R327) -/
  report : Option Word
  /-- bit k: gk is uncorrectable (R379) -/
  poison : BitVec 256
  /-- bit k: the program has written gk since the latest operation in flight with that destination was issued (R58) -/
  wrote : BitVec 256
  /-- the name of its latest strong read in program order, with the core and name count of the write that the read returned;
  none: no strand's (R190, R195) -/
  strong : Nat × Option (Nat × Nat)
  /-- the address whose missing page holds a strand in FAULT-HELD (R372), and the slots of the instruction it is held at, which
  SKIP passes over (R377) -/
  heldVa : DWord
  heldLen : Nat
  deriving DecidableEq, Repr

/-- Keyring modes (R141). -/
inductive KMode where
  | solo | count | mask
  deriving DecidableEq, Repr, Inhabited

/-- The words of an MMA a signature names (Table 11.6). -/
structure MmaOp where
  /-- 0 MMA, 1 MMA.SP, 2 MMA.CX -/
  form : Fin 3
  slot : Slot
  a : MSrc
  b : MSrc
  fw : GReg
  sa : GReg
  sb : GReg
  md : GReg
  deriving DecidableEq, Repr, Inhabited

/-- One signature of an open round: its slot, the signer and its STRANDID, the MMA (none: an abstention),
the address and clause state at which the signer faults if the round fails, and the slots of its word. -/
structure Sig where
  slot : Nat
  sid : Nat
  strandId : Nat
  mma : Option MmaOp
  pc : DWord
  cls : Option Cls
  len : Nat
  deriving DecidableEq, Repr, Inhabited

structure Keyring where
  mode : KMode
  expect : Nat
  base : Nat
  members : BitVec 64
  round : Nat
  slots : List Sig
  deriving DecidableEq, Repr, Inhabited

/-- A keyring at team creation (R141). -/
def Keyring.fresh : Keyring := ⟨.solo, 1, 0, 0, 0, []⟩

/-- A kernel descriptor (Table 4.7). -/
structure Kernel where
  index : Nat
  entry : Nat
  width : Nat
  kind : Nat
  shkind : Nat
  regs : Nat
  team : Nat
  latches : Nat
  scratch : Nat
  l1 : Nat
  payload : Nat
  nodeIdx : Nat
  depth : Nat
  codesize : Nat
  deriving DecidableEq, Repr, Inhabited

/-- Which kind of team: a gang team, a wave of a node, a wave of a shader (Table 2.4). -/
inductive TKind where
  | gang
  | node (n : Nat)
  | shader (kind index : Nat)
  deriving DecidableEq, Repr, Inhabited

structure Team where
  tid : Nat
  seq : Nat
  gangId : Nat
  teamId : Nat
  kind : TKind
  kernel : Kernel
  image : DWord
  core : Nat
  /-- the course block of the context area its course state is saved in (R246, R381) -/
  block : Nat
  sregs : Vector Word 64
  /-- the latest cycle in which a word wrote a shared register (R140) -/
  sregTime : Option Nat
  keyrings : Vector Keyring 16
  scratch : Bytes
  rgu : Nat
  scu : Nat
  l1u : Nat
  /-- new sizes (scratchpad and L1 units) that a CARVE has got and that wait for copy entries begun before (R183) -/
  carve : Option (Nat × Nat)
  l1 : Bytes
  /-- words of L1 with the fill that brought each (R187, R193) -/
  l1Fills : List (Nat × Nat)
  /-- strands and physical words whose L1 copy the strand may no longer read, having read a newer value (R187) -/
  barred : List (Nat × Nat)
  /-- its gang has been chosen for pre-emption: it issues no new clause (R31) -/
  saving : Bool
  /-- SYNCG arrivals of its gang that a restored image counts beyond the strands in LATCH there (R382, R383) -/
  extra : Int
  deriving DecidableEq, Repr

/-- A bundle between its formation and its clause end or switch point (R23). `pc` is the address of the
next slot, or of the header before the fetch. -/
structure Bundle where
  core : Nat
  pipe : Nat
  seq : Nat
  pc : DWord
  /-- the clause state; none before the header is fetched -/
  cls : Option Cls
  fetched : Bool
  /-- the remaining slots as fetched -/
  words : List DWord
  /-- its strands, in LANEPOS order -/
  lanes : List Nat
  /-- the uncorrectable registers that its next word reads have been counted (R368, R379) -/
  counted : Bool
  deriving DecidableEq, Repr, Inhabited

/-! ### Operations in flight -/

/-- One lane of a load: where its bytes come from and where they go. -/
structure LaneLoad where
  sid : Nat
  d : GReg
  width : Width
  acc : Acc
  /-- the destination words with their values once the sector has been read, without those written already (R58, R171) -/
  came : Option (List (GReg × Word))
  deriving DecidableEq, Repr, Inhabited

/-- Which event returns a result. -/
inductive ResKind where
  | div | sfu | load
  /-- the old value of an ATOM that has been performed -/
  | atom
  /-- the status of a KEYPASS whose pass is complete -/
  | pass
  deriving DecidableEq, Repr, Inhabited

/-- One row of a gather table entry (R259), with where its NEVAL stands and the slots it takes. -/
structure NRow where
  sid : Nat
  tid : Nat
  seq : Nat
  ty : Ty
  f16out : Bool
  outn : Nat
  inn : Nat
  d : GReg
  x : List Word
  pc : DWord
  cls : Option Cls
  len : Nat
  deriving DecidableEq, Repr

/-- The load words: a GATHER reads each line once (R178), an LDA waits for rows (R254). -/
inductive LoadKind where
  | ld | gather | lda
  deriving DecidableEq, Repr, Inhabited

/-- What an acquire does when its read is bound (R190, R195): the acquire of a scope; after promotion, of a write that a
strand of another core made visible at a name count; of a write that no strand made. -/
inductive Acquire where
  | scope (sc : Scope)
  | promoted (core stamp : Nat)
  | engine
  deriving DecidableEq, Repr, Inhabited

/-- What is in flight. -/
inductive FlightOp where
  /-- LD, GATHER and LDA: its strands, the lanes still to return, scope, order, whether an ORDER 3 read has returned a write
  of another core or of no strand (R195), the line buffers by physical address / 128, and the word -/
  | load (sids : List Nat) (lanes : List LaneLoad) (sc : Scope) (o : Order) (far : Bool) (buf : List (Nat × Bytes))
      (kind : LoadKind)
  /-- a result known at issue, or bound since: LDS, RLD, SFU forms, DIV, REM, NHANDLE.BIND, a performed ATOM; the words
  still to be written. An ATOM that acquires holds back its strand's later accesses until its words are written -/
  | result (kind : ResKind) (sid : Nat) (ws : List (GReg × Word)) (acq : Option Acquire)
  /-- QSTAT, read when it returns: its FN and operand -/
  | qstat (sid : Nat) (d : GReg) (fn : Fin 3) (v : Word)
  /-- ST, SCATTER, and the write of an ATOM performed at its course: strands whose ST is lowered, the address of an ST or of
  a SCATTER's line, bytes at physical addresses, and the issue of a SCATTER that the line is one of (none: not a SCATTER) -/
  | store (sids : List Nat) (acc : Acc) (data : List (Nat × Byte)) (sc : Scope) (o : Order) (grp : Option Nat)
  /-- CPSTAT, read when it returns: the ring header's scratchpad address -/
  | cpstat (sid : Nat) (d : GReg) (base : Nat)
  /-- STS and RST: only the counter is outstanding -/
  | scratchStore (sid : Nat)
  /-- RED and ATOM: `grp` names the issue, whose lanes apply in ascending LANEPOS -/
  | red (sid : Nat) (acc : Acc) (ty : RType) (op : ROp) (v : DWord) (sc : Scope) (o : Order) (grp : Nat)
  | atom (sid : Nat) (acc : Acc) (w : Width) (op : AtomOp) (signed : Bool) (v new : DWord) (sc : Scope)
      (o : Order) (acqrel : Bool) (d : GReg) (grp : Nat)
  /-- a fence of one strand, until its conditions hold -/
  | fence (sid : Nat) (sc : Scope) (o : Order)
  | pref (sc : Scope) (acc : Acc)
  /-- KEYGET, or a KEYPASS to a TEAMID; `grp` names the issue, whose lanes apply in ascending LANEPOS -/
  | keyget (sid : Nat) (acc : Acc) (d : GReg) (grp : Nat)
  | keypass (sid : Nat) (acc : Acc) (d : GReg) (target : Word)
  | keydrop (sid : Nat) (acc : Acc) (grp : Nat)
  /-- CWB 0, CINV 1, CDISC 2 -/
  | cacheOp (sid : Nat) (acc : Acc) (what : Fin 3) (sc : Scope) (mask : Word) (grp : Nat)
  | monitorRead (sid : Nat)
  | tclr (sids : List Nat) (acc : Acc) (bind : Bool) (slot : Nat) (seed : DWord)
  | twait (sid : Nat) (slot : Nat) (rows : Nat)
  | obst (sid : Nat) (ob : ObReg) (off : Nat) (data : List Byte)
  /-- a request at its core; then its tile's result rows -/
  | nevalReq (row : NRow) (handle : Word) (record : DWord)
  | nevalRes (sid : Nat) (ws : List (GReg × Word)) (handle : Word)
  | revoke (sid : Nat) (d : GReg) (handle : Word)
  /-- a ring publication, binding store or stream trigger: an ST recognised at issue -/
  | publish (sid : Nat) (acc : Acc) (v : Word) (sc : Scope)
  | binding (sid : Nat) (acc : Acc) (v : Word) (sc : Scope)
  | trigger (sid : Nat) (engines : BitVec 4) (acc : Acc) (v : Word) (sc : Scope)
  deriving DecidableEq, Repr

structure Flight where
  id : Nat
  /-- issuing team, launch and core -/
  tid : Nat
  seq : Nat
  core : Nat
  /-- the order in which a course cache, or the scratchpad, accepted it; none before that -/
  acc : Option Nat
  op : FlightOp
  deriving DecidableEq, Repr

/-! ### Courses -/

/-- A tile slot (Table 11.2). -/
structure Tile where
  claim : Option (Nat × Nat)
  bound : Bool
  base : DWord
  /-- physical address of the tile, taken at TCLR and at each issue -/
  pa : Nat
  wm : Nat
  pend : Nat
  rng : BitVec 128
  deriving DecidableEq, Repr, Inhabited

def Tile.reset : Tile := ⟨none, false, 0, 0, 64, 0, 0⟩

/-- An operand of an issued round: rows captured from registers, or where the engine reads them. -/
inductive Operand where
  | rows (r : List (Nat × List Byte))
  /-- a descriptor, with the physical base of each 64 KiB page its chunks lie in, as translated at issue -/
  | mem (desc : DWord) (pages : List (Nat × Nat))
  | ob (n : ObReg)
  deriving DecidableEq, Repr, Inhabited

/-- A round that has passed its vote and checks (R235). -/
structure Round where
  /-- the model's name count when it completed, which orders it among TCLRs (R231) -/
  stamp : Nat
  seq : Nat
  tid : Nat
  kg : Nat
  number : Nat
  op : MmaOp
  fw : Word
  /-- claim index of its tile slot -/
  tslot : Nat
  /-- the tile's base, its physical address and page attributes, as translated at issue -/
  tileVa : DWord
  tilePa : Nat
  page : Page
  /-- signers and their slots -/
  signers : List (Nat × Nat)
  a : Operand
  b : Operand
  /-- scale bytes of row s of A and of B, metadata registers of row s -/
  sa : List (Nat × List Byte)
  sb : List (Nat × List Byte)
  md : List (Nat × List Word)
  /-- slots with no contribution: present slots only -/
  present : List Nat
  deriving DecidableEq, Repr, Inhabited

/-- A gather table entry: its layer record, its rows, and the cycles in which row 0 arrived and the tile was formed. -/
structure NEntry where
  index : Nat
  handle : Word
  record : DWord
  rows : List NRow
  since : Nat
  formed : Option Nat
  deriving DecidableEq, Repr

/-- What takes the matrix engine. -/
inductive Job where
  | round (r : Round)
  | tile (e : NEntry)
  deriving DecidableEq, Repr

/-- The round in the engine: rows applied, and its operands once read. -/
structure Running where
  r : Round
  rows : Nat
  /-- operand rows read; none until they are read -/
  ops : Option (List (Nat × List Byte) × List (Nat × List Byte))
  deriving DecidableEq, Repr

/-- Bin keys (R290). -/
inductive Key where
  | trav (cell cls : Nat)
  | shade (kind index : Nat)
  | node (n rdepth : Nat)
  deriving DecidableEq, Repr, Inhabited

inductive RState where
  | binned | traversing | owned
  /-- binned and held on a brick read with this fault cause -/
  | held (cause : Nat)
  deriving DecidableEq, Repr, Inhabited

/-- A claimed, taken slot of the record pool: its index in the launch's quota on the course. -/
structure Rec where
  idx : Nat
  seq : Nat
  charge : Option Nat
  state : RState
  image : BitVec 1024
  /-- the visibility entry of a TRACE.VIS ray -/
  vis : Option Acc
  /-- a side block that has still to be written to the stack area -/
  side : Option (BitVec 512)
  /-- the error kind the ray ended with; 0 none (R312) -/
  err : Nat
  deriving DecidableEq, Repr, Inhabited

structure Bin where
  idx : Nat
  seq : Nat
  key : Key
  /-- slot indices with arrival cycles, oldest first; an image may restore one from before the first cycle (R384) -/
  recs : List (Nat × Int)
  /-- the cycle of its latest prefetch trigger (R328) -/
  trig : Option Nat
  deriving DecidableEq, Repr, Inhabited

structure Wave where
  seq : Nat
  key : Key
  recs : List Nat
  /-- their arrival cycles, and their side blocks as read at formation (R325) -/
  times : List Int
  sides : List (BitVec 512)
  order : Nat
  since : Nat
  deriving DecidableEq, Repr, Inhabited

structure Course where
  fenced : Bool
  /-- clean copies, dirty KEYED bytes -/
  clean : Bytes
  dirty : Bytes
  /-- lines of PINNED pages that are pinned here (R166) -/
  pins : List Nat
  /-- pending delta elements: word-aligned physical address, type, operation, value, and the launches that contributed, the
  latest last -/
  deltas : List (Nat × RType × ROp × DWord × List Nat)
  tiles : List Tile
  obClaim : List (Option Nat)
  obs : List Bytes
  queue : List Job
  running : Option Running
  waiting : List Round
  gather : List NEntry
  recs : List Rec
  bins : List Bin
  /-- records that wait for a bin: launch, slot, key, arrival cycle -/
  arrivals : List (Nat × Nat × Key × Int)
  waves : List Wave
  curBin : Option Nat
  served : Nat
  lastCur : Option Nat
  /-- the launch of the last current bin: bins of one value are taken in launch order (R291, log 20) -/
  lastSeq : Nat
  /-- traversal units with their rays: unit, launch and slot -/
  trav : List (Nat × Nat × Nat)
  /-- bricks the prefetcher has requested, and those it holds -/
  brickReq : List Nat
  bricks : List Nat
  counters : List DWord
  deriving DecidableEq, Repr

def Course.reset : Course where
  fenced := false
  clean := []
  dirty := []
  pins := []
  deltas := []
  tiles := List.replicate 16 Tile.reset
  obClaim := List.replicate 4 none
  obs := List.replicate 4 []
  queue := []
  running := none
  waiting := []
  gather := []
  recs := []
  bins := []
  arrivals := []
  waves := []
  curBin := none
  served := 0
  lastCur := none
  lastSeq := 0
  trav := []
  brickReq := []
  bricks := []
  counters := List.replicate 32 0

/-! ### Launch unit, tables, host -/

/-- A command record's fields (Table 13.4). -/
structure Command where
  teamsM1 : Nat
  ctxAddr : DWord
  extAddr : DWord
  gaddr : DWord
  seed : DWord
  image : DWord
  depSeq : Nat
  gangs : Nat
  obMask : BitVec 4
  tslots : Nat
  kdesc : Nat
  depEn : Bool
  indirect : Bool
  overlap : Bool
  opc : Nat
  deriving DecidableEq, Repr, Inhabited

/-- A launch extension (Table 14.1) with its node table and the kernels it reaches. -/
structure Ext where
  root : DWord
  cellMap : DWord
  stackA : DWord
  spillA : DWord
  stkEnt : Nat
  reserve : Nat
  quota : Nat
  waveTo : Nat
  maxs : List Word
  mins : List Word
  /-- NQ and LEVEL of each node -/
  nodes : List (Nat × Nat)
  /-- passing KIND 1 and KIND 2 descriptors, ascending index -/
  kernels : List Kernel
  deriving DecidableEq, Repr, Inhabited

/-- What a spilled record image has no bytes for. -/
structure Kept where
  /-- course ordinal and slot -/
  course : Nat
  idx : Nat
  vis : Option Acc
  side : Option (BitVec 512)
  err : Nat
  /-- the key of a record on the arrival list -/
  key : Option Key
  /-- the brick fault that holds it, and the answer given while it was spilled -/
  held : Option Nat
  answer : Option (Fin 5)
  deriving DecidableEq, Repr

inductive LState where
  | accepted | admitted
  /-- being discarded; recorded FAULTED with this CAUSE at the end -/
  | dying (cause : Nat)
  | completed | faulted
  deriving DecidableEq, Repr, Inhabited

structure Launch where
  seq : Nat
  queue : Nat
  prio : Nat
  courses : BitVec 32
  engines : BitVec 4
  cmd : Command
  kernel : Kernel
  ext : Option Ext
  state : LState
  /-- gang count, once known -/
  count : Option Nat
  /-- next gang or entry record -/
  placed : Nat
  /-- waves placed: the TEAMID of the next -/
  waves : Nat
  /-- a machine check is charged to it -/
  marked : Bool
  /-- the die timebase at acceptance, whose low 48 bits are TACC -/
  tacc : Nat
  tadm : Nat
  digest : BitVec 49
  /-- a record launch chosen for pre-emption, and one that is saved: creation of entry records pauses (R303) -/
  saving : Bool
  spilled : Bool
  kept : List Kept
  /-- bytes of a team image slot of its context area (R381) -/
  tsize : Nat
  deriving DecidableEq, Repr

structure Queue where
  produced : Word
  lastSeq : Word
  consumed : Word
  caBase : DWord
  qpn : Nat
  caLog2 : Nat
  devOk : Bool
  enabled : Bool
  /-- DISABLE has come; ENABLED falls when the last accepted command is done -/
  disabling : Bool
  /-- ABORT has come: PRODUCED stays at CONSUMED until the queue is disabled (R268) -/
  aborting : Bool
  pset : Nat
  prio : Nat
  /-- the placement set as it stood at ENABLE (R277) -/
  courses : BitVec 32
  engines : BitVec 4
  deriving DecidableEq, Repr, Inhabited

def Queue.reset : Queue := ⟨0, 0, 0, 0, 0, 4, false, false, false, false, 0, 0, 0, 0⟩

/-- Why work is held or reported (R376). -/
inductive FKind where
  | data | fetch | round | tile | brick | check
  deriving DecidableEq, Repr, Inhabited

/-- What a strand image (R382) has no bytes for. -/
structure SavedStrand where
  sid : Nat
  strandId : Nat
  ended : Bool
  /-- parked on counters at 255 (R52) -/
  full : Bool
  /-- in LATCH at SYNCG, with its scope -/
  barrier : Option Scope
  /-- the fault cause it is held on, and the answer given while it was saved, with the record's number and fault -/
  held : Option Nat
  heldVa : DWord
  heldLen : Nat
  answer : Option (Fin 5 × FKind × BitVec 3 × DWord × Nat)
  owned : Option Nat
  sample : DWord
  rdepth : Nat
  side : BitVec 512
  report : Option Word
  stall : Option Stall
  /-- its stalled record has got its slot meanwhile, so it is READY when restored; true: of an .E form, which then ends -/
  granted : Option Bool
  carve : Option GReg
  efrid : Word
  /-- cycles it had waited in the PC table (R25, R356) -/
  waited : Nat
  wrote : BitVec 256
  strong : Nat × Option (Nat × Nat)
  deriving DecidableEq, Repr

/-- A round whose captured operands are saved in a round image of a course block (R246, R381). -/
structure SavedRound where
  block : Nat
  /-- its round image -/
  index : Nat
  /-- whether it had a place in the engine's queue -/
  queued : Bool
  round : Round
  deriving DecidableEq, Repr

/-- What a team image (R383) has no bytes for: its image slot, its names, its course and the open signatures of
its keyrings. -/
structure SavedTeam where
  slot : Nat
  teamId : Nat
  tid : Nat
  /-- its course block -/
  block : Nat
  kind : TKind
  rings : Vector Keyring 16
  strands : List SavedStrand
  deriving DecidableEq, Repr

/-- A gang, or an episode or wave team, in the saved-gang list (R279). What its context area has no bytes for
is kept here. -/
structure Saved where
  seq : Nat
  gangId : Nat
  prio : Nat
  /-- saved because all its strands stalled (R294) -/
  stalled : Bool
  teams : List SavedTeam
  rounds : List SavedRound
  /-- TWAITs, TCLRs and LDAs that wait for rows or rounds -/
  flights : List Flight
  deriving DecidableEq, Repr

/-- A key in the key table (R215): block address / 4096, holder team, pass target. -/
structure KeyEntry where
  block : Nat
  /-- physical address of the block -/
  pa : Nat
  holder : Nat
  passing : Option Nat
  deriving DecidableEq, Repr, Inhabited

/-- A handle table entry that is BOUND or has moved from its reset generation (R256). -/
structure Handle where
  index : Nat
  bound : Bool
  gen : Nat
  launch : Nat
  record : DWord
  deriving DecidableEq, Repr, Inhabited

/-- A leaf result in a TLB (R350). -/
structure TlbEntry where
  /-- whose: a course, 32 for the launch unit and the port, or 64 + a core -/
  unit : Nat
  vpage : Nat
  page : Page
  deriving DecidableEq, Repr, Inhabited

/-- A non-leaf entry in the walk cache (R350): its level, the virtual address bits above it, and its value. -/
structure WalkEntry where
  level : Nat
  part : Nat
  entry : Nat
  deriving DecidableEq, Repr, Inhabited

/-- What a walk finds. -/
inductive Found where
  | page (p : Page)
  | absent
  | refused
  deriving DecidableEq, Repr, Inhabited

/-- A walk in flight (R351): its 64 KiB page, the units that have joined it, and what it finds. -/
structure Miss where
  vpage : Nat
  units : List Nat
  found : Found
  deriving DecidableEq, Repr, Inhabited

/-- A binding of the scratchpad mapping table (R354). -/
structure Binding where
  entry : Nat
  tid : Nat
  soff : Nat
  len : Nat
  ring : Bool
  /-- an unbinding waits for the ring -/
  unbinding : Bool
  deriving DecidableEq, Repr, Inhabited

/-- Ring header values read at a publication (R329). -/
structure RingPar where
  rlog2 : Nat
  rbase : Nat
  sbase : Nat
  eng : Nat
  deriving DecidableEq, Repr, Inhabited

/-- A begun copy entry: its number, its 32 bytes (none: beyond the scratchpad), and the parameters. -/
structure Begun where
  k : Nat
  par : RingPar
  entry : Option (BitVec 256)
  /-- what the host refuses of it: nothing 0, its payload 1, its stamp 2 (R340) -/
  refused : Fin 3
  /-- the tensor map of a TMAP entry as read at its beginning: the STATUS of that read, and the map -/
  map : Option (Nat × BitVec 512)
  /-- uncorrectable words of memory met while it runs (R380) -/
  bad : List Nat
  deriving DecidableEq, Repr, Inhabited

structure Ring where
  tid : Nat
  /-- scratchpad address of the header -/
  base : Nat
  target : Word
  cons : Word
  done : Word
  ovr : Bool
  /-- RLOG2 as last read -/
  rlog2 : Nat
  errCode : Nat
  errSeq : Word
  /-- publications in force: end count and parameters, oldest first -/
  pars : List (Word × RingPar)
  /-- outstanding CP raises: strand and P -/
  pubs : List (Nat × Word)
  begun : List Begun
  /-- the name count at its latest begun entry: engines serve their rings round-robin (R339) -/
  served : Nat
  deriving DecidableEq, Repr, Inhabited

/-- A fault cause, posted or not yet posted. -/
structure FRec where
  cause : Nat
  /-- record number; none until posted -/
  frid : Option Nat
  kind : FKind
  /-- ACC bits: read, write, execute -/
  acc : BitVec 3
  va : DWord
  seq : Nat
  gangId : Word
  teamId : Word
  strandId : Word
  aux : Word
  held : Nat
  /-- what a write to the record asks for and the device has not yet done: 0 free, 2 RETRY, 3 SKIP, 4 TRAP -/
  answer : Option (Fin 5)
  /-- an ignored write has left a trace, which the device has still to write over -/
  restore : Bool
  deriving DecidableEq, Repr, Inhabited

/-- A queue pair (R389, R393). -/
structure Qp where
  qpn : Nat
  args : List DWord
  deriving DecidableEq, Repr, Inhabited

structure Reg where
  index : Nat
  base : DWord
  len : DWord
  rkey : Word
  read : Bool
  write : Bool
  deriving DecidableEq, Repr, Inhabited

structure Region where
  index : Nat
  qpn : Nat
  remote : DWord
  rkey : Word
  len : DWord
  deriving DecidableEq, Repr, Inhabited

/-- Why the port refuses a message: a remote access error (R390), or a packet of an unsupported kind, or a QP that is not ready
(R389, R393). -/
inductive Nak where
  | access | invalid
  deriving DecidableEq, Repr, Inhabited

/-- What the device sends out of its port. -/
inductive Out where
  /-- a management answer or the boot message: header and result bytes -/
  | answer (qpn : Nat) (hdr : BitVec 128) (result : List Byte)
  /-- RDMA READ response, atomic response, acknowledgement -/
  | readResp (qpn : Nat) (data : List Byte)
  | atomResp (qpn : Nat) (old : DWord)
  | ack (qpn : Nat)
  | nak (qpn : Nat) (why : Nak)
  /-- an RDMA WRITE towards the host: QP, remote address, rkey, bytes -/
  | write (qpn : Nat) (remote : DWord) (rkey : Word) (data : List Byte)
  /-- an encoded frame as RTP: engine, destination, port, timestamp, bitstream -/
  | rtp (engine : Nat) (dest : BitVec 128) (port : Nat) (stamp : DWord) (data : List Byte)
  deriving DecidableEq, Repr

structure Stream where
  desc : DWord
  dest : BitVec 128
  /-- ARG4 and ARG5 of STREAM -/
  arg4 : DWord
  arg5 : DWord
  /-- configured, and the settings of a STREAM that waits for the next frame -/
  on : Bool
  next : Option (DWord × BitVec 128 × DWord × DWord)
  /-- a trigger waits: the time of the latest one -/
  pending : Option DWord
  /-- FRAME value, time of the trigger, composed frame bytes (none: an error), ERR -/
  busy : Option (Word × DWord × Option (List Byte) × Word)
  deriving DecidableEq, Repr

def Stream.reset : Stream := ⟨0, 0, 0, 0, false, none, none, none⟩

/-- The life record (Table 18.6). -/
structure Life where
  powered : Nat
  temp : List Nat
  volt : List Nat
  corrected : List Nat
  uncorrected : List Nat
  retrains : List Nat
  fences : List Nat
  /-- retrains of the four GDDR-7 channel groups (R399) -/
  channels : List Nat
  /-- the time of the latest update -/
  since : Nat
  deriving DecidableEq, Repr

def Life.reset : Life :=
  ⟨0, List.replicate 16 0, List.replicate 16 0, List.replicate 76 0, List.replicate 76 0, List.replicate 9 0,
    List.replicate 32 0, List.replicate 4 0, 0⟩

/-- Addresses of the device areas (Table 20.3). -/
structure Areas where
  qt : Nat
  j : Nat
  sm : Nat
  fr : Nat
  cnt : Nat
  deriving DecidableEq, Repr, Inhabited

/-- The Avger link: no peer (a single package), a Pair with the link up, or lost (R394). -/
inductive Link where
  | absent | up | lost
  deriving DecidableEq, Repr, Inhabited

/-- The boot and firmware part of the package (R393, R397, R398). -/
structure Firmware where
  /-- the installed image, of which version and digest are taken -/
  image : List Byte
  rollback : Nat
  identity : List Byte
  /-- arguments of the provisioning record in flash, and those in force since device reset -/
  provision : List DWord
  peer : List DWord
  linkUp : Bool
  /-- the boot message is being repeated -/
  booting : Bool
  deriving DecidableEq, Repr

/-- The whole machine. -/
structure State where
  /-- which agents move next; then `Config.freeTurn` (the model's own, DESIGN CHOICE, log 5) -/
  plan : List Turn
  turns : Nat
  fresh : Nat
  nextId : Nat
  timebase : DWord
  /-- place in its cycle of the latest turn (the model's own, log 47) -/
  rank : Nat
  strands : List Strand
  teams : List Team
  bundles : List Bundle
  flights : List Flight
  /-- starvation counts of the cores (R25) -/
  starve : List Nat
  courses : List Course
  mem : Bytes
  /-- bytes of the die cache that are newer than memory, and clean bytes -/
  dieCache : Bytes
  dieClean : Bytes
  /-- lines of this die that the peer holds: bit 32 of their sharer vectors (R211) -/
  peerLines : List Nat
  /-- who last wrote a byte, if a strand did: physical address, core, and the name count when it became visible (R195) -/
  writers : List (Nat × Nat × Nat)
  brickPart : Nat
  troot : Nat
  trootSet : Bool
  tlb : List TlbEntry
  walkCache : List WalkEntry
  /-- the miss table, and the misses that wait for room in it: unit and page -/
  misses : List Miss
  missWait : List (Nat × Nat)
  /-- virtual addresses whose accesses in this turn walk although a TLB holds their page (R352, log 48) -/
  afresh : List Nat
  /-- the words of a result that an event of this turn writes (R58; the model's own, log 18) -/
  words : BitVec 64
  keys : List KeyEntry
  handles : List Handle
  bindings : List Binding
  rings : List Ring
  queues : List Queue
  seq : Nat
  rrAccept : Nat
  rrAdmit : Nat
  /-- launches that keep their admission turn, in the order in which they lacked room (R276) -/
  turnOf : List Nat
  launches : List Launch
  saved : List Saved
  psets : List (BitVec 32 × BitVec 4)
  faults : List FRec
  frid : Nat
  counters : List DWord
  areas : Areas
  dieId : Nat
  link : Link
  qps : List Qp
  regs : List Reg
  regions : List Region
  streams : List Stream
  outbox : List Out
  fw : Firmware
  /-- management commands that have arrived and are not complete, the one that is executed first: OP, SUB and message (R391) -/
  commands : List (Nat × Nat × MgmtMsg)
  life : Life
  throttle : Nat
  /-- intervals of 1,048,576 cycles whose snapshot has been written (R369) -/
  snaps : Nat
  powered : Bool
  deriving DecidableEq, Repr

/-- Stops of the model itself. Every fault of Table 19.1 is a next state: this type has no member that a
program can raise. -/
inductive Fault where
  /-- raised by `step` when the package is powered off (R399): nothing runs until power returns. Safe. -/
  | poweredOff
  deriving DecidableEq, Repr, Inhabited

/-- Why an instruction has no meaning. -/
inductive Refusal where
  /-- raised by `exec` for an instruction without a meaning yet; safe -/
  | notModelled (mnemonic : String)
  /-- raised by `exec` for an instruction word when no bundle is issuing it; `step` never asks for that. Safe. -/
  | noBundle
  deriving DecidableEq, Repr, Inhabited

/-- The machine right after device reset (R5, Tables 11.2, 13.2, 18.1, 20.3; logs 1 to 5 name the rest). -/
def State.reset : State where
  plan := []
  turns := 0
  fresh := 0
  nextId := 0
  timebase := 0
  rank := 0
  strands := []
  teams := []
  bundles := []
  flights := []
  starve := List.replicate 256 0
  courses := List.replicate 32 Course.reset
  mem := []
  dieCache := []
  dieClean := []
  peerLines := []
  writers := []
  brickPart := 0
  troot := 0
  trootSet := false
  tlb := []
  walkCache := []
  misses := []
  missWait := []
  afresh := []
  words := BitVec.allOnes 64
  keys := []
  handles := []
  bindings := []
  rings := []
  queues := List.replicate 64 Queue.reset
  seq := 0
  rrAccept := 0
  rrAdmit := 0
  turnOf := []
  launches := []
  saved := []
  psets := (BitVec.allOnes 32, 0) :: List.replicate 7 (0, 0)
  faults := []
  frid := 0
  counters := List.replicate 32 0
  areas := ⟨0x2F_0000_0000, 0x2F_0100_0000, 0x2F_0200_0000, 0x2F_0300_0000, 0x2F_0400_0000⟩
  dieId := 0
  link := .absent
  qps := []
  regs := []
  regions := []
  streams := List.replicate 4 Stream.reset
  outbox := []
  fw := ⟨[], 0, [], List.replicate 6 0, List.replicate 6 0, false, false⟩
  commands := []
  life := Life.reset
  throttle := 0
  snaps := 0
  powered := true

end Sys2Proof.Machine
end

