-- ==== Sys2Proof/Machine/Ops.lean ====
section
/-! DEFINITION. The named operations over memory, registers, strands and courses: sparse bytes, translation,
the storage tiers, counters, switch points, and taking an exception with the return from one. -/

namespace Sys2Proof

/-- Whether masked-off lanes are zeroed. -/
def Ctl.zeroes (c : Ctl) : Bool :=
  match c.mask with
  | none => false
  | some m => m.zero

/-- Slots a word occupies: the companion word counts (R49). -/
def Ctl.slots (c : Ctl) : Nat := if c.mask.isSome then 2 else 1

end Sys2Proof

namespace Sys2Proof.Machine

/-! ### Sparse bytes -/

/-- The byte listed at an address. -/
def cellGet : Bytes → Nat → Option Byte
  | [], _ => none
  | (x, v) :: m, a => if x = a then some v else if a < x then none else cellGet m a

/-- List a byte at an address. -/
def cellPut (a : Nat) (v : Byte) : Bytes → Bytes
  | [] => [(a, v)]
  | (x, w) :: m =>
    if a < x then (a, v) :: (x, w) :: m else if x = a then (a, v) :: m else (x, w) :: cellPut a v m

/-- List nothing at an address. -/
def cellErase (a : Nat) : Bytes → Bytes
  | [] => []
  | (x, w) :: m => if x = a then m else if a < x then (x, w) :: m else (x, w) :: cellErase a m

/-- What an address that is not listed reads as: CALOG2 of a queue descriptor is 4 at reset (Table 13.2), every other
byte 0 (DESIGN CHOICE, log 1). -/
def memDefault (a : Nat) : Byte :=
  if 0x2F_0000_0000 ≤ a ∧ a < 0x2F_0000_1000 ∧ a % 64 = 16 then 4 else 0

/-- The byte memory holds. -/
def memGet (m : Bytes) (a : Nat) : Byte := (cellGet m a).getD (memDefault a)

/-- Store one byte, keeping the canonical form. -/
def memPut (a : Nat) (v : Byte) (m : Bytes) : Bytes := if v = memDefault a then cellErase a m else cellPut a v m

/-- Addresses strictly rising. -/
def sortedCells : Bytes → Bool
  | [] => true
  | [_] => true
  | (x, _) :: (y, w) :: m => decide (x < y) && sortedCells ((y, w) :: m)

/-- The canonical form: addresses strictly rising, no listed byte equal to what an unlisted address reads as. -/
def Memory.wf (m : Bytes) : Bool := sortedCells m && m.all (fun c => c.2 != memDefault c.1)

/-- A little-endian value (R3). -/
def leNat : List Byte → Nat
  | [] => 0
  | b :: bs => b.toNat + 256 * leNat bs

/-- The n bytes of a value, low byte first (R3). -/
def leBytes : Nat → Nat → List Byte
  | 0, _ => []
  | n + 1, v => BitVec.ofNat 8 v :: leBytes n (v / 256)

/-- n consecutive bytes through a byte reader. -/
def readN (f : Nat → Byte) (a n : Nat) : List Byte := (List.range n).map (fun i => f (a + i))

def memGetN (m : Bytes) (a n : Nat) : Nat := leNat (readN (memGet m) a n)

/-- Store consecutive bytes. -/
def memPutL (a : Nat) : List Byte → Bytes → Bytes
  | [], m => m
  | v :: vs, m => memPutL (a + 1) vs (memPut a v m)

def cellPutL (a : Nat) : List Byte → Bytes → Bytes
  | [], m => m
  | v :: vs, m => cellPutL (a + 1) vs (cellPut a v m)

def cellEraseN (a : Nat) : Nat → Bytes → Bytes
  | 0, m => m
  | n + 1, m => cellEraseN (a + 1) n (cellErase a m)

/-- Erase the whole 32-bit words that cover n bytes at a (R210). -/
def eraseWords (a n : Nat) (m : Bytes) : Bytes := cellEraseN (a / 4 * 4) ((a + n + 3) / 4 * 4 - a / 4 * 4) m

/-- Replace the element with an index. -/
def modAt {α : Type} (f : α → α) : Nat → List α → List α
  | _, [] => []
  | 0, x :: xs => f x :: xs
  | n + 1, x :: xs => x :: modAt f n xs

/-! ### Strands -/

/-- The four outstanding counters of R51, in the order of the WAIT bits. -/
inductive Ctr where
  | ld | st | mx | cp
  deriving DecidableEq, Repr

def Ctr.bit : Ctr → BitVec 4
  | .ld => 1
  | .st => 2
  | .mx => 4
  | .cp => 8

/-- The i-th register of a span. -/
def gAt (r : GReg) (i : Nat) : GReg := ⟨(r.1 + i) % 256, Nat.mod_lt _ (by decide)⟩

/-- The value of a predicate: p15 reads true (R41, R85). -/
def Strand.pred (x : Strand) (q : PReg) : Bool := if q = 15 then true else x.p.get q

/-- Write a predicate: a write to p15 is discarded (R85). -/
def Strand.setP (x : Strand) (q : PReg) (v : Bool) : Strand :=
  if q = 15 then x else { x with p := x.p.set q.1 v q.2 }

/-- A register's word. -/
def Strand.reg (x : Strand) (r : GReg) : Word := x.g.get r

/-- Write a register; a whole-word write makes the word correctable again (R379). -/
def Strand.setG (x : Strand) (r : GReg) (v : Word) : Strand :=
  { x with g := x.g.set r.1 v r.2, poison := x.poison &&& ~~~(1#256 <<< r.1), wrote := x.wrote ||| (1#256 <<< r.1) }

/-- A register pair, low word in the even register (R41). -/
def Strand.pair (x : Strand) (r : GReg) : DWord := Word.pair (x.reg r) (x.reg (gAt r 1))

def Strand.setPair (x : Strand) (r : GReg) (v : DWord) : Strand :=
  (x.setG r v.lo).setG (gAt r 1) v.hi

/-- A span of registers. -/
def Strand.span (x : Strand) (r : GReg) (n : Nat) : List Word := (List.range n).map (fun i => x.reg (gAt r i))

def Strand.setSpan (x : Strand) (r : GReg) : List Word → Strand
  | [] => x
  | v :: vs => Strand.setSpan (x.setG r v) (gAt r 1) vs

/-- The registers of a span are destinations of an operation that is now in flight: no write of the program to them has come
since (R58). -/
def Strand.expects (x : Strand) (d : GReg) (n : Nat) : Strand :=
  { x with wrote := (List.range n).foldl (fun m i => m &&& ~~~(1#256 <<< (gAt d i).1)) x.wrote }

/-- A destination span with its words. -/
def spanWords (d : GReg) (ws : List Word) : List (GReg × Word) := ws.zipIdx.map (fun e => (gAt d e.2, e.1))

/-- Whether the program has written one of some registers while they were destinations (R58). -/
def Strand.races (x : Strand) (ws : List (GReg × Word)) : Bool := ws.any (fun e => x.wrote.getLsbD e.1.1)

/-- Write words that an operation in flight brings, once and whole each. A word that the program has written since the
operation was issued ends with either value (R58): the n-th free value of the list chooses. -/
def Strand.bring (x : Strand) : Nat → List (GReg × Word) → Strand
  | _, [] => x
  | n, e :: es =>
    Strand.bring (if x.wrote.getLsbD e.1.1 && (Config.freeWord n).getLsbD 0 then x
      else { x.setG e.1 e.2 with wrote := x.wrote }) (n + 1) es

/-- Zero a destination span: what MZ does to masked-off lanes (R50). -/
def Strand.zeroSpan (x : Strand) (d : GReg) (n : Nat) : Strand := x.setSpan d (List.replicate n 0)

/-- The bytes of a register span, low byte of the first register first (R3). -/
def wordsBytes (ws : List Word) : List Byte := ws.flatMap (fun w => leBytes 4 w.toNat)

/-- The words that bytes make. -/
def bytesWords : List Byte → List Word
  | a :: b :: c :: d :: r => BitVec.ofNat 32 (leNat [a, b, c, d]) :: bytesWords r
  | [] => []
  | r => [BitVec.ofNat 32 (leNat r)]

def Strand.ctr (x : Strand) : Ctr → Nat
  | .ld => x.ld
  | .st => x.st
  | .mx => x.mx
  | .cp => x.cp

def Strand.setCtr (x : Strand) (k : Ctr) (n : Nat) : Strand :=
  match k with
  | .ld => { x with ld := n }
  | .st => { x with st := n }
  | .mx => { x with mx := n }
  | .cp => { x with cp := n }

/-- Raise a counter (R51). A raise that R52 did not foresee stays at 255. -/
def Strand.raise (x : Strand) (k : Ctr) : Strand := x.setCtr k (min 255 (x.ctr k + 1))

/-- Which of the named counters are not zero. -/
def Strand.nonzero (x : Strand) (m : BitVec 4) : BitVec 4 :=
  m &&& ((if x.ld = 0 then 0 else 1) ||| (if x.st = 0 then 0 else 2) ||| (if x.mx = 0 then 0 else 4)
    ||| (if x.cp = 0 then 0 else 8))

/-- Which of the named counters stand at 255 (R52). -/
def Strand.full (x : Strand) (m : BitVec 4) : BitVec 4 :=
  m &&& ((if x.ld < 255 then 0 else 1) ||| (if x.st < 255 then 0 else 2) ||| (if x.mx < 255 then 0 else 4)
    ||| (if x.cp < 255 then 0 else 8))

/-- The word in the layout of special register CTRS (Table 5.2). -/
def Strand.ctrs (x : Strand) : Word := BitVec.ofNat 32 (x.ld + 256 * x.st + 65536 * x.mx + 16777216 * x.cp)

/-- The guard of a word (R40). -/
def Strand.active (x : Strand) (c : Ctl) : Bool := x.pred c.pred != c.pneg

/-- The mask of a companion word (R50). -/
def Strand.unmasked (x : Strand) (c : Ctl) : Bool :=
  match c.mask with
  | none => true
  | some m => x.pred m.pred != m.neg

/-- Lower a counter that an event has completed; a strand parked on it may become READY (R53, R54, R52). -/
def Strand.lower (now : Nat) (k : Ctr) (x : Strand) : Strand :=
  let x := x.setCtr k (x.ctr k - 1)
  match x.state with
  | .parked m => if x.nonzero m = 0 then { x with state := .ready, since := now } else x
  | .parkedFull m => if x.full m = 0 then { x with state := .ready, since := now } else x
  | _ => x

/-! ### Looking things up -/

def State.now (s : State) : Nat := s.timebase.toNat

def State.strand? (s : State) (sid : Nat) : Option Strand := s.strands.find? (fun x => x.sid == sid)

def State.team? (s : State) (tid : Nat) : Option Team := s.teams.find? (fun t => t.tid == tid)

def State.launch? (s : State) (seq : Nat) : Option Launch := s.launches.find? (fun l => l.seq == seq)

def State.flight? (s : State) (id : Nat) : Option Flight := s.flights.find? (fun f => f.id == id)

/-- Whether a team is resident or saved: it has not ended. -/
def State.lives (s : State) (tid : Nat) : Bool :=
  s.teams.any (fun t => t.tid == tid) || s.saved.any (fun v => v.teams.any (fun t => t.tid == tid))

def State.modStrand (s : State) (sid : Nat) (f : Strand → Strand) : State :=
  { s with strands := s.strands.map (fun x => if x.sid = sid then f x else x) }

def State.modTeam (s : State) (tid : Nat) (f : Team → Team) : State :=
  { s with teams := s.teams.map (fun t => if t.tid = tid then f t else t) }

def State.modLaunch (s : State) (seq : Nat) (f : Launch → Launch) : State :=
  { s with launches := s.launches.map (fun l => if l.seq = seq then f l else l) }

def State.modFlight (s : State) (id : Nat) (f : Flight → Flight) : State :=
  { s with flights := s.flights.map (fun x => if x.id = id then f x else x) }

def State.dropFlight (s : State) (id : Nat) : State :=
  { s with flights := s.flights.filter (fun x => x.id != id) }

def State.course (s : State) (c : Nat) : Course := s.courses.getD c Course.reset

def State.modCourse (s : State) (c : Nat) (f : Course → Course) : State :=
  { s with courses := modAt f c s.courses }

/-- Eight cores make a course (Table 1.1). -/
def courseOf (core : Nat) : Nat := core / 8

/-- The launch and the core of a team. -/
def State.seqOf (s : State) (tid : Nat) : Nat := (s.team? tid).elim 0 (fun t => t.seq)
def State.coreOf (s : State) (tid : Nat) : Nat := (s.team? tid).elim 0 (fun t => t.core)

/-- Where a team's course is. -/
def State.teamCourse (s : State) (tid : Nat) : Nat := courseOf (s.coreOf tid)

/-- Count an event in counter j of a course's group, and of the die's group for counters 0 to 7 (Table 18.5). -/
def State.count (s : State) (c j n : Nat) : State :=
  let s := s.modCourse c (fun x => { x with counters := modAt (· + BitVec.ofNat 64 n) j x.counters })
  if j < 8 then { s with counters := modAt (· + BitVec.ofNat 64 n) j s.counters } else s

/-- Put an operation in flight. -/
def State.fly (s : State) (tid : Nat) (op : FlightOp) : State :=
  { s with flights := s.flights ++ [⟨s.nextId, tid, s.seqOf tid, s.coreOf tid, none, op⟩], nextId := s.nextId + 1 }

/-- Words that an operation in flight brings to a strand (R58, R171). -/
def State.bring (s : State) (sid : Nat) (ws : List (GReg × Word)) : State :=
  let races := (s.strand? sid).elim false (fun x => x.races ws)
  let t := s.modStrand sid (fun x => x.bring s.fresh ws)
  if races then { t with fresh := s.fresh + ws.length } else t

/-- A value the spec does not state, and the machine with the next one (DESIGN CHOICE, log 6). -/
def State.free (s : State) : DWord × State := (Config.freeWord s.fresh, { s with fresh := s.fresh + 1 })

/-! ### What a fault reports (file 19) -/

/-- What a fault reports (Tables 19.2, 19.3). -/
structure Trap where
  cause : Word
  eva : DWord
  ediff : DWord
  deriving DecidableEq, Repr

/-- An ECAUSE value: CODE, SUB, FAULT. -/
def ecause (code sub fault : Nat) : Word := BitVec.ofNat 32 (code * 65536 + sub * 256 + fault)

/-- A fault of Table 19.1 that reports nothing else. -/
def Trap.plain (fault : Nat) : Trap := ⟨ecause 0 0 fault, 0, 0⟩

/-- An address fault: SUB bit 0 read, 1 write, 2 execute (Table 19.3). -/
def Trap.addr (fault : Nat) (acc : BitVec 3) (va : DWord) : Trap := ⟨ecause 0 acc.toNat fault, va, 0⟩

/-- Access kinds of a fault: bit 0 read, 1 write, 2 execute. -/
def accRead : BitVec 3 := 1
def accWrite : BitVec 3 := 2
def accExec : BitVec 3 := 4

/-- A lane's fault: the trap path, or a missing page that holds the strand (R371). -/
inductive LaneFault where
  | trap (t : Trap)
  | page (va : DWord) (acc : BitVec 3)
  deriving DecidableEq, Repr

/-! ### Physical memory and translation (files 08, 17) -/

/-- Bytes of GDDR-7 on a die: offsets 0 to 0x2F_FFFF_FFFF (R165). -/
def gddrBytes : Nat := 0x3000000000

/-- Whether a physical address is reserved: beyond GDDR-7, or on a peer that is not there (R165, R380). -/
def State.reserved (s : State) (pa : Nat) : Bool :=
  decide (gddrBytes ≤ pa % 2 ^ 51) || decide (2 ^ 52 ≤ pa) || (decide (pa / 2 ^ 51 ≠ s.dieId) && decide (s.link ≠ .up))

/-- A byte at its die cache home: the die cache's copy, newer than memory or clean, else memory (R163). -/
def State.home (s : State) (pa : Nat) : Byte :=
  (cellGet s.dieCache pa).getD ((cellGet s.dieClean pa).getD (memGet s.mem pa))

/-- A little-endian value read at home. -/
def State.homeN (s : State) (pa n : Nat) : Nat := leNat (readN s.home pa n)

/-- A canonical virtual address: bits 63:56 equal bit 55 (R165). -/
def canonical (va : DWord) : Bool := (va.extractLsb' 55 9 == 0) || (va.extractLsb' 55 9 == BitVec.allOnes 9)

/-- How a walk fails (R348). -/
inductive WalkErr where
  | notPresent | access
  deriving DecidableEq, Repr

/-- The next table of a non-leaf entry: aligned to its size and inside the walking die's GDDR-7 (R346, R348). -/
def State.nextTable (s : State) (e align : Nat) : Except WalkErr Nat :=
  let n := e / 256 % 2 ^ 44 * 256
  if n % align = 0 ∧ n % 2 ^ 51 < gddrBytes ∧ n / 2 ^ 51 = s.dieId then .ok n else .error .access

/-- The page of a leaf entry (Table 17.3). -/
def leafPage (e : Nat) (large : Bool) : Except WalkErr Page :=
  let home := e / 256 % 4
  let pa := e / 65536 % 2 ^ 36 * 65536
  if (large && (decide (pa % 2 ^ 21 ≠ 0) || decide (home = 2))) || (e.testBit 5 && decide (2 ≤ home)) then
    .error .access
  else .ok ⟨pa, e.testBit 2, e.testBit 3, e.testBit 4, e.testBit 5, e.testBit 6, e.testBit 7, home, e / 1024 % 32,
    e / 2 ^ 52 % 4096, large⟩

/-- A non-leaf entry of the walk, from the walk cache if it holds one (R350), else read at the die cache (R349). -/
def State.walkEntry (s : State) (level part pa : Nat) : Nat :=
  match s.walkCache.find? (fun e => e.level == level && e.part == part) with
  | some e => e.entry
  | none => s.homeN pa 8

/-- A page walk from TROOT (R345 to R350). -/
def State.walk (s : State) (va : DWord) : Except WalkErr Page :=
  let v := va.toNat
  let e3 := s.walkEntry 3 (v / 2 ^ 44 % 4096) (s.troot + 8 * (v / 2 ^ 44 % 4096))
  if !e3.testBit 0 then .error .notPresent else if e3.testBit 1 then .error .access else
  match s.nextTable e3 32768 with
  | .error w => .error w
  | .ok t2 =>
    let e2 := s.walkEntry 2 (v / 2 ^ 32 % 2 ^ 24) (t2 + 8 * (v / 2 ^ 32 % 4096))
    if !e2.testBit 0 then .error .notPresent else if e2.testBit 1 then .error .access else
    match s.nextTable e2 16384 with
    | .error w => .error w
    | .ok t1 =>
      let e1 := s.walkEntry 1 (v / 2 ^ 21 % 2 ^ 35) (t1 + 8 * (v / 2 ^ 21 % 2048))
      if !e1.testBit 0 then .error .notPresent
      else if e1.testBit 1 then leafPage e1 true
      else match s.nextTable e1 256 with
        | .error w => .error w
        | .ok t0 =>
          let e0 := s.homeN (t0 + 8 * (v / 2 ^ 16 % 32)) 8
          if !e0.testBit 0 then .error .notPresent
          else if !e0.testBit 1 then .error .access else leafPage e0 false

/-- The translation unit of a core (see `TlbEntry.unit`). -/
def coreUnit (core : Nat) : Nat := 64 + core

/-- The units whose TLBs an access of a unit asks: a core's own, then its course's (R350). -/
def unitsOf (unit : Nat) : List Nat := if 64 ≤ unit then [unit, (unit - 64) / 8] else [unit]

/-- Whether an entry holds a 64 KiB page. -/
def TlbEntry.holds (e : TlbEntry) (v : Nat) : Bool := if e.page.large then e.vpage / 32 == v / 32 else e.vpage == v

/-- The cached translation of a page for a unit, its core's before its course's. -/
def State.tlbHit (s : State) (unit v : Nat) : Option TlbEntry :=
  (unitsOf unit).findSome? (fun u => s.tlb.find? (fun e => e.unit == u && e.holds v))

/-- What a walk finds, and back. -/
def Found.of : Except WalkErr Page → Found
  | .ok p => .page p
  | .error .notPresent => .absent
  | .error .access => .refused
def Found.result : Found → Except WalkErr Page
  | .page p => .ok p
  | .absent => .error .notPresent
  | .refused => .error .access

/-- Whether a walk in flight is the walk of a 64 KiB page: of the page itself, or of the 2 MiB page that it has found. -/
def Miss.serves (m : Miss) (v : Nat) : Bool :=
  m.vpage == v || (match m.found with | .page p => p.large && m.vpage / 32 == v / 32 | _ => false)

/-- A unit's translation of an address: a cached one, which may be stale before a shootdown, or a walk, which the turn may
choose for an access although its page is cached (R350, R352; log 48). A miss joins the walk of its page that is in flight, and
receives the same result as every other (R351). -/
def State.translate (s : State) (unit : Nat) (va : DWord) : Except WalkErr Page :=
  if s.afresh.contains va.toNat then s.walk va
  else match s.tlbHit unit (va.toNat / 65536) with
    | some e => .ok e.page
    | none =>
      match s.misses.find? (fun m => m.serves (va.toNat / 65536)) with
      | some m => m.found.result
      | none => s.walk va

/-- The physical address of a virtual address in a page. -/
def Page.addr (p : Page) (va : DWord) : Nat := p.pa + va.toNat % (if p.large then 2 ^ 21 else 2 ^ 16)

/-- Where the bytes of an access are served: a bound window's scratchpad, the memory controller, or the caches
(R166, R170). -/
inductive Place where
  | scratch (tid addr : Nat)
  | memory
  | cached
  deriving DecidableEq, Repr

def State.place (s : State) (a : Acc) : Place :=
  if a.page.home = 3 then .memory
  else if a.page.home = 2 then
    match s.bindings.find? (fun b => b.entry == a.page.smidx && (s.team? b.tid).isSome) with
    | some b =>
      let o := a.va.toNat % 65536
      if o < b.len * 4096 then .scratch b.tid (b.soff * 4096 + o) else .cached
    | none => .cached
  else .cached

/-- The checks of R167 in their order: canonical form, alignment, presence, permission and reserved addresses. -/
def State.check (s : State) (unit : Nat) (ea : DWord) (bytes : Nat) (kind : BitVec 3) (ok : Page → Bool) :
    Except LaneFault Acc :=
  if !canonical ea then .error (.trap (.addr 7 kind ea))
  else if ea.toNat % bytes ≠ 0 then .error (.trap (.addr 5 kind ea))
  else match s.translate unit ea with
    | .error .notPresent => .error (.page ea kind)
    | .error .access => .error (.trap (.addr 7 kind ea))
    | .ok p => if ok p && !s.reserved (p.addr ea) then .ok ⟨ea, p.addr ea, p⟩ else .error (.trap (.addr 7 kind ea))

/-! ### Fetch, arrival and switch points (files 03, 05) -/

/-- A word fetched for execution: the page must be present and executable (R59). -/
def State.fetchWord (s : State) (unit : Nat) (pc : DWord) : Except WalkErr DWord :=
  if !canonical pc then .error .access else
  match s.translate unit pc with
  | .error w => .error w
  | .ok p =>
    if p.exec && !s.reserved (p.addr pc) then .ok (BitVec.ofNat 64 (s.homeN (p.addr pc) 8)) else .error .access

/-- A well-formed header: ENG not zero, bits 48:0 zero (Table 3.10). -/
def headerOk (w : DWord) : Bool := (w.extractLsb' 58 6 != 0) && (w.extractLsb' 0 49 == 0)

/-- The WAIT mask of the header at an address; 0 when the address cannot be fetched as a header, whose fault is
raised at the fetch (R53, R59). -/
def State.waitMask (s : State) (core : Nat) (pc : DWord) : BitVec 4 :=
  match s.fetchWord (coreUnit core) pc with
  | .ok w => if headerOk w then w.extractLsb' 50 4 else 0
  | .error _ => 0

/-- Enter READY, or PARKED on those of the named counters that are not zero (R53, R54, R56). -/
def Strand.readyOr (x : Strand) (now : Nat) (m : BitVec 4) : Strand :=
  if x.nonzero m = 0 then { x with state := .ready, since := now } else { x with state := .parked (x.nonzero m) }

/-- Reach the header at an address (R53), also waiting for counters a switch point names. -/
def Strand.arrive (x : Strand) (s : State) (core : Nat) (pc : DWord) (m : BitVec 4) : Strand :=
  ({ x with pc := pc, cls := none }).readyOr s.now (m ||| s.waitMask core pc)

/-- The clause state after some slots (R55). -/
def Cls.after (c : Cls) (n : Nat) : Cls := { c with left := c.left - n, idx := c.idx + n }

/-- Leave for a slot of the clause, or for the following clause when none is left. -/
def Strand.leaveAt (x : Strand) (s : State) (core : Nat) (pc : DWord) (cls : Option Cls) (m : BitVec 4) : Strand :=
  match cls with
  | some k => if k.left = 0 then x.arrive s core pc m
              else ({ x with pc := pc, cls := some k }).readyOr s.now m
  | none => x.arrive s core pc m

/-- Address of the holding clause's header (R55). -/
def Bundle.header (b : Bundle) : DWord :=
  match b.cls with
  | some k => b.pc - 8 * BitVec.ofNat 64 (k.idx + 1)
  | none => b.pc

/-- Address of the following clause (R55). -/
def Bundle.following (b : Bundle) : DWord :=
  match b.cls with
  | some k => b.pc + 8 * BitVec.ofNat 64 k.left
  | none => b.pc

/-- A waiting strand becomes READY where it stands: at a slot, or at a header, whose WAIT it then meets (R53). -/
def Strand.wake (x : Strand) (s : State) (core : Nat) : Strand :=
  match x.cls with
  | none => x.arrive s core x.pc 0
  | some _ => { x with state := .ready, since := s.now }

/-! ### The tiers (files 08 to 10) -/

def State.scratchGet (s : State) (tid a : Nat) : Byte :=
  match s.team? tid with
  | some t => memGet t.scratch a
  | none => 0

def roundsTo16 (n : Nat) : Nat := (n + 15) / 16 * 16

/-- LATBASE of a kernel (R81). -/
def Kernel.latBase (k : Kernel) : Nat := roundsTo16 k.scratch

/-- PHASE of the latch at a scratchpad address: bit 87 (Table 18.2). -/
def latchPhase (m : Bytes) (a : Nat) : Bool := (memGet m (a + 10)).getLsbD 7

/-- Strands in LATCH whose PHASE has changed return to READY; a CARVE's waits for its status (R363, R364). -/
def State.wakeLatch (s : State) (tid : Nat) (old new : Bytes) : State :=
  { s with strands := s.strands.map (fun x =>
      if x.tid = tid then
        match x.state with
        | .latch a tok _ =>
          if latchPhase old a != latchPhase new a && latchPhase new a != tok then x.wake s (s.coreOf tid) else x
        | _ => x
      else x) }

/-- Overlap of two byte ranges. -/
def overlaps (a n b m : Nat) : Bool := decide (a < b + m) && decide (b < a + n)

/-- Monitors armed on window bytes see a write to the scratchpad bytes behind them (R103, R170). -/
def State.touchWindow (s : State) (tid a n : Nat) : State :=
  { s with strands := s.strands.map (fun x =>
      match x.state with
      | .monitor m =>
        match s.place m.acc with
        | .scratch t o =>
          if m.armed && decide (t = tid) && overlaps a n o (if m.width = .n64 then 8 else 4) then
            { x with state := .monitor { m with written := true } } else x
        | _ => x
      | _ => x) }

/-- Write scratchpad bytes of a team, waking latch waiters whose PHASE the bytes change (R363). -/
def State.scratchPut (s : State) (tid a : Nat) (bs : List Byte) : State :=
  match s.team? tid with
  | none => s
  | some t =>
    let new := memPutL a bs t.scratch
    ((s.modTeam tid (fun t => { t with scratch := memPutL a bs t.scratch })).wakeLatch tid t.scratch new).touchWindow
      tid a bs.length

/-- Who sees a write: everybody; the agents of a course at TEAM and COURSE scope; or those, and at every scope the strands of
a team that holds the write's key, which reads its own dirty words (R102, R216). -/
inductive Seen where
  | all
  | course (c : Nat)
  | holder (c tid : Nat)
  deriving DecidableEq, Repr

/-- Whether a monitor of a strand sees a write. -/
def State.seenBy (s : State) (w : Seen) (x : Strand) (m : Monitor) : Bool :=
  match w with
  | .all => true
  | .course c => decide (s.teamCourse x.tid = c) && decide (m.scope = .team ∨ m.scope = .course)
  | .holder c tid => decide (x.tid = tid) || (decide (s.teamCourse x.tid = c) && decide (m.scope = .team ∨ m.scope = .course))

/-- A write to a span becomes visible: monitors armed on it will end (R103). -/
def State.touch (s : State) (w : Seen) (pa n : Nat) : State :=
  { s with strands := s.strands.map (fun x =>
      match x.state with
      | .monitor m =>
        if m.armed && overlaps pa n m.acc.pa (if m.width = .n64 then 8 else 4) && s.seenBy w x m
        then { x with state := .monitor { m with written := true } } else x
      | _ => x) }

/-- Bytes reach memory, where an access of an UNCACHED page finds them: monitors armed through such a page will end (R102, R103,
R224). -/
def State.touchMem (s : State) (pa n : Nat) : State :=
  { s with strands := s.strands.map (fun x =>
      match x.state with
      | .monitor m =>
        if m.armed && overlaps pa n m.acc.pa (if m.width = .n64 then 8 else 4) && decide (m.acc.page.home = 3)
        then { x with state := .monitor { m with written := true } } else x
      | _ => x) }

/-- Whether an address lies in the words that cover n bytes at a (R210). -/
def inWords (a n p : Nat) : Bool := decide (a / 4 * 4 ≤ p) && decide (p < (a + n + 3) / 4 * 4)

/-- The invalidations of a home write, carrying its word mask: they clear the words in every course cache but one, and a word
that is dirty there goes home and is then invalid (R211, R213). -/
def State.invalidate (s : State) (keep : Option Nat) (pa n : Nat) : State :=
  { s with
    dieCache := s.courses.zipIdx.foldl (fun m e => if keep = some e.2 then m else
      (e.1.dirty.filter (fun x => inWords pa n x.1 && !overlaps pa n x.1 1)).foldl (fun m x => cellPut x.1 x.2 m) m) s.dieCache,
    courses := s.courses.zipIdx.map (fun (x, i) =>
      if keep = some i then x
      else { x with clean := eraseWords pa n x.clean, dirty := x.dirty.filter (fun e => !inWords pa n e.1) }) }

/-- Physical bytes of the RO fields ERR and DONE of the configured stream descriptors (Table 20.4). -/
def State.streamRo (s : State) : List Nat :=
  s.streams.flatMap (fun k =>
    if k.on then [k.desc + 4, k.desc + 60].filterMap (fun va =>
      match s.translate 32 va with
      | .ok p => some (p.addr va)
      | .error _ => none)
    else [])

/-- Whether a byte is STATUS or OWNCORE of a mapping entry (Table 17.4). -/
def State.mappingRo (s : State) (pa : Nat) : Bool :=
  decide (s.areas.sm ≤ pa) && decide (pa < s.areas.sm + 65536) && ((pa - s.areas.sm) % 16 == 5 || (pa - s.areas.sm) % 16 == 6)

/-- Whether a byte of a device area is read-only to every agent: CONSUMED, LASTSEQ and PRODUCED of a queue descriptor, the
journal, STATUS and OWNCORE of a mapping entry (which the host may still write: `State.hostPut`), ERR and DONE of a stream descriptor (R6; Tables 13.2, 13.6, 17.4, 20.4). -/
def State.roByte (s : State) (pa : Nat) : Bool :=
  (decide (s.areas.qt + 32 ≤ pa) && decide (pa < s.areas.qt + 4096) && decide (32 ≤ (pa - s.areas.qt) % 64) &&
    decide ((pa - s.areas.qt) % 64 < 44)) ||
  (decide (s.areas.j ≤ pa) && decide (pa < s.areas.j + 2 ^ 21)) ||
  s.mappingRo pa || s.streamRo.any (fun a => decide (a ≤ pa) && decide (pa < a + 4))

/-- What an agent's write leaves in a byte: a read-only byte, and the ENABLED bit of a queue descriptor, keep their value. -/
def State.guard (s : State) (old : Byte) (pa : Nat) (v : Byte) : Byte :=
  if s.roByte pa then old
  else if s.areas.qt ≤ pa ∧ pa < s.areas.qt + 4096 ∧ (pa - s.areas.qt) % 64 = 0 then (v &&& 0xBF#8) ||| (old &&& 0x40#8)
  else v

/-- The bytes an agent's write leaves, at home or at the memory controller. -/
def State.guardHome (s : State) (pa : Nat) (bs : List Byte) : List Byte :=
  bs.zipIdx.map (fun e => s.guard (s.home (pa + e.2)) (pa + e.2) e.1)
def State.guardMem (s : State) (pa : Nat) (bs : List Byte) : List Byte :=
  bs.zipIdx.map (fun e => s.guard (memGet s.mem (pa + e.2)) (pa + e.2) e.1)

/-- Bytes put at the die cache home: visible at DIE scope, with the invalidations they send (R211, R194). `keep` is the course
whose own copy already holds the bytes. -/
def State.putHome (s : State) (keep : Option Nat) (pa : Nat) (bs : List Byte) : State :=
  let t : State := { s with dieCache := cellPutL pa bs s.dieCache,
                            writers := s.writers.filter (fun e => !(decide (pa ≤ e.1) && decide (e.1 < pa + bs.length))) }
  (t.invalidate keep pa bs.length).touch .all pa bs.length

/-! ### The watch over fault records (R377) -/

/-- Bytes, low first, at consecutive addresses. -/
def bytesAt (pa : Nat) (bs : List Byte) : List (Nat × Byte) := bs.zipIdx.map (fun e => (pa + e.2, e.1))

/-- What the device makes of a write to a posted record: a write of 0 to byte 0 frees a notice, one of the two answer forms
answers a record, and whatever else the write leaves will be restored. `v` is the value at byte 0, if it is written; `form`
the STATE that an answer form stores there. -/
def FRec.judge (r : FRec) (v : Option Byte) (form : Option Nat) : FRec :=
  if r.answer.isSome then { r with restore := true }
  else if r.kind = .check ∧ v = some 0 then { r with answer := some 0 }
  else match form with
    | some n => if r.kind ≠ .check ∧ 2 ≤ n ∧ n ≤ 4 then { r with answer := some (Fin.ofNat 5 n) } else { r with restore := true }
    | none => { r with restore := true }

/-- Note written bytes in the records they touch; `judged` gives the STATE that an answer form stored at their first byte. -/
def State.noteWrite (s : State) (bs : List (Nat × Byte)) (judged : Option Nat) : State :=
  { s with faults := s.faults.map (fun r =>
      match r.frid with
      | none => r
      | some k =>
        let base := s.areas.fr + 64 * (k % 4096)
        if bs.any (fun e => decide (base ≤ e.1) && decide (e.1 < base + 64)) then
          r.judge ((bs.find? (fun e => e.1 == base)).map (·.2)) (if (bs.head?.map (·.1)) = some base then judged.map (· % 256) else none)
        else r) }

/-- A strand on a core is the last writer of some bytes (R195). -/
def State.wrote (s : State) (core pa n : Nat) : State :=
  { s with writers := s.writers.filter (fun e => !(decide (pa ≤ e.1) && decide (e.1 < pa + n))) ++
      (List.range n).map (fun i => (pa + i, core, s.nextId)) }

/-- Writes of ATOMs performed at a course that have still to reach the home, and that meet a range: nothing may fall between
an ATOM's read and its write in coherence order, so they go home first (R198). -/
def State.atomsFirst (s : State) (pa n : Nat) : State :=
  s.flights.foldl (fun s f =>
    match f.op with
    | .store [] a data _ _ _ =>
      if f.acc.isSome && overlaps pa n a.pa data.length then
        (((s.putHome (some (courseOf f.core)) a.pa (data.map (·.2))).noteWrite data none).wrote f.core a.pa data.length).dropFlight f.id
      else s
    | _ => s) s

/-- A write performed at the die cache home. -/
def State.homeWrite (s : State) (keep : Option Nat) (pa : Nat) (bs : List Byte) : State :=
  (s.atomsFirst pa bs.length).putHome keep pa bs

/-- A write performed at the memory controller (HOME = UNCACHED). -/
def State.memWrite (s : State) (pa : Nat) (bs : List Byte) : State :=
  ({ s with mem := memPutL pa bs s.mem }).touch .all pa bs.length

/-- A device-area or engine write to physical memory, as a SYS access at home. -/
def State.sysWrite (s : State) (pa : Nat) (bs : List Byte) : State := s.homeWrite none pa bs

/-- The key of a block: block number is the virtual address / 4096 (R215). -/
def State.key? (s : State) (va : DWord) : Option KeyEntry := s.keys.find? (fun k => k.block == va.toNat / 4096)

/-- Write back the dirty bytes of a physical range from a course cache to the home; they stay valid and clean
(R212, R216), and their writers stay those who stored them (R195). -/
def State.writeBack (s : State) (c pa n : Nat) : State :=
  let d := (s.course c).dirty.filter (fun x => decide (pa ≤ x.1) && decide (x.1 < pa + n))
  let ours (e : Nat × Nat × Nat) : Bool := d.any (fun x => x.1 == e.1)
  let old := s.writers.filter ours
  let s := s.modCourse c (fun x =>
    { x with dirty := x.dirty.filter (fun x => !(decide (pa ≤ x.1) && decide (x.1 < pa + n))),
             clean := d.foldl (fun m e => cellPut e.1 e.2 m) x.clean })
  let t := (d.foldl (fun s e => s.homeWrite (some c) e.1 [e.2]) s).noteWrite d none
  { t with writers := t.writers.filter (fun e => !ours e) ++ old }

/-- A recall: a pass in progress completes first, the holder's dirty words go home, the key becomes FREE (R216). -/
def State.recallKey (s : State) (k : KeyEntry) : State :=
  let s := s.writeBack (s.teamCourse k.holder) k.pa 4096
  { s with keys := s.keys.filter (fun e => e.block != k.block) }

/-! ### Errors of storage (R370, R379) -/

/-- A saturating 32-bit count at an index (Table 18.6). -/
def bump32 (n i : Nat) (xs : List Nat) : List Nat := modAt (fun v => min (2 ^ 32 - 1) (v + n)) i xs

/-- Count an uncorrectable event of a unit in the life record: course caches, then bays, half-stacks, channel groups, register
files. -/
def State.countBad (s : State) (unit : Nat) (n : Nat := 1) : State :=
  { s with life := { s.life with uncorrected := bump32 n unit s.life.uncorrected } }

/-! ### Lines of the caches (R10, R13, R163, R166, R210, R211) -/

/-- The lines of which a course holds a valid word. -/
def Course.valid (x : Course) : List Nat :=
  (x.clean.map (fun (e : Host.Cell) => e.1 / 128) ++ x.dirty.map (fun (e : Host.Cell) => e.1 / 128) ++
    x.deltas.map (fun (e : Nat × RType × ROp × DWord × List Nat) => e.1 / 128)).eraseDups

/-- The lines that take a way of a course's cache: those, and pinned lines. -/
def Course.held (x : Course) : List Nat := (x.valid ++ x.pins).eraseDups

/-- Ways of the set of a line that some lines take: 2,048 sets of 16 ways (Table 1.1). -/
def waysOf (ls : List Nat) (line : Nat) : Nat := (ls.filter (fun l => l % 2048 == line % 2048)).length

/-- The sharer vector of a line: bit c for course c, bit 32 for the Avger link (R211). A course with no valid word of the line
has its bit clear (R210). -/
def State.sharers (s : State) (line : Nat) : BitVec 33 :=
  s.courses.zipIdx.foldl (fun v e => if e.1.valid.contains line then v ||| (1#33 <<< e.2) else v)
    (if s.peerLines.contains line then 1#33 <<< 32 else 0)

/-- A line of a PINNED page that comes into the cache of course PINC is pinned there, unless 8 ways of its set are already:
then it is cached as under CACHED, and PINOVF counts it (R166). -/
def State.pin (s : State) (c : Nat) (p : Page) (pa : Nat) : State :=
  let x := s.course c
  if p.home = 1 ∧ p.pinc = c ∧ !x.held.contains (pa / 128) then
    if waysOf x.pins (pa / 128) < 8 then s.modCourse c (fun x => { x with pins := x.pins ++ [pa / 128] }) else s.count c 0 1
  else s

/-- Whether a line is pinned in some course: it is not chosen for eviction (R212). -/
def State.pinned (s : State) (line : Nat) : Bool := s.courses.any (fun x => x.pins.contains line)

/-- The lines that the die cache holds: those it has bytes of, and, since it is inclusive, those that a course holds (R163). -/
def State.dieLines (s : State) : List Nat :=
  ((s.dieCache ++ s.dieClean).map (fun (e : Host.Cell) => e.1 / 128) ++ s.courses.flatMap Course.valid).eraseDups

/-- The bay of a course: eight courses each (R11). -/
def bayOfCourse (c : Nat) : Nat := c / 8

/-- The lines in the die cache portion of a bay. -/
def State.bayLines (s : State) (bay : Nat) : List Nat := s.dieLines.filter (fun l => Config.lineBay l == bay)

/-- Lines of a bay's portion of 48 MiB that the brick cache leaves (R163, R319). -/
def State.bayRoom (s : State) : Nat := (192 * 2 ^ 20 - 16 * 2 ^ 20 * s.brickPart) / 128 / 4

/-! ### The two homes of a peer address (R117, R184) -/

/-- Whether an address is in the peer's memory: DIE scope is served by this die's slice, PAIR and SYS scope by the peer's. -/
def State.foreign (s : State) (pa : Nat) : Bool := decide (pa / 2 ^ 51 ≠ s.dieId)

/-- What this die's slice holds newer of some bytes of the peer's memory goes to the peer's slice. -/
def State.toOwner (s : State) (pa n : Nat) : State :=
  let mine (e : Host.Cell) : Bool := decide (pa ≤ e.1) && decide (e.1 < pa + n) && s.foreign e.1
  let d := s.dieCache.filter mine
  { s with mem := d.foldl (fun m e => memPut e.1 e.2 m) s.mem,
           dieClean := d.foldl (fun m e => cellPut e.1 e.2 m) s.dieClean,
           dieCache := s.dieCache.filter (fun e => !mine e) }

/-- An access at a scope is performed at the owner's slice when the scope is PAIR or SYS. -/
def State.atOwner (s : State) (sc : Scope) (pa n : Nat) : State := if sc = .pair ∨ sc = .sys then s.toOwner pa n else s

/-- A read at the home brings the bytes into the die cache as clean copies. -/
def State.fillHome (s : State) (pa n : Nat) : State :=
  { s with dieClean := (List.range n).foldl (fun m i =>
      if (cellGet s.dieCache (pa + i)).isSome || (cellGet m (pa + i)).isSome then m
      else cellPut (pa + i) (memGet s.mem (pa + i)) m) s.dieClean }

/-! ### Taking an exception, and returning from one (file 19) -/

/-- ECLAUSE for a resume point (Table 19.3). -/
def eclauseOf (intrap : Bool) (cls : Option Cls) : Word :=
  let t := if intrap then 2 ^ 31 else 0
  match cls with
  | none => BitVec.ofNat 32 t
  | some k => BitVec.ofNat 32 (t + 2 ^ 30 + k.eng.toNat * 2 ^ 24 + (if k.term then 2 ^ 23 else 0)
      + (k.left - 1) % 16 * 2 ^ 19 + k.idx % 16 * 2 ^ 15)

/-- The clause state ECLAUSE holds (R387); none when INCL is 0. -/
def clsOf (w : Word) : Option Cls :=
  if w.getLsbD 30 then
    some ⟨w.extractLsb' 24 6, w.getLsbD 23, (w.extractLsb' 19 4).toNat + 1, (w.extractLsb' 15 4).toNat⟩
  else none

/-- INTRAP (Table 19.3). -/
def Strand.inTrap (x : Strand) : Bool := x.eclause.getLsbD 31

/-- End a launch as ABORT does, to be journaled with this CAUSE (R374, R268). -/
def State.endLaunch (s : State) (seq cause : Nat) : State :=
  s.modLaunch seq (fun l =>
    match l.state with
    | .accepted => { l with state := .dying cause }
    | .admitted => { l with state := .dying cause }
    | _ => l)

/-- The registers a trap entry writes (R373). -/
def Strand.enterTrap (x : Strand) (s : State) (core : Nat) (epc : DWord) (cls : Option Cls) (t : Trap)
    (frid : Word) : Strand :=
  ({ x with epc := epc, eclause := eclauseOf true cls, ecause := t.cause, eva := t.eva, ediff := t.ediff,
            efrid := frid }).arrive s core x.tvec 0

/-- Whether a strand that faults goes to its handler: it has one and is not inside it (R373, R374). -/
def Strand.trapsTo (x : Strand) : Bool := !x.inTrap && x.tvec != 0

/-- The trap path of one strand (R373): its handler, or the end of its launch (R374). -/
def State.trap (s : State) (sid : Nat) (epc : DWord) (cls : Option Cls) (t : Trap) (frid : Word) : State :=
  match s.strand? sid with
  | none => s
  | some x =>
    match s.team? x.tid with
    | none => s
    | some tm =>
      if x.trapsTo then s.modStrand sid (fun y => y.enterTrap s tm.core epc cls t frid)
      else (s.modStrand sid (fun y => { y with state := .ended })).endLaunch tm.seq 10

/-- Return from a trap (R387): INTRAP clears and the strand goes to EPC; a misaligned EPC is a double fault. -/
def State.trapReturn (s : State) (sid : Nat) : State :=
  match s.strand? sid with
  | none => s
  | some x =>
    match s.team? x.tid with
    | none => s
    | some tm =>
      if x.epc.extractLsb' 0 3 != 0 then
        (s.modStrand sid (fun y => { y with state := .ended, eclause := y.eclause &&& 0x7FFFFFFF#32 })).endLaunch
          tm.seq 10
      else s.modStrand sid (fun y =>
        let y := { y with eclause := y.eclause &&& 0x7FFFFFFF#32 }
        match clsOf y.eclause with
        | some k => { y with pc := y.epc, cls := some k, state := .ready, since := s.now }
        | none => y.arrive s tm.core y.epc 0)

/-- Form the cause of a fault record (R376). -/
def State.formFault (s : State) (kind : FKind) (acc : BitVec 3) (va : DWord) (seq : Nat) (gang team strand aux : Word)
    (held : Nat) : State :=
  { s with faults := s.faults ++ [⟨s.nextId, none, kind, acc, va, seq, gang, team, strand, aux, held, none, false⟩],
           nextId := s.nextId + 1 }

/-- Whether a strand's names come first in the order GANGID, TEAMID, STRANDID (R376). -/
def State.nameOf (s : State) (x : Strand) : Nat × Nat × Nat :=
  match s.team? x.tid with
  | some t => (t.gangId, t.teamId, x.strandId)
  | none => (0, 0, x.strandId)

def nameLe (a b : Nat × Nat × Nat) : Bool :=
  decide (a.1 < b.1) || (decide (a.1 = b.1) && (decide (a.2.1 < b.2.1) ||
    (decide (a.2.1 = b.2.1) && decide (a.2.2 ≤ b.2.2))))

/-- The least of some names. -/
def leastName : List (Nat × Nat × Nat) → Nat × Nat × Nat
  | [] => (0, 0, 0)
  | [a] => a
  | a :: b :: r => let m := leastName (b :: r); if nameLe a m then a else m

/-- Hold strands on one new fault cause; their PCs are where they will resume (R376). A walk that failed is over: they walk again
when they reissue (R350). -/
def State.hold (s : State) (sids : List Nat) (kind : FKind) (acc : BitVec 3) (va : DWord) (aux : Word) : State :=
  match s.strand? (sids.headD 0) with
  | none => s
  | some x0 =>
    let nm := leastName ((sids.filterMap s.strand?).map s.nameOf)
    let seq := (s.team? x0.tid).elim 0 (·.seq)
    let cause := s.nextId
    let s := s.formFault kind acc va seq (BitVec.ofNat 32 nm.1) (BitVec.ofNat 32 nm.2.1) (BitVec.ofNat 32 nm.2.2) aux
      sids.length
    { s with strands := s.strands.map (fun x =>
        if sids.contains x.sid then { x with state := .faultHeld cause } else x),
             misses := s.misses.filter (fun m => !m.serves (va.toNat / 65536)) }

/-! ### Issuing a word -/

/-- The word being issued: the machine so far, the lanes still in the bundle, the counters raised in them, the lanes
held on a missing page, and whether a switch point follows. -/
structure Run where
  s : State
  b : Bundle
  raised : List (Nat × BitVec 4)
  held : List (Nat × DWord × BitVec 3)
  sw : Bool

/-- What one lane does with a word. -/
inductive LaneOut where
  /-- it goes on, with the counters it raised -/
  | go (s : State) (raised : BitVec 4)
  /-- it has left the bundle for a wait, which is a switch point (R54) -/
  | wait (s : State)
  /-- it has left the bundle, and the others go on -/
  | leave (s : State)
  | fault (f : LaneFault)

def Bundle.without (b : Bundle) (sid : Nat) : Bundle := { b with lanes := b.lanes.filter (· != sid) }

/-- A lane leaves with a fault of a word of some slots (R27). -/
def Run.fault (r : Run) (sid slots : Nat) : LaneFault → Run
  | .trap t => { r with s := r.s.trap sid r.b.pc r.b.cls t 0, b := r.b.without sid }
  | .page va acc =>
    { r with s := r.s.modStrand sid (fun y => { y with pc := r.b.pc, cls := r.b.cls, heldVa := va, heldLen := slots }), b := r.b.without sid,
             held := r.held ++ [(sid, va, acc)] }

/-- Issue a word in one lane: inactive lanes change nothing (R40), masked lanes are zeroed or kept (R50). -/
def Run.lane (c : Ctl) (mz : Strand → Strand) (act : State → Bundle → Strand → LaneOut) (r : Run) (sid : Nat) : Run :=
  match r.s.strand? sid with
  | none => r
  | some x =>
    if !x.active c then r
    else if !x.unmasked c then (if c.zeroes then { r with s := r.s.modStrand sid mz } else r)
    else match act r.s r.b x with
      | .go s m => { r with s := s, raised := r.raised ++ [(sid, m)] }
      | .wait s => { r with s := s, b := r.b.without sid, sw := true }
      | .leave s => { r with s := s, b := r.b.without sid }
      | .fault f => r.fault sid c.slots f

/-- Hold the lanes of one issue page by page, one fault cause for each page (R376). -/
def holdPages (kind : FKind) : Nat → List (Nat × DWord × BitVec 3) → State → State
  | 0, _, s => s
  | _, [], s => s
  | n + 1, (sid, va, acc) :: hs, s =>
    let same := hs.filter (fun h => h.2.1.toNat / 65536 == va.toNat / 65536)
    let rest := hs.filter (fun h => h.2.1.toNat / 65536 != va.toNat / 65536)
    holdPages kind n rest (s.hold (sid :: same.map (·.1)) kind acc va 0)

/-- Put the issuing bundle back at the head, or drop it when its lanes have left. -/
def State.setHead (s : State) (b : Bundle) : State :=
  { s with bundles := if b.lanes.isEmpty then s.bundles.tail else b :: s.bundles.tail }

/-- The bundle leaves for its next slot or the following clause, each strand by itself (R54). -/
def Run.regroup (r : Run) (n : Nat) (sw : Bool) : State :=
  let pc := r.b.pc + 8 * BitVec.ofNat 64 n
  let cls := r.b.cls.map (·.after n)
  { r.s with
    strands := r.s.strands.map (fun x =>
      if r.b.lanes.contains x.sid then
        let m := if sw then ((r.raised.filter (fun e => e.1 == x.sid)).foldl (fun m e => m ||| e.2) 0#4) else 0
        x.leaveAt r.s r.b.core pc cls m
      else x),
    bundles := r.s.bundles.tail }

/-- After the lanes: hold the faulted ones, then go on with the clause, or leave at its end or at a switch point
(R54, R55). -/
def Run.finish (c : Ctl) (r : Run) : State :=
  let sw := c.sw || r.sw || !r.held.isEmpty
  let r := { r with s := holdPages .data r.held.length r.held r.s }
  let left := (r.b.cls.map (·.left)).getD 0
  if sw || decide (left ≤ c.slots) then r.regroup c.slots sw
  else r.s.setHead { r.b with pc := r.b.pc + 8 * BitVec.ofNat 64 c.slots, cls := r.b.cls.map (·.after c.slots),
                              words := r.b.words.drop c.slots, counted := false }

/-- A word whose lanes act one after another in ascending LANEPOS, each lane once. -/
def wordByLane (c : Ctl) (mz : Strand → Strand) (act : State → Bundle → Strand → LaneOut) (b : Bundle) (s : State) :
    State :=
  (b.lanes.dedup.foldl (Run.lane c mz act) ⟨s, b, [], [], false⟩).finish c

/-- What a fixed-latency word does to a strand in its bundle (R40, R50, R57). -/
def laneStep (c : Ctl) (mz f : Strand → Strand) (x : Strand) : Strand :=
  if !x.active c then x else if !x.unmasked c then (if c.zeroes then mz x else x) else f x

/-- A word that changes only its own strand, with no fault and no counter. -/
def wordOfStrand (c : Ctl) (mz f : Strand → Strand) (b : Bundle) (s : State) : State :=
  Run.finish c ⟨{ s with strands := s.strands.map (fun x => if b.lanes.contains x.sid then laneStep c mz f x else x) },
    b, [], [], false⟩

/-- R52: the bundle stops before the word; each strand parks until the counters q names for it are at most 254. -/
def State.stopBefore (s : State) (b : Bundle) (q : Strand → BitVec 4) : State :=
  { s with
    strands := s.strands.map (fun x =>
      if b.lanes.contains x.sid then
        { x with pc := b.pc, cls := b.cls, since := s.now, state := if q x = 0 then .ready else .parkedFull (q x) }
      else x),
    bundles := s.bundles.tail }

/-- A lane raises counters and puts an operation in flight. -/
def flyFrom (x : Strand) (ctrs : List Ctr) (op : FlightOp) (s : State) : LaneOut :=
  .go ((s.modStrand x.sid (fun y => ctrs.foldl Strand.raise y)).fly x.tid op)
    (ctrs.foldl (fun m k => m ||| k.bit) 0)

/-- As `flyFrom`, for an operation whose destination is a span of the lane's registers. -/
def flyTo (x : Strand) (ctrs : List Ctr) (d : GReg) (n : Nat) (op : FlightOp) (s : State) : LaneOut :=
  .go ((s.modStrand x.sid (fun y => ctrs.foldl Strand.raise (y.expects d n))).fly x.tid op)
    (ctrs.foldl (fun m k => m ||| k.bit) 0)

/-- The outcome of an instruction word: it acts on the issuing bundle, the head of `bundles`. -/
def inBundle (s : State) (f : Bundle → State → State) : Host.Outcome State Fault Refusal :=
  match s.bundles with
  | [] => .refused .noBundle
  | b :: _ => .next (f b s)

/-- A fixed-latency word with a span of n registers as destination. -/
def aluWord (c : Ctl) (d : GReg) (n : Nat) (f : Strand → Strand) (s : State) : Host.Outcome State Fault Refusal :=
  inBundle s (wordOfStrand c (fun x => x.zeroSpan d n) f)

/-- A fixed-latency word with a predicate as destination. -/
def predWord (c : Ctl) (d : PReg) (f : Strand → Strand) (s : State) : Host.Outcome State Fault Refusal :=
  inBundle s (wordOfStrand c (fun x => x.setP d false) f)

end Sys2Proof.Machine
end

