-- ==== Sys2Proof/Machine/Operands.lean ====
section
/-! DEFINITION. Operand forms: values of a type, effective addresses, access widths, and for every word its engine
class, the registers it reads, writes and names, its predicate destination and the counters it raises
(Tables 3.2, 3.7, 3.9, 4.1, 5.3, 6.5, 7.3, 7.4, 8.3, 9.2, 10.1, 10.4, 11.6, 11.7, 12.4, 14.6, 15.7, 18.3). -/

namespace Sys2Proof

/-- A 64-bit type: its operands are register pairs (R86). -/
def Ty.wide : Ty → Bool
  | .i64 | .n64 | .f64 => true
  | _ => false

/-- The I types are signed. -/
def Ty.signed : Ty → Bool
  | .i32 | .i64 | .i16 | .i8 | .i4 => true
  | _ => false

/-- Registers an operand of a type takes. -/
def Ty.regs (ty : Ty) : Nat := if ty.wide then 2 else 1

/-- Bits of an integer type. -/
def Ty.ibits : Ty → Nat
  | .i64 | .n64 => 64
  | .i16 | .n16 => 16
  | .i8 | .n8 => 8
  | .i4 => 4
  | _ => 32

/-- sat(r, T) of an integer type (R117). -/
def Ty.satInt (ty : Ty) (v : Int) : Int :=
  let n := ty.ibits
  if ty.signed then max (-(2 ^ (n - 1))) (min v (2 ^ (n - 1) - 1)) else max 0 (min v (2 ^ n - 1))

/-- Width codes that sign-extend (R45). -/
def Width.signed : Width → Bool
  | .i8 | .i16 => true
  | _ => false

/-- The destination words of a load, from its bytes (R45, R176). -/
def Width.extend (w : Width) (v : Nat) : List Word :=
  match w with
  | .n8 => [BitVec.ofNat 32 (v % 256)]
  | .i8 => [(BitVec.ofNat 8 v).signExtend 32]
  | .n16 => [BitVec.ofNat 32 (v % 65536)]
  | .i16 => [(BitVec.ofNat 16 v).signExtend 32]
  | .n32 => [BitVec.ofNat 32 v]
  | .n64 => [BitVec.ofNat 32 v, BitVec.ofNat 32 (v / 2 ^ 32)]
  | .n128 => [BitVec.ofNat 32 v, BitVec.ofNat 32 (v / 2 ^ 32), BitVec.ofNat 32 (v / 2 ^ 64), BitVec.ofNat 32 (v / 2 ^ 96)]

/-- Code of a width (Table 3.7). -/
def Width.num : Width → Nat
  | .n8 => 0 | .i8 => 1 | .n16 => 2 | .i16 => 3 | .n32 => 4 | .n64 => 5 | .n128 => 6

/-- Code of a scope (Table 3.7). -/
def Scope.num : Scope → Nat
  | .plain => 0 | .team => 1 | .course => 2 | .die => 3 | .pair => 4 | .sys => 5

/-- DIE scope or wider. -/
def Scope.atHome : Scope → Bool
  | .die | .pair | .sys => true
  | _ => false

end Sys2Proof

namespace Sys2Proof.Machine

/-! ### Integer operands (R86, R88) -/

/-- The operand's bit pattern. -/
def Strand.pat (x : Strand) (ty : Ty) (r : GReg) : Nat := if ty.wide then (x.pair r).toNat else (x.reg r).toNat

/-- val(x): sext for I types, zext for N types (R88). -/
def Strand.val (x : Strand) (ty : Ty) (r : GReg) : Int :=
  if ty.wide then (if ty.signed then (x.pair r).toInt else ((x.pair r).toNat : Int))
  else (if ty.signed then (x.reg r).toInt else ((x.reg r).toNat : Int))

/-- Write a result reduced to the type's bits. -/
def Strand.put (x : Strand) (ty : Ty) (d : GReg) (v : Int) : Strand :=
  if ty.wide then x.setPair d (BitVec.ofInt 64 v) else x.setG d (BitVec.ofInt 32 v)

/-! ### Effective addresses (R46) -/

/-- Global form: base pair plus the signed offset, modulo 2^64. -/
def Strand.ea (x : Strand) (a : GReg) (off : Off) : DWord := x.pair a + off.signExtend 64

/-- Scratchpad form without swizzle: bits 31:0 of base plus offset. -/
def Strand.sea (x : Strand) (a : GReg) (off : Off) : Word := x.reg a + off.signExtend 32

/-- The XOR swizzle: bits 6:4 take the XOR of bits (k+8):(k+6). -/
def swizzle (k : Fin 8) (a : Word) : Word :=
  if k = 0 then a else a ^^^ ((((a >>> (k.1 + 6)) &&& 7#32)) <<< 4)

end Sys2Proof.Machine

namespace Sys2Proof

/-! ### What every word names -/

/-- ENG bit of an engine class (Table 3.2). -/
inductive Engine where
  | ctl | recd | mxn | xln | mem | vec
  deriving DecidableEq, Repr

/-- Bit of the class in a 6-bit ENG field. -/
def Engine.bit : Engine → Nat
  | .ctl => 5 | .recd => 4 | .mxn => 3 | .xln => 2 | .mem => 1 | .vec => 0

/-- What the words of an instruction name: its common fields, its class, the g registers it reads at issue, those
it writes, other spans it names, its predicate destination, and the counters it raises (R41, R51). -/
structure Info where
  c : Ctl
  eng : Engine
  reads : List (GReg × Nat)
  writes : List (GReg × Nat)
  names : List (GReg × Nat)
  pdst : Option PReg
  ctrs : BitVec 4
  transfer : Bool

/-- A word of an engine class. -/
def mk (c : Ctl) (eng : Engine) (reads writes : List (GReg × Nat)) (ctrs : BitVec 4 := 0) : Option Info :=
  some ⟨c, eng, reads, writes, [], none, ctrs, false⟩

/-- A control transfer (R38). -/
def mkT (c : Ctl) (eng : Engine) (reads writes : List (GReg × Nat)) : Option Info :=
  some ⟨c, eng, reads, writes, [], none, 0, true⟩

/-- A word with a predicate destination. -/
def mkP (c : Ctl) (eng : Engine) (p : PReg) (reads writes : List (GReg × Nat)) : Option Info :=
  some ⟨c, eng, reads, writes, [], some p, 0, false⟩

/-- The registers of an MMA source that the word itself bounds (R233, R237, R238). -/
def MSrc.named : MSrc → List (GReg × Nat)
  | .reg g => [(g, 64)]
  | .mem g => [(g, 2)]
  | .ob _ => []

/-- An MMA word: its operands are read when the round completes (R57), so none is read at issue. -/
def mkM (c : Ctl) (names : List (GReg × Nat)) : Option Info := some ⟨c, .mxn, [], [], names, none, 4, false⟩

/-- The selector register of an XLANE. -/
def LaneSel.regs : LaneSel → List (GReg × Nat)
  | .reg b => [(b, 1)]
  | .imm _ => []

/-- The key register of a segment mode. -/
def Seg.regs : Seg → List (GReg × Nat)
  | .key b => [(b, 1)]
  | _ => []

/-- Registers of a NEVAL operand: counts 4 x (code + 1), two or four elements a register (Table 12.4). -/
def nevalOut (f16out : Bool) (outc : Fin 16) : Nat := 4 * (outc.1 + 1) / (if f16out then 2 else 1)
/-- Input registers of a NEVAL. -/
def nevalIn (ty : Ty) (inc : Fin 16) : Nat := 4 * (inc.1 + 1) / (if ty.isH then 2 else 4)

/-- What each instruction word names; events name nothing. -/
def Instr.info : Instr → Option Info
  | .bra c _ => mkT c .ctl [] []
  | .brx c a => mkT c .ctl [(a, 2)] []
  | .call c d _ => mkT c .ctl [] [(d, 2)]
  | .callx c d a => mkT c .ctl [(a, 2)] [(d, 2)]
  | .ret c a => mkT c .ctl [(a, 2)] []
  | .exit c => mkT c .ctl [] []
  | .yield c _ => mkT c .ctl [] []
  | .mwait c w _ d a _ => mkT c .ctl [(d, w.regs), (a, 2)] []
  | .nop c => mk c .ctl [] []
  | .launch c d a _ => mk c .ctl [(d, 1), (a, 2)] [(d, 1)] 1
  | .qstatQ c d a => mk c .ctl [(a, 1)] [(d, 1)] 1
  | .qstatLast c d a => mk c .ctl [(a, 1)] [(d, 1)] 1
  | .qstatSeq c d a => mk c .ctl [(a, 1)] [(d, 1)] 1
  | .trap c _ => mk c .ctl [] []
  | .brk c _ => mk c .ctl [] []
  | .eret c => mkT c .ctl [] []
  | .mfc c d _ => mk c .ctl [] [(d, 1)]
  | .mtc c _ a => mk c .ctl [(a, 1)] []
  | .add c ty _ d a b => mk c .vec [(a, ty.regs), (b, ty.regs)] [(d, ty.regs)]
  | .sub c ty _ d a b => mk c .vec [(a, ty.regs), (b, ty.regs)] [(d, ty.regs)]
  | .mul c _ d a b => mk c .vec [(a, 1), (b, 1)] [(d, 1)]
  | .mulh c _ d a b => mk c .vec [(a, 1), (b, 1)] [(d, 1)]
  | .mad c _ d a b cc => mk c .vec [(a, 1), (b, 1), (cc, 1)] [(d, 1)]
  | .madl c _ d a b cc => mk c .vec [(a, 1), (b, 1), (cc, 2)] [(d, 2)]
  | .div c _ d a b => mk c .vec [(a, 1), (b, 1)] [(d, 1)] 1
  | .rem c _ d a b => mk c .vec [(a, 1), (b, 1)] [(d, 1)] 1
  | .min c ty d a b => mk c .vec [(a, ty.regs), (b, ty.regs)] [(d, ty.regs)]
  | .max c ty d a b => mk c .vec [(a, ty.regs), (b, ty.regs)] [(d, ty.regs)]
  | .abs c ty _ d a => mk c .vec [(a, ty.regs)] [(d, ty.regs)]
  | .and c d a b => mk c .vec [(a, 1), (b, 1)] [(d, 1)]
  | .or c d a b => mk c .vec [(a, 1), (b, 1)] [(d, 1)]
  | .xor c d a b => mk c .vec [(a, 1), (b, 1)] [(d, 1)]
  | .andn c d a b => mk c .vec [(a, 1), (b, 1)] [(d, 1)]
  | .not c d a => mk c .vec [(a, 1)] [(d, 1)]
  | .shl c ty d a b => mk c .vec [(a, ty.regs), (b, 1)] [(d, ty.regs)]
  | .shr c ty d a b => mk c .vec [(a, ty.regs), (b, 1)] [(d, ty.regs)]
  | .sar c ty d a b => mk c .vec [(a, ty.regs), (b, 1)] [(d, ty.regs)]
  | .rot c _ d a b => mk c .vec [(a, 1), (b, 1)] [(d, 1)]
  | .catsh c _ d a b cc => mk c .vec [(a, 1), (b, 1), (cc, 1)] [(d, 1)]
  | .popc c d a => mk c .vec [(a, 1)] [(d, 1)]
  | .clz c d a => mk c .vec [(a, 1)] [(d, 1)]
  | .ctz c d a => mk c .vec [(a, 1)] [(d, 1)]
  | .brev c d a => mk c .vec [(a, 1)] [(d, 1)]
  | .fext c _ d a b => mk c .vec [(a, 1), (b, 1)] [(d, 1)]
  | .fins c d a b cc => mk c .vec [(a, 1), (b, 1), (cc, 1)] [(d, 1)]
  | .bsel c d a b => mk c .vec [(a, 2), (b, 1)] [(d, 1)]
  | .lea c _ d a b _ => mk c .vec [(a, 2), (b, 1)] [(d, 2)]
  | .sel c ty d a b _ _ => mk c .vec [(a, ty.regs), (b, ty.regs)] [(d, ty.regs)]
  | .mov c ty d a => mk c .vec [(a, ty.regs)] [(d, ty.regs)]
  | .cmp c ty _ _ d a b => mkP c .vec d [(a, ty.regs), (b, ty.regs)] []
  | .pand c _ _ d _ _ => mkP c .vec d [] []
  | .por c _ _ d _ _ => mkP c .vec d [] []
  | .pxor c _ _ d _ _ => mkP c .vec d [] []
  | .ptog c d => mk c .vec [] [(d, 1)]
  | .gtop c a b => mk c .vec [(a, 1), (b, 1)] []
  | .addImm c d a _ => mk c .vec [(a, 1)] [(d, 1)]
  | .subImm c d a _ => mk c .vec [(a, 1)] [(d, 1)]
  | .mulImm c d a _ => mk c .vec [(a, 1)] [(d, 1)]
  | .andImm c d a _ => mk c .vec [(a, 1)] [(d, 1)]
  | .orImm c d a _ => mk c .vec [(a, 1)] [(d, 1)]
  | .xorImm c d a _ => mk c .vec [(a, 1)] [(d, 1)]
  | .shlImm c d a _ => mk c .vec [(a, 1)] [(d, 1)]
  | .shrImm c d a _ => mk c .vec [(a, 1)] [(d, 1)]
  | .sarImm c d a _ => mk c .vec [(a, 1)] [(d, 1)]
  | .movi c d _ => mk c .vec [] [(d, 1)]
  | .movh c d a _ => mk c .vec [(a, 1)] [(d, 1)]
  | .fadd c _ _ _ d a b => mk c .vec [(a, 1), (b, 1)] [(d, 1)]
  | .fsub c _ _ _ d a b => mk c .vec [(a, 1), (b, 1)] [(d, 1)]
  | .fmul c _ _ _ d a b => mk c .vec [(a, 1), (b, 1)] [(d, 1)]
  | .ffma c _ _ _ d a b cc => mk c .vec [(a, 1), (b, 1), (cc, 1)] [(d, 1)]
  | .fmin c _ d a b => mk c .vec [(a, 1), (b, 1)] [(d, 1)]
  | .fmax c _ d a b => mk c .vec [(a, 1), (b, 1)] [(d, 1)]
  | .fcmp c _ _ _ d a b => mkP c .vec d [(a, 1), (b, 1)] []
  | .fclass c ty _ d a => mkP c .vec d [(a, ty.regs)] []
  | .fscale c ty _ _ d a b => mk c .vec [(a, ty.regs), (b, 1)] [(d, ty.regs)]
  | .frnd c ty _ _ d a => mk c .vec [(a, ty.regs)] [(d, ty.regs)]
  | .ffrac c ty _ d a => mk c .vec [(a, ty.regs)] [(d, ty.regs)]
  | .frcp c _ d a => mk c .vec [(a, 1)] [(d, 1)] 1
  | .frsq c _ d a => mk c .vec [(a, 1)] [(d, 1)] 1
  | .fsqrt c _ _ d a => mk c .vec [(a, 1)] [(d, 1)] 1
  | .fexp2 c _ d a => mk c .vec [(a, 1)] [(d, 1)] 1
  | .flog2 c _ d a => mk c .vec [(a, 1)] [(d, 1)] 1
  | .fsin c _ d a => mk c .vec [(a, 1)] [(d, 1)] 1
  | .fcos c _ d a => mk c .vec [(a, 1)] [(d, 1)] 1
  | .fdiv c _ _ d a b => mk c .vec [(a, 1), (b, 1)] [(d, 1)] 1
  | .dadd c _ _ _ d a b => mk c .vec [(a, 2), (b, 2)] [(d, 2)]
  | .dsub c _ _ _ d a b => mk c .vec [(a, 2), (b, 2)] [(d, 2)]
  | .dmul c _ _ _ d a b => mk c .vec [(a, 2), (b, 2)] [(d, 2)]
  | .dfma c _ _ _ d a b cc => mk c .vec [(a, 2), (b, 2), (cc, 2)] [(d, 2)]
  | .dmin c _ d a b => mk c .vec [(a, 2), (b, 2)] [(d, 2)]
  | .dmax c _ d a b => mk c .vec [(a, 2), (b, 2)] [(d, 2)]
  | .dcmp c _ _ _ d a b => mkP c .vec d [(a, 2), (b, 2)] []
  | .hadd2 c _ _ _ _ d a b => mk c .vec [(a, 1), (b, 1)] [(d, 1)]
  | .hmul2 c _ _ _ _ d a b => mk c .vec [(a, 1), (b, 1)] [(d, 1)]
  | .hfma2 c _ _ _ _ d a b cc => mk c .vec [(a, 1), (b, 1), (cc, 1)] [(d, 1)]
  | .hmin2 c _ _ d a b => mk c .vec [(a, 1), (b, 1)] [(d, 1)]
  | .hmax2 c _ _ d a b => mk c .vec [(a, 1), (b, 1)] [(d, 1)]
  | .cvt c dst src _ _ d a => mk c .vec [(a, src.regs)] [(d, dst.regs)]
  | .cvtpk c ty _ _ d a => mk c .vec [(a, ty.packCount)] [(d, 1)]
  | .cvtx c ty _ _ d a b fw => mk c .vec ((a, ty.packCount) :: (b, 1) :: (fw.map (fun f => (f, 1))).toList) [(d, 1)]
  | .amaxrd c d => mk c .vec [] [(d, 1)]
  | .amaxclr c d => mk c .vec [] [(d, 1)]
  | .rngseed c a b => mk c .vec [(a, 2), (b, 1)] []
  | .rngnext c ty d => mk c .vec [] [(d, ty.regs)]
  | .nzcnt c _ d a => mk c .vec [(a, 1)] [(d, 1)]
  | .nzmask c _ d a => mk c .vec [(a, 1)] [(d, 1)]
  | .mfs c d _ => mk c .vec [] [(d, 1)]
  | .mts c _ a => mk c .vec [(a, 1)] []
  | .movs c (.read d _) => mk c .vec [] [(d, 1)]
  | .movs c (.write _ a) => mk c .vec [(a, 1)] []
  | .ksetCount c _ a => mk c .vec [(a, 1)] []
  | .ksetMask c _ a b => mk c .vec [(a, 2), (b, 1)] []
  | .ksetFree c _ => mk c .vec [] []
  | .ksignAbstain c _ => mk c .vec [] []
  | .ksignStat c d _ => mk c .vec [] [(d, 1)]
  | .xlaneSel c ty d a s => mk c .xln ((a, ty.regs) :: s.regs) [(d, ty.regs)]
  | .xlaneShift c ty d a s => mk c .xln ((a, ty.regs) :: s.regs) [(d, ty.regs)]
  | .xlaneRot c ty d a s => mk c .xln ((a, ty.regs) :: s.regs) [(d, ty.regs)]
  | .xlaneMirr c ty d a s => mk c .xln ((a, ty.regs) :: s.regs) [(d, ty.regs)]
  | .shfx c d a b lg => mk c .xln [(a, 2 ^ lg.1), (b, 1)] [(d, 1)]
  | .vote c (.all d) _ _ => mkP c .xln d [] []
  | .vote c (.any d) _ _ => mkP c .xln d [] []
  | .vote c (.uni d) _ _ => mkP c .xln d [] []
  | .vote c (.ballot d) _ _ => mk c .xln [] [(d, 2)]
  | .laneMatch c ty _ d a q => mkP c .xln q [(a, ty.regs)] [(d, 2)]
  | .conflict c ty d a q => mkP c .xln q [(a, ty.regs)] [(d, 2)]
  | .compact c d a _ _ => mk c .xln [(a, 1)] [(d, 1)]
  | .expand c d a _ _ => mk c .xln [(a, 1)] [(d, 1)]
  | .breduce c _ _ _ _ sg d a => mk c .xln ((a, 1) :: sg.regs) [(d, 1)]
  | .bscan c _ _ _ _ sg _ d a => mk c .xln ((a, 1) :: sg.regs) [(d, 1)]
  | .bcast c ty d a _ => mk c .xln [(a, ty.regs)] [(d, ty.regs)]
  | .mergek c _ _ _ _ sg d a _ _ => mk c .xln ((a, 2) :: (sg.map (fun g => (g, 1))).toList) [(d, 4)]
  | .ld c w _ _ d a _ => mk c .mem [(a, 2)] [(d, w.regs)] 1
  | .gather c w _ _ d a _ => mk c .mem [(a, 2)] [(d, w.regs)] 1
  | .st c w _ _ d a _ => mk c .mem [(d, w.regs), (a, 2)] [] 2
  | .scatter c w _ _ d a _ => mk c .mem [(d, w.regs), (a, 2)] [] 2
  | .lds c w _ d a _ => mk c .mem [(a, 1)] [(d, w.regs)] 1
  | .sts c w _ d a _ => mk c .mem [(d, w.regs), (a, 1)] [] 2
  | .pref c _ a _ => mk c .mem [(a, 2)] []
  | .lda c w d a _ => mk c .mem [(a, 2)] [(d, w.regs)] 1
  | .atom c w _ _ op _ _ d a cc _ => mk c .mem [(a, 2), (cc, if op = .cas then 2 * w.regs else w.regs)] [(d, w.regs)] 3
  | .red c _ _ ty _ d a _ => mk c .mem [(d, if ty = .i64 then 2 else 1), (a, 2)] [] 2
  | .fence c _ _ => mk c .mem [] []
  | .syncg c _ => mk c .mem [] []
  | .keyget c d a _ => mk c .mem [(a, 2)] [(d, 1)] 1
  | .keypass c d a _ => mk c .mem [(d, 1), (a, 2)] [(d, 1)] 1
  | .keydrop c a _ => mk c .mem [(a, 2)] [] 2
  | .cwb c _ d a _ => mk c .mem [(d, 1), (a, 2)] [] 2
  | .cinv c _ d a _ => mk c .mem [(d, 1), (a, 2)] [] 2
  | .cdisc c d a _ => mk c .mem [(d, 1), (a, 2)] [] 2
  | .carve c d a _ _ => mk c .mem [(a, 1)] [(d, 1)]
  | .cpstat c d a _ => mk c .mem [(a, 2)] [(d, 1)] 1
  | .linit c d a _ => mk c .mem [(d, 2), (a, 1)] []
  | .arrive c d a _ => mk c .mem [(a, 1)] [(d, 1)]
  | .arwait c a _ => mk c .mem [(a, 1)] []
  | .lwait c d a _ => mk c .mem [(d, 1), (a, 1)] []
  | .lexp c d a _ => mk c .mem [(d, 1), (a, 1)] []
  | .ltry c d a _ => mkP c .mem d [(a, 1)] []
  | .mma c _ _ a b cc _ _ => mkM c (a.named ++ b.named ++ [(cc, 1)])
  | .mmaSp c _ _ a b cc _ _ _ => mkM c (a.named ++ b.named ++ [(cc, 1)])
  | .mmaCx c _ _ a b cc _ _ => mkM c (a.named ++ b.named ++ [(cc, 1)])
  | .tclr c _ _ a b => mk c .mxn [(a, 2), (b, 2)] [] 4
  | .wmrd c _ d => mk c .mxn [] [(d, 1)]
  | .twait c _ a => mk c .mxn [(a, 1)] [] 4
  | .obst c _ a b => mk c .mxn [(a, 4), (b, 1)] [] 4
  | .neval c ty f16out outc inc d a b => mk c .mxn [(a, nevalIn ty inc), (b, 1)] [(d, nevalOut f16out outc)] 4
  | .nhandleBind c d a => mk c .mxn [(a, 2)] [(d, 1)] 1
  | .nhandleRevoke c d a => mk c .mxn [(a, 1)] [(d, 1)] 1
  | .trace c d a b => mk c .recd [(d, 16), (a, 8), (b, 1)] []
  | .traceE c d a b => mkT c .recd [(d, 16), (a, 8), (b, 1)] []
  | .spawn c d a b => mk c .recd [(d, 16), (a, 8), (b, 1)] []
  | .spawnE c d a b => mkT c .recd [(d, 16), (a, 8), (b, 1)] []
  | .traceVis c d a b => mk c .recd [(d, 2), (a, 8), (b, 1)] []
  | .post c d a b => mk c .recd [(d, 16), (a, 2), (b, 2)] []
  | .postE c d a b => mkT c .recd [(d, 16), (a, 2), (b, 2)] []
  | .retire c => mkT c .recd [] []
  | .rld c w d _ => mk c .recd [] [(d, w.regs)] 1
  | .rst c w d _ => mk c .recd [(d, w.regs)] [] 2
  | .hitattr c d => mk c .recd [] [(d, 8)]
  | .accept c _ => mk c .recd [] []
  | .ignore c => mk c .recd [] []
  | .report c d a b _ => mkP c .recd d [(a, 1), (b, 2)] []
  | _ => none

/-- Whether every named register lies below the declared count (R41). -/
def Info.fits (m : Info) (regs : Nat) : Bool :=
  (m.reads ++ m.writes ++ m.names).all (fun e => decide (e.1.1 + e.2 ≤ regs))

end Sys2Proof

namespace Sys2Proof.Machine

/-- What MZ does in a masked-off lane: zero the g destinations and make the predicate destination false (R50, R85). -/
def maskZero (i : Instr) (x : Strand) : Strand :=
  match Instr.info i with
  | none => x
  | some m =>
    let x := m.writes.foldl (fun x e => x.zeroSpan e.1 e.2) x
    match m.pdst with
    | some q => x.setP q false
    | none => x

end Sys2Proof.Machine
end

