-- ==== Sys2Proof/Machine/Flags.lean ====
section
/-! DEFINITION. Every computation of a predicate: integer compares and how a compare combines with a predicate
(R93, Table 5.5), predicate logic (R94), and the relations of floating compares (Table 6.6). -/

namespace Sys2Proof

/-- The comparison of Table 5.5. -/
def CmpFn.holds (fn : CmpFn) (a b : Int) : Bool :=
  match fn with
  | .eq => decide (a = b)
  | .ne => decide (a ≠ b)
  | .lt => decide (a < b)
  | .le => decide (a ≤ b)
  | .gt => decide (b < a)
  | .ge => decide (b ≤ a)

/-- The relation of two values: none when one of them is NaN. -/
def FCmpFn.holds (fn : FCmpFn) (o : Option Ordering) : Bool :=
  match fn, o with
  | .eq, some .eq => true
  | .ne, some .eq => false
  | .ne, _ => true
  | .lt, some .lt => true
  | .le, some .lt => true
  | .le, some .eq => true
  | .gt, some .gt => true
  | .ge, some .gt => true
  | .ge, some .eq => true
  | .num, some _ => true
  | .nan, none => true
  | _, _ => false

end Sys2Proof

namespace Sys2Proof.Machine

/-- c combine p[q], with p[q] read before the destination is written (R93). -/
def Strand.combine (x : Strand) (k : Comb) (c : Bool) : Bool :=
  match k with
  | .none => c
  | .and q => c && x.pred q
  | .or q => c || x.pred q
  | .xor q => c != x.pred q

/-- A compare's effect on its destination predicate. -/
def Strand.setCmp (x : Strand) (d : PReg) (k : Comb) (c : Bool) : Strand := x.setP d (x.combine k c)

/-- The 16 predicates as a word, p15 reading as true (PTOG, PREDS of Table 19.8). -/
def Strand.predWord (x : Strand) : Nat :=
  ((List.range 16).map (fun k => if h : k < 16 then (if x.pred ⟨k, h⟩ then 2 ^ k else 0) else 0)).sum

/-- Set the predicates that a select word names to the bits of a value word (GTOP, R94). -/
def Strand.selectPreds (x : Strand) (v sel : Word) : Strand :=
  (List.range 15).foldl (fun x k =>
    if h : k < 16 then (if sel.getLsbD k then x.setP ⟨k, h⟩ (v.getLsbD k) else x) else x) x

end Sys2Proof.Machine
end

