-- ==== Sys2Proof/Machine/Float.lean ====
section
/-! DEFINITION. Number formats and rounding (R106 to R122): exact values as sign and fraction, one rounding function,
the random generator, MAXABS, and the special functions' bounds. -/

namespace Sys2Proof.Machine

/-! ### Formats (Table 6.1) -/

/-- What a format's top patterns mean. -/
inductive Specials where
  /-- infinities and NaNs as IEEE 754 -/
  | ieee
  /-- S.1111.111 is NaN, and there is no infinity -/
  | e4m3
  | none
  deriving DecidableEq, Repr

/-- A floating format: exponent and mantissa bits, bias, specials. -/
structure Fmt where
  e : Nat
  m : Nat
  bias : Nat
  sp : Specials
  deriving DecidableEq, Repr

def Fmt.f64 : Fmt := ⟨11, 52, 1023, .ieee⟩
def Fmt.f32 : Fmt := ⟨8, 23, 127, .ieee⟩
def Fmt.f16 : Fmt := ⟨5, 10, 15, .ieee⟩
def Fmt.bf16 : Fmt := ⟨8, 7, 127, .ieee⟩

/-- The format of a floating type. -/
def fmtOf : Ty → Fmt
  | .f64 => .f64
  | .f16 => .f16
  | .bf16 => .bf16
  | .f8e4 => ⟨4, 3, 7, .e4m3⟩
  | .f8e5 => ⟨5, 2, 15, .ieee⟩
  | .f6e3 => ⟨3, 2, 3, .none⟩
  | .f6e2 => ⟨2, 3, 1, .none⟩
  | .f4 => ⟨2, 1, 1, .none⟩
  | _ => .f32

/-- Bits of the format. -/
def Fmt.bits (f : Fmt) : Nat := 1 + f.e + f.m

/-- The sign bit's weight. -/
def Fmt.signBit (f : Fmt) : Nat := 2 ^ (f.e + f.m)

/-- Pattern of the largest finite magnitude. -/
def Fmt.maxPat (f : Fmt) : Nat :=
  match f.sp with
  | .ieee => (2 ^ f.e - 1) * 2 ^ f.m - 1
  | .e4m3 => 2 ^ (f.e + f.m) - 2
  | .none => 2 ^ (f.e + f.m) - 1

/-- Pattern of +∞ in a format that has it. -/
def Fmt.infPat (f : Fmt) : Nat := (2 ^ f.e - 1) * 2 ^ f.m

/-- The canonical NaN (R107). -/
def Fmt.nanPat (f : Fmt) : Nat :=
  match f.sp with
  | .ieee => f.infPat + 2 ^ (f.m - 1)
  | .e4m3 => 2 ^ (f.e + f.m) - 1
  | .none => 0

/-- An exact value: a finite nonzero one is num/den with its sign. -/
inductive FVal where
  | nan
  | inf (neg : Bool)
  | zero (neg : Bool)
  | fin (neg : Bool) (num den : Nat)
  deriving DecidableEq, Repr

/-- num x 2^k / den for an integer k. -/
def scaleFin (neg : Bool) (num den : Nat) (k : Int) : FVal :=
  if num = 0 then .zero neg
  else match k with
    | .ofNat n => .fin neg (num * 2 ^ n) den
    | .negSucc n => .fin neg num (den * 2 ^ (n + 1))

/-- The value a pattern denotes (R106). -/
def FVal.ofPat (f : Fmt) (p : Nat) : FVal :=
  let neg := decide (f.signBit ≤ p % (2 * f.signBit))
  let mag := p % f.signBit
  let e := mag / 2 ^ f.m
  let m := mag % 2 ^ f.m
  let top := e = 2 ^ f.e - 1
  if f.sp = .ieee ∧ top then (if m = 0 then .inf neg else .nan)
  else if f.sp = .e4m3 ∧ mag = 2 ^ (f.e + f.m) - 1 then .nan
  else if e = 0 then scaleFin neg m 1 (1 - (f.bias : Int) - f.m)
  else scaleFin neg (2 ^ f.m + m) 1 ((e : Int) - f.bias - f.m)

def FVal.neg : FVal → FVal
  | .nan => .nan
  | .inf s => .inf (!s)
  | .zero s => .zero (!s)
  | .fin s n d => .fin (!s) n d

def FVal.abs : FVal → FVal
  | .nan => .nan
  | .inf _ => .inf false
  | .zero _ => .zero false
  | .fin _ n d => .fin false n d

def FVal.isNan : FVal → Bool
  | .nan => true
  | _ => false

/-- ABS clears the sign, then NEG inverts it (R124). -/
def FVal.modify (v : FVal) (abs neg : Bool) : FVal :=
  let v := if abs then v.abs else v
  if neg then v.neg else v

/-! ### Exact arithmetic -/

/-- The exact value of a signed fraction; a zero sum takes the sign of R114. -/
def ofSigned (mode : Rnd) (n : Int) (d : Nat) : FVal :=
  if n = 0 then .zero (mode == .rd) else .fin (decide (n < 0)) n.natAbs d

def signed (neg : Bool) (n : Nat) : Int := if neg then -(n : Int) else n

/-- A sum, exact; ∞ − ∞ is invalid (R126). -/
def FVal.add (mode : Rnd) (a b : FVal) : FVal :=
  match a, b with
  | .nan, _ => .nan
  | _, .nan => .nan
  | .inf s, .inf t => if s = t then .inf s else .nan
  | .inf s, _ => .inf s
  | _, .inf t => .inf t
  | .zero s, .zero t => if s = t then .zero s else .zero (mode == .rd)
  | .zero _, .fin t n d => .fin t n d
  | .fin s n d, .zero _ => .fin s n d
  | .fin s n d, .fin t k e => ofSigned mode (signed s n * e + signed t k * d) (d * e)

/-- A product, exact; 0 x ∞ is invalid. -/
def FVal.mul (a b : FVal) : FVal :=
  match a, b with
  | .nan, _ => .nan
  | _, .nan => .nan
  | .inf _, .zero _ => .nan
  | .zero _, .inf _ => .nan
  | .inf s, .inf t => .inf (s != t)
  | .inf s, .fin t _ _ => .inf (s != t)
  | .fin s _ _, .inf t => .inf (s != t)
  | .zero s, .zero t => .zero (s != t)
  | .zero s, .fin t _ _ => .zero (s != t)
  | .fin s _ _, .zero t => .zero (s != t)
  | .fin s n d, .fin t k e => .fin (s != t) (n * k) (d * e)

/-- A quotient, exact (Table 6.7, FDIV). -/
def FVal.div (a b : FVal) : FVal :=
  match a, b with
  | .nan, _ => .nan
  | _, .nan => .nan
  | .inf _, .inf _ => .nan
  | .zero _, .zero _ => .nan
  | .inf s, .zero t => .inf (s != t)
  | .inf s, .fin t _ _ => .inf (s != t)
  | .zero s, .inf t => .zero (s != t)
  | .zero s, .fin t _ _ => .zero (s != t)
  | .fin s _ _, .inf t => .zero (s != t)
  | .fin s _ _, .zero t => .inf (s != t)
  | .fin s n d, .fin t k e => .fin (s != t) (n * e) (d * k)

/-- A comparable key of a value that is not NaN: numerator and denominator, infinities beyond every finite value. -/
def FVal.key : FVal → Int × Int × Nat
  | .nan => (0, 0, 1)
  | .inf s => (if s then -1 else 1, 0, 1)
  | .zero _ => (0, 0, 1)
  | .fin s n d => (0, signed s n, d)

/-- The order of two values; −0 equals +0, and NaN is unordered. -/
def FVal.cmp (a b : FVal) : Option Ordering :=
  if a.isNan || b.isNan then none
  else
    let x := a.key; let y := b.key
    if x.1 < y.1 then some .lt else if y.1 < x.1 then some .gt
    else
      let l := x.2.1 * y.2.2; let r := y.2.1 * x.2.2
      if l < r then some .lt else if r < l then some .gt else some .eq

/-! ### Random bits (R118 to R121) -/

def rngZ : DWord := 0x5A17C3E90B6DF248

/-- One draw: the stepped RNG and 64 bits (R119). -/
def draw (r : BitVec 128) : DWord × BitVec 128 :=
  let c : DWord := r.extractLsb' 0 64
  let k : DWord := r.extractLsb' 64 64
  let c := if c = 0 then rngZ else c
  let c := c.rotateRight 1 ^^^ (c ||| c.rotateLeft 1)
  let y := c ^^^ k
  let y := y ^^^ y.rotateLeft 23 ^^^ y.rotateLeft 41
  let y := y ^^^ y.rotateLeft 7
  (y, k ++ c)

def drawN : Nat → BitVec 128 → BitVec 128
  | 0, r => r
  | n + 1, r => drawN n (draw r).2

/-- The seed expansion E(S, t) (R120). -/
def seedExpand (seed : DWord) (t : Word) : BitVec 128 :=
  let t64 : DWord := t.setWidth 64
  let c := seed ^^^ (t64 * 0xB7E15163A4D90C2B#64)
  let k := seed.rotateLeft 32 ^^^ t64 ^^^ 0x6F4C93D158E27A35#64
  drawN 64 (k ++ c)

/-! ### Rounding (R111 to R113) -/

/-- floor(log2(num/den)). -/
def log2Frac (num den : Nat) : Int :=
  let k : Int := (Nat.log2 num : Int) - Nat.log2 den
  let lt : Bool := match k with
    | .ofNat n => decide (num < den * 2 ^ n)
    | .negSucc n => decide (num * 2 ^ (n + 1) < den)
  if lt then k - 1 else k

/-- Trailing zero bits, at most fuel. -/
def ctzNat : Nat → Nat → Nat
  | 0, _ => 0
  | n + 1, v => if v % 2 = 1 then 0 else ctzNat n (v / 2) + 1

/-- Whether to add one unit to the kept part t, for a cut-off fraction rem/den, and the RNG after it (R111, R113). -/
def roundUp (mode : Rnd) (neg : Bool) (t rem den : Nat) (rng : BitVec 128) : Bool × BitVec 128 :=
  match mode with
  | .rz => (false, rng)
  | .ru => (decide (rem ≠ 0) && !neg, rng)
  | .rd => (decide (rem ≠ 0) && neg, rng)
  | .rn => (decide (den < 2 * rem) || (decide (2 * rem = den) && t.testBit 0), rng)
  | .rna => (decide (den ≤ 2 * rem), rng)
  | .sr =>
    if rem = 0 then (false, rng)
    else
      let w := Nat.log2 den
      let d := min 64 (w - ctzNat w rem)
      let c := rem * 2 ^ d / den
      let (y, rng) := draw rng
      (decide (2 ^ d ≤ c + y.toNat % 2 ^ d), rng)

/-- num/den divided by 2^q, as quotient, remainder and divisor. -/
def cutAt (num den : Nat) (q : Int) : Nat × Nat × Nat :=
  match q with
  | .ofNat n => (num / (den * 2 ^ n), num % (den * 2 ^ n), den * 2 ^ n)
  | .negSucc n => (num * 2 ^ (n + 1) / den, num * 2 ^ (n + 1) % den, den)

/-- Overflow (Table 6.3); the pattern's magnitude, or a NaN. -/
def overflowPat (f : Fmt) (neg : Bool) (mode : Rnd) (sat : Bool) : Nat :=
  let s := if neg then f.signBit else 0
  let toMax := sat || f.sp == .none || mode == .rz || (mode == .ru && neg) || (mode == .rd && !neg)
  if toMax then f.maxPat + s else if f.sp = .e4m3 then f.nanPat else f.infPat + s

/-- round(x, F, mode) of a nonzero x = ±num/den (R111). -/
def roundFin (f : Fmt) (mode : Rnd) (sat neg : Bool) (num den : Nat) (rng : BitVec 128) : Nat × BitVec 128 :=
  let emin : Int := 1 - f.bias
  let q := max (log2Frac num den) emin - f.m
  let (t, rem, dd) := cutAt num den q
  let (up, rng) := roundUp mode neg t rem dd rng
  let y := if up then t + 1 else t
  let mag := (q + f.m - emin).toNat * 2 ^ f.m + y
  if f.maxPat < mag then (overflowPat f neg mode sat, rng)
  else ((if neg then f.signBit else 0) + mag, rng)

/-- The pattern of an arithmetic result: NaN canonical, infinities and zeros as they are, the rest rounded (R126). -/
def packVal (f : Fmt) (mode : Rnd) (v : FVal) (rng : BitVec 128) : Nat × BitVec 128 :=
  match v with
  | .nan => (f.nanPat, rng)
  | .inf s => (f.infPat + (if s then f.signBit else 0), rng)
  | .zero s => ((if s then f.signBit else 0), rng)
  | .fin s n d => roundFin f mode false s n d rng

/-- The pattern of a convert's result, with SAT (R112). -/
def convVal (f : Fmt) (mode : Rnd) (sat : Bool) (v : FVal) (rng : BitVec 128) : Nat × BitVec 128 :=
  match v with
  | .nan => ((if sat then 0 else f.nanPat), rng)
  | .inf s =>
    let sg := if s then f.signBit else 0
    ((if sat || f.sp == .none then f.maxPat + sg else if f.sp = .e4m3 then f.nanPat else f.infPat + sg), rng)
  | .zero s => ((if s then f.signBit else 0), rng)
  | .fin s n d => roundFin f mode sat s n d rng

/-- Round to an integer (R111 with q = 0). -/
def roundInt (mode : Rnd) (v : FVal) (rng : BitVec 128) : Int × BitVec 128 :=
  match v with
  | .fin s n d =>
    let (up, rng) := roundUp mode s (n / d) (n % d) d rng
    (signed s (if up then n / d + 1 else n / d), rng)
  | _ => (0, rng)

/-- Round to nearest F32 and back to a value: rn(x, F32). -/
def rn32 (v : FVal) : Nat := (packVal .f32 .rn v 0).1

/-- A subnormal pattern becomes zero of its sign (R115). -/
def Fmt.flush (f : Fmt) (p : Nat) : Nat := if p % f.signBit / 2 ^ f.m = 0 then p / f.signBit * f.signBit else p

/-- SAT on arithmetic: clamp to [+0, 1.0], NaN and −0 to +0 (R124). -/
def clampUnit (f : Fmt) (p : Nat) : Nat :=
  match FVal.ofPat f p with
  | .nan => 0
  | .inf s => if s then 0 else f.bias * 2 ^ f.m
  | .zero _ => 0
  | .fin s n d => if s then 0 else if d < n then f.bias * 2 ^ f.m else p

/-- One rounded element of an arithmetic form (R126). -/
def arithPat (f : Fmt) (mode : Rnd) (sat : Bool) (v : FVal) (rng : BitVec 128) : Nat × BitVec 128 :=
  let (p, rng) := packVal f mode v rng
  (if sat then clampUnit f p else p, rng)

/-- The lesser (or greater) operand's pattern, −0 below +0, a lone NaN ignored (R127). -/
def minMaxPat (f : Fmt) (greater : Bool) (pa pb : Nat) (a b : FVal) : Nat :=
  if a.isNan then (if b.isNan then f.nanPat else pb)
  else if b.isNan then pa
  else match a.cmp b with
    | some .lt => if greater then pb else pa
    | some .gt => if greater then pa else pb
    | _ => if (decide (f.signBit ≤ pa)) = greater then pb else pa

/-! ### MAXABS (R122) -/

/-- MAXABS after a source element of a type. -/
def maxabsStep (cur : Word) (ty : Ty) (v : FVal) : Word :=
  if v.isNan then cur
  else
    let v32 := (packVal .f32 (if ty = .f64 then .ru else .rn) v.abs 0).1
    let c := FVal.ofPat .f32 cur.toNat
    if cur.getLsbD 31 || c.isNan then BitVec.ofNat 32 v32
    else if c.cmp (FVal.ofPat .f32 v32) = some .lt then BitVec.ofNat 32 v32 else cur

/-! ### Elements of a register (R108) -/

/-- Bits from one packed element to the next. -/
def Ty.stride : Ty → Nat
  | .f16 | .bf16 | .i16 | .n16 => 16
  | .f8e4 | .f8e5 | .f6e3 | .f6e2 | .i8 | .n8 | .e8m0 => 8
  | .f4 | .i4 => 4
  | .f64 | .i64 | .n64 => 64
  | _ => 32

/-- Bits of an element. -/
def Ty.ebits : Ty → Nat
  | .f6e3 | .f6e2 => 6
  | t => Ty.stride t

/-- Element k of a value in containers. -/
def elem (ty : Ty) (v k : Nat) : Nat := v / 2 ^ (Ty.stride ty * k) % 2 ^ (Ty.ebits ty)

/-! ### Special functions (R131, Table 6.7) -/

/-- Integer square root by bits, from bit n down. -/
def isqrtFrom : Nat → Nat → Nat → Nat
  | 0, v, r => if (r + 1) * (r + 1) ≤ v then r + 1 else r
  | n + 1, v, r => isqrtFrom n v (if (r + 2 ^ (n + 1)) * (r + 2 ^ (n + 1)) ≤ v then r + 2 ^ (n + 1) else r)

def isqrt (v : Nat) : Nat := isqrtFrom (Nat.log2 v / 2 + 1) v 0

/-- Weight of a fixed-point unit: values stand as multiples of 2^-256. -/
def fixOne : Nat := 2 ^ 256

/-- A nonnegative exact result between two fixed-point bounds. -/
structure Approx where
  lo : Nat
  hi : Nat

/-- The exact fraction num/den, rounded down and up to the fixed point. -/
def approxFrac (num den : Nat) : Approx := ⟨num * fixOne / den, (num * fixOne + den - 1) / den⟩

/-- √(num/den). -/
def approxSqrt (num den : Nat) : Approx :=
  let v := num * fixOne * fixOne
  let r := isqrt (v / den)
  ⟨r, if r * r * den = v then r else r + 1⟩

/-- One ulp of F32 at a fixed-point value. -/
def ulpFix (a : Approx) : Nat :=
  let e : Int := max ((Nat.log2 (max a.lo 1) : Int) - 256) (-126) - 23
  2 ^ (e + 256).toNat

/-- Round the approximated value to nearest. -/
def roundApprox (neg : Bool) (a : Approx) : Nat :=
  if a.lo + a.hi = 0 then (if neg then 2 ^ 31 else 0)
  else (roundFin .f32 .rn false neg (a.lo + a.hi) (2 * fixOne) 0).1

/-- The device's own result where it keeps the bound, on either side of zero, else the nearest value (DESIGN CHOICE, log 9). -/
def withinOr (neg : Bool) (a : Approx) (tol : Nat) (cand : Word) : Word :=
  let ok := match FVal.ofPat .f32 cand.toNat with
    | .fin s n d =>
      let v := n * fixOne / d
      if s = neg then decide (a.hi ≤ v + tol) && decide (v ≤ a.lo + tol) else decide (a.hi + v < tol)
    | .zero _ => decide (a.hi ≤ tol)
    | _ => false
  if ok then cand else BitVec.ofNat 32 (roundApprox neg a)

/-- A special-function result pattern: infinities, zeros and exact fractions need no bound. -/
def exact32 (v : FVal) : Word := BitVec.ofNat 32 (packVal .f32 .rn v 0).1

/-- FRCP: 1/a within 1 ulp. -/
def frcpVal (w : Word) (v : FVal) : Word :=
  match v with
  | .nan => exact32 .nan
  | .inf s => exact32 (.zero s)
  | .zero s => exact32 (.inf s)
  | .fin s n d =>
    if n = d then exact32 v
    else let a := approxFrac d n; withinOr s a (ulpFix a) (Config.frcp w)

/-- FRSQ: 1/√a within 1 ulp. -/
def frsqVal (w : Word) (v : FVal) : Word :=
  match v with
  | .nan => exact32 .nan
  | .inf s => if s then exact32 .nan else exact32 (.zero false)
  | .zero s => exact32 (.inf s)
  | .fin s n d =>
    if s then exact32 .nan else if n = d then exact32 v
    else let a := approxSqrt d n; withinOr false a (ulpFix a) (Config.frsq w)

/-- FSQRT, correctly rounded. -/
def fsqrtVal (mode : Rnd) (v : FVal) : Word :=
  match v with
  | .nan => exact32 .nan
  | .inf s => if s then exact32 .nan else exact32 v
  | .zero s => exact32 (.zero s)
  | .fin s n d =>
    if s then exact32 .nan
    else let a := approxSqrt n d; BitVec.ofNat 32 (roundFin .f32 mode false false (a.lo + a.hi) (2 * fixOne) 0).1

/-- 2^(1/2^i) for i = 1 .. n, in fixed point of 2^-128, multiplied over the fraction bits of f that are set. -/
def exp2Frac : Nat → Nat → Nat → Nat → Nat → Nat
  | 0, _, _, acc, _ => acc
  | n + 1, root, f, acc, den =>
    let root := isqrt (root * 2 ^ 128)
    let acc := if den ≤ 2 * f then acc * root / 2 ^ 128 else acc
    exp2Frac n root (2 * f % den) acc den

/-- 2^x for x = ±num/den, with its bounds; x is kept inside [−300, 200], beyond which nothing changes. -/
def approxExp2 (neg : Bool) (num den : Nat) : Approx :=
  let x : Int := signed neg num
  let n := max (-300) (min 200 (x / den))
  let f := if n = x / den then (x % den).toNat else 0
  let m := exp2Frac 110 (2 * 2 ^ 128) f (2 ^ 128) den
  let at2 (v : Nat) : Nat := match n + 128 with
    | .ofNat k => v * 2 ^ k
    | .negSucc k => v / 2 ^ (k + 1)
  if f = 0 then ⟨at2 (2 ^ 128), at2 (2 ^ 128)⟩ else ⟨at2 (m - 2 ^ 30), at2 (m + 2 ^ 30) + 1⟩

def fexp2Val (w : Word) (v : FVal) : Word :=
  match v with
  | .nan => exact32 .nan
  | .inf s => if s then exact32 (.zero false) else exact32 (.inf false)
  | .zero _ => 0x3F800000
  | .fin s n d =>
    let a := approxExp2 s n d
    if n % d = 0 then BitVec.ofNat 32 (roundApprox false a)
    else withinOr false a (2 * ulpFix a) (Config.fexp2 w)

/-- Bits of log2 m for 1 ≤ m < 2 in fixed point of 2^-160: squaring, bit by bit. -/
def log2Bits : Nat → Nat → Nat → Nat
  | 0, _, acc => acc
  | n + 1, m, acc =>
    let m2 := m * m / 2 ^ 160
    if 2 ^ 161 ≤ m2 then log2Bits n (m2 / 2) (2 * acc + 1) else log2Bits n m2 (2 * acc)

/-- FLOG2: within 2 ulp, or 2^-22 in [0.5, 2]. -/
def flog2Val (w : Word) (v : FVal) : Word :=
  match v with
  | .nan => exact32 .nan
  | .inf s => if s then exact32 .nan else exact32 (.inf false)
  | .zero _ => exact32 (.inf true)
  | .fin true _ _ => exact32 .nan
  | .fin false n d =>
    let k := log2Frac n d
    let (t, rem, _) := cutAt n d (k - 160)
    if rem = 0 ∧ t = 2 ^ 160 then exact32 (ofSigned .rn k 1)
    else
      let fr := log2Bits 100 t 0
      let x : Int := k * 2 ^ 100 + fr
      let mag := x.natAbs * 2 ^ 156
      let a : Approx := ⟨mag - 2 ^ 170, mag + 2 ^ 170⟩
      let tol := if n * 2 < d ∨ 2 * d < n then 2 * ulpFix a else 2 ^ 234
      withinOr (decide (x < 0)) a tol (Config.flog2 w)

/-- π in fixed point of 2^-256, and its next value. -/
def piFix : Nat := 0x3_243F6A8885A308D313198A2E03707344A4093822299F31D0082EFA98EC4E6C89

/-- The Taylor sum of sin (odd) or cos (even) at x in fixed point, from term k. -/
def taylor : Nat → Nat → Nat → Nat → Int → Int
  | 0, _, _, _, acc => acc
  | n + 1, k, x, term, acc =>
    let term' := term * x / fixOne * x / fixOne / ((k + 1) * (k + 2))
    taylor n (k + 2) x term' (if n % 2 = 0 then acc - term' else acc + term')

/-- sin(2πf) or cos(2πf) for a first-quarter fraction f = num/den of a turn, in fixed point. -/
def trigQuarter (cosine : Bool) (num den : Nat) : Nat :=
  let x := 2 * piFix * num / den
  if cosine then (taylor 33 0 x fixOne fixOne).toNat else (taylor 33 1 x x x).toNat

/-- sin of a turn fraction in [0, 1): sign and magnitude by quarters, exact at their ends. -/
def sinTurn (num den : Nat) : Bool × Approx × Bool :=
  let q := 4 * num / den
  let r := 4 * num % den
  let neg := decide (2 ≤ q)
  let exact := decide (r = 0)
  let mag := if r = 0 then (if q % 2 = 0 then 0 else fixOne)
    else if q % 2 = 0 then trigQuarter false r (4 * den) else trigQuarter true r (4 * den)
  (neg, (if r = 0 then ⟨mag, mag⟩ else ⟨mag - 2 ^ 32, mag + 2 ^ 32⟩), exact)

/-- A nonnegative turn fraction of ±num/den, plus a quarter turn for the cosine. -/
def turnOf (neg : Bool) (num den : Nat) (quarter : Bool) : Nat × Nat :=
  let x : Int := 4 * signed neg num + (if quarter then (den : Int) else 0)
  ((x % (4 * den : Int)).toNat, 4 * den)

/-- sin or cos of a nonzero number of turns: exact at multiples of 1/4, where the sign of a zero is not stated and
is the device's (DESIGN CHOICE, log 9); else within 2^-22. -/
def trigVal (cand : Word) (neg : Bool) (num den : Nat) (cosine : Bool) : Word :=
  let (n, d) := turnOf neg num den cosine
  let (sg, a, ex) := sinTurn n d
  if ex then
    (if a.lo = 0 then (if cand = 0x80000000#32 then cand else 0) else exact32 (.fin sg 1 1))
  else withinOr sg a (2 ^ 234) cand

/-- FSIN: sin(2πa); a zero keeps its sign. -/
def fsinVal (w : Word) (v : FVal) : Word :=
  match v with
  | .nan => exact32 .nan
  | .inf _ => exact32 .nan
  | .zero s => exact32 (.zero s)
  | .fin s n d => trigVal (Config.fsin w) s n d false

def fcosVal (w : Word) (v : FVal) : Word :=
  match v with
  | .nan => exact32 .nan
  | .inf _ => exact32 .nan
  | .zero _ => 0x3F800000
  | .fin s n d => trigVal (Config.fcos w) s n d true

end Sys2Proof.Machine
end

