-- ==== Sys2Proof/Machine/Reduce.lean ====
section
/-! DEFINITION. Reductions and delta lines (R199 to R202, R227), reads at a tier (R162, R170, R201), and writes of
agents. -/

namespace Sys2Proof.Machine

/-! ### Reduction steps (Table 9.5) -/

/-- Bytes of a reduction's word or pair. -/
def redBytes (ty : RType) : Nat := if ty = .i64 then 8 else 4

/-- One rounded step on a floating element. -/
def floatRed (f : Fmt) (op : ROp) (h v : Nat) : Nat :=
  let a := FVal.ofPat f h
  let b := FVal.ofPat f v
  match op with
  | .add => (packVal f .rn (FVal.add .rn a b) 0).1
  | .min => minMaxPat f false h v a b
  | .max => minMaxPat f true h v a b

/-- One step on an integer element of n bits. -/
def intRed (sgn : Bool) (n : Nat) (op : ROp) (h v : Nat) : Nat :=
  let a : Int := if sgn then (BitVec.ofNat n h).toInt else h
  let b : Int := if sgn then (BitVec.ofNat n v).toInt else v
  match op with
  | .add => (h + v) % 2 ^ n
  | .min => if a ≤ b then h else v
  | .max => if a ≤ b then v else h

/-- One contribution combined with an element's value, one rounding per element (R200). -/
def applyRed (ty : RType) (op : ROp) (h v : Nat) : Nat :=
  match ty with
  | .f32 => floatRed .f32 op h v
  | .f16 => floatRed .f16 op (h % 65536) (v % 65536) + 65536 * floatRed .f16 op (h / 65536) (v / 65536)
  | .bf16 => floatRed .bf16 op (h % 65536) (v % 65536) + 65536 * floatRed .bf16 op (h / 65536) (v / 65536)
  | .i32 => intRed true 32 op h v
  | .n32 => intRed false 32 op h v
  | .i64 => intRed true 64 op h v

/-- The identity a delta word starts from. -/
def deltaIdent (ty : RType) (op : ROp) : Nat :=
  match ty, op with
  | .f32, .add => 0x80000000
  | .f32, .min => 0x7F800000
  | .f32, .max => 0xFF800000
  | .f16, .add => 0x80008000
  | .f16, .min => 0x7C007C00
  | .f16, .max => 0xFC00FC00
  | .bf16, .add => 0x80008000
  | .bf16, .min => 0x7F807F80
  | .bf16, .max => 0xFF80FF80
  | .i32, .add => 0
  | .i32, .min => 0x7FFFFFFF
  | .i32, .max => 0x80000000
  | .n32, .add => 0
  | .n32, .min => 0xFFFFFFFF
  | .n32, .max => 0
  | .i64, .add => 0
  | .i64, .min => 0x7FFFFFFFFFFFFFFF
  | .i64, .max => 0x8000000000000000

/-! ### Writes of agents -/

/-- A write of an agent performed at the die cache home. -/
def State.agentWrite (s : State) (keep : Option Nat) (pa : Nat) (bs : List Byte) (judged : Option Nat := none) :
    State := (s.homeWrite keep pa (s.guardHome pa bs)).noteWrite (bytesAt pa bs) judged

/-- A write of an agent performed at the memory controller. -/
def State.agentMem (s : State) (pa : Nat) (bs : List Byte) (judged : Option Nat := none) : State :=
  (s.memWrite pa (s.guardMem pa bs)).noteWrite (bytesAt pa bs) judged

/-! ### Keys of a physical range (R215, R216) -/

def State.keyAt (s : State) (pa : Nat) : Option KeyEntry := s.keys.find? (fun k => k.pa / 4096 == pa / 4096)

/-- The KEYPASS flight of a pass in progress. -/
def Flight.passes (block : Nat) (f : Flight) : Bool :=
  match f.op with
  | .keypass _ a _ _ => f.acc.isSome && a.va.toNat / 4096 == block
  | _ => false

/-- Complete the pass in progress on a block: the dirty bytes go home, the target holds the key, and the passing strand's
status 0 returns (R220). A team that has ended holds no key (R217): a pass to it leaves the block FREE. -/
def State.completePass (s : State) (k : KeyEntry) : State :=
  match k.passing with
  | none => s
  | some t =>
    let s := s.writeBack (s.teamCourse k.holder) k.pa 4096
    let s : State := { s with
      keys := if s.lives t then s.keys.map (fun e => if e.block = k.block then { e with holder := t, passing := none } else e)
              else s.keys.filter (fun e => e.block != k.block) }
    match s.flights.find? (Flight.passes k.block) with
    | some f =>
      match f.op with
      | .keypass sid _ d _ => s.modFlight f.id (fun g => { g with op := .result .pass sid [(d, 0xFFFF0000#32)] none })
      | _ => s
    | none => s

/-- Recall the key of a block: a pass in progress completes first, and the key is FREE, unless it is HELD by `tid` (R216). -/
def State.recallAt (s : State) (tid : Option Nat) (pa : Nat) : State :=
  match s.keyAt pa with
  | none => s
  | some k =>
    if k.passing = none ∧ some k.holder = tid then s
    else
      let s := s.completePass k
      match s.keyAt pa with
      | some k => s.recallKey k
      | none => s

/-- Recall the key of a block that no team of a course holds (R201). -/
def State.recallElse (s : State) (c pa : Nat) : State :=
  match s.keyAt pa with
  | none => s
  | some k => if (s.team? k.holder).isSome ∧ s.teamCourse k.holder = c then s else s.recallAt none pa

/-- Recall the keys of the blocks of a physical range from all but one team (R216). -/
def State.recallRange (s : State) (tid : Option Nat) (pa n : Nat) : State :=
  (List.range ((n + 4095) / 4096 + 1)).foldl (fun s k =>
    if pa / 4096 * 4096 + 4096 * k < pa + n then s.recallAt tid (pa / 4096 * 4096 + 4096 * k) else s) s

/-! ### Delta lines (R201) -/

/-- Bytes a delta element covers. -/
def deltaBytes (e : Nat × RType × ROp × DWord × List Nat) : Nat := redBytes e.2.1

/-- Write back the dirty bytes of a range from every course; no key changes (R212). -/
def State.flushAll (s : State) (pa n : Nat) : State :=
  (List.range s.courses.length).foldl (fun s c => s.writeBack c pa n) s

/-- A write that a course makes at the home: its own clean copy of the bytes is updated, not invalidated (R211). -/
def State.homeOwn (s : State) (c pa : Nat) (bs : List Byte) (judged : Option Nat := none) : State :=
  let new := s.guardHome pa bs
  (s.agentWrite (some c) pa bs judged).modCourse c (fun x => { x with clean := new.zipIdx.foldl (fun m e =>
    if (cellGet m (pa + e.2)).isSome then cellPut (pa + e.2) e.1 m else m) x.clean })

/-- Merge one delta element of a course into the home, with one rounding; dirty bytes under it go home first, and a key held
elsewhere is recalled but where the rule of the merge keeps every key (R201, R212, R224). The contributors ran on some core of the
course: 256 + c (R195). -/
def State.mergeDelta (s : State) (c : Nat) (e : Nat × RType × ROp × DWord × List Nat) (keepKey : Bool := false) : State :=
  let s := s.modCourse c (fun x =>
    { x with deltas := x.deltas.filter (fun h => !(h.1 == e.1 && h.2.1 == e.2.1 && h.2.2.1 == e.2.2.1)) })
  let s := if keepKey then s else s.recallElse c e.1
  let s := (s.flushAll e.1 (deltaBytes e)).atomsFirst e.1 (deltaBytes e)
  (s.homeOwn c e.1 (leBytes (deltaBytes e) (applyRed e.2.1 e.2.2.1 (s.homeN e.1 (deltaBytes e)) e.2.2.2.1.toNat))).wrote (256 + c)
    e.1 (deltaBytes e)

/-- Whether a word belongs to a tile of a course that is pinned there: the device merges its delta only at the events of R227. -/
def State.keepsDelta (s : State) (c pa : Nat) : Bool :=
  (s.course c).pins.contains (pa / 128) &&
    (s.course c).tiles.any (fun t => t.bound && decide (t.pa ≤ pa) && decide (pa < t.pa + 16384))

/-- Merge the delta elements that p names, and with them the rest of their lines: the reductions of one line reach the home in the
order in which the course accepted them (R202), but those of a pinned tile stay (R227; DEDUCED, log 63). -/
def State.mergeWith (s : State) (c : Nat) (p : Nat × RType × ROp × DWord × List Nat → Bool) (keepKey : Bool := false) : State :=
  let ds := (s.course c).deltas
  let lines := (ds.filter p).map (fun e => e.1 / 128)
  (ds.filter (fun e => p e || (lines.contains (e.1 / 128) && !s.keepsDelta c e.1))).foldl (fun s e => s.mergeDelta c e keepKey) s

/-- Merge the delta elements of a course that meet a physical range. -/
def State.mergeRange (s : State) (c pa n : Nat) (keepKey : Bool := false) : State :=
  s.mergeWith c (fun e => overlaps pa n e.1 (deltaBytes e)) keepKey

/-- Merge the delta elements of another operation or type that meet an element's word (R201). -/
def State.mergeOthers (s : State) (c pa : Nat) (ty : RType) (op : ROp) : State :=
  s.mergeWith c (fun e => overlaps pa (redBytes ty) e.1 (deltaBytes e) && !(e.1 == pa && e.2.1 == ty && e.2.2.1 == op))

/-- Merge the delta elements of a line before a reduction of it goes to the home (R202). -/
def State.mergeLine (s : State) (c pa : Nat) (ty : RType) (op : ROp) : State :=
  (s.mergeOthers c pa ty op).mergeWith c (fun e => e.1 / 128 == pa / 128 && !s.keepsDelta c e.1)

/-- A delta element's value, the identity if there is none yet. -/
def State.deltaNow (s : State) (c pa : Nat) (ty : RType) (op : ROp) : DWord :=
  match (s.course c).deltas.find? (fun e => e.1 == pa && e.2.1 == ty && e.2.2.1 == op) with
  | some e => e.2.2.2.1
  | none => BitVec.ofNat 64 (deltaIdent ty op)

/-- Give a delta element a value; the contribution is visible in its course. The latest contribution and contributor stand last (R380). -/
def State.setDelta (s : State) (c pa : Nat) (ty : RType) (op : ROp) (v : DWord) (seq : Nat) : State :=
  (s.modCourse c (fun x => { x with
    deltas := x.deltas.filter (fun e => !(e.1 == pa && e.2.1 == ty && e.2.2.1 == op)) ++ [(pa, ty, op, v,
      ((x.deltas.find? (fun e => e.1 == pa && e.2.1 == ty && e.2.2.1 == op)).elim [] (·.2.2.2.2)).filter (· != seq) ++ [seq])] })).touch
      (.course c) pa (redBytes ty)

/-- Add one contribution to a course's delta line (R201). -/
def State.addDelta (s : State) (c pa : Nat) (ty : RType) (op : ROp) (v : DWord) (seq : Nat) : State :=
  let s := s.mergeOthers c pa ty op
  s.setDelta c pa ty op (BitVec.ofNat 64 (applyRed ty op (s.deltaNow c pa ty op).toNat v.toNat)) seq

/-- What a die-scope release does in its course: merge every delta and write every dirty byte back (R189, R216). -/
def State.releaseDie (s : State) (c : Nat) : State :=
  let s := (s.course c).deltas.foldl (fun s e => s.mergeDelta c e) s
  (s.course c).dirty.foldl (fun s e => s.writeBack c e.1 1) s

/-! ### Reading at a tier -/

/-- A byte as the course cache serves it. -/
def State.courseByte (s : State) (c pa : Nat) : Byte :=
  let x := s.course c
  match cellGet x.dirty pa with
  | some v => v
  | none =>
    match cellGet x.clean pa with
    | some v => v
    | none => s.home pa

/-- A byte at the home of a scope; a holder reads its own dirty bytes (R117, R173, R216). -/
def State.byteAt (s : State) (c tid : Nat) (sc : Scope) (pa : Nat) : Byte :=
  if !sc.atHome then s.courseByte c pa
  else match s.keyAt pa with
    | some k => if k.holder = tid then (cellGet (s.course c).dirty pa).getD (s.home pa) else s.home pa
    | none => s.home pa

/-- Read the bytes of an access at a scope; a pending delta of the course merges first (R201). -/
def State.readAt (s : State) (c tid : Nat) (sc : Scope) (a : Acc) (n : Nat) : State × List Byte :=
  match s.place a with
  | .scratch t o => (s, readN (s.scratchGet t) o n)
  | .memory => (s, readN (memGet s.mem) a.pa n)
  | .cached =>
    let s := (s.mergeRange c a.pa n).fillHome a.pa n
    (s, readN (s.byteAt c tid sc) a.pa n)

/-- Words that cover n bytes at an address: base and length. -/
def wordSpan (a n : Nat) : Nat × Nat := (a / 4 * 4, (a + n + 3) / 4 * 4 - a / 4 * 4)

/-- Clear the words of a range in a team's L1 (R161). -/
def State.clearL1 (s : State) (tid pa n : Nat) : State :=
  s.modTeam tid (fun t => { t with l1 := eraseWords pa n t.l1 })

/-- Empty a team's L1 (R190). -/
def State.emptyL1 (s : State) (tid : Nat) : State :=
  s.modTeam tid (fun t => { t with l1 := [], l1Fills := [], barred := [] })

/-- Clear the words of a range in every team's L1. -/
def State.clearL1s (s : State) (pa n : Nat) : State :=
  { s with teams := s.teams.map (fun t => { t with l1 := eraseWords pa n t.l1 }) }

/-- Fill a team's L1 with whole words, which no strand is then barred from; the fill has a name of its own. -/
def State.fillL1 (s : State) (tid pa : Nat) (bs : List Byte) : State :=
  let out (a : Nat) : Bool := !(decide (pa ≤ a) && decide (a < pa + bs.length))
  { s.modTeam tid (fun t => { t with
      l1 := cellPutL pa bs t.l1,
      l1Fills := t.l1Fills.filter (fun e => out e.1) ++ (List.range (bs.length / 4)).map (fun i => (pa + 4 * i, s.nextId)),
      barred := t.barred.filter (fun e => out e.2) }) with nextId := s.nextId + 1 }

/-- Whether a range of a team's L1 came with one fill: only then may one single-copy access be served from it whole
(R187, R193). -/
def Team.oneFill (t : Team) (pa n : Nat) : Bool :=
  match (t.l1Fills.filter (fun e => inWords pa n e.1)).map (·.2) with
  | [] => true
  | k :: ks => ks.all (· == k)

end Sys2Proof.Machine
end

