-- ==== Sys2Proof/Machine/MatrixCore.lean ====
section
/-! DEFINITION. The arithmetic of matrix rounds (R240 to R245) and the mortar adders' row application (R227, R230). -/

namespace Sys2Proof.Machine

/-! ### Format words (Tables 6.4 and 11.4) -/

/-- The type an AFMT or BFMT code names. -/
def fmtTy : Nat → Option Ty
  | 0 => some .f16
  | 1 => some .bf16
  | 2 => some .f8e4
  | 3 => some .f8e5
  | 4 => some .f6e3
  | 5 => some .f6e2
  | 6 => some .f4
  | 7 => some .f32
  | 8 => some .i8
  | 9 => some .i4
  | _ => none

/-- A format word's fields. -/
structure FmtWord where
  a : Ty
  b : Ty
  scale : Bool
  ftz : Bool
  sr : Bool
  deriving DecidableEq, Repr

/-- Width class of a format: bits of an element's container. -/
def fmtClass (ty : Ty) : Nat := Ty.stride ty

/-- The format word for an MMA form (0 MMA, 1 SP, 2 CX), if it is valid (R240). -/
def FmtWord.read (form : Fin 3) (w : Word) : Option FmtWord :=
  match fmtTy (w.extractLsb' 0 4).toNat, fmtTy (w.extractLsb' 4 4).toNat with
  | some a, some b =>
    let scale := (w.extractLsb' 10 2).toNat
    let spn := (w.extractLsb' 12 4).toNat
    let cx := w.getLsbD 16
    let spOk : Ty → Bool := fun t => [Ty.f16, .bf16, .f8e4, .f8e5, .f6e3, .f6e2, .f4].contains t
    let cxOk : Ty → Bool := fun t => [Ty.f32, .f16, .bf16, .f8e4, .f8e5].contains t
    if fmtClass a = fmtClass b ∧ (w.extractLsb' 8 2) = 0 ∧ scale ≤ 1 ∧ (scale = 1 → fmtClass a ≤ 8) ∧
        spn = (if form = 1 then 8 else 0) ∧ cx = decide (form = 2) ∧
        (form = 1 → spOk a ∧ spOk b) ∧ (form = 2 → cxOk a ∧ cxOk b) then
      some ⟨a, b, decide (scale = 1), w.getLsbD 17, w.getLsbD 18⟩
    else none
  | _, _ => none

/-- Elements of a 256-byte row. -/
def FmtWord.k (f : FmtWord) : Nat := 2048 / fmtClass f.a
/-- Elements of a group: 8 for F32, else 32. -/
def FmtWord.group (f : FmtWord) : Nat := if f.a = .f32 then 8 else 32
/-- Rows the adders apply in one cycle (Table 11.4). -/
def FmtWord.rate (f : FmtWord) : Nat := if f.a = .f32 then 1 else 2
/-- Registers of a scale span (R242). -/
def FmtWord.scaleRegs (f : FmtWord) (sp : Bool) : Nat := f.k / f.group / 4 * (if sp then 2 else 1)
/-- Registers of a metadata span (R245). -/
def FmtWord.metaRegs (f : FmtWord) : Nat := f.k / 16

/-! ### Values -/

/-- The exact value of an operand element; FTZ flushes a subnormal first (R241). -/
def opVal (ty : Ty) (ftz : Bool) (p : Nat) : FVal :=
  if ty = .i8 then (let v := (BitVec.ofNat 8 p).toInt; if v = 0 then .zero false else .fin (decide (v < 0)) v.natAbs 1)
  else if ty = .i4 then (let v := (BitVec.ofNat 4 p).toInt; if v = 0 then .zero false else .fin (decide (v < 0)) v.natAbs 1)
  else FVal.ofPat (fmtOf ty) (if ftz then (fmtOf ty).flush p else p)

/-- The elements of a row of bytes. -/
def rowVals (ty : Ty) (ftz : Bool) (bs : List Byte) : List FVal :=
  let v := leNat bs
  (List.range (8 * bs.length / Ty.stride ty)).map (fun k => opVal ty ftz (elem ty v k))

/-- The exact sum of some values: NaN for a NaN or for infinities of both signs; a zero sum is +0 unless every term is
−0 (R241, R114). -/
def sumExact (vs : List FVal) : FVal :=
  let pos := vs.any (fun v => v == .inf false)
  let neg := vs.any (fun v => v == .inf true)
  if vs.any FVal.isNan || (pos && neg) then .nan
  else if pos then .inf false
  else if neg then .inf true
  else
    let q := vs.foldl (fun q v => match v with | .fin _ _ d => max q (Nat.log2 d) | _ => q) 0
    let t : Int := vs.foldl (fun t v =>
      match v with
      | .fin s n d => t + signed s (n * 2 ^ (q - Nat.log2 d))
      | _ => t) 0
    if t = 0 then .zero (vs.all (fun v => v == .zero true))
    else .fin (decide (t < 0)) t.natAbs (2 ^ q)

/-- A value times 2^k. -/
def FVal.scale2 (v : FVal) (k : Int) : FVal :=
  match v with
  | .fin s n d =>
    match k with
    | .ofNat j => .fin s (n * 2 ^ j) d
    | .negSucc j => .fin s n (d * 2 ^ (j + 1))
  | w => w

/-- rn to F32, with FTZ, as a value (R241). -/
def rnF32 (ftz : Bool) (v : FVal) : FVal :=
  let p := (packVal .f32 .rn v 0).1
  FVal.ofPat .f32 (if ftz then Fmt.f32.flush p else p)

/-- Consecutive pieces of n elements. -/
def pieces {α : Type} (n : Nat) : Nat → List α → List (List α)
  | 0, _ => []
  | g + 1, xs => xs.take n :: pieces n g (xs.drop n)

/-- One level of the tree. -/
def treeLevel (ftz : Bool) : List FVal → List FVal
  | x :: y :: r => rnF32 ftz (FVal.add .rn x y) :: treeLevel ftz r
  | r => r

/-- The tree down to one value (R241). -/
def treeSum (ftz : Bool) : Nat → List FVal → FVal
  | 0, xs => xs.headD (.zero false)
  | n + 1, xs => match xs with
    | [x] => x
    | _ => treeSum ftz n (treeLevel ftz xs)

/-- S[m] of a group's products, scaled (R241, R242). -/
def groupSum (ftz : Bool) (scale : Option (Nat × Nat)) (ps : List FVal) : FVal :=
  let s := sumExact ps
  match scale with
  | none => rnF32 ftz s
  | some (xa, xb) =>
    if xa = 255 ∨ xb = 255 then .nan else rnF32 ftz (s.scale2 ((xa : Int) + xb - 254))

/-- Scale byte m of a slot. -/
def scaleAt (bs : List Byte) (m : Nat) : Nat := (bs.getD m 0).toNat

/-- P of R241 for lists of product terms in logical order. -/
def partialOf (f : FmtWord) (size : Nat) (scales : Option (List Byte × List Byte)) (ps : List FVal) : FVal :=
  let g := ps.length / size
  let S := ((pieces size g ps).zipIdx.map (fun (p, m) =>
    groupSum f.ftz (scales.map (fun e => (scaleAt e.1 m, scaleAt e.2 m))) p))
  treeSum f.ftz 12 S

/-- Expand compressed A data with its masks (R245). -/
def expandBlock (stored : List FVal) (mask : Nat) : Nat → Nat → Nat → List FVal
  | 0, _, _ => []
  | n + 1, q, t =>
    if mask.testBit q && decide (t < 8) then stored.getD t (.zero false) :: expandBlock stored mask n (q + 1) (t + 1)
    else .zero false :: expandBlock stored mask n (q + 1) t

/-- The logical row of an MMA.SP A row. -/
def expandRow (masks : List Word) (vs : List FVal) : List FVal :=
  ((pieces 8 (vs.length / 8) vs).zipIdx.flatMap (fun (b, n) =>
    let w := (masks.getD (n / 2) 0).toNat
    expandBlock b (w / 2 ^ (16 * (n % 2)) % 65536) 16 0 0))

/-- The products of two rows. -/
def products : List FVal → List FVal → List FVal
  | a :: as, b :: bs => FVal.mul a b :: products as bs
  | _, _ => []

/-- The real or imaginary products of two rows of complex values, each rounded once (R244). -/
def cxProducts (ftz im : Bool) : List FVal → List FVal → List FVal
  | a :: b :: as, c :: d :: bs =>
    (if im then rnF32 ftz (FVal.add .rn (FVal.mul a d) (FVal.mul b c))
     else rnF32 ftz (FVal.add .rn (FVal.mul a c) (FVal.mul b d).neg)) :: cxProducts ftz im as bs
  | _, _ => []

/-! ### Slots -/

/-- The physical slot a launch's claim index names on a course (R229). -/
def State.slotOf (s : State) (c seq idx : Nat) : Option Nat :=
  (s.course c).tiles.findIdx? (fun t => t.claim == some (seq, idx))

def State.tile? (s : State) (c seq idx : Nat) : Option Tile :=
  (s.course c).tiles.find? (fun t => t.claim == some (seq, idx))

def State.modTile (s : State) (c seq idx : Nat) (f : Tile → Tile) : State :=
  s.modCourse c (fun x => { x with tiles := x.tiles.map (fun t => if t.claim = some (seq, idx) then f t else t) })

/-- TWAITs whose rows are final lower MX (R252). -/
def State.settleTwait (s : State) (c : Nat) : State :=
  s.flights.foldl (fun s f =>
    match f.op with
    | .twait sid slot rows =>
      if courseOf f.core = c then
        match s.tile? c f.seq slot with
        | some t => if rows ≤ t.wm then (s.modStrand sid (Strand.lower s.now .mx)).dropFlight f.id else s
        | none => s
      else s
    | _ => s) s

/-! ### Row application (R227, R230, R241) -/

/-- A row of an operand, if its slot supplies one. -/
def rowAt (rows : List (Nat × List Byte)) (i : Nat) : Option (List Byte) := (rows.find? (fun e => e.1 == i)).map (·.2)

/-- The mortar adder on one element: delta + P with one rounding, RN or SR with the slot's RNG (R227, R243). A tile whose page was
gone when its round was restored takes nothing (log 60). -/
def State.addPartial (s : State) (c : Nat) (r : Round) (f : FmtWord) (i j : Nat) (p : FVal) : State :=
  let pa := r.tilePa + 256 * i + 4 * j
  if !r.page.write then s else
  let s := ((s.recallAt (some r.tid) pa).pin c r.page pa).mergeOthers c pa .f32 .add
  let d := FVal.ofPat .f32 (s.deltaNow c pa .f32 .add).toNat
  let rng := (s.tile? c r.seq r.tslot).elim 0 (·.rng)
  let mode : Rnd := if f.sr then .sr else .rn
  let q := packVal .f32 mode (FVal.add mode d p) rng
  let v := if f.ftz then Fmt.f32.flush q.1 else q.1
  (s.setDelta c pa .f32 .add (BitVec.ofNat 64 v) r.seq).modTile c r.seq r.tslot (fun t => { t with rng := q.2 })

/-- Every element of row i that receives a partial. -/
def State.applyRow (s : State) (c : Nat) (r : Round) (f : FmtWord) (ops : List (Nat × List Byte) × List (Nat × List Byte))
    (i : Nat) : State :=
  match rowAt ops.1 i with
  | none => s
  | some ra =>
    let sp := decide (r.op.form = 1)
    let av := rowVals f.a f.ftz ra
    let av := if sp then expandRow (((r.md.find? (fun e => e.1 == i)).map (·.2)).getD []) av else av
    let sa := rowAt r.sa i
    if f.scale && sa.isNone then s
    else if sp && !(r.md.any (fun e => e.1 == i)) then s
    else
      (List.range (if r.op.form = 2 then 32 else 64)).foldl (fun s j =>
        match rowAt ops.2 j with
        | none => s
        | some rb =>
          let sb := rowAt r.sb j
          if f.scale && sb.isNone then s
          else
            let bv := rowVals f.b f.ftz rb
            let sc := if f.scale then some (sa.getD [], sb.getD []) else none
            if r.op.form = 2 then
              let s := s.addPartial c r f i (2 * j) (partialOf f (f.group / 2) sc (cxProducts f.ftz false av bv))
              s.addPartial c r f i (2 * j + 1) (partialOf f (f.group / 2) sc (cxProducts f.ftz true av bv))
            else s.addPartial c r f i j (partialOf f f.group sc (products av bv))) s

/-- The engine's next rows; the round ends after row 63 (R230). -/
def State.applyRows (s : State) (c n : Nat) : State :=
  match (s.course c).running with
  | none => s
  | some g =>
    match g.ops, FmtWord.read g.r.op.form g.r.fw with
    | some ops, some f =>
      let last := min 64 (g.rows + n)
      let s := (List.range (last - g.rows)).foldl (fun s k => s.applyRow c g.r f ops (g.rows + k)) s
      let s := s.modTile c g.r.seq g.r.tslot (fun t =>
        { t with wm := last, pend := if last = 64 then t.pend - 1 else t.pend })
      let s := if last = 64 then (s.modCourse c (fun x => { x with running := none })).count c 10 1
               else s.modCourse c (fun x => { x with running := some { g with rows := last } })
      s.settleTwait c
    | _, _ => s

/-- Let a round whose operands are read finish its rows: what a later die-scope release waits for (R249). -/
def State.finishRunning (s : State) (c : Nat) : State := s.applyRows c 64

end Sys2Proof.Machine
end

