-- ==== Sys2Proof/Machine/Coherence.lean ====
section
/-! DEFINITION. Order among accesses in flight (R173, R186 to R202): which accesses wait for which, acceptance by the
course cache, performance at the home, fences and acquires. -/

namespace Sys2Proof.Machine

/-! ### What a flight touches -/

/-- Strands an operation belongs to. -/
def FlightOp.strands : FlightOp → List Nat
  | .load sids _ _ _ _ _ _ => sids
  | .result _ sid _ _ => [sid]
  | .qstat sid _ _ _ => [sid]
  | .store sids _ _ _ _ _ => sids
  | .cpstat sid _ _ => [sid]
  | .scratchStore sid => [sid]
  | .red sid _ _ _ _ _ _ _ => [sid]
  | .atom sid _ _ _ _ _ _ _ _ _ _ _ => [sid]
  | .fence sid _ _ => [sid]
  | .pref _ _ => []
  | .keyget sid _ _ _ => [sid]
  | .keypass sid _ _ _ => [sid]
  | .keydrop sid _ _ => [sid]
  | .cacheOp sid _ _ _ _ _ => [sid]
  | .monitorRead sid => [sid]
  | .tclr sids _ _ _ _ => sids
  | .twait sid _ _ => [sid]
  | .obst sid _ _ _ => [sid]
  | .nevalReq r _ _ => [r.sid]
  | .nevalRes sid _ _ => [sid]
  | .revoke sid _ _ => [sid]
  | .publish sid _ _ _ => [sid]
  | .binding sid _ _ _ => [sid]
  | .trigger sid _ _ _ _ => [sid]

/-- Lowest and one-past-highest physical address of some bytes. -/
def bytesHull (data : List (Nat × Byte)) (pa : Nat) : Nat × Nat :=
  match data with
  | [] => (pa, pa)
  | e :: es => es.foldl (fun r e => (min r.1 e.1, max r.2 (e.1 + 1))) (e.1, e.1 + 1)

/-- Physical range of a strand's part of an operation: base and length. -/
def FlightOp.ranges (sid : Nat) : FlightOp → List (Nat × Nat)
  | .load _ ls _ _ _ _ _ => (ls.filter (fun l => l.sid == sid && l.came.isNone)).map (fun l => (l.acc.pa, l.width.bytes))
  | .store _ a data _ _ _ => let h := bytesHull data a.pa; [(h.1, h.2 - h.1)]
  | .red _ a ty _ _ _ _ _ => [(a.pa, redBytes ty)]
  | .atom _ a w _ _ _ _ _ _ _ _ _ => [(a.pa, w.bytes)]
  | .cacheOp _ a _ _ _ _ => [(a.pa / 128 * 128, 128)]
  | .tclr _ a bind _ _ => if bind then [] else [(a.pa, 16384)]
  | .publish _ a _ _ => [(a.pa, 4)]
  | .binding _ a _ _ => [(a.pa, 4)]
  | .trigger _ _ a _ _ => [(a.pa, 4)]
  | _ => []

/-- Whether an operation's part for a strand meets a physical range. -/
def FlightOp.meets (op : FlightOp) (sid pa n : Nat) : Bool := (op.ranges sid).any (fun r => overlaps pa n r.1 r.2)

/-- The physical range of an operation that a course cache accepts. -/
def FlightOp.span : FlightOp → Option (Nat × Nat)
  | .store _ a data _ _ _ => let h := bytesHull data a.pa; some (h.1, h.2 - h.1)
  | .red _ a ty _ _ _ _ _ => some (a.pa, redBytes ty)
  | .atom _ a w _ _ _ _ _ _ _ _ _ => some (a.pa, w.bytes)
  | .publish _ a _ _ => some (a.pa, 4)
  | .binding _ a _ _ => some (a.pa, 4)
  | .trigger _ _ a _ _ => some (a.pa, 4)
  | _ => none

/-- Whether an operation that a course cache accepts meets a physical range. -/
def FlightOp.covers (op : FlightOp) (pa n : Nat) : Bool := op.span.elim false (fun r => overlaps pa n r.1 r.2)

/-- The access of an operation that a course cache accepts. -/
def FlightOp.access? : FlightOp → Option Acc
  | .store _ a _ _ _ _ => some a
  | .red _ a _ _ _ _ _ _ => some a
  | .atom _ a _ _ _ _ _ _ _ _ _ _ => some a
  | .publish _ a _ _ => some a
  | .binding _ a _ _ => some a
  | .trigger _ _ a _ _ => some a
  | _ => none

/-- A store that the device acts on when it is performed, in an event of its own: a ring publication, a binding store, a
stream trigger (R330, R354, R396). -/
def FlightOp.acted : FlightOp → Bool
  | .publish _ _ _ _ => true
  | .binding _ _ _ _ => true
  | .trigger _ _ _ _ _ => true
  | _ => false

/-- Operations that write memory. -/
def FlightOp.writes : FlightOp → Bool
  | .store _ _ _ _ _ _ => true
  | .red _ _ _ _ _ _ _ _ => true
  | .atom _ _ _ _ _ _ _ _ _ _ _ _ => true
  | .publish _ _ _ _ => true
  | .binding _ _ _ _ => true
  | .trigger _ _ _ _ _ => true
  | .keypass _ _ _ _ => true
  | .keydrop _ _ _ => true
  | .cacheOp _ _ _ _ _ _ => true
  | .tclr _ _ _ _ _ => true
  | _ => false

/-- A pending acquire or fence: nothing later of its strands goes ahead of it (R190, R196). -/
def FlightOp.acquires : FlightOp → Bool
  | .load _ _ _ o _ _ _ => o != .plain
  | .atom _ _ _ _ _ _ _ _ o acqrel _ _ => acqrel || o == .acq || o == .acqRemote
  | .result _ _ _ acq => acq.isSome
  | .fence _ _ _ => true
  | .keyget _ _ _ _ => true
  | _ => false

/-- Strong reads (R185) that a fence's acquire side waits for (R190): not LDA. -/
def FlightOp.strongRead : FlightOp → Bool
  | .load _ _ sc _ _ _ kind => sc != .plain && kind != .lda
  | .atom _ _ _ _ _ _ _ _ _ _ _ _ => true
  | .result .atom _ _ _ => true
  | _ => false

/-- Operations that release at a scope (R189). -/
def FlightOp.release? : FlightOp → Option Scope
  | .store _ _ _ sc o _ => if o = .rel then some sc else none
  | .red _ _ _ _ _ sc o _ => if o = .rel then some sc else none
  | .atom _ _ _ _ _ _ _ sc o acqrel _ _ => if o = .rel ∨ acqrel then some sc else none
  | .publish _ _ _ sc => some sc
  | .binding _ _ _ sc => some sc
  | .trigger _ _ _ _ sc => some sc
  | .keypass _ _ _ _ => some .die
  | .keydrop _ _ _ => some .die
  | _ => none

/-- Destination registers of an operation that raises LD, for a strand (R172). -/
def FlightOp.dests (sid : Nat) : FlightOp → List (GReg × Nat)
  | .load _ ls _ _ _ _ _ => (ls.filter (fun l => l.sid == sid)).flatMap (fun l =>
      match l.came with
      | none => [(l.d, l.width.regs)]
      | some ws => ws.map (fun e => (e.1, 1)))
  | .result _ t ws _ => if t = sid then ws.map (fun e => (e.1, 1)) else []
  | .qstat t d _ _ => if t = sid then [(d, 1)] else []
  | .atom t _ w _ _ _ _ _ _ _ d _ => if t = sid then [(d, w.regs)] else []
  | .cpstat t d _ => if t = sid then [(d, 1)] else []
  | .keyget t _ d _ => if t = sid then [(d, 1)] else []
  | .keypass t _ d _ => if t = sid then [(d, 1)] else []
  | .revoke t d _ => if t = sid then [(d, 1)] else []
  | _ => []

/-- The issue a RED or an ATOM lane belongs to. -/
def FlightOp.group : FlightOp → Option Nat
  | .red _ _ _ _ _ _ _ g => some g
  | .atom _ _ _ _ _ _ _ _ _ _ _ g => some g
  | _ => none

/-- The issue of a key word or cache control word that a lane belongs to (R218, R224). -/
def FlightOp.issue : FlightOp → Option Nat
  | .keyget _ _ _ g => some g
  | .keydrop _ _ g => some g
  | .cacheOp _ _ _ _ _ g => some g
  | _ => none

/-- The SCATTER a line write belongs to. -/
def FlightOp.scatter : FlightOp → Option Nat
  | .store _ _ _ _ _ g => g
  | _ => none

/-! ### Program order of one strand -/

/-- Earlier operations of a strand. -/
def State.earlier (s : State) (f : Flight) (sid : Nat) : List Flight :=
  s.flights.filter (fun g => decide (g.id < f.id) && g.op.strands.contains sid)

/-- Whether a range access of a strand waits for an earlier one: a pending acquire or fence, or an access to the same bytes
that has not been accepted or returned, or that the device has still to act on (R173, R187, R190). -/
def State.waits (s : State) (f : Flight) (sid pa n : Nat) : Bool :=
  (s.earlier f sid).any (fun g => g.op.acquires || ((g.acc.isNone || g.op.acted) && g.op.meets sid pa n))

/-- Whether a result of a strand waits for an earlier write of the same destination register (R172). -/
def State.destWaits (s : State) (f : Flight) (sid : Nat) (d : GReg) (n : Nat) : Bool :=
  (s.earlier f sid).any (fun g => (g.op.dests sid).any (fun e => overlaps d.1 n e.1.1 e.2))

/-- Whether writes of a strand earlier than f have still to be accepted (R189). Lines of one SCATTER are not ordered among
themselves. -/
def State.unaccepted (s : State) (f : Flight) (sid : Nat) : Bool :=
  (s.earlier f sid).any (fun g => g.op.writes && g.acc.isNone && !(f.op.scatter.isSome && g.op.scatter == f.op.scatter))

/-- Whether g comes before f in its strand, or in the lanes of one issue, which apply in ascending LANEPOS (R218, R224). -/
def Flight.before (g f : Flight) : Bool :=
  decide (g.id < f.id) && ((g.op.issue.isSome && g.op.issue == f.op.issue) || g.op.strands.any f.op.strands.contains)

/-- Whether a strand has an earlier store that the device has still to act on. -/
def State.unacted (s : State) (f : Flight) (sid : Nat) : Bool := (s.earlier f sid).any (fun g => g.op.acted)

/-! ### Performing an accepted access -/

/-- Whether a team holds the key of a block, with no pass in progress. -/
def State.ownKey (s : State) (tid pa : Nat) : Bool :=
  match s.keyAt pa with
  | some k => decide (k.holder = tid) && k.passing.isNone
  | none => false

/-- Whether a write goes to the home at once: a plain store is in its course's copy from its acceptance on, a release of DIE
scope or wider is not seen before it is performed. -/
def relAtHome (sc : Scope) (o : Order) : Bool := o == .rel && sc.atHome

/-- The words of a team's L1 that its own store writes, when they are there (R161). -/
def State.storeL1 (s : State) (tid : Nat) (data : List (Nat × Byte)) : State :=
  s.modTeam tid (fun t => { t with l1 := data.foldl (fun m e => if (cellGet m e.1).isSome then cellPut e.1 e.2 m else m) t.l1 })

/-- The bytes of a course's clean copy, and of the writing team's L1, that a write performed at the home updates (R161, R211). -/
def State.updateOwn (s : State) (c tid : Nat) (data : List (Nat × Byte)) : State :=
  let now := data.map (fun e => (e.1, s.home e.1))
  (s.modCourse c (fun x => { x with clean := now.foldl (fun m e =>
    if (cellGet m e.1).isSome then cellPut e.1 e.2 m else m) x.clean })).storeL1 tid now

/-- A store of the team that holds the key of its block: dirty bytes in its course's copy, which do not go home (R216). No write
of an ATOM performed before it may come after it (R198). -/
def State.dirtyStore (s : State) (core tid : Nat) (pa n : Nat) (data : List (Nat × Byte)) : State :=
  let s := (s.atomsFirst pa n).modCourse (courseOf core) (fun x => { x with
    dirty := data.foldl (fun m e => cellPut e.1 e.2 m) x.dirty,
    clean := data.foldl (fun m e => cellErase e.1 m) x.clean })
  let s := data.foldl (fun s e => s.wrote core e.1 1) s
  (s.storeL1 tid data).touch (.holder (courseOf core) tid) pa n

/-- A store's bytes to the place they live in. -/
def State.performStore (s : State) (core tid : Nat) (a : Acc) (data : List (Nat × Byte)) (sc : Scope) (o : Order)
    (single : Bool) : State :=
  let judged := if single ∧ data.length = 4 ∧ relAtHome sc o then some (leNat (data.map (·.2))) else none
  let h := bytesHull data a.pa
  match s.place a with
  | .scratch t b => data.foldl (fun s e => s.scratchPut t (b + (e.1 - a.pa)) [e.2]) s
  | .memory =>
    (data.foldl (fun s e => (s.memWrite e.1 (s.guardMem e.1 [e.2])).wrote core e.1 1) s).noteWrite data judged
  | .cached =>
    if relAtHome sc o && a.page.keyed && s.ownKey tid a.pa then
      s.dirtyStore core tid h.1 (h.2 - h.1) (data.map (fun e => (e.1, s.guard (s.home e.1) e.1 e.2)))
    else
      let s := s.recallAt (some tid) a.pa
      let s := (data.foldl (fun s e => (s.homeWrite (some (courseOf core)) e.1 (s.guardHome e.1 [e.2])).wrote core e.1 1) s).noteWrite
        data judged
      (if relAtHome sc o then s.updateOwn (courseOf core) tid data else s).atOwner sc h.1 (h.2 - h.1)

/-- The new value of an ATOM (R198). -/
def atomNew (w : Width) (op : AtomOp) (sgn : Bool) (old v new : Nat) : Nat :=
  let n := 8 * w.bytes
  let so := (BitVec.ofNat n old).toInt
  let sv := (BitVec.ofNat n v).toInt
  match op with
  | .exch => v
  | .cas => if old = v then new else old
  | .add => (old + v) % 2 ^ n
  | .and => Nat.land old v
  | .or => Nat.lor old v
  | .xor => Nat.xor old v
  | .min => if (if sgn then decide (so ≤ sv) else decide (old ≤ v)) then old else v
  | .max => if (if sgn then decide (so ≤ sv) else decide (old ≤ v)) then v else old
  | .inc => if v ≤ old then 0 else old + 1
  | .dec => if old = 0 ∨ v < old then v else old - 1
  | .fadd => (packVal .f32 .rn (FVal.add .rn (FVal.ofPat .f32 old) (FVal.ofPat .f32 v)) 0).1

/-- Raw words of n bytes. -/
def plainWords (w : Width) (v : Nat) : List Word :=
  if w.regs = 2 then [BitVec.ofNat 32 v, BitVec.ofNat 32 (v / 2 ^ 32)] else [BitVec.ofNat 32 v]

/-- The course's byte: dirty, clean, else the home's. -/
def State.atomRead (s : State) (c pa n : Nat) : Nat := leNat (readN (s.courseByte c) pa n)

/-- The write of an ATOM at its course: dirty under the team's own key, else a write-through, which goes home before any other
write of its bytes (`State.atomsFirst`). -/
def State.atomWrite (s : State) (f : Flight) (a : Acc) (bs : List Byte) : State :=
  let c := courseOf f.core
  let bs := s.guardHome a.pa bs
  if a.page.keyed && s.ownKey f.tid a.pa then
    ((s.modCourse c (fun x => { x with dirty := cellPutL a.pa bs x.dirty, clean := cellEraseN a.pa bs.length x.clean })).touch
      (.holder c f.tid) a.pa bs.length).wrote f.core a.pa bs.length
  else
    let s := (s.modCourse c (fun x => { x with clean := cellPutL a.pa bs x.clean })).touch (.course c) a.pa bs.length
    { s with flights := s.flights ++ [⟨s.nextId, f.tid, f.seq, f.core, f.acc,
               .store [] a (bs.zipIdx.map (fun e => (a.pa + e.2, e.1))) .plain .plain none⟩],
             nextId := s.nextId + 1 }

/-- The read and write of an ATOM as one step at the home of its scope: the machine and the old value (R184, R198). -/
def State.atomRmw (s : State) (f : Flight) (a : Acc) (w : Width) (sc : Scope) (g : Nat → Nat) : State × Nat :=
  let c := courseOf f.core
  let n := w.bytes
  match s.place a with
  | .scratch t b =>
    let old := leNat (readN (s.scratchGet t) b n)
    (s.scratchPut t b (leBytes n (g old)), old)
  | .memory =>
    let old := leNat (readN (memGet s.mem) a.pa n)
    ((s.agentMem a.pa (leBytes n (g old))).wrote f.core a.pa n, old)
  | .cached =>
    let s := ((s.mergeRange c a.pa n).recallAt (some f.tid) a.pa).atomsFirst a.pa n
    if sc.atHome then
      let s := ((s.writeBack c a.pa n).atOwner sc a.pa n).fillHome a.pa n
      let old := s.homeN a.pa n
      (((s.homeOwn c a.pa (leBytes n (g old))).wrote f.core a.pa n).atOwner sc a.pa n, old)
    else
      let s := (s.pin c a.page a.pa).fillHome a.pa n
      let old := s.atomRead c a.pa n
      (s.atomWrite f a (leBytes n (g old)), old)

/-- A RED at its home, or directly at window and UNCACHED bytes (R201, R202). -/
def State.redRmw (s : State) (f : Flight) (a : Acc) (ty : RType) (op : ROp) (v : DWord) (sc : Scope) : State :=
  let c := courseOf f.core
  let n := redBytes ty
  match s.place a with
  | .scratch t b => s.scratchPut t b (leBytes n (applyRed ty op (leNat (readN (s.scratchGet t) b n)) v.toNat))
  | .memory =>
    (s.agentMem a.pa (leBytes n (applyRed ty op (leNat (readN (memGet s.mem) a.pa n)) v.toNat))).wrote f.core a.pa n
  | .cached =>
    let s := ((((s.mergeRange c a.pa n).writeBack c a.pa n).recallAt (some f.tid) a.pa).atomsFirst a.pa n).atOwner sc a.pa n
    ((s.homeOwn c a.pa (leBytes n (applyRed ty op (s.homeN a.pa n) v.toNat))).wrote f.core a.pa n).atOwner sc a.pa n

/-- What a release of DIE scope or wider needs in its course before its own write; at PAIR and SYS scope the writes to the peer's
memory are at its owner then (R184, R189, R249). -/
def State.beforeRelease (s : State) (c : Nat) (sc : Scope := .die) : State :=
  ((s.finishRunning c).releaseDie c).atOwner sc 0 (2 ^ 52)

/-- Who wrote the bytes that a course reads, if a strand did: its core, and the name count when the write became visible
there (R195). -/
def State.writerOf (s : State) (c pa n : Nat) : Option (Nat × Nat) :=
  let put := (s.flights.filter (fun f => f.acc.isSome && decide (courseOf f.core = c) && f.op.covers pa n)).map
    (fun f => (f.core, f.acc.getD 0))
  let old := (s.writers.filter (fun e => decide (pa ≤ e.1) && decide (e.1 < pa + n))).map (·.2)
  (put ++ old).foldl (fun m e => match m with | some b => if b.2 < e.2 then some e else m | none => some e) none

/-- A strong read of a strand has returned (R190). -/
def Strand.noteStrong (x : Strand) (id : Nat) (w : Option (Nat × Nat)) : Strand :=
  if x.strong.1 ≤ id then { x with strong := (id, w) } else x

/-- How an ORDER 3 read that returned a write acts: as an ordinary TEAM-scope acquire when the issuing core wrote it (R195). -/
def remoteAcquire (core : Nat) : Option (Nat × Nat) → Acquire
  | none => .engine
  | some w => if w.1 = core then .scope .team else .promoted w.1 w.2

/-- The acquire of an ATOM, if it is one. -/
def atomAcquire (sc : Scope) (o : Order) (acqrel : Bool) (core : Nat) (w : Option (Nat × Nat)) : Option Acquire :=
  if o = .acqRemote then some (remoteAcquire core w) else if acqrel ∨ o = .acq then some (.scope sc) else none

/-- Perform one accepted flight; releases that need the course drained are given it by their callers. An ATOM's old value is
bound when its event writes it. -/
def State.performOne (s : State) (f : Flight) : State :=
  let c := courseOf f.core
  let s := match f.op.release? with
    | some sc => if sc.atHome then s.beforeRelease c sc else s
    | none => s
  match f.op with
  | .store _ a data sc o grp => (s.performStore f.core f.tid a data sc o grp.isNone).dropFlight f.id
  | .red _ a ty op v sc _ _ => (s.redRmw f a ty op v sc).dropFlight f.id
  | .atom sid a w op sgn v new sc o acqrel d _ =>
    let src := s.writerOf c a.pa w.bytes
    let r := s.atomRmw f a w sc (fun old => atomNew w op sgn old v.toNat new.toNat)
    let s := (r.1.clearL1 f.tid a.pa w.bytes).modStrand sid (fun x => x.noteStrong f.id src)
    let done := FlightOp.result .atom sid (spanWords d (plainWords w r.2)) (atomAcquire sc o acqrel f.core src)
    s.modFlight f.id (fun g => { g with op := done })
  | _ => s

/-- Insert by acceptance order. -/
def insertAcc (f : Flight) : List Flight → List Flight
  | [] => [f]
  | g :: r => if f.acc.getD 0 ≤ g.acc.getD 0 then f :: g :: r else g :: insertAcc f r

/-- Flights in acceptance order. -/
def sortAcc : List Flight → List Flight
  | [] => []
  | f :: r => insertAcc f (sortAcc r)

/-- Flights of a course that it has accepted and that are still to be performed. -/
def State.accepted (s : State) (c : Nat) : List Flight :=
  sortAcc (s.flights.filter (fun f => f.acc.isSome && decide (courseOf f.core = c) && f.op.span.isSome))

/-- Whether an operation is a reduction. -/
def FlightOp.reduces : FlightOp → Bool
  | .red _ _ _ _ _ _ _ _ => true
  | _ => false

/-- Whether an operation releases at DIE scope or wider. -/
def FlightOp.releasesHome (op : FlightOp) : Bool := match op.release? with | some sc => sc.atHome | none => false

/-- Whether g has to be performed before f, which the same course accepted after it: f releases at DIE or wider (R189), the two
meet, they are reductions of one line (R202), or lanes of one ATOM (R198). -/
def Flight.precedes (g f : Flight) : Bool :=
  decide (g.acc.getD 0 < f.acc.getD 0) && (f.op.releasesHome ||
    (match g.op.span with | some r => f.op.covers r.1 r.2 | none => false) ||
    (g.op.reduces && f.op.reduces &&
      (match g.op.access?, f.op.access? with | some a, some b => a.pa / 128 == b.pa / 128 | _, _ => false)) ||
    (g.op.group.isSome && g.op.group == f.op.group && !g.op.reduces))

/-- Those of some flights, in acceptance order, that p names, with what has to be performed before them. -/
def needed (p : Flight → Bool) : List Flight → List Flight
  | [] => []
  | g :: r => let n := needed p r; if p g || n.any (fun f => g.precedes f) then g :: n else n

/-- Perform accepted flights in order, an ATOM with the write that it leaves to go home. What the device has still to act on waits
for its own event. -/
def State.performAll (s : State) (fs : List Flight) : State :=
  fs.foldl (fun s f => match s.flight? f.id with
    | some g =>
      let t := s.performOne g
      (t.flights.filter (fun h => decide (s.nextId ≤ h.id))).foldl State.performOne t
    | none => s) s

/-- Perform everything a course has accepted. -/
def State.drainCourse (s : State) (c : Nat) : State := s.performAll (s.accepted c)

/-- Perform what a course has accepted that meets a range, and what has to be performed before it (R173). -/
def State.drainRange (s : State) (c pa n : Nat) : State :=
  s.performAll (needed (fun f => f.op.covers pa n) (s.accepted c))

/-- Perform what a strand's course has accepted from it that meets a range, and what has to be performed before it. -/
def State.drainOwn (s : State) (c sid pa n : Nat) : State :=
  s.performAll (needed (fun f => f.op.strands.contains sid && f.op.covers pa n) (s.accepted c))

/-- Whether an access is served outside the caches. -/
def State.uncached (s : State) (f : Flight) : Bool := f.op.access?.elim false (fun a => s.place a != .cached)

/-- Whether an accepted flight's write is not in its course's copy: a release of DIE scope or wider, a reduction at the home, an
ATOM, or a store that the device acts on. -/
def FlightOp.hidden : FlightOp → Bool
  | .store _ _ _ sc o _ => relAtHome sc o
  | _ => true

/-- Perform the accepted writes of some strands that are not in their course's copy, or are served outside the caches: a TEAM- or
COURSE-scope release shows its course's copies, but not these, without it (R189, R192). -/
def State.drainUncached (s : State) (c : Nat) (sids : List Nat) : State :=
  s.performAll (needed (fun f => f.op.strands.any (fun x => sids.contains x) && (f.op.hidden || s.uncached f)) (s.accepted c))

/-! ### Acquires (R190, R195) -/

/-- Whether a flight issued by a writer core is a TEAM-scope release. -/
def Flight.teamRelease (core : Nat) (f : Flight) : Bool :=
  (if 256 ≤ core then decide (courseOf f.core = core - 256) else decide (f.core = core)) &&
    (match f.op with
      | .fence _ sc o => sc == .team && (o == .plain || o == .rel)
      | op => op.release? == some .team)

/-- Whether TEAM-scope releases that a writer core issued before a write became visible have still to be accepted: promotion
waits for them. -/
def State.promoteWaits (s : State) (core stamp : Nat) : Bool :=
  s.flights.any (fun f => decide (f.id < stamp) && f.acc.isNone && f.teamRelease core)

/-- Promotion (R195): the TEAM-scope releases that a writer core issued before its write became visible, which its course has
accepted by now, are performed at DIE scope with every write before them: all that the course has accepted is. -/
def State.promote (s : State) (core : Nat) : State :=
  let c := if 256 ≤ core then core - 256 else courseOf core
  (s.drainCourse c).beforeRelease c

/-- What an acquire does when its read is bound. -/
def State.acquired (s : State) (tid : Nat) (q : Acquire) : State :=
  match q with
  | .scope sc => if sc = .team ∨ sc = .plain then s else s.emptyL1 tid
  | .promoted core _ => (s.promote core).emptyL1 tid
  | .engine => s.emptyL1 tid

/-- Whether an acquire has to wait for releases that its promotion covers. -/
def State.acquireWaits (s : State) (q : Acquire) : Bool :=
  match q with
  | .promoted core stamp => s.promoteWaits core stamp
  | _ => false

/-! ### Rounds a release follows (R249) -/

/-- Rounds in the engine's queue. -/
def Course.queued (x : Course) : Nat := (x.queue.filter (fun j => match j with | .round _ => true | _ => false)).length

/-- The rounds a course holds: waiting, queued and running. -/
def Course.rounds (x : Course) : List Round :=
  x.waiting ++ x.queue.filterMap (fun j => match j with | .round r => some r | _ => none) ++ (x.running.map (·.r)).toList

/-- Whether a round that a strand signed has still rows to apply: a DIE-scope release of the strand follows them. -/
def State.signed (s : State) (c sid : Nat) : Bool := (s.course c).rounds.any (fun r => r.signers.any (fun e => e.2 == sid))

/-! ### Fences (R192, R196) -/

/-- The acquire of a fence with ORDER 0, 1 or 3: that of the strand's latest strong read (R190, R195). -/
def State.fenceAcquire (s : State) (f : Flight) (sid : Nat) (sc : Scope) (o : Order) : Option Acquire :=
  match o with
  | .rel => none
  | .acqRemote => some (remoteAcquire f.core ((s.strand? sid).elim none (fun x => x.strong.2)))
  | _ => some (.scope sc)

/-- Whether a fence's conditions hold. -/
def State.fenceReady (s : State) (f : Flight) (sid : Nat) (sc : Scope) (o : Order) : Bool :=
  (o == .acq || o == .acqRemote ||
    (!s.unaccepted f sid && !s.unacted f sid && !(sc.atHome && s.signed (courseOf f.core) sid))) &&
  (o == .rel || !(s.earlier f sid).any (fun g => g.op.strongRead)) &&
  !(s.earlier f sid).any (fun g => match g.op with | .fence _ _ _ => true | _ => false) &&
  !(s.fenceAcquire f sid sc o).elim false (fun q => s.acquireWaits q)

/-- Settle one fence. -/
def State.settleFence (s : State) (f : Flight) : State :=
  match f.op with
  | .fence sid sc o =>
    if s.fenceReady f sid sc o then
      let c := courseOf f.core
      let s := if o == .plain || o == .rel then
          (if sc.atHome then (s.drainCourse c).beforeRelease c sc else s.drainUncached c [sid])
        else s
      (match s.fenceAcquire f sid sc o with
        | some q => s.acquired f.tid q
        | none => s).dropFlight f.id
    else s
  | _ => s

/-- Settle the fences whose conditions have come to hold. -/
def State.settleFences (s : State) : State := s.flights.foldl (fun s f => s.settleFence f) s

/-! ### Acceptance by the course cache (R51, R177, R201, R216) -/

/-- Lower ST of some strands. -/
def State.lowerAll (s : State) (k : Ctr) (sids : List Nat) : State :=
  { s with strands := s.strands.map (fun x => if sids.contains x.sid then x.lower s.now k else x) }

/-- Give a flight the next acceptance number. -/
def State.markAccepted (s : State) (id : Nat) : State :=
  { s.modFlight id (fun f => { f with acc := some s.nextId }) with nextId := s.nextId + 1 }

/-- Whether an earlier lane of the same RED or ATOM has still to be accepted (R198, R200). -/
def State.laneBefore (s : State) (f : Flight) : Bool :=
  f.op.group.isSome && s.flights.any (fun g => decide (g.id < f.id) && g.op.group == f.op.group && g.acc.isNone)

/-- The strands of a SCATTER's lanes: its release precedes every line write (R179). -/
def State.scatterLanes (s : State) (f : Flight) : List Nat :=
  if f.op.scatter.isSome then (s.flights.filter (fun g => g.op.scatter == f.op.scatter)).flatMap (fun g => g.op.strands) else []

/-- Whether what has to be done before a release is accepted is done, for one of its strands (R189, R249): what the device acts on
has been acted on, since a release that was accepted may be performed with any other (R330). -/
def State.releaseReady (s : State) (f : Flight) (sc : Scope) (sid : Nat) : Bool :=
  !s.unaccepted f sid && !s.unacted f sid && !(sc.atHome && s.signed (courseOf f.core) sid)

/-- Whether the course cache can accept a flight now. -/
def State.acceptable (s : State) (f : Flight) : Bool :=
  f.acc.isNone && !s.laneBefore f && f.op.strands.all (fun sid =>
    !((f.op.ranges sid).any (fun r => s.waits f sid r.1 r.2)) && !(s.earlier f sid).any (fun g => g.op.acquires)) &&
    (match f.op.release? with
      | some sc => (f.op.strands ++ s.scatterLanes f).all (s.releaseReady f sc)
      | none => true)

/-- Perform what a course has accepted on a range and does not show, and what has to be performed before it. -/
def State.drainHidden (s : State) (c pa n : Nat) : State :=
  s.performAll (needed (fun f => f.op.hidden && f.op.covers pa n) (s.accepted c))

/-- Accept a store: write-through bytes into the course's copy, or dirty bytes under the team's own key (R211, R216). -/
def State.acceptStore (s : State) (f : Flight) (sids : List Nat) (a : Acc) (data : List (Nat × Byte)) (sc : Scope)
    (o : Order) : State :=
  let c := courseOf f.core
  let s := s.lowerAll .st sids
  let s := if o = .rel ∧ !sc.atHome then s.drainUncached c (sids ++ s.scatterLanes f) else s
  match s.place a with
  | .cached =>
    if relAtHome sc o then s.markAccepted f.id
    else
      let data := data.map (fun e => (e.1, s.guard (s.home e.1) e.1 e.2))
      let h := bytesHull data a.pa
      let n := h.2 - h.1
      let s := ((s.mergeRange c h.1 n).drainHidden c h.1 n).pin c a.page a.pa
      let dirty := a.page.keyed && s.ownKey f.tid a.pa
      let s := if dirty then s.drainRange c h.1 n else s
      if dirty && s.ownKey f.tid a.pa then
        (s.dirtyStore f.core f.tid h.1 n data).dropFlight f.id
      else
        let s := (s.writeBack c h.1 n).modCourse c (fun x =>
          { x with clean := data.foldl (fun m e => cellPut e.1 e.2 m) x.clean })
        ((s.storeL1 f.tid data).touch (.course c) h.1 n).markAccepted f.id
  | _ => (s.storeL1 f.tid data).markAccepted f.id

/-- Accept a RED: TEAM and COURSE scope build the delta line here (R200, R201). Reductions of one line keep the order of
acceptance, pending deltas and those on their way to the home alike (R202). -/
def State.acceptRed (s : State) (f : Flight) (sid : Nat) (a : Acc) (ty : RType) (op : ROp) (v : DWord) (sc : Scope)
    (o : Order) : State :=
  let c := courseOf f.core
  let s := (s.lowerAll .st [sid]).clearL1 f.tid a.pa (redBytes ty)
  let s := if o = .rel ∧ !sc.atHome then s.drainUncached c [sid] else s
  match s.place a with
  | .cached =>
    if sc.atHome || decide (2 ≤ a.page.home) then (s.mergeLine c a.pa ty op).markAccepted f.id
    else
      let s := s.performAll (needed (fun g => g.op.reduces && g.op.covers (a.pa / 128 * 128) 128) (s.accepted c))
      let s := ((s.drainRange c a.pa (redBytes ty)).recallAt (some f.tid) a.pa).pin c a.page a.pa
      (s.addDelta c a.pa ty op v f.seq).dropFlight f.id
  | _ => s.markAccepted f.id

/-- Accept a flight. -/
def State.acceptFlight (s : State) (f : Flight) : State :=
  match f.op with
  | .store sids a data sc o _ => s.acceptStore f sids a data sc o
  | .red sid a ty op v sc o _ => s.acceptRed f sid a ty op v sc o
  | .atom sid a w _ _ _ _ sc o acqrel _ _ =>
    let s := (s.lowerAll .st [sid]).clearL1 f.tid a.pa w.bytes
    (if (o = .rel ∨ acqrel) ∧ !sc.atHome then s.drainUncached (courseOf f.core) [sid] else s).markAccepted f.id
  | .scratchStore sid => (s.lowerAll .st [sid]).dropFlight f.id
  | .publish sid _ _ sc =>
    let s := s.lowerAll .st [sid]
    (if sc.atHome then s else s.drainUncached (courseOf f.core) [sid]).markAccepted f.id
  | .binding sid _ _ _ => (s.lowerAll .st [sid]).markAccepted f.id
  | .trigger sid _ _ _ _ => (s.lowerAll .st [sid]).markAccepted f.id
  | _ => s

/-! ### Words that wait at issue -/

/-- Whether a strand's scratchpad word waits: an acquire of its own is pending, or an access of its own through a window
to its team's scratchpad is in flight (R173, R190, R196). -/
def State.scratchWaits (s : State) (x : Strand) : Bool :=
  s.flights.any (fun g => g.op.strands.contains x.sid && (g.op.acquires ||
    (match g.op with
      | .load _ ls _ _ _ _ _ => ls.any (fun l => l.sid == x.sid &&
          (match s.place l.acc with | .scratch t _ => t == x.tid | _ => false))
      | .store _ a _ _ _ _ => (match s.place a with | .scratch t _ => t == x.tid | _ => false)
      | .publish _ a _ _ => (match s.place a with | .scratch t _ => t == x.tid | _ => false)
      | .binding _ a _ _ => (match s.place a with | .scratch t _ => t == x.tid | _ => false)
      | .trigger _ _ a _ _ => (match s.place a with | .scratch t _ => t == x.tid | _ => false)
      | .red _ a _ _ _ _ _ _ => (match s.place a with | .scratch t _ => t == x.tid | _ => false)
      | .atom _ a _ _ _ _ _ _ _ _ _ _ => (match s.place a with | .scratch t _ => t == x.tid | _ => false)
      | _ => false)))

/-- Whether writes of a strand have still to be accepted, or to be acted on: an arrival releases them (R362). -/
def State.hasUnaccepted (s : State) (x : Strand) : Bool :=
  s.flights.any (fun g => g.op.strands.contains x.sid && g.op.writes && (g.acc.isNone || g.op.acted))

/-- A word that is not issued while a condition holds in one of its active lanes: the bundle waits at it. -/
def whenFree (c : Ctl) (busy : State → Strand → Bool) (s : State) (f : State → Host.Outcome State Fault Refusal) :
    Host.Outcome State Fault Refusal :=
  match s.bundles with
  | [] => .refused .noBundle
  | b :: _ =>
    if b.lanes.any (fun sid =>
        match s.strand? sid with
        | some x => x.active c && x.unmasked c && busy s x
        | none => false) then .next s
    else f s

end Sys2Proof.Machine
end

