-- ==== Sys2Proof/Machine/Memory.lean ====
section
/-! DEFINITION. Memory instructions: loads, stores, GATHER, SCATTER, PREF, LDA (files 08, 11), ATOM, RED, FENCE and
SYNCG (09), keys and cache control (10), CPSTAT (16). Each checks its address at issue and leaves an operation in flight;
MemoryEvents.lean completes them. -/

namespace Sys2Proof.Machine

/-! ### Addresses -/

/-- A global access of a lane, checked as R167 says, or its fault. -/
def globalLane (s : State) (b : Bundle) (x : Strand) (a : GReg) (off : Off) (bytes : Nat) (kind : BitVec 3)
    (ok : Page → Bool) (k : Acc → LaneOut) : LaneOut :=
  match s.check (coreUnit b.core) (x.ea a off) bytes kind ok with
  | .error f => .fault f
  | .ok acc => k acc

/-- A global word: each lane checks its address and goes on. -/
def globalWord (c : Ctl) (mz : Strand → Strand) (a : GReg) (off : Off) (bytes : Nat) (kind : BitVec 3) (ok : Page → Bool)
    (k : State → Bundle → Strand → Acc → LaneOut) (s : State) : Host.Outcome State Fault Refusal :=
  inBundle s (wordByLane c mz (fun s b x => globalLane s b x a off bytes kind ok (k s b x)))

/-- Bytes of a team's scratchpad (R168). -/
def State.scratchSize (s : State) (tid : Nat) : Nat := (s.team? tid).elim 0 (fun t => 4096 * t.scu)

/-- A scratchpad access of a lane: swizzle, alignment, then the bound (R46, R168). -/
def scratchLane (s : State) (x : Strand) (swz : Fin 8) (a : GReg) (off : Off) (bytes : Nat) (kind : BitVec 3)
    (k : Nat → LaneOut) : LaneOut :=
  let ea := swizzle swz (x.sea a off)
  if ea.toNat % bytes ≠ 0 then .fault (.trap (.addr 5 kind (ea.setWidth 64)))
  else if s.scratchSize x.tid < ea.toNat + bytes then .fault (.trap (.addr 7 kind (ea.setWidth 64)))
  else k ea.toNat

/-- The low width bytes of a data span (R177). -/
def Strand.storeBytes (x : Strand) (w : Width) (d : GReg) : List Byte := (wordsBytes (x.span d w.regs)).take w.bytes

/-! ### Loads and stores (R176 to R180, R254) -/

def execLd (c : Ctl) (w : Width) (sc : Scope) (o : Order) (d a : GReg) (off : Off) (s : State) :
    Host.Outcome State Fault Refusal :=
  globalWord c (fun x => x.zeroSpan d w.regs) a off w.bytes accRead (·.read)
    (fun s _ x acc => flyTo x [.ld] d w.regs (.load [x.sid] [⟨x.sid, d, w, acc, none⟩] sc o false [] .ld) s) s

/-- The ring header an address of a team's own RING window is, if it is one (R329). -/
def State.ringHeader (s : State) (tid : Nat) (a : Acc) : Option Nat :=
  if a.page.home = 2 ∧ a.va.toNat % 65536 = 0 then
    (s.bindings.find? (fun b => b.entry == a.page.smidx && b.tid == tid && b.ring)).map (fun b => 4096 * b.soff)
  else none

/-- Whether an address is byte 0 of a mapping entry (R354). -/
def State.mappingEntry (s : State) (a : Acc) : Bool :=
  decide (s.areas.sm ≤ a.pa) && decide (a.pa < s.areas.sm + 65536) && decide ((a.pa - s.areas.sm) % 16 = 0)

/-- The stream engines whose FRAME an address is, for a launch whose placement set names them (R396). -/
def State.frameOf (s : State) (tid : Nat) (a : Acc) : BitVec 4 :=
  match s.launch? (s.seqOf tid) with
  | none => 0
  | some l => (List.range 4).foldl (fun m e =>
      if l.engines.getLsbD e && (match s.streams[e]? with
        | some k => k.on && (k.desc + 56 == a.va || k.next.elim false (fun n => n.1 + 56 == a.va))
        | none => false) then m ||| (1#4 <<< e) else m) 0

/-- What a store of a lane is, recognised at issue (R330, R354, R396). -/
def State.storeOp (s : State) (x : Strand) (w : Width) (sc : Scope) (o : Order) (d : GReg) (a : Acc) : FlightOp :=
  let plain : FlightOp := .store [x.sid] a (bytesAt a.pa (x.storeBytes w d)) sc o none
  if w = .n32 ∧ o = .rel ∧ sc ≠ .team then
    if (s.ringHeader x.tid a).isSome then .publish x.sid a (x.reg d) sc
    else if sc.atHome && s.mappingEntry a then .binding x.sid a (x.reg d) sc
    else if sc.atHome && s.frameOf x.tid a != 0 then .trigger x.sid (s.frameOf x.tid a) a (x.reg d) sc
    else plain
  else plain

/-- Counters a store raises: a publication raises CP besides ST (R330). -/
def FlightOp.storeCtrs : FlightOp → List Ctr
  | .publish _ _ _ _ => [.st, .cp]
  | _ => [.st]

/-- Whether a lane of an ST would publish with its CP at 255 (R330, R52). -/
def State.cpFull (s : State) (c : Ctl) (b : Bundle) (w : Width) (sc : Scope) (o : Order) (a : GReg) (off : Off)
    (x : Strand) : BitVec 4 :=
  if x.active c && x.unmasked c && decide (255 ≤ x.cp) && w == .n32 && o == .rel && sc != .team then
    match s.check (coreUnit b.core) (x.ea a off) w.bytes accWrite (·.write) with
    | .ok acc => if (s.ringHeader x.tid acc).isSome then 8 else 0
    | .error _ => 0
  else 0

def execSt (c : Ctl) (w : Width) (sc : Scope) (o : Order) (d a : GReg) (off : Off) (s : State) :
    Host.Outcome State Fault Refusal :=
  inBundle s (fun b s =>
    if s.strands.any (fun x => b.lanes.contains x.sid && s.cpFull c b w sc o a off x != 0) then
      s.stopBefore b (s.cpFull c b w sc o a off)
    else wordByLane c (fun x => x) (fun s b x => globalLane s b x a off w.bytes accWrite (·.write)
      (fun acc => let op := s.storeOp x w sc o d acc; flyFrom x (FlightOp.storeCtrs op) op s)) b s)
/-- The flights an issue has put up: those behind the `n` there were before it. -/
def State.flownSince (s : State) (n : Nat) : List Flight := s.flights.drop n

/-- Add a lane to a flight its issue has put up, or put the first one in flight (R178, R179). -/
def joinFlight (x : Strand) (k : Ctr) (n : Nat) (id : Option Nat) (op : FlightOp) (join : FlightOp → FlightOp) (s : State) :
    LaneOut :=
  match id with
  | some i =>
    let t := s.modStrand x.sid (fun y => y.raise k)
    .go { t with flights := t.flights.take n ++
            (t.flownSince n).map (fun f => if f.id = i then { f with op := join f.op } else f) } k.bit
  | none => flyFrom x [k] op s

/-- Add a lane to a GATHER's flight. -/
def FlightOp.addLane (sid : Nat) (l : LaneLoad) : FlightOp → FlightOp
  | .load sids ls sc o far buf kind => .load (sids ++ [sid]) (ls ++ [l]) sc o far buf kind
  | op => op

/-- Add a lane's bytes to a SCATTER's line: the highest LANEPOS keeps a byte (R179). -/
def FlightOp.addBytes (sid : Nat) (data : List (Nat × Byte)) : FlightOp → FlightOp
  | .store sids a old sc o grp =>
    .store (sids ++ [sid]) a (old.filter (fun e => !(data.any (fun h => h.1 == e.1))) ++ data) sc o grp
  | op => op

/-- GATHER: one flight whose lines are read once each (R178). -/
def execGather (c : Ctl) (w : Width) (sc : Scope) (o : Order) (d a : GReg) (off : Off) (s : State) :
    Host.Outcome State Fault Refusal :=
  globalWord c (fun x => x.zeroSpan d w.regs) a off w.bytes accRead (·.read)
    (fun t _ x acc =>
      let l : LaneLoad := ⟨x.sid, d, w, acc, none⟩
      joinFlight x .ld s.flights.length ((t.flownSince s.flights.length).head?.map Flight.id) (.load [x.sid] [l] sc o false [] .gather)
        (FlightOp.addLane x.sid l) (t.modStrand x.sid (fun y => y.expects d w.regs))) s

/-- The line an access lies in: its first byte (R179). -/
def Acc.line (a : Acc) : Acc := { a with va := a.va &&& ~~~127#64, pa := a.pa / 128 * 128 }

/-- SCATTER: one write for each distinct line (R179). -/
def execScatter (c : Ctl) (w : Width) (sc : Scope) (o : Order) (d a : GReg) (off : Off) (s : State) :
    Host.Outcome State Fault Refusal :=
  globalWord c (fun x => x) a off w.bytes accWrite (·.write)
    (fun t _ x acc =>
      let data := bytesAt acc.pa (x.storeBytes w d)
      let same := (t.flownSince s.flights.length).find? (fun f => match f.op with
        | .store _ h _ _ _ _ => h.pa == acc.pa / 128 * 128
        | _ => false)
      joinFlight x .st s.flights.length (same.map Flight.id) (.store [x.sid] acc.line data sc o (some s.nextId))
        (FlightOp.addBytes x.sid data) t) s

def execLds (c : Ctl) (w : Width) (swz : Fin 8) (d a : GReg) (off : Off) (s : State) :
    Host.Outcome State Fault Refusal :=
  whenFree c State.scratchWaits s (fun s =>
    inBundle s (wordByLane c (fun x => x.zeroSpan d w.regs) (fun s _ x =>
      scratchLane s x swz a off w.bytes accRead (fun ea =>
        flyTo x [.ld] d w.regs (.result .load x.sid (spanWords d (w.extend (leNat (readN (s.scratchGet x.tid) ea w.bytes)))) none) s))))

def execSts (c : Ctl) (w : Width) (swz : Fin 8) (d a : GReg) (off : Off) (s : State) :
    Host.Outcome State Fault Refusal :=
  whenFree c State.scratchWaits s (fun s =>
    inBundle s (wordByLane c (fun x => x) (fun s _ x =>
      scratchLane s x swz a off w.bytes accWrite (fun ea =>
        flyFrom x [.st] (.scratchStore x.sid) (s.scratchPut x.tid ea (x.storeBytes w d))))))

/-- PREF never faults; what it cannot fetch it leaves alone (R180). -/
def execPref (c : Ctl) (sc : Scope) (a : GReg) (off : Off) (s : State) : Host.Outcome State Fault Refusal :=
  inBundle s (wordByLane c (fun x => x) (fun s b x =>
    match s.check (coreUnit b.core) (x.ea a off) 1 accRead (fun p => p.read && decide (p.home ≤ 1)) with
    | .error _ => .go s 0
    | .ok acc =>
      match s.keyAt acc.pa with
      | some k => if k.holder = x.tid then .go (s.fly x.tid (.pref sc acc)) 0 else .go s 0
      | none => .go (s.fly x.tid (.pref sc acc)) 0))

def execLda (c : Ctl) (w : Width) (d a : GReg) (off : Off) (s : State) : Host.Outcome State Fault Refusal :=
  globalWord c (fun x => x.zeroSpan d w.regs) a off w.bytes accRead (·.read)
    (fun s _ x acc => flyTo x [.ld] d w.regs (.load [x.sid] [⟨x.sid, d, w, acc, none⟩] .course .plain false [] .lda) s) s

/-! ### ATOM, RED, FENCE, SYNCG (R196 to R205) -/

/-- An operand of an ATOM. -/
def Strand.operand (x : Strand) (w : Width) (r : GReg) : DWord := if w = .n64 then x.pair r else (x.reg r).setWidth 64

def execAtom (c : Ctl) (w : Width) (sc : Scope) (o : Order) (op : AtomOp) (signed acqrel : Bool) (d a cc : GReg)
    (off : Off) (s : State) : Host.Outcome State Fault Refusal :=
  globalWord c (fun x => x.zeroSpan d w.regs) a off w.bytes (accRead ||| accWrite) (fun p => p.read && p.write)
    (fun t _ x acc => flyTo x [.ld, .st] d w.regs
      (.atom x.sid acc w op signed (x.operand w cc) (x.operand w (gAt cc w.regs)) sc o acqrel d s.nextId) t) s

def execRed (c : Ctl) (sc : Scope) (o : Order) (ty : RType) (op : ROp) (d a : GReg) (off : Off) (s : State) :
    Host.Outcome State Fault Refusal :=
  globalWord c (fun x => x) a off (redBytes ty) accWrite (fun p => p.write && p.redOk)
    (fun t _ x acc => flyFrom x [.st]
      (.red x.sid acc ty op (if ty = .i64 then x.pair d else (x.reg d).setWidth 64) sc o s.nextId) t) s

/-- FENCE raises no counter and parks nobody: it holds back the strand's later accesses (R196). -/
def execFence (c : Ctl) (sc : Scope) (o : Order) (s : State) : Host.Outcome State Fault Refusal :=
  inBundle s (wordByLane c (fun x => x) (fun s _ x => .go ((s.fly x.tid (.fence x.sid sc o)).settleFences) 0))

/-- Whether a team belongs to a gang. -/
def State.isGang (s : State) (tid : Nat) : Bool := (s.team? tid).elim false (fun t => t.kind == .gang)

/-- Where a strand stands after a word of n slots. -/
def Strand.standAfter (x : Strand) (b : Bundle) (n : Nat) : Strand :=
  { x with pc := b.pc + 8 * BitVec.ofNat 64 n,
           cls := (b.cls.map (·.after n)).filter (fun k => k.left != 0) }

/-- SYNCG: an arrival is a switch point; a wave's strand may not take part (R203, R204, R32). -/
def execSyncg (c : Ctl) (sc : Scope) (s : State) : Host.Outcome State Fault Refusal :=
  inBundle s (wordByLane c (fun x => x) (fun s b x =>
    if s.isGang x.tid then .wait (s.modStrand x.sid (fun y => { y.standAfter b 1 with state := .barrier sc }))
    else .fault (.trap (.plain 3))))

/-! ### Keys (R218 to R222) -/

/-- A key instruction's lane: only gang teams hold keys (R215), then the checks of R218. -/
def keyLane (s : State) (b : Bundle) (x : Strand) (a : GReg) (off : Off) (k : Acc → LaneOut) : LaneOut :=
  if !s.isGang x.tid then .fault (.trap (.plain 3))
  else globalLane s b x a off 1 accWrite (fun p => p.write && p.keyed) k

def execKeyget (c : Ctl) (d a : GReg) (off : Off) (s : State) : Host.Outcome State Fault Refusal :=
  let grp := s.nextId
  inBundle s (wordByLane c (fun x => x.zeroSpan d 1) (fun s b x =>
    keyLane s b x a off (fun acc => flyTo x [.ld] d 1 (.keyget x.sid acc d grp) s)))

/-- HOLDER of a key status word: the TEAMID of a team of the issuing gang, else 0xFFFF (Table 10.2). -/
def State.holderName (s : State) (tid other : Nat) : Nat :=
  match s.team? tid, s.team? other with
  | some t, some o => if t.seq = o.seq ∧ t.gangId = o.gangId ∧ o.kind = .gang then o.teamId else 0xFFFF
  | _, _ => 0xFFFF

/-- A key status word. -/
def keyStatus (holder status : Nat) : Word := BitVec.ofNat 32 (holder % 65536 * 65536 + status)

/-- Whether a strand's key operations or unaccepted writes are still in flight: a pass follows them (R189, R222). -/
def State.keyBusy (s : State) (x : Strand) : Bool :=
  s.signed (s.teamCourse x.tid) x.sid || s.flights.any (fun g => g.op.strands.contains x.sid && ((g.op.writes && (g.acc.isNone || g.op.acted)) || g.op.acquires))

/-- The team of the same gang with a TEAMID, which runs from 0 to TEAMSM1 (R30); one that has ended has a name that no team has. -/
def State.gangTeam (s : State) (tid : Nat) (teamId : Nat) : Option Nat :=
  match s.team? tid with
  | none => none
  | some t =>
    match s.teams.find? (fun o => o.seq == t.seq && o.gangId == t.gangId && o.kind == .gang && o.teamId == teamId) with
    | some o => some o.tid
    | none => if (s.launch? t.seq).elim false (fun l => decide (teamId ≤ l.cmd.teamsM1)) then some s.nextId else none

/-- Whether a team holds a key: held, or on its way to the team itself (R220). -/
def KeyEntry.heldBy (k : KeyEntry) (tid : Nat) : Bool := k.passing.elim (k.holder == tid) (fun t => t == tid && k.holder == tid)

/-- The refusal of a KEYPASS by a team that does not hold the block: STATUS 1 with the holder, or the receiving team. -/
def State.notHolder (s : State) (tid : Nat) (va : DWord) : Word :=
  match s.key? va with
  | none => keyStatus 0xFFFF 1
  | some k => keyStatus (s.holderName tid (k.passing.getD k.holder)) 1

/-- KEYPASS in one lane: a refusal's status returns at once, a pass releases at DIE scope and is in progress until
KEYPASS_COMPLETE (R220). The release may itself recall the key: then the pass comes after the recall (R222). -/
def State.passKey (s : State) (x : Strand) (d : GReg) (acc : Acc) : LaneOut :=
  let refuse (s : State) (w : Word) : LaneOut := flyTo x [.ld] d 1 (.result .load x.sid (spanWords d [w]) none) s
  let mine (s : State) : Bool := (s.key? acc.va).elim false (fun k => k.heldBy x.tid)
  if !mine s then refuse s (s.notHolder x.tid acc.va)
  else match s.gangTeam x.tid (x.reg d).toNat with
    | none => refuse s (keyStatus 0xFFFF 3)
    | some t =>
      let c := s.teamCourse x.tid
      let s := (s.drainCourse c).beforeRelease c
      let s := (s.key? acc.va).elim s (fun k => s.completePass k)
      if !mine s then refuse s (s.notHolder x.tid acc.va)
      else
        let s' : State := { s with keys := s.keys.map (fun e =>
          if e.block = acc.va.toNat / 4096 then { e with passing := some t } else e) }
        .go (((s'.modStrand x.sid (fun y => (y.expects d 1).raise .ld)).fly x.tid (.keypass x.sid acc d (x.reg d))).markAccepted s.nextId)
          Ctr.ld.bit

def execKeypass (c : Ctl) (d a : GReg) (off : Off) (s : State) : Host.Outcome State Fault Refusal :=
  whenFree c State.keyBusy s (fun s =>
    inBundle s (wordByLane c (fun x => x.zeroSpan d 1) (fun s b x => keyLane s b x a off (fun acc => s.passKey x d acc))))

def execKeydrop (c : Ctl) (a : GReg) (off : Off) (s : State) : Host.Outcome State Fault Refusal :=
  let grp := s.nextId
  inBundle s (wordByLane c (fun x => x) (fun s b x =>
    keyLane s b x a off (fun acc => flyFrom x [.st] (.keydrop x.sid acc grp) s)))

/-! ### Cache control (R223, R224) -/

/-- A lane of CWB, CINV or CDISC: a zero mask does nothing and raises no counter; the checks of the address come first (R223;
DESIGN CHOICE, log 57). -/
def cacheLane (s : State) (b : Bundle) (x : Strand) (d a : GReg) (off : Off) (what : Fin 3) (sc : Scope) (kind : BitVec 3)
    (ok : Page → Bool) (grp : Nat) : LaneOut :=
  globalLane s b x a off 1 kind ok (fun acc =>
    if x.reg d = 0 then .go s 0 else flyFrom x [.st] (.cacheOp x.sid acc what sc (x.reg d) grp) s)

/-- CWB. It and CINV need no permission: an address fault reports no access kind (DESIGN CHOICE, log 57). -/
def execCwb (c : Ctl) (sc : Scope) (d a : GReg) (off : Off) (s : State) : Host.Outcome State Fault Refusal :=
  let grp := s.nextId
  inBundle s (wordByLane c (fun x => x) (fun s b x => cacheLane s b x d a off 0 sc 0 (fun _ => true) grp))

def execCinv (c : Ctl) (sc : Scope) (d a : GReg) (off : Off) (s : State) : Host.Outcome State Fault Refusal :=
  let grp := s.nextId
  inBundle s (wordByLane c (fun x => x) (fun s b x => cacheLane s b x d a off 1 sc 0 (fun _ => true) grp))

def execCdisc (c : Ctl) (d a : GReg) (off : Off) (s : State) : Host.Outcome State Fault Refusal :=
  let grp := s.nextId
  inBundle s (wordByLane c (fun x => x) (fun s b x => cacheLane s b x d a off 2 .course accWrite (·.write) grp))

/-! ### CPSTAT (R343) -/

def execCpstat (c : Ctl) (d a : GReg) (off : Off) (s : State) : Host.Outcome State Fault Refusal :=
  globalWord c (fun x => x.zeroSpan d 1) a off 1 accRead (·.read)
    (fun s _ x acc =>
      if acc.va.toNat % 32 ≠ 0 then .fault (.trap (.addr 5 accRead acc.va))
      else match s.ringHeader x.tid acc with
        | none => .fault (.trap (.addr 7 accRead acc.va))
        | some base => flyTo x [.ld] d 1 (.cpstat x.sid d base) s) s

end Sys2Proof.Machine
end

