-- ==== Sys2Proof/Machine/Latch.lean ====
section
/-! DEFINITION. Latches and CARVE (R181 to R183, R359 to R367). -/

namespace Sys2Proof.Machine

/-- A latch (Table 18.2). -/
structure Latch where
  l1u : Nat
  scu : Nat
  crq : Bool
  mixed : Bool
  phase : Bool
  expa : Nat
  penda : Nat
  expb : Nat
  pendb : Nat
  deriving DecidableEq, Repr

/-- The latch in the 16 bytes at an address. -/
def latchAt (m : Bytes) (a : Nat) : Latch :=
  let lo := memGetN m a 8
  let hi := memGetN m (a + 8) 8
  { l1u := hi / 2 ^ 34 % 256, scu := hi / 2 ^ 26 % 256, crq := hi.testBit 25, mixed := hi.testBit 24,
    phase := hi.testBit 23, expa := hi / 2 ^ 12 % 2048, penda := hi / 2 % 2048, expb := lo / 2 ^ 32, pendb := lo % 2 ^ 32 }

/-- Its 16 bytes; the ignored bits are written as zero. -/
def latchBytes (l : Latch) : List Byte :=
  leBytes 8 (l.expb * 2 ^ 32 + l.pendb) ++
    leBytes 8 (l.l1u * 2 ^ 34 + l.scu * 2 ^ 26 + (if l.crq then 2 ^ 25 else 0) + (if l.mixed then 2 ^ 24 else 0)
      + (if l.phase then 2 ^ 23 else 0) + l.expa * 2 ^ 12 + l.penda * 2)

/-- The record of an arrival's kind in the phase: a CARVE with its request (SCU, L1U), or none (R182). A phase that another
kind of arrival began is mixed from its first CARVE on, so MIXED tells whether that CARVE's request is recorded. -/
def Latch.note (l : Latch) (req : Option (Nat × Nat)) : Latch :=
  let first := l.penda = l.expa
  match req with
  | some (sc, l1) =>
    if first then { l with crq := true, mixed := false, scu := sc, l1u := l1 }
    else if l.crq then { l with mixed := l.mixed || l.scu != sc || l.l1u != l1 }
    else if l.mixed then l
    else { l with mixed := true, scu := sc, l1u := l1 }
  | none => if first then { l with crq := false, mixed := false } else { l with mixed := l.mixed || l.crq }

/-- An arrival; none when it overruns (R360). -/
def Latch.arrive (l : Latch) (req : Option (Nat × Nat)) : Option Latch :=
  if l.penda = 0 then none else some { l.note req with penda := l.penda - 1 }

/-- A byte credit (R360). -/
def Latch.credit (l : Latch) (n : Nat) : Latch := { l with pendb := l.pendb - n }

/-- Whether the phase's counts are both zero. -/
def Latch.complete (l : Latch) : Bool := l.penda = 0 && l.pendb = 0

/-- The latch in its next phase. -/
def Latch.next (l : Latch) : Latch :=
  { l with phase := !l.phase, penda := l.expa, pendb := l.expb, crq := false, mixed := false, scu := 0, l1u := 0 }

/-! ### Carve-outs (R182, R183) -/

/-- Units of the on-core array that a team takes: while new sizes wait, the larger of its old and new sums. -/
def Team.unitsHeld (t : Team) : Nat := t.rgu + max (t.scu + t.l1u) (t.carve.elim 0 (fun e => e.1 + e.2))

/-- Units of the on-core array in use on a core. -/
def State.unitsUsed (s : State) (core : Nat) : Nat :=
  ((s.teams.filter (fun t => t.core == core)).map Team.unitsHeld).sum

/-- The status a phase with CARVE arrivals ends with. -/
def State.carveStatus (s : State) (t : Team) (l : Latch) : Nat :=
  let live := (s.strands.filter (fun x => x.tid == t.tid && x.state != .ended)).length
  if l.mixed || decide (l.expa ≠ live) then 1
  else if l.l1u < 1 ∨ 126 < l.l1u ∨ 4096 * l.scu < t.kernel.latBase + 16 * t.kernel.latches ∨
      s.bindings.any (fun b => b.tid == t.tid && decide (l.scu < b.soff + b.len)) ∨ 128 < t.rgu + l.scu + l.l1u then 3
  else if 128 < s.unitsUsed t.core - t.unitsHeld + (t.rgu + l.scu + l.l1u) then 2
  else 0

/-- Give a team its new sizes (R183). -/
def State.resize (s : State) (t : Team) (scu l1u : Nat) : State :=
  s.modTeam t.tid (fun t =>
    { t with scu := scu, l1u := l1u, carve := none, l1 := [], l1Fills := [], barred := [],
             scratch := t.scratch.filter (fun e => decide (e.1 < 4096 * scu)) })

/-- The strands whose CARVE arrived in the open phase of a latch, waiting, with their status registers. -/
def State.carvers (s : State) (tid a : Nat) (tok : Bool) : List (Nat × GReg) :=
  s.strands.filterMap (fun x =>
    if x.tid = tid then
      match x.state with
      | .latch b k (some d) => if b = a ∧ k = tok then some (x.sid, d) else none
      | _ => none
    else none)

/-- Whether some strand waits for the open phase of a latch. -/
def State.awaited (s : State) (tid a : Nat) (tok : Bool) : Bool :=
  s.strands.any (fun x => x.tid == tid && (match x.state with | .latch b k _ => b == a && k == tok | _ => false))

/-- Whether copy entries of a team are begun. -/
def State.copying (s : State) (tid : Nat) : Bool := s.rings.any (fun r => r.tid == tid && !r.begun.isEmpty)

/-- Give a team its new sizes, or let them wait for the copy entries that are begun: no strand of the team issues before (R182,
R183). -/
def State.resizeAfter (s : State) (t : Team) (scu l1u : Nat) : State :=
  if s.copying t.tid then s.modTeam t.tid (fun t => { t with carve := some (scu, l1u) }) else s.resize t scu l1u

/-- The new sizes that waited are applied once no entry of the team is begun. -/
def State.settleCarves (s : State) (tid : Nat) : State :=
  if s.copying tid then s
  else match s.team? tid with
    | some t =>
      match t.carve with
      | some e => s.resize t e.1 e.2
      | none => s
    | none => s

/-- Write a latch after an arrival or a credit. A complete phase settles its CARVEs and wakes its waiters as its PHASE changes
(R182, R360, R364), who observe it: their acquire empties the team's L1 of what the engines have overwritten (R362, R206). `own` is
the completing CARVE itself. -/
def State.putLatch (s : State) (tid a : Nat) (l : Latch) (own : Option (Nat × GReg)) : State :=
  if l.complete then
    match s.team? tid with
    | none => s
    | some t =>
      let cs := s.carvers tid a l.phase ++ own.toList
      let s :=
        if cs.isEmpty then s
        else
          let st := s.carveStatus t l
          let s := if st = 0 then s.resizeAfter t l.scu l.l1u else s
          cs.foldl (fun s e => s.modStrand e.1 (fun x => x.setG e.2 (BitVec.ofNat 32 st))) s
      let s := if s.awaited tid a l.phase then s.emptyL1 tid else s
      s.scratchPut tid a (latchBytes l.next)
  else s.scratchPut tid a (latchBytes l)

/-- A copy entry's credit to a named latch (R338, R360). A phase that starts with both counts at zero is not completed by a
credit that finds no pending bytes. -/
def State.creditLatch (s : State) (tid k n : Nat) : State :=
  match s.team? tid with
  | none => s
  | some t =>
    let a := t.kernel.latBase + 16 * k
    let l := latchAt t.scratch a
    if l.pendb = 0 ∧ l.expa = 0 ∧ l.expb = 0 then s.scratchPut tid a (latchBytes l) else s.putLatch tid a (l.credit n) none

/-! ### Latch instructions (R366, R367) -/

/-- Whether a strand's arrival waits: its scratchpad words do, or writes it releases are not accepted yet (R362). -/
def State.arrivalWaits (s : State) (x : Strand) : Bool := s.scratchWaits x || s.hasUnaccepted x

/-- The latch of an address, checked, or the lane's fault (R366). -/
def latchLane (s : State) (x : Strand) (ea : Word) (k : Team → Nat → Latch → LaneOut) : LaneOut :=
  match s.team? x.tid with
  | none => .go s 0
  | some t =>
    let a := ea.toNat
    let base := t.kernel.latBase
    if a % 16 ≠ 0 then .fault (.trap (.addr 5 (accRead ||| accWrite) (ea.setWidth 64)))
    else if a < base ∨ base + 16 * t.kernel.latches ≤ a then
      .fault (.trap (.addr 7 (accRead ||| accWrite) (ea.setWidth 64)))
    else k t a (latchAt t.scratch a)

/-- An arrival releases: what the strand wrote outside the caches is performed (R362). -/
def State.arriving (s : State) (x : Strand) : State := s.drainUncached (s.teamCourse x.tid) [x.sid]

/-- LATCH-OVERRUN. -/
def overrun : LaneOut := .fault (.trap (.plain 9))

def execLinit (c : Ctl) (d a : GReg) (off : Off) (s : State) : Host.Outcome State Fault Refusal :=
  whenFree c State.scratchWaits s (fun s =>
    inBundle s (wordByLane c (fun x => x) (fun s _ x => latchLane s x (x.sea a off) (fun _ ea l =>
      let n := (x.reg d).toNat
      let b := (x.reg (gAt d 1)).toNat
      if 1024 < n then overrun
      else .go (s.scratchPut x.tid ea (latchBytes ⟨0, 0, false, false, l.phase, n, n, b, b⟩)) 0))))

def execArrive (c : Ctl) (d a : GReg) (off : Off) (s : State) : Host.Outcome State Fault Refusal :=
  whenFree c State.arrivalWaits s (fun s =>
    inBundle s (wordByLane c (fun x => x) (fun s _ x => latchLane s x (x.sea a off) (fun _ ea l =>
      match l.arrive none with
      | none => overrun
      | some l' =>
        .go (((s.arriving x).putLatch x.tid ea l' none).modStrand x.sid (fun y => y.setG d (if l.phase then 1 else 0))) 0))))

/-- Wait in LATCH at the following slot for PHASE to change (R364, R54). -/
def waitLatch (s : State) (b : Bundle) (x : Strand) (ea : Nat) (tok : Bool) (carve : Option GReg) : LaneOut :=
  .wait (s.modStrand x.sid (fun y => { y.standAfter b 1 with state := .latch ea tok carve }))

def execArwait (c : Ctl) (a : GReg) (off : Off) (s : State) : Host.Outcome State Fault Refusal :=
  whenFree c State.arrivalWaits s (fun s =>
    inBundle s (wordByLane c (fun x => x) (fun s b x => latchLane s x (x.sea a off) (fun _ ea l =>
      match l.arrive none with
      | none => overrun
      | some l' =>
        let s := (s.arriving x).putLatch x.tid ea l' none
        if l'.complete then .go (s.emptyL1 x.tid) 0 else waitLatch s b x ea l.phase none))))

def execLwait (c : Ctl) (d a : GReg) (off : Off) (s : State) : Host.Outcome State Fault Refusal :=
  whenFree c State.scratchWaits s (fun s =>
    inBundle s (wordByLane c (fun x => x) (fun s b x => latchLane s x (x.sea a off) (fun _ ea l =>
      let tok := (x.reg d).getLsbD 0
      if l.phase != tok then .go (s.emptyL1 x.tid) 0 else waitLatch s b x ea tok none))))

def execLexp (c : Ctl) (d a : GReg) (off : Off) (s : State) : Host.Outcome State Fault Refusal :=
  whenFree c State.scratchWaits s (fun s =>
    inBundle s (wordByLane c (fun x => x) (fun s _ x => latchLane s x (x.sea a off) (fun _ ea l =>
      let n := l.pendb + (x.reg d).toNat
      if 2 ^ 32 ≤ n then overrun else .go (s.scratchPut x.tid ea (latchBytes { l with pendb := n })) 0))))

def execLtry (c : Ctl) (d : PReg) (a : GReg) (off : Off) (s : State) : Host.Outcome State Fault Refusal :=
  whenFree c State.scratchWaits s (fun s =>
    inBundle s (wordByLane c (fun x => x.setP d false) (fun s _ x => latchLane s x (x.sea a off) (fun _ _ l =>
      .go ((s.modStrand x.sid (fun y => y.setP d l.phase)).emptyL1 x.tid) 0))))

/-- CARVE arrives as ARWAIT does, with its request; its status comes at the completion (R182). While new sizes wait for begun
entries the completing strand leaves its bundle, READY at the following slot: it does not issue before they are applied. -/
def execCarve (c : Ctl) (d a : GReg) (l1u scu : Byte) (s : State) : Host.Outcome State Fault Refusal :=
  whenFree c State.arrivalWaits s (fun s =>
    inBundle s (wordByLane c (fun x => x) (fun s b x => latchLane s x (x.reg a) (fun _ ea l =>
      match l.arrive (some (scu.toNat, l1u.toNat)) with
      | none => overrun
      | some l' =>
        let s := (s.arriving x).putLatch x.tid ea l' (some (x.sid, d))
        if l'.complete then
          (if (s.team? x.tid).elim false (fun t => t.carve.isSome) then
            .wait ((s.emptyL1 x.tid).modStrand x.sid (fun y => (y.standAfter b 1).wake s b.core))
          else .go (s.emptyL1 x.tid) 0)
        else waitLatch s b x ea l.phase (some d)))))

end Sys2Proof.Machine
end

