-- ==== Sys2Proof/Machine/Rounds.lean ====
section
/-! DEFINITION. Keyring signatures (R141 to R143), and a completed round's vote, checks and issue (R233 to R239). -/

namespace Sys2Proof.Machine

/-! ### Signatures (R142) -/

/-- Set bits of a 64-bit mask. -/
def popc64 (v : BitVec 64) : Nat := (List.range 64).countP (fun i => v.getLsbD i)

/-- Whether a strand is a member of a mask-mode keyring. -/
def Keyring.member (k : Keyring) (strandId : Nat) : Bool :=
  k.mode == .mask && decide (k.base ≤ strandId) && decide (strandId < k.base + 64) && k.members.getLsbD (strandId - k.base)

/-- Whether a signer takes part in the open round: every signer in count mode, a member in mask mode. -/
def Keyring.open (k : Keyring) (strandId : Nat) : Bool := k.mode == .count || k.member strandId

/-- Whether a signature has to be retried: the strand holds a slot of the open round. -/
def Keyring.retries (k : Keyring) (strandId : Nat) : Bool :=
  k.open strandId && k.slots.any (fun g => g.strandId == strandId)

/-- The keyring after its open round completed; a mask keyring takes EXPECT from its members (R143). -/
def Keyring.closed (k : Keyring) : Keyring :=
  let k := { k with round := (k.round + 1) % 256, slots := [] }
  if k.mode = .mask then
    (if popc64 k.members = 0 then { k with mode := .solo, expect := 1, base := 0, members := 0 }
     else { k with expect := popc64 k.members })
  else k

/-- Apply a signature that is not retried: the keyring, and the round it completes if it completes one. -/
def Keyring.sign (k : Keyring) (g : Sig) : Keyring × Option (Nat × List Sig) :=
  if k.open g.strandId then
    let g := { g with slot := if k.mode = .mask then g.strandId - k.base else k.slots.length }
    let slots := k.slots ++ [g]
    if k.expect ≤ slots.length then ({ k with slots := slots }.closed, some (k.round, slots))
    else ({ k with slots := slots }, none)
  else ({ k with round := (k.round + 1) % 256 }, some (k.round, [{ g with slot := 0 }]))

/-- The status word of Table 7.2. -/
def Keyring.status (k : Keyring) : Word :=
  BitVec.ofNat 32 ((match k.mode with | .solo => 0 | .count => 1 | .mask => 2) * 2 ^ 30 + k.round * 65536
    + k.slots.length * 256 + k.expect)

def Team.keyring (t : Team) (k : KReg) : Keyring := t.keyrings.get k

def Team.setKeyring (t : Team) (k : KReg) (v : Keyring) : Team := { t with keyrings := t.keyrings.set k.1 v k.2 }

/-! ### The vote (R234) -/

/-- Insert by slot number. -/
def insertSlot (g : Sig) : List Sig → List Sig
  | [] => [g]
  | h :: r => if g.slot ≤ h.slot then g :: h :: r else h :: insertSlot g r

/-- The non-abstaining signatures of a round in slot order. -/
def signersOf : List Sig → List Sig
  | [] => []
  | g :: r => if g.mma.isSome then insertSlot g (signersOf r) else signersOf r

/-- A source as the vote compares it: kind and buffer number or descriptor. -/
def srcDesc (x : Strand) : MSrc → Nat × Nat
  | .reg _ => (0, 0)
  | .mem g => (1, (x.pair g).toNat)
  | .ob o => (2, o.1)

/-- The descriptor the vote compares (R234). -/
def mmaDesc (x : Strand) (m : MmaOp) : Nat × Nat × (Nat × Nat) × (Nat × Nat) :=
  (m.form.1, m.slot.1, srcDesc x m.a, srcDesc x m.b)

/-- The bits of the format word that the vote compares. -/
def fmtBits (x : Strand) (m : MmaOp) : Nat := (x.reg m.fw).toNat % 2 ^ 19

/-- A signer that faults: its MX is lowered and it takes the trap at its MMA, unless it has ended (R233 to R235). -/
def State.trapSigner (s : State) (g : Sig) (t : Trap) : State :=
  let s := s.modStrand g.sid (Strand.lower s.now .mx)
  match s.strand? g.sid with
  | some x => if x.state = .ended then s else s.trap g.sid g.pc g.cls t 0
  | none => s

/-- A signer with its strand and MMA. -/
structure Signer where
  g : Sig
  x : Strand
  m : MmaOp

def State.signers (s : State) (sigs : List Sig) : List Signer :=
  (signersOf sigs).filterMap (fun g =>
    match g.mma, s.strand? g.sid with
    | some m, some x => some ⟨g, x, m⟩
    | _, _ => none)

/-- Whether any register of a span is uncorrectable. -/
def Strand.badSpan (x : Strand) (r : GReg) (n : Nat) : Bool := (List.range n).any (fun i => x.poison.getLsbD (gAt r i).1)

/-- Registers a source's descriptor is read from. -/
def descBad (x : Strand) : MSrc → Bool
  | .mem g => x.badSpan g 2
  | _ => false

/-- Registers a source's row is read from. -/
def rowBad (x : Strand) : MSrc → Bool
  | .reg g => x.badSpan g 64
  | _ => false

/-- Trap the signers that fail a test and keep the rest; a dropped slot counts as an abstention (R233). -/
def State.dropSigners (s : State) (l : List Signer) (bad : Signer → Bool) (fault : Nat) : State × List Signer :=
  ((l.filter bad).foldl (fun s e => s.trapSigner e.g (.plain fault)) s, l.filter (fun e => !bad e))

/-- As `dropSigners`, for signers whose round reads an uncorrectable register: each is an event of the course's register file (R370). -/
def State.dropBad (s : State) (c : Nat) (l : List Signer) (bad : Signer → Bool) : State × List Signer :=
  (s.countBad (44 + c) (l.filter bad).length).dropSigners l bad 13

/-- A failed vote: CAUSE and DIFF, if it fails (R234). -/
def voteFails (ref : Signer) (l : List Signer) : Option (Nat × DWord) :=
  let diff (e : Signer) : Bool := fmtBits e.x e.m != fmtBits ref.x ref.m || mmaDesc e.x e.m != mmaDesc ref.x ref.m
  let mask (p : Signer → Bool) : DWord := l.foldl (fun m e => if p e then m ||| (1#64 <<< e.g.slot) else m) 0
  if l.any diff then
    some (if l.any (fun e => fmtBits e.x e.m != fmtBits ref.x ref.m) then 0 else 1, mask diff)
  else if (FmtWord.read ref.m.form (ref.x.reg ref.m.fw)).isNone then some (2, mask (fun _ => true))
  else none

/-! ### Operand chunks (R238) -/

/-- Address of chunk c of row r of a memory operand. -/
def chunkAddr (d : DWord) (r c : Nat) : Nat :=
  let base := (d.extractLsb' 4 28).toNat * 16 + 16 * (r * (d.extractLsb' 32 12).toNat + c * (d.extractLsb' 44 12).toNat)
  if d.getLsbD 0 then (d.extractLsb' 56 8).toNat * 2 ^ 32 + base
  else
    let a := BitVec.ofNat 32 base
    let rot := (d.extractLsb' 1 3).toNat
    (if rot = 0 then a else a ^^^ (((a >>> (rot + 6)) &&& 7#32) <<< 4)).toNat

/-- Every chunk of an operand of 64 rows of n chunks. -/
def chunksOf (d : DWord) (n : Nat) : List Nat :=
  (List.range 64).flatMap (fun r => (List.range n).map (fun c => chunkAddr d r c))

/-- Check one chunk of a global operand, noting its page. -/
def State.chunkPage (s : State) (c a : Nat) (pages : List (Nat × Nat)) : Except LaneFault (List (Nat × Nat)) :=
  if pages.any (fun e => e.1 == a / 65536) then .ok pages
  else
    match s.check c (BitVec.ofNat 64 a) 16 accRead (fun p => p.read && decide (p.home = 1) && decide (p.pinc = c)) with
    | .error f => .error f
    | .ok acc => .ok (pages ++ [(a / 65536, acc.pa - a % 65536)])

/-- Check every chunk of a memory operand: its pages, or the first fault. -/
def State.chunkPages (s : State) (tid c : Nat) (d : DWord) (n : Nat) : Except LaneFault (List (Nat × Nat)) :=
  (chunksOf d n).foldl (fun r a =>
    match r with
    | .error f => .error f
    | .ok pages =>
      if d.getLsbD 0 then s.chunkPage c a pages
      else if s.scratchSize tid < a + 16 then .error (.trap (.addr 7 accRead (BitVec.ofNat 64 a)))
      else .ok pages) (.ok [])

/-- The operand of an issued round, with its checks. -/
def State.operandOf (s : State) (tid c : Nat) (l : List Signer) (ref : Signer) (src : Signer → MSrc) (n rows : Nat) :
    Except LaneFault Operand :=
  match src ref with
  | .reg _ =>
    .ok (.rows ((l.filter (fun e => decide (e.g.slot < rows))).map (fun e =>
      (e.g.slot, match src e with | .reg g => wordsBytes (e.x.span g 64) | _ => []))))
  | .mem g =>
    match s.chunkPages tid c (ref.x.pair g) n with
    | .error f => .error f
    | .ok pages => .ok (.mem (ref.x.pair g) pages)
  | .ob o => .ok (.ob o)

/-! ### Issue (R235, R236) -/

/-- A slot as the next round meets it: behind the TCLRs that have reached it (R231). -/
def State.slotView (s : State) (c seq idx : Nat) : Option (Bool × DWord) :=
  match s.tile? c seq idx with
  | none => none
  | some t =>
    let pend := s.flights.filter (fun f => decide (courseOf f.core = c) && f.seq == seq && (match f.op with
      | .tclr _ _ _ i _ => i == idx
      | _ => false))
    match pend.getLast? with
    | some f => (match f.op with | .tclr _ a _ _ _ => some (true, a.va) | _ => none)
    | none => some (t.bound, t.base)

/-- Whether a buffer operand is within the claim; MMA.SP's B takes two (R239). -/
def State.obOk (s : State) (c seq : Nat) (two : Bool) : MSrc → Bool
  | .ob o => (s.course c).obClaim[o.1]? == some (some seq) &&
      (!two || (s.course c).obClaim[o.1 + 1]? == some (some seq))
  | _ => true

/-- Whether a round waits behind a TCLR on its slot. -/
def State.tclrAhead (s : State) (c : Nat) (r : Round) : Bool :=
  s.flights.any (fun f => decide (courseOf f.core = c) && f.seq == r.seq && decide (f.id < r.stamp) && (match f.op with
    | .tclr _ _ _ i _ => i == r.tslot
    | _ => false))

/-- Whether an operand comes from registers alone, read when the round completes (R57). -/
def Operand.fromRegs : Operand → Bool
  | .rows _ => true
  | _ => false

/-- Put a round into the engine's queue; the slot's PEND counts it (R229, R236). With register operands alone everything
is read, and MX falls (R232). -/
def State.enqueue (s : State) (c : Nat) (r : Round) : State :=
  let s := (s.modCourse c (fun x => { x with queue := x.queue ++ [.round r] })).modTile c r.seq r.tslot
    (fun t => { t with pend := t.pend + 1 })
  if r.a.fromRegs && r.b.fromRegs then s.lowerAll .mx (r.signers.map (·.2)) else s

/-- A checked round goes to the queue, or waits in its keyring while there is no place (R236). -/
def State.queueRound (s : State) (c : Nat) (r : Round) : State :=
  let x := s.course c
  if x.waiting.isEmpty && decide (x.queued < 4) && !s.tclrAhead c r then s.enqueue c r
  else s.modCourse c (fun x => { x with waiting := x.waiting ++ [r] })

/-- A page fault of a round: one record; every signer is held at its MMA with MX lowered (R235). -/
def State.holdSigners (s : State) (l : List Signer) (kg number : Nat) (va : DWord) (acc : BitVec 3) : State :=
  let live := l.filter (fun e => e.x.state != .ended)
  let s := l.foldl (fun s e => s.modStrand e.g.sid (fun y =>
    let y := y.lower s.now .mx
    if y.state = .ended then y else { y with pc := e.g.pc, cls := e.g.cls, heldVa := va, heldLen := e.g.len })) s
  s.hold (live.map (·.g.sid)) .round acc va (BitVec.ofNat 32 (kg + 256 * number))

/-- The checks of R235 in order and the round they let through. Of several chunks that fail the first gives the fault, operand A
before B, rows and then chunks ascending; a tile page that fails reports READ and WRITE (DESIGN CHOICE, log 67). -/
def State.buildRound (s : State) (tid kg number : Nat) (l : List Signer) (ref : Signer) (f : FmtWord) :
    Except LaneFault Round :=
  let c := s.teamCourse tid
  let seq := s.seqOf tid
  let m := ref.m
  let sp := decide (m.form = 1)
  match s.slotView c seq m.slot.1 with
  | none => .error (.trap (.plain 7))
  | some (bound, base) =>
    if !s.obOk c seq false m.a || !s.obOk c seq sp m.b then .error (.trap (.plain 7))
    else if !bound then .error (.trap (.plain 7))
    else
      match s.check c base 1 (accRead ||| accWrite) (fun p => p.read && p.write && p.redOk && decide (p.home ≤ 1)) with
      | .error e => .error e
      | .ok acc =>
        match s.operandOf tid c l ref (fun e => e.m.a) 16 64 with
        | .error e => .error e
        | .ok oa =>
          match s.operandOf tid c l ref (fun e => e.m.b) (if sp then 32 else 16) (if m.form = 2 then 32 else 64) with
          | .error e => .error e
          | .ok ob =>
            let n := f.scaleRegs sp
            .ok { stamp := s.nextId, seq := seq, tid := tid, kg := kg, number := number, op := m, fw := ref.x.reg m.fw, tslot := m.slot.1,
                  tileVa := base, tilePa := acc.pa, page := acc.page, signers := l.map (fun e => (e.g.slot, e.g.sid)), a := oa, b := ob,
                  sa := if f.scale then l.map (fun e => (e.g.slot, wordsBytes (e.x.span e.m.sa n))) else [],
                  sb := if f.scale then l.map (fun e => (e.g.slot, wordsBytes (e.x.span e.m.sb n))) else [],
                  md := if sp then l.map (fun e => (e.g.slot, e.x.span e.m.md f.metaRegs)) else [],
                  present := l.map (·.g.slot) }

/-- Hand a completed round to the matrix unit: uncorrectable words, the vote, the spans that depend on the format, the
checks, the queue (R233 to R236). Of an MMA.CX only B rows 0 to 31 are read (R244). -/
def State.completeRound (s : State) (tid kg number : Nat) (sigs : List Sig) : State :=
  let (s, l) := s.dropBad (s.teamCourse tid) (s.signers sigs)
    (fun e => e.x.badSpan e.m.fw 1 || descBad e.x e.m.a || descBad e.x e.m.b)
  match l with
  | [] => s
  | ref :: _ =>
    match voteFails ref l with
    | some (cause, diff) =>
      l.foldl (fun s e => s.trapSigner e.g ⟨ecause (kg + 16 * number) cause 8, 0, diff⟩) s
    | none =>
      match FmtWord.read ref.m.form (ref.x.reg ref.m.fw) with
      | none => s
      | some f =>
        let sp := decide (ref.m.form = 1)
        let regs := (s.team? tid).elim 256 (fun t => t.kernel.regs)
        let n := f.scaleRegs sp
        let (s, l) := s.dropSigners l (fun e =>
          (f.scale && (decide (regs < e.m.sa.1 + n) || decide (regs < e.m.sb.1 + n))) ||
          (sp && decide (regs < e.m.md.1 + f.metaRegs))) 4
        let readsB (e : Signer) : Bool := ref.m.form != 2 || decide (e.g.slot < 32)
        let (s, l) := s.dropBad (s.teamCourse tid) l (fun e => rowBad e.x e.m.a || (readsB e && rowBad e.x e.m.b) ||
          (f.scale && (e.x.badSpan e.m.sa n || (readsB e && e.x.badSpan e.m.sb n))) || (sp && e.x.badSpan e.m.md f.metaRegs))
        match l with
        | [] => s
        | ref :: _ =>
          match s.buildRound tid kg number l ref f with
          | .ok r => s.queueRound (s.teamCourse tid) r
          | .error (.trap t) => l.foldl (fun s e => s.trapSigner e.g t) s
          | .error (.page va acc) => s.holdSigners l kg number va acc

/-- Sign a keyring of a team, completing a round if it does. -/
def State.signKeyring (s : State) (tid : Nat) (kg : KReg) (g : Sig) : State :=
  match s.team? tid with
  | none => s
  | some t =>
    let r := (t.keyring kg).sign g
    let s := s.modTeam tid (fun t => t.setKeyring kg r.1)
    match r.2 with
    | none => s
    | some (number, sigs) => s.completeRound tid kg.1 number sigs

/-- The end of a strand: a mask-mode member leaves its keyring, and abstains if it holds no slot (R143). -/
def State.leaveKeyring (s : State) (x : Strand) (kg : KReg) : State :=
  match s.team? x.tid with
  | none => s
  | some t =>
    let k := t.keyring kg
    if k.member x.strandId then
      let k' := { k with members := k.members &&& ~~~(1#64 <<< (x.strandId - k.base)) }
      if k.slots.any (fun g => g.strandId == x.strandId) then s.modTeam x.tid (fun t => t.setKeyring kg k')
      else
        let slots := k.slots ++ [⟨x.strandId - k.base, x.sid, x.strandId, none, 0, none, 1⟩]
        if k.expect ≤ slots.length then
          (s.modTeam x.tid (fun t => t.setKeyring kg { k' with slots := slots }.closed)).completeRound x.tid kg.1 k.round slots
        else s.modTeam x.tid (fun t => t.setKeyring kg { k' with slots := slots })
    else s

/-- Every keyring of a strand that ends. -/
def State.leaveKeyrings (s : State) (x : Strand) : State :=
  (List.finRange 16).foldl (fun s kg => s.leaveKeyring x kg) s

end Sys2Proof.Machine
end

