-- ==== Sys2Proof/Machine/TeamRegs.lean ====
section
/-! DEFINITION. Special registers, shared registers and keyring configuration: MFS, MTS, MOVS, KSET, KSIGN
(R82 to R84, R138 to R148). -/

namespace Sys2Proof.Machine

/-- A special register's value (Table 5.2); `tm` is the strand's team. -/
def State.special (s : State) (x : Strand) (tm : Team) : SpReg → Word
  | .strandid => BitVec.ofNat 32 x.strandId
  | .teamid => BitVec.ofNat 32 tm.teamId
  | .gangid => BitVec.ofNat 32 tm.gangId
  | .lanepos => BitVec.ofNat 32 (x.strandId % tm.kernel.width)
  | .width => BitVec.ofNat 32 tm.kernel.width
  | .launchid => BitVec.ofNat 32 tm.seq
  | .coreid => BitVec.ofNat 32 tm.core
  | .courseid => BitVec.ofNat 32 (courseOf tm.core)
  | .dieid => BitVec.ofNat 32 s.dieId
  | .maxabs => x.maxabs
  | .rng0 => x.rng.extractLsb' 0 32
  | .rng1 => x.rng.extractLsb' 32 32
  | .rng2 => x.rng.extractLsb' 64 32
  | .rng3 => x.rng.extractLsb' 96 32
  | .ctrs => x.ctrs
  | .clklo => DWord.lo s.timebase
  | .clkhi => x.clkhi

/-- A read of CLKLO latches CLKHI (R84). -/
def Strand.latchClk (x : Strand) (now : DWord) (r : SpReg) : Strand :=
  if r = .clklo then { x with clkhi := DWord.hi now } else x

/-- Replace 32 bits of RNG. -/
def setRngPart (rng : BitVec 128) (k : Nat) (v : Word) : BitVec 128 :=
  (rng &&& ~~~(0xFFFFFFFF#128 <<< (32 * k))) ||| (v.setWidth 128 <<< (32 * k))

/-- Write a special register; the RO registers are not named by MTS (R83, R145). -/
def Strand.setSpecial (x : Strand) (r : SpReg) (v : Word) : Strand :=
  match r with
  | .maxabs => { x with maxabs := v }
  | .rng0 => { x with rng := setRngPart x.rng 0 v }
  | .rng1 => { x with rng := setRngPart x.rng 1 v }
  | .rng2 => { x with rng := setRngPart x.rng 2 v }
  | .rng3 => { x with rng := setRngPart x.rng 3 v }
  | _ => x

def execMfs (c : Ctl) (d : GReg) (r : SpReg) (s : State) : Host.Outcome State Fault Refusal :=
  inBundle s (wordByLane c (fun x => x.zeroSpan d 1) (fun s _ x =>
    match s.team? x.tid with
    | none => .go s 0
    | some tm => .go (s.modStrand x.sid (fun y => (y.latchClk s.timebase r).setG d (s.special x tm r))) 0))

def execMts (c : Ctl) (r : SpReg) (a : GReg) (s : State) : Host.Outcome State Fault Refusal :=
  inBundle s (wordOfStrand c (fun x => x) (fun x => x.setSpecial r (x.reg a)))

/-- A shared register of a strand's team. -/
def State.sreg (s : State) (x : Strand) (r : SReg) : Word := (s.team? x.tid).elim 0 (fun t => t.sregs.get r)

/-- Registers zeroed in a masked-off lane of a MOVS. -/
def MovsDir.zero (dir : MovsDir) (x : Strand) : Strand :=
  match dir with
  | .read d _ => x.zeroSpan d 1
  | .write _ _ => x

/-- MOVS: writes of the lanes in ascending LANEPOS, the last one stands (R140, R146). -/
def execMovs (c : Ctl) (dir : MovsDir) (s : State) : Host.Outcome State Fault Refusal :=
  inBundle s (wordByLane c (MovsDir.zero dir) (fun s _ x =>
    match dir with
    | .read d r => .go (s.modStrand x.sid (fun y => y.setG d (s.sreg x r))) 0
    | .write r a => .go (s.modTeam x.tid (fun t => { t with sregs := t.sregs.set r.1 (x.reg a) r.2, sregTime := some s.now })) 0))

/-! ### KSET and KSIGN (R142, R147, R148) -/

/-- A lane that retries: it leaves the bundle and is READY again at the word. -/
def retryLane (s : State) (b : Bundle) (x : Strand) : LaneOut :=
  .leave (s.modStrand x.sid (fun y => { y with pc := b.pc, cls := b.cls, state := .ready, since := s.now }))

/-- Give a keyring a new configuration in one lane: nothing if it stands, a retry while a round is open. -/
def configure (s : State) (b : Bundle) (x : Strand) (k : KReg) (new : Keyring) : LaneOut :=
  match s.team? x.tid with
  | none => .go s 0
  | some t =>
    let old := t.keyring k
    if old.mode = new.mode ∧ old.expect = new.expect ∧ old.base = new.base ∧ old.members = new.members then .go s 0
    else if !old.slots.isEmpty then retryLane s b x
    else .go (s.modTeam x.tid (fun t => t.setKeyring k { new with round := old.round })) 0

/-- The configuration KSET.COUNT asks for. -/
def countConfig (n : Word) : Keyring :=
  if 1 ≤ n.toNat ∧ n.toNat ≤ 64 then { Keyring.fresh with mode := .count, expect := n.toNat } else Keyring.fresh

/-- The configuration KSET.MASK asks for; bits 5:0 and 31:10 of the base are ignored. -/
def maskConfig (m : DWord) (base : Word) : Keyring :=
  if m = 0 then Keyring.fresh
  else { Keyring.fresh with mode := .mask, expect := popc64 m, base := (base.extractLsb' 6 4).toNat * 64, members := m }

def execKsetCount (c : Ctl) (k : KReg) (a : GReg) (s : State) : Host.Outcome State Fault Refusal :=
  inBundle s (wordByLane c (fun x => x) (fun s b x => configure s b x k (countConfig (x.reg a))))

def execKsetMask (c : Ctl) (k : KReg) (a b : GReg) (s : State) : Host.Outcome State Fault Refusal :=
  inBundle s (wordByLane c (fun x => x) (fun s bu x => configure s bu x k (maskConfig (x.pair a) (x.reg b))))

def execKsetFree (c : Ctl) (k : KReg) (s : State) : Host.Outcome State Fault Refusal :=
  inBundle s (wordByLane c (fun x => x) (fun s b x => configure s b x k Keyring.fresh))

/-- KSIGN.ABSTAIN signs as an abstention; a strand that holds a slot of the open round retries. -/
def execKsignAbstain (c : Ctl) (k : KReg) (s : State) : Host.Outcome State Fault Refusal :=
  inBundle s (wordByLane c (fun x => x) (fun s b x =>
    match s.team? x.tid with
    | none => .go s 0
    | some t =>
      if (t.keyring k).retries x.strandId then retryLane s b x
      else .go (s.signKeyring x.tid k ⟨0, x.sid, x.strandId, none, b.pc, b.cls, c.slots⟩) 0))

def execKsignStat (c : Ctl) (d : GReg) (k : KReg) (s : State) : Host.Outcome State Fault Refusal :=
  inBundle s (wordByLane c (fun x => x) (fun s _ x =>
    match s.team? x.tid with
    | none => .go s 0
    | some t => .go (s.modStrand x.sid (fun y => y.setG d (t.keyring k).status)) 0))

end Sys2Proof.Machine
end

