-- ==== Sys2Proof/Machine/Matrix.lean ====
section
/-! DEFINITION. MMA, MMA.SP, MMA.CX, TCLR, WMRD, TWAIT and OBST (R231, R232, R246 to R253) and the events of the matrix
engine (R230, R236, R238, R239). -/

namespace Sys2Proof.Machine

/-! ### Signing (R232) -/

/-- An MMA word in one lane: it signs, raises MX and parks after its two slots, or retries. -/
def mmaLane (c : Ctl) (k : KReg) (m : MmaOp) (s : State) (b : Bundle) (x : Strand) : LaneOut :=
  match s.team? x.tid with
  | none => .go s 0
  | some t =>
    if (t.keyring k).retries x.strandId then retryLane s b x
    else
      let s := s.modStrand x.sid (fun y =>
        (y.raise .mx).leaveAt s b.core (b.pc + 16) (b.cls.map (·.after 2)) Ctr.mx.bit)
      .wait (s.signKeyring x.tid k ⟨0, x.sid, x.strandId, some m, b.pc, b.cls, c.slots⟩)

/-- An MMA word: a switch point after itself whatever SW says. -/
def mmaWord (c : Ctl) (k : KReg) (m : MmaOp) (s : State) : Host.Outcome State Fault Refusal :=
  inBundle s (wordByLane { c with sw := true } (fun x => x) (mmaLane c k m))

def execMma (c : Ctl) (k : KReg) (t : Slot) (a b : MSrc) (cc : GReg) (sa sb : GReg) (s : State) :
    Host.Outcome State Fault Refusal := mmaWord c k ⟨0, t, a, b, cc, sa, sb, 0⟩ s

def execMmaSp (c : Ctl) (k : KReg) (t : Slot) (a b : MSrc) (cc : GReg) (sa sb md : GReg) (s : State) :
    Host.Outcome State Fault Refusal := mmaWord c k ⟨1, t, a, b, cc, sa, sb, md⟩ s

def execMmaCx (c : Ctl) (k : KReg) (t : Slot) (a b : MSrc) (cc : GReg) (sa sb : GReg) (s : State) :
    Host.Outcome State Fault Refusal := mmaWord c k ⟨2, t, a, b, cc, sa, sb, 0⟩ s

/-! ### Slots and buffers (R250 to R253) -/

/-- The participating lanes of a word, in LANEPOS order. -/
def State.taking (s : State) (c : Ctl) (b : Bundle) : List Strand :=
  (b.lanes.dedup.filterMap s.strand?).filter (fun x => x.active c && x.unmasked c)

/-- The checks of TCLR with its lowest lane's operands (R251). DESIGN CHOICE (log 67): a page that fails is reported with the
access kinds READ and WRITE. -/
def State.tclrCheck (s : State) (core : Nat) (t : Slot) (x : Strand) (a : GReg) : Except LaneFault Acc :=
  let base := x.pair a
  if base.toNat % 16384 ≠ 0 then .error (.trap (.addr 5 (accRead ||| accWrite) base))
  else if (s.slotOf (courseOf core) (s.seqOf x.tid) t.1).isNone then .error (.trap (.plain 7))
  else s.check (coreUnit core) base 1 (accRead ||| accWrite)
    (fun p => p.read && p.write && p.redOk && decide (p.home ≤ 1))

/-- Add a lane to a TCLR in flight. -/
def FlightOp.addTclr (sid : Nat) : FlightOp → FlightOp
  | .tclr sids a bind slot seed => .tclr (sids ++ [sid]) a bind slot seed
  | op => op

/-- TCLR acts once: one verdict for every participating lane, one operation in flight (R251). -/
def execTclr (c : Ctl) (bind : Bool) (t : Slot) (a b : GReg) (s : State) : Host.Outcome State Fault Refusal :=
  inBundle s (fun bu s =>
    let verdict := (s.taking c bu).head?.map (fun x => (s.tclrCheck bu.core t x a, x.pair b))
    wordByLane c (fun x => x) (fun u _ x =>
      match verdict with
      | none => .go u 0
      | some (.error f, _) => .fault f
      | some (.ok acc, seed) =>
        joinFlight x .mx s.flights.length ((u.flownSince s.flights.length).head?.map Flight.id) (.tclr [x.sid] acc bind t.1 seed)
          (FlightOp.addTclr x.sid) u) bu s)

/-- The status word of Table 11.2. -/
def Tile.status (t : Tile) : Word :=
  BitVec.ofNat 32 ((if t.bound then 2 ^ 31 else 0) + t.pend * 256 + t.wm)

/-- The slot a lane names, or ACCESS (R229). -/
def slotLane (s : State) (b : Bundle) (x : Strand) (t : Slot) (k : Tile → LaneOut) : LaneOut :=
  match s.tile? (courseOf b.core) (s.seqOf x.tid) t.1 with
  | none => .fault (.trap (.plain 7))
  | some e => k e

def execWmrd (c : Ctl) (t : Slot) (d : GReg) (s : State) : Host.Outcome State Fault Refusal :=
  inBundle s (wordByLane c (fun x => x.zeroSpan d 1) (fun s b x =>
    slotLane s b x t (fun e => .go (s.modStrand x.sid (fun y => y.setG d e.status)) 0)))

/-- TWAIT raises MX until the rows are final; with them final already it has lowered it at once (R252). -/
def execTwait (c : Ctl) (t : Slot) (a : GReg) (s : State) : Host.Outcome State Fault Refusal :=
  inBundle s (wordByLane c (fun x => x) (fun s b x =>
    slotLane s b x t (fun e =>
      let n := min (x.reg a).toNat 64
      if n ≤ e.wm then .go s Ctr.mx.bit else flyFrom x [.mx] (.twait x.sid t.1 n) s)))

/-- OBST: the offset is checked before the claim (R253; DESIGN CHOICE, log 58). -/
def execObst (c : Ctl) (o : ObReg) (a b : GReg) (s : State) : Host.Outcome State Fault Refusal :=
  inBundle s (wordByLane c (fun x => x) (fun s bu x =>
    let off := (x.reg b).toNat
    if off % 16 ≠ 0 then .fault (.trap (.plain 5))
    else if 16384 ≤ off then .fault (.trap (.plain 7))
    else if !s.obOk (courseOf bu.core) (s.seqOf x.tid) false (.ob o) then .fault (.trap (.plain 7))
    else flyFrom x [.mx] (.obst x.sid o off (wordsBytes (x.span a 4))) s))

/-- Whether an earlier OBST of the course has still to write the chunk: the highest LANEPOS leaves its value (R253). -/
def State.obstBefore (s : State) (f : Flight) (o : ObReg) (off : Nat) : Bool :=
  s.flights.any (fun g => decide (g.id < f.id) && decide (courseOf g.core = courseOf f.core) && (match g.op with
    | .obst _ p q _ => p == o && q == off
    | _ => false))

/-- OBST_COMPLETE: the write is in the buffer and MX falls (R253). -/
def execObstComplete (id : Nat) (s : State) : Host.Outcome State Fault Refusal :=
  match s.flight? id with
  | none => .next s
  | some f =>
    match f.op with
    | .obst sid o off data =>
      if s.obstBefore f o off then .next s
      else .next (((s.modCourse (courseOf f.core) (fun x => { x with obs := modAt (memPutL off data) o.1 x.obs })).modStrand
        sid (Strand.lower s.now .mx)).dropFlight id)
    | _ => .next s

/-- Whether a round that completed before a TCLR still waits for a place in the queue (R231). -/
def State.roundBefore (s : State) (f : Flight) (slot : Nat) : Bool :=
  (s.course (courseOf f.core)).waiting.any (fun r => r.seq == f.seq && r.tslot == slot && decide (r.stamp ≤ f.id))

/-- Discard a course's delta words in a physical range: an element of 8 bytes goes whole when one of its words does (R224; DESIGN
CHOICE, log 57). -/
def State.dropDeltas (s : State) (c pa n : Nat) : State :=
  s.modCourse c (fun x => { x with deltas := x.deltas.filter (fun e => !overlaps pa n e.1 (deltaBytes e)) })

/-- Clear a tile: its delta words go, and +0 is written through as a plain store of a strand on a core, which updates what its team's
L1 and its course hold of the tile (R161, R211, R214, R251). -/
def State.clearTile (s : State) (core tid pa : Nat) : State :=
  let c := courseOf core
  let s := ((s.drainRange c pa 16384).dropDeltas c pa 16384).recallRange (some tid) pa 16384
  let zeros := List.replicate 16384 (0 : Byte)
  (((s.writeBack c pa 16384).homeOwn c pa zeros).storeL1 tid (bytesAt pa zeros)).wrote core pa 16384

/-- TCLR_APPLY: with PEND 0 it binds, and clears unless BIND (R231, R251); a page that was gone when the TCLR was restored is not
written (log 60). -/
def execTclrApply (id : Nat) (s : State) : Host.Outcome State Fault Refusal :=
  match s.flight? id with
  | none => .next s
  | some f =>
    match f.op with
    | .tclr sids a bind slot seed =>
      let c := courseOf f.core
      match s.tile? c f.seq slot with
      | none => .next s
      | some t =>
        if t.pend ≠ 0 ∨ s.roundBefore f slot ∨ s.flights.any (fun g => decide (g.id < id) && decide (courseOf g.core = c) &&
            g.seq == f.seq && (match g.op with | .tclr _ _ _ i _ => i == slot | _ => false)) ∨
            (!bind && sids.any (fun sid => s.waits f sid a.pa 16384)) then .next s
        else
          let s := s.modTile c f.seq slot (fun t =>
            { t with bound := true, base := a.va, pa := a.pa, wm := 64, rng := seedExpand seed (BitVec.ofNat 32 slot) })
          let s := if bind || !a.page.write then s else s.clearTile f.core f.tid a.pa
          .next (((s.lowerAll .mx sids).dropFlight id).settleTwait c).settleFences
    | _ => .next s

/-! ### The engine (R230, R236, R238, R239) -/

/-- MMA_ROUND_ENQUEUE: the oldest waiting round takes a free place (R236). -/
def execMmaRoundEnqueue (course : Nat) (s : State) : Host.Outcome State Fault Refusal :=
  let x := s.course course
  match x.waiting with
  | [] => .next s
  | r :: rs =>
    if x.queued < 4 ∧ !s.tclrAhead course r then
      .next ((s.modCourse course (fun x => { x with waiting := rs })).enqueue course r)
    else .next s

/-- MMA_ROUND_START: the round at the head of the queue takes the engine and its slot's WM becomes 0 (R230). -/
def execMmaRoundStart (course : Nat) (s : State) : Host.Outcome State Fault Refusal :=
  let x := s.course course
  match x.running, x.queue with
  | none, .round r :: q =>
    .next ((s.modCourse course (fun x => { x with queue := q, running := some ⟨r, 0, none⟩ })).modTile course r.seq r.tslot
      (fun t => { t with wm := 0 }))
  | _, _ => .next s

/-- Whether the engine may read the operands: what its signers issued before is in place (R173, R190, R239). -/
def State.operandsReady (s : State) (r : Round) : Bool :=
  !s.flights.any (fun f => r.signers.any (fun e => f.op.strands.contains e.2) &&
    (f.op.acquires || (f.op.writes && f.acc.isNone) || (match f.op with | .obst _ _ _ _ => true | _ => false)))

/-- Whether accepted accesses of a course have to be performed before it can serve bytes: they are not in its copy (R213), or an
accepted access that its copy does not show meets them. -/
def State.mustDrain (s : State) (c pa n : Nat) : Bool :=
  let x := s.course c
  (List.range n).any (fun i => (cellGet x.dirty (pa + i)).isNone && (cellGet x.clean (pa + i)).isNone) ||
    (s.accepted c).any (fun f => f.op.hidden && f.op.covers pa n)

/-- Ready a range of the course's cache for a COURSE-scope read. -/
def State.serveCourse (s : State) (c pa n : Nat) : State :=
  let s := if s.mustDrain c pa n then s.drainRange c pa n else s
  s.mergeRange c pa n

/-- Copy the bytes of a range that a course cache lacks from the home, and pin the line of a PINNED page (R162, R166). -/
def State.fillLine (s : State) (c : Nat) (p : Page) (pa n : Nat) : State :=
  let s := ((if s.mustDrain c pa n then s.drainRange c pa n else s).pin c p pa).fillHome pa n
  s.modCourse c (fun x => { x with clean := (List.range n).foldl (fun m i =>
    if (cellGet x.dirty (pa + i)).isSome || (cellGet x.clean (pa + i)).isSome then m
    else cellPut (pa + i) (s.home (pa + i)) m) x.clean })

/-- Serve a range from a course's cache: pending deltas on it merge first (R201). -/
def State.fillCourse (s : State) (c : Nat) (p : Page) (pa n : Nat) : State := (s.serveCourse c pa n).fillLine c p pa n

/-- One chunk of a memory operand; of a page that was gone when its round was restored, bytes that the spec does not state (DESIGN
CHOICE, log 6). -/
def State.readChunk (s : State) (c tid : Nat) (desc : DWord) (pages : List (Nat × Nat)) (a : Nat) : State × List Byte :=
  if desc.getLsbD 0 then
    match pages.find? (fun e => e.1 == a / 65536) with
    | some e =>
      let pa := e.2 + a % 65536
      let s := s.fillCourse c { (default : Page) with home := 1, pinc := c } pa 16
      (s, readN (s.courseByte c) pa 16)
    | none =>
      let q := s.free
      let r := q.2.free
      (r.2, leBytes 8 q.1.toNat ++ leBytes 8 r.1.toNat)
  else (s, readN (s.scratchGet tid) a 16)

/-- The rows of an operand: `n` chunks a row for a memory or buffer source. -/
def State.readOperand (s : State) (c tid n rows : Nat) : Operand → State × List (Nat × List Byte)
  | .rows r => (s, r)
  | .mem desc pages =>
    (List.range rows).foldl (fun (q : State × List (Nat × List Byte)) r =>
      let row := (List.range n).foldl (fun (w : State × List Byte) k =>
        let e := w.1.readChunk c tid desc pages (chunkAddr desc r k)
        (e.1, w.2 ++ e.2)) (q.1, [])
      (row.1, q.2 ++ [(r, row.2)])) (s, [])
  | .ob o =>
    let obs := (s.course c).obs
    let row (k r : Nat) : List Byte := readN (memGet (obs.getD k [])) (256 * r) 256
    (s, (List.range rows).map (fun r => (r, if n = 16 then row o.1 r else row o.1 r ++ row (o.1 + 1) r)))

/-- MMA_OPERAND_READ_DONE: every source operand is read and the signers' MX falls (R232, R238, R239). -/
def execMmaOperandReadDone (course : Nat) (s : State) : Host.Outcome State Fault Refusal :=
  match (s.course course).running with
  | none => .next s
  | some g =>
    if g.ops.isSome ∨ !s.operandsReady g.r then .next s
    else
      let ra := s.readOperand course g.r.tid 16 64 g.r.a
      let rb := ra.1.readOperand course g.r.tid (if g.r.op.form = 1 then 32 else 16) (if g.r.op.form = 2 then 32 else 64) g.r.b
      let s := rb.1.modCourse course (fun x => { x with running := some { g with ops := some (ra.2, rb.2) } })
      .next (if g.r.a.fromRegs && g.r.b.fromRegs then s else s.lowerAll .mx (g.r.signers.map (·.2)))

/-- MMA_ROW_APPLY: one cycle's rows (R230, R241). -/
def execMmaRowApply (course : Nat) (s : State) : Host.Outcome State Fault Refusal :=
  match (s.course course).running with
  | none => .next s
  | some g =>
    match FmtWord.read g.r.op.form g.r.fw with
    | some f => .next ((s.drainRange course (g.r.tilePa + 256 * g.rows) (256 * f.rate)).applyRows course f.rate)
    | none => .next s

end Sys2Proof.Machine
end

