-- ==== Sys2Proof/Machine/Records.lean ====
section
/-! DEFINITION. The record pool, hinge bins and side blocks (R284 to R295, R311), the fate of a finished ray (R317, R322),
and grants of freed slots (R293, R298). -/

namespace Sys2Proof.Machine

/-! ### Launches, nodes and shaders -/

/-- The courses of a launch's placement set, ascending. -/
def Launch.courseList (l : Launch) : List Nat := (List.range 32).filter (fun c => l.courses.getLsbD c)

/-- Course number k of the set, counted in ascending order, modulo their number. -/
def Launch.nthCourse (l : Launch) (k : Nat) : Nat := l.courseList.getD (k % l.courseList.length) 0

/-- A course's number in the set. -/
def Launch.ordinal (l : Launch) (c : Nat) : Nat := (l.courseList.findIdx? (· == c)).getD 0

/-- The kernel of a node, and of a shader (R282). -/
def Ext.nodeKernel (e : Ext) (n : Nat) : Option Kernel := e.kernels.find? (fun k => k.kind == 2 && k.nodeIdx == n)
def Ext.shader (e : Ext) (kind index : Nat) : Option Kernel :=
  e.kernels.find? (fun k => k.kind == 1 && k.shkind == kind && k.nodeIdx == index)

def Ext.nq (e : Ext) (n : Nat) : Nat := (e.nodes[n]?).elim 0 (·.1)
def Ext.level (e : Ext) (n : Nat) : Nat := (e.nodes[n]?).elim 0 (·.2)

/-- Slots of the part a record is charged to (R284). -/
def Ext.part (e : Ext) : Option Nat → Nat
  | none => e.reserve
  | some n => e.nq n

/-- The extension of a team's launch. -/
def State.extOf (s : State) (seq : Nat) : Option Ext := (s.launch? seq).bind (·.ext)

/-- Records charged to a part on a course. -/
def State.charged (s : State) (c seq : Nat) (ch : Option Nat) : Nat :=
  ((s.course c).recs.filter (fun r => r.seq == seq && r.charge == ch)).length

/-- Whether a part has a FREE slot on a course; none while the launch is spilled (R303). -/
def State.slotFree (s : State) (c seq : Nat) (ch : Option Nat) : Bool :=
  match s.launch? seq with
  | none => false
  | some l =>
    match l.ext with
    | none => false
    | some e => !l.spilled && decide (s.charged c seq ch < e.part ch)

/-- The lowest slot index of a launch that is free on a course. -/
def State.freeSlot (s : State) (c seq : Nat) : Nat :=
  let taken := ((s.course c).recs.filter (fun r => r.seq == seq)).map (·.idx)
  ((List.range (taken.length + 1)).find? (fun i => !taken.contains i)).getD 0

def State.rec? (s : State) (c seq idx : Nat) : Option Rec :=
  (s.course c).recs.find? (fun r => r.seq == seq && r.idx == idx)

def State.modRec (s : State) (c seq idx : Nat) (f : Rec → Rec) : State :=
  s.modCourse c (fun x => { x with recs := x.recs.map (fun r => if r.seq = seq ∧ r.idx = idx then f r else r) })

/-! ### Record fields (Tables 14.4, 14.5) -/

/-- A field of a record image. -/
def field (img : BitVec 1024) (lo n : Nat) : Nat := img.toNat / 2 ^ lo % 2 ^ n

/-- Replace a field of an image. -/
def setField {w : Nat} (img : BitVec w) (lo n v : Nat) : BitVec w :=
  (img &&& ~~~(BitVec.ofNat w ((2 ^ n - 1) * 2 ^ lo))) ||| BitVec.ofNat w (v % 2 ^ n * 2 ^ lo)

/-- The bytes of an image, and back. -/
def imageBytes (img : BitVec 1024) : List Byte := leBytes 128 img.toNat
def bytesImage (bs : List Byte) : BitVec 1024 := BitVec.ofNat 1024 (leNat bs)

/-- TSTATE at the start of traversal (R311). -/
def tstateStart : List Byte := leBytes 16 ((2 ^ 96 - 1) * 256)

/-- A ray record: ray span, control word, SAMPLE, payload (R297). -/
def rayImage (ray : List Word) (ctl : Word) (sample : DWord) (payload : List Word) : BitVec 1024 :=
  bytesImage (wordsBytes ray ++ [ctl.extractLsb' 24 8 &&& 0x1F#8, ctl.extractLsb' 16 8]
    ++ leBytes 2 (ctl.extractLsb' 0 16).toNat ++ leBytes 4 0 ++ leBytes 8 sample.toNat ++ wordsBytes payload ++ tstateStart)

/-- A continuation record (R287, R299). -/
def contImage (addr : DWord) (node rdepth : Nat) (entry : Word) (sample : DWord) (payload : List Byte) : BitVec 1024 :=
  bytesImage (leBytes 8 addr.toNat ++ leBytes 2 node ++ leBytes 1 rdepth ++ leBytes 5 0 ++ leBytes 4 entry.toNat
    ++ leBytes 20 0 ++ leBytes 8 sample.toNat ++ payload)

/-- SAMPLE of the record a strand owns, or owned last. -/
def State.sampleOf (s : State) (x : Strand) : DWord :=
  match x.owned with
  | some i =>
    match s.rec? (s.teamCourse x.tid) (s.seqOf x.tid) i with
    | some r => BitVec.ofNat 64 (field r.image 320 64)
    | none => x.sample
  | none => x.sample

/-! ### Bin keys (R289) -/

/-- A finite F32 value as a multiple of 2 to the −149. -/
def fixed149 (v : FVal) : Int :=
  match v with
  | .fin s n d => signed s (n * 2 ^ 149 / d)
  | _ => 0

/-- Whether a value is an infinity. -/
def FVal.isInf : FVal → Bool
  | .inf _ => true
  | _ => false

/-- An F32 pattern's value. -/
def f32v (p : Nat) : FVal := FVal.ofPat .f32 p

/-- The cell index on one axis. -/
def cellOf (o lo hi : FVal) : Nat :=
  if lo.isInf || hi.isInf then 0
  else match o with
    | .nan => 0
    | .inf neg => if neg then 0 else 15
    | v =>
      let q := (16 * (fixed149 v - fixed149 lo)) / (fixed149 hi - fixed149 lo)
      min 15 q.toNat

/-- The magnitude of a component, an infinity above every finite one. -/
def magOf (v : FVal) : Int := if v.isInf then 2 ^ 300 else (fixed149 v).natAbs

/-- The direction class. -/
def dirClass (d : List Nat) : Nat :=
  let vs := d.map f32v
  let m := vs.foldl (fun m v => max m (magOf v)) 0
  if vs.any FVal.isNan || m = 0 then 0
  else
    let sgn := d.zipIdx.foldl (fun n e => n + (if e.1.testBit 31 then 2 ^ e.2 else 0)) 0
    let big := vs.zipIdx.foldl (fun n e => n + (if m ≤ 2 * magOf e.1 then 2 ^ e.2 else 0)) 0
    8 * sgn + big

/-- The TRAV key of a ray. -/
def travKey (e : Ext) (img : BitVec 1024) : Key :=
  let cell (k : Nat) : Nat := cellOf (f32v (field img (32 * k) 32)) (f32v (e.mins.getD k 0).toNat) (f32v (e.maxs.getD k 0).toNat)
  .trav (cell 0 + 16 * cell 1 + 256 * cell 2) (dirClass [field img 128 32, field img 160 32, field img 192 32])

/-! ### Bins (R290) -/

/-- The lowest bin index with no key. -/
def Course.freeBin (x : Course) : Option Nat := (List.range 1024).find? (fun b => !x.bins.any (fun e => e.idx == b))

/-- A record joins the bin with its key, else the lowest free bin, else the arrival list. -/
def Course.join (x : Course) (seq idx : Nat) (key : Key) (t : Int) : Course :=
  if x.bins.any (fun b => b.seq == seq && b.key == key) then
    { x with bins := x.bins.map (fun b =>
        if b.seq = seq ∧ b.key = key then { b with recs := b.recs ++ [(idx, t)] } else b) }
  else match x.freeBin with
    | some i => { x with bins := x.bins ++ [⟨i, seq, key, [(idx, t)], none⟩] }
    | none => { x with arrivals := x.arrivals ++ [(seq, idx, key, t)] }

/-- Records on the arrival list take a bin, in arrival order. -/
def Course.settleArrivals (x : Course) : Course :=
  x.arrivals.foldl (fun y a => y.join a.1 a.2.1 a.2.2.1 a.2.2.2) { x with arrivals := [] }

/-- Take records out of their bin; an emptied bin is free, and is current no longer (R291). -/
def Course.unbin (x : Course) (seq : Nat) (idxs : List Nat) : Course :=
  let bins := x.bins.map (fun b => if b.seq = seq then { b with recs := b.recs.filter (fun r => !idxs.contains r.1) } else b)
  let gone := (bins.filter (fun b => b.recs.isEmpty)).map (·.idx)
  ({ x with bins := bins.filter (fun b => !b.recs.isEmpty),
            arrivals := x.arrivals.filter (fun a => !(a.1 == seq && idxs.contains a.2.1)),
            curBin := x.curBin.filter (fun b => !gone.contains b) }).settleArrivals

/-! ### The side block (R311, Table 15.6) -/

/-- Where the side block of a slot stands. -/
def sideAddr (l : Launch) (e : Ext) (c idx : Nat) : DWord :=
  e.stackA + BitVec.ofNat 64 (64 * ((64 + 4 * e.stkEnt + 63) / 64) * (l.ordinal c * e.quota + idx))

/-- The side block a ray starts with. -/
def sideStart : BitVec 512 := BitVec.ofNat 512 ((2 ^ 24 - 1) * 2 ^ 176 + 2 ^ 200)

/-- A field of a side block. -/
def sideField (b : BitVec 512) (lo n : Nat) : Nat := b.toNat / 2 ^ lo % 2 ^ n

/-- Merge the pending deltas of a course under some bytes that an engine accesses, but those of a pinned tile (R201, R227). -/
def State.mergeForEngine (s : State) (c pa n : Nat) : State :=
  s.mergeWith c (fun e => overlaps pa n e.1 (deltaBytes e) && !s.keepsDelta c e.1)

/-- A read of an engine at DIE scope, for bytes of one access. -/
def State.dieRead (s : State) (c : Nat) (a : Acc) (n : Nat) : State × List Byte :=
  match s.place a with
  | .scratch t o => (s, readN (s.scratchGet t) o n)
  | .memory => (s, readN (memGet s.mem) a.pa n)
  | .cached =>
    let s := s.mergeForEngine c a.pa n
    (s, readN s.home a.pa n)

/-- A write of a course's engine at DIE scope: a plain write that becomes visible at the home; its own course's copy of the bytes is
updated (R207, R211). -/
def State.dieWrite (s : State) (c : Nat) (a : Acc) (bs : List Byte) (judged : Option Nat := none) : State :=
  match s.place a with
  | .scratch t o => s.scratchPut t o bs
  | .memory => s.agentMem a.pa bs judged
  | .cached =>
    let s := (s.mergeForEngine c a.pa bs.length).recallRange none a.pa bs.length
    s.homeOwn c a.pa bs judged

/-- Check a side block or stack word for an engine: READ and WRITE (R312). -/
def State.checkStack (s : State) (c : Nat) (va : DWord) (n : Nat) : Except LaneFault Acc :=
  s.check c va n (accRead ||| accWrite) (fun p => p.read && p.write)

/-- A side block as an engine writes it: its IGN bits 255:228, 223:210 and 143:128 are zero (R6, Table 15.6). -/
def sideWritten (b : BitVec 512) : BitVec 512 := setField (setField (setField b 228 28 0) 210 14 0) 128 16 0

/-- Write a side block to the stack area, or keep it with the record while the area cannot be written. -/
def State.putSide (s : State) (c seq idx : Nat) (block : BitVec 512) : State :=
  let side := sideWritten block
  match s.launch? seq with
  | none => s
  | some l =>
    match l.ext with
    | none => s
    | some e =>
      match s.checkStack c (sideAddr l e c idx) 64 with
      | .ok acc => (s.dieWrite c acc (leBytes 64 side.toNat)).modRec c seq idx (fun r => { r with side := none })
      | .error _ => s.modRec c seq idx (fun r => { r with side := some side })

/-- The side block of a slot, or why it cannot be read. -/
def State.getSide (s : State) (c seq idx : Nat) : Except LaneFault (State × BitVec 512) :=
  match s.launch? seq with
  | none => .ok (s, 0)
  | some l =>
    match l.ext with
    | none => .ok (s, 0)
    | some e =>
      match (s.rec? c seq idx).bind (·.side) with
      | some b => .ok (s, b)
      | none =>
        match s.checkStack c (sideAddr l e c idx) 64 with
        | .error f => .error f
        | .ok acc =>
          let r := s.dieRead c acc 64
          .ok (r.1, BitVec.ofNat 512 (leNat r.2))

/-- The side block as the hinge engine reads it when a wave forms, with the error kind of the ray (R325). One that cannot be read
then counts as zeros (DESIGN CHOICE, log 65). -/
def State.hingeSide (s : State) (c seq idx : Nat) : BitVec 512 :=
  let b := match s.getSide c seq idx with
    | .ok r => r.2
    | .error _ => 0
  match s.rec? c seq idx with
  | some r => if r.err = 0 then b else setField b 144 16 r.err
  | none => b

/-! ### Brick prefetch (R318, R319) -/

/-- A read of the prefetcher: it needs READ, and carries no order. -/
def State.prefetchRead (s : State) (c : Nat) (va : DWord) (n : Nat) : Option Nat :=
  match s.check c va n accRead (·.read) with
  | .ok acc => some (leNat (s.dieRead c acc n).2)
  | .error _ => none

/-- Request one listed brick, as a physical 4 KiB block; none when its translation fails. -/
def State.requestBrick (s : State) (c : Nat) (e : Ext) (w : Nat) : Option State :=
  match s.check c (e.root + BitVec.ofNat 64 (4096 * (w % 2 ^ 18))) 1 accRead (·.read) with
  | .error _ => none
  | .ok acc =>
    let b := acc.pa / 4096
    if acc.page.brick && decide (0 < s.brickPart) &&
        !s.courses.any (fun x => x.bricks.contains b || x.brickReq.contains b) then
      some (s.modCourse c (fun x => { x with brickReq := x.brickReq ++ [b] }))
    else some s

/-- Read up to n list words in order; what fails drops the trigger and is counted. -/
def State.prefetchList (s : State) (c : Nat) (e : Ext) : Nat → DWord → State
  | 0, _ => s
  | n + 1, va =>
    match s.prefetchRead c va 4 with
    | none => s.count c 4 1
    | some w =>
      match s.requestBrick c e w with
      | none => s.count c 4 1
      | some s' => State.prefetchList s' c e n (va + 4)

/-- A TRAV bin triggers the prefetcher. -/
def State.prefetch (s : State) (c seq : Nat) (key : Key) : State :=
  match s.extOf seq, key with
  | some e, .trav cell _ =>
    match s.prefetchRead c (e.cellMap + BitVec.ofNat 64 (8 * cell)) 8 with
    | none => s.count c 4 1
    | some v =>
      let off := v % 2 ^ 32
      if off % 4 ≠ 0 then s.count c 4 1
      else s.prefetchList c e (min 256 (v / 2 ^ 32 % 65536)) (e.cellMap + BitVec.ofNat 64 off)
  | _, _ => s

/-- A bin triggers, once in a cycle (R328). -/
def State.trigger (s : State) (c : Nat) (b : Bin) : State :=
  if b.trig = some s.now then s
  else (s.modCourse c (fun x => { x with bins := x.bins.map (fun q => if q.idx = b.idx then { q with trig := some s.now } else q) })).prefetch
    c b.seq b.key

/-- Bins whose record count has reached 16 trigger (R318). -/
def State.triggerFull (s : State) (c : Nat) (old : List Bin) : State :=
  (s.course c).bins.foldl (fun s b =>
    if decide (16 ≤ b.recs.length) && !old.any (fun o => o.idx == b.idx && o.key == b.key && o.seq == b.seq &&
        decide (16 ≤ o.recs.length)) then s.trigger c b
    else s) s

/-- Take records out of their bin; records of the arrival list take the bin that it frees. -/
def State.takeOut (s : State) (c seq : Nat) (idxs : List Nat) : State :=
  (s.modCourse c (fun x => x.unbin seq idxs)).triggerFull c (s.course c).bins

/-- Join a bin at the current cycle. -/
def State.join (s : State) (c seq idx : Nat) (key : Key) : State :=
  (s.modCourse c (fun x => x.join seq idx key s.now)).triggerFull c (s.course c).bins

/-! ### Waves (R292) -/

/-- The kernel that a key selects. -/
def Ext.keyKernel (e : Ext) : Key → Option Kernel
  | .trav _ _ => none
  | .shade kind index => e.shader kind index
  | .node n _ => e.nodeKernel n

/-- Form a wave from the first W records of a bin, or all of them, in a cycle that has come. -/
def State.formWave (s : State) (c : Nat) (b : Bin) (w cycle : Nat) : State :=
  let idxs := (b.recs.take w).map (·.1)
  let times := (b.recs.take w).map (·.2)
  let sides := idxs.map (fun i => match b.key with
    | .shade _ _ => s.hingeSide c b.seq i
    | _ => 0)
  let s := idxs.foldl (fun s i => s.modRec c b.seq i (fun r => { r with state := .owned })) s
  let s := s.takeOut c b.seq idxs
  { s.modCourse c (fun x => { x with waves := x.waves ++ [⟨b.seq, b.key, idxs, times, sides, s.nextId, cycle⟩] }) with
    nextId := s.nextId + 1 }

/-- A bin that holds a full wave, with the wave's width. -/
def State.fullBin (s : State) (c : Nat) : Option (Bin × Nat) :=
  (s.course c).bins.findSome? (fun b =>
    match (s.extOf b.seq).bind (fun e => e.keyKernel b.key) with
    | some k => if k.width ≤ b.recs.length then some (b, k.width) else none
    | none => none)

/-- Form waves until no bin holds a full one. -/
def State.formFullN (c : Nat) : Nat → State → State
  | 0, s => s
  | n + 1, s =>
    match s.fullBin c with
    | none => s
    | some (b, w) => State.formFullN c n (s.formWave c b w s.now)

/-- Every bin that holds a full wave forms it, records that come from the arrival list included (R32, R290, R292). -/
def State.formFull (s : State) (c : Nat) : State := s.formFullN c (s.course c).recs.length

/-- Take records out of their bin, and form the waves that records of the arrival list fill. -/
def State.unbin (s : State) (c seq : Nat) (idxs : List Nat) : State := (s.takeOut c seq idxs).formFull c

/-- Bin a record under a key at the current cycle. It joins a wave of its key that formed in this cycle and is not full;
a full bin forms a wave (R290, R292). -/
def State.arriveRec (s : State) (c seq idx : Nat) (key : Key) : State :=
  let s := s.modRec c seq idx (fun r => { r with state := .binned })
  match (s.extOf seq).bind (fun e => e.keyKernel key) with
  | none => s.join c seq idx key
  | some k =>
    if (s.course c).waves.any (fun w => w.seq == seq && w.key == key && w.since == s.now && decide (w.recs.length < k.width)) then
      let side := s.hingeSide c seq idx
      (s.modRec c seq idx (fun r => { r with state := .owned })).modCourse c (fun x =>
        { x with waves := x.waves.map (fun w =>
            if w.seq = seq ∧ w.key = key ∧ w.since = s.now ∧ w.recs.length < k.width then
              { w with recs := w.recs ++ [idx], times := w.times ++ [(s.now : Int)], sides := w.sides ++ [side] } else w) })
    else
      (s.join c seq idx key).formFull c

/-- Free a record's slot (R285). -/
def State.freeRec (s : State) (c seq idx : Nat) : State :=
  (s.unbin c seq [idx]).modCourse c (fun x => { x with recs := x.recs.filter (fun r => !(r.seq == seq && r.idx == idx)) })

/-- Take a free slot of a part for a record, and bin it. -/
def State.newRec (s : State) (c seq : Nat) (ch : Option Nat) (image : BitVec 1024) (vis : Option Acc) (ray : Bool) :
    State :=
  match s.extOf seq with
  | none => s
  | some e =>
    let idx := s.freeSlot c seq
    let r : Rec := ⟨idx, seq, ch, .binned, image, vis, if ray then some sideStart else none, 0⟩
    let s := s.modCourse c (fun x => { x with recs := x.recs ++ [r] })
    if ray then (s.putSide c seq idx sideStart).arriveRec c seq idx (travKey e image)
    else s.arriveRec c seq idx (.node (field image 64 16) (field image 80 8))

/-! ### The fate of a ray (R295, R317, R322) -/

/-- Bin a ray under a shader; with no such shader its record is freed and counted. -/
def State.shade (s : State) (c seq idx kind index : Nat) : State :=
  match (s.extOf seq).bind (fun e => e.shader kind index) with
  | some _ => s.arriveRec c seq idx (.shade kind index)
  | none => (s.freeRec c seq idx).count c 2 1

/-- Whether a committed kind is a hit kind (Table 15.8). -/
def isHitKind (k : Nat) : Bool := (decide (1 ≤ k) && decide (k ≤ 4)) || (decide (0x80 ≤ k) && decide (k ≤ 0xFF))

/-- Write a visibility entry: bytes 8 to 15, then bytes 0 to 7 as a DIE-scope release (R322); none where its page was gone when the
ray was restored (log 60). -/
def State.writeVis (s : State) (c : Nat) (a : Acc) (prim : Nat) (depth inst : Nat) : State :=
  if !a.page.write then s else
  let hi : Acc := { a with va := a.va + 8, pa := a.pa + 8 }
  let s := s.dieWrite c hi (leBytes 4 depth ++ leBytes 4 inst)
  (s.beforeRelease c).dieWrite c a (leBytes 8 prim)

/-- The ray finishes with this side block (R317). -/
def State.finishRay (s : State) (c seq idx : Nat) (side : BitVec 512) : State :=
  match s.rec? c seq idx with
  | none => s
  | some r =>
    let kind := if r.err = 0 then sideField side 144 16 else r.err
    let s := s.unbin c seq [idx]
    match r.vis with
    | some a =>
      let s := if isHitKind kind then s.writeVis c a (sideField side 32 64) (field r.image 224 32) (sideField side 96 32)
        else s.writeVis c a (2 ^ 64 - 1) 0x7F800000 0xFFFFFFFF
      s.freeRec c seq idx
    | none =>
      if isHitKind kind then s.shade c seq idx 0 (sideField side 160 16)
      else if kind = 0 ∧ (field r.image 256 8).testBit 2 then s.freeRec c seq idx
      else s.shade c seq idx 1 (field r.image 272 16)

/-! ### Stalls and grants (R293, R298) -/

/-- A stalled lane: its launch, its strand and what it captured. -/
structure Waiter where
  seq : Nat
  sid : Nat
  x : Stall

/-- Every stalled lane, resident or saved. -/
def State.waiters (s : State) : List Waiter :=
  s.strands.filterMap (fun y => match y.state with
    | .recordStall x => some ⟨s.seqOf y.tid, y.sid, x⟩
    | _ => none) ++
  s.saved.flatMap (fun v => v.teams.flatMap (fun t => t.strands.filterMap (fun y => y.stall.map (fun x => ⟨v.seq, y.sid, x⟩))))

/-- RDEPTH of a captured continuation record; a TRACE.VIS ray comes after every POST (DEDUCED, log 20). -/
def Stall.depth (x : Stall) : Nat := if x.vis.isSome then 0 else field x.image 80 8 + 1

/-- Whether a stall is served before another of the same part: reserve slots by age, node slots by RDEPTH and then age. -/
def Stall.before (x y : Stall) : Bool :=
  match x.charge with
  | none => decide (x.order < y.order)
  | some _ => decide (y.depth < x.depth) || (decide (x.depth = y.depth) && decide (x.order < y.order))

/-- The stall that is granted next, if a part with stalls has a free slot. -/
def State.nextGrant (s : State) : Option Waiter :=
  let ws := s.waiters
  ws.find? (fun w => s.slotFree w.x.course w.seq w.x.charge &&
    !ws.any (fun v => v.seq == w.seq && v.x.course == w.x.course && v.x.charge == w.x.charge && v.x.before w.x))

/-! ### The end of a strand (R20, R100) -/

/-- What is left of an operation in flight once a strand's loads and results are discarded; none when nothing is. -/
def FlightOp.discard (sid : Nat) : FlightOp → Option FlightOp
  | .load sids ls sc o snap buf rows =>
    if sids.contains sid then
      let ls := ls.filter (fun l => l.sid != sid)
      if ls.isEmpty then none else some (.load (sids.filter (· != sid)) ls sc o snap buf rows)
    else some (.load sids ls sc o snap buf rows)
  | .result k t d ws => if t = sid then none else some (.result k t d ws)
  | .qstat t d fn v => if t = sid then none else some (.qstat t d fn v)
  | .cpstat t d b => if t = sid then none else some (.cpstat t d b)
  | .nevalRes t ws h => if t = sid then none else some (.nevalRes t ws h)
  | .monitorRead t => if t = sid then none else some (.monitorRead t)
  | op => some op

/-- Discard a strand's outstanding loads and results. -/
def State.discardLoads (s : State) (sid : Nat) : State :=
  { s with flights := s.flights.filterMap (fun f => (f.op.discard sid).map (fun op => { f with op := op })) }

/-- A strand ends: it leaves its keyrings, its loads are discarded and its record is freed (R20, R143, R300). -/
def State.endStrand (s : State) (sid : Nat) : State :=
  match s.strand? sid with
  | none => s
  | some x =>
    let s := (s.leaveKeyrings x).discardLoads sid
    let s := match x.owned with
      | some i => s.freeRec (s.teamCourse x.tid) (s.seqOf x.tid) i
      | none => s
    (s.modStrand sid (fun y => { y with state := .ended, owned := none })).settleFences

/-- Whether a strand is a resident one that stalls. -/
def State.stalls (s : State) (sid : Nat) : Option Strand :=
  (s.strand? sid).filter (fun y => match y.state with
    | .recordStall _ => true
    | _ => false)

/-- A granted lane goes on: READY at the following slot, or ended for an .E form; a saved one when it is restored. -/
def State.resumeStall (s : State) (w : Waiter) : State :=
  match s.stalls w.sid with
  | some y =>
    if w.x.ends then s.endStrand w.sid else s.modStrand w.sid (fun z => z.wake s (s.coreOf y.tid))
  | none =>
    { s with saved := s.saved.map (fun v => { v with teams := v.teams.map (fun t => { t with strands := t.strands.map (fun y =>
        if y.sid = w.sid then { y with stall := none, granted := some w.x.ends } else y) }) }) }

/-- Grant one slot: the captured record is written and binned. -/
def State.grant (s : State) (w : Waiter) : State :=
  (s.newRec w.x.course w.seq w.x.charge w.x.image w.x.vis (w.x.vis.isSome || w.x.charge.isNone)).resumeStall w

/-- Grant slots as long as there are free ones and stalls for them. -/
def State.grantN : Nat → State → State
  | 0, s => s
  | n + 1, s =>
    match s.nextGrant with
    | none => s
    | some w => State.grantN n (s.grant w)

/-- SLOT_GRANT, in the step that frees the slots (R293). -/
def State.grants (s : State) : State := State.grantN s.waiters.length s

/-- EXIT (R100). -/
def execExit (c : Ctl) (s : State) : Host.Outcome State Fault Refusal :=
  inBundle s (wordByLane c (fun x => x) (fun s _ x => .leave (s.endStrand x.sid).grants))

/-! ### Record instructions (R296 to R302) -/

/-- A record word in one lane: in a gang kernel it is an ILLEGAL-CLAUSE (R282). -/
def recLane (s : State) (x : Strand) (k : Launch → Ext → LaneOut) : LaneOut :=
  match s.launch? (s.seqOf x.tid) with
  | none => .fault (.trap (.plain 3))
  | some l =>
    match l.ext with
    | none => .fault (.trap (.plain 3))
    | some e => if s.isGang x.tid then .fault (.trap (.plain 3)) else k l e

/-- The record a strand owns, or ILLEGAL-CLAUSE (R296). -/
def ownLane (s : State) (x : Strand) (k : Launch → Ext → Nat → Rec → LaneOut) : LaneOut :=
  recLane s x (fun l e =>
    match x.owned with
    | none => .fault (.trap (.plain 3))
    | some i =>
      match s.rec? (s.teamCourse x.tid) l.seq i with
      | none => .fault (.trap (.plain 3))
      | some r => k l e i r)

/-- The DIE-scope release before a record is binned (R302, R326). -/
def State.recordRelease (s : State) (x : Strand) : State :=
  let c := s.teamCourse x.tid
  (s.drainCourse c).beforeRelease c

/-- The strand no longer owns its record (R297). -/
def State.disown (s : State) (x : Strand) (sample : DWord) : State :=
  s.modStrand x.sid (fun y => { y with owned := none, sample := sample })

/-- After a record word: an .E form ends the strand. -/
def finishLane (ends : Bool) (s : State) (x : Strand) : LaneOut :=
  if ends then .leave (s.endStrand x.sid).grants else .go s.grants 0

/-- TRACE: the strand's own record becomes a ray and is binned (R297). -/
def traceLane (ends : Bool) (d a b : GReg) (s : State) (x : Strand) : LaneOut :=
  ownLane s x (fun l e i r =>
    let s := s.recordRelease x
    let c := s.teamCourse x.tid
    let sample := BitVec.ofNat 64 (field r.image 320 64)
    let img := rayImage (x.span a 8) (x.reg b) sample (x.span d 16)
    let s := (s.modRec c l.seq i (fun r => { r with image := img, side := some sideStart, err := 0 })).putSide c l.seq i sideStart
    finishLane ends ((s.disown x sample).arriveRec c l.seq i (travKey e img)) x)

def execTrace (c : Ctl) (d a b : GReg) (s : State) : Host.Outcome State Fault Refusal :=
  whenFree c State.keyBusy s (fun s => inBundle s (wordByLane c (fun x => x) (fun s _ x => traceLane false d a b s x)))

def execTraceE (c : Ctl) (d a b : GReg) (s : State) : Host.Outcome State Fault Refusal :=
  whenFree c State.keyBusy s (fun s => inBundle s (wordByLane c (fun x => x) (fun s _ x => traceLane true d a b s x)))

/-- Take a slot for a new record, or stall with the record captured (R298). -/
def slotOrStall (ends : Bool) (n : Nat) (s : State) (b : Bundle) (x : Strand) (c seq : Nat) (ch : Option Nat)
    (img : BitVec 1024) (vis : Option Acc) (ray : Bool) : LaneOut :=
  if s.slotFree c seq ch then finishLane ends (s.newRec c seq ch img vis ray) x
  else .wait { s.modStrand x.sid (fun y =>
      { y.standAfter b n with state := .recordStall ⟨img, ch, c, vis, ends, s.nextId⟩ }) with nextId := s.nextId + 1 }

/-- SPAWN: a new ray in the episode reserve (R297). -/
def spawnLane (ends : Bool) (n : Nat) (d a b : GReg) (s : State) (bu : Bundle) (x : Strand) : LaneOut :=
  recLane s x (fun l _ =>
    let s := s.recordRelease x
    slotOrStall ends n s bu x (s.teamCourse x.tid) l.seq none (rayImage (x.span a 8) (x.reg b) (s.sampleOf x) (x.span d 16))
      none true)

def execSpawn (c : Ctl) (d a b : GReg) (s : State) : Host.Outcome State Fault Refusal :=
  whenFree c State.keyBusy s (fun s => inBundle s (wordByLane c (fun x => x) (spawnLane false c.slots d a b)))

def execSpawnE (c : Ctl) (d a b : GReg) (s : State) : Host.Outcome State Fault Refusal :=
  whenFree c State.keyBusy s (fun s => inBundle s (wordByLane c (fun x => x) (spawnLane true c.slots d a b)))

/-- The part a strand's visibility rays are charged to (R324). -/
def State.partOf (s : State) (tid : Nat) : Option Nat :=
  match (s.team? tid).map Team.kind with
  | some (.node n) => some n
  | _ => none

/-- Eight doublewords the spec does not state: the payload of a visibility ray (DESIGN CHOICE, log 6). -/
def State.freePayload (s : State) : List Word × State :=
  (List.range 8).foldl (fun (r : List Word × State) _ =>
    let q := r.2.free
    (r.1 ++ [DWord.lo q.1, DWord.hi q.1], q.2)) ([], s)

/-- TRACE.VIS: a ray whose only result is its visibility entry (R324). -/
def visLane (n : Nat) (d a b : GReg) (s : State) (bu : Bundle) (x : Strand) : LaneOut :=
  recLane s x (fun l _ =>
    match s.check (coreUnit bu.core) (x.pair d) 16 accWrite (·.write) with
    | .error f => .fault f
    | .ok acc =>
      let s := s.recordRelease x
      let p := s.freePayload
      slotOrStall false n p.2 bu x (s.teamCourse x.tid) l.seq (s.partOf x.tid)
        (rayImage (x.span a 8) (x.reg b ||| 0x01000000#32) (s.sampleOf x) p.1) (some acc) true)

def execTraceVis (c : Ctl) (d a b : GReg) (s : State) : Host.Outcome State Fault Refusal :=
  whenFree c State.keyBusy s (fun s => inBundle s (wordByLane c (fun x => x) (visLane c.slots d a b)))

/-- The placement hash of an address (R299). -/
def homeHash (a : DWord) : Nat :=
  (a.extractLsb' 7 8 ^^^ a.extractLsb' 15 8 ^^^ a.extractLsb' 23 8 ^^^ a.extractLsb' 31 8 ^^^ a.extractLsb' 39 8
    ^^^ a.extractLsb' 47 8).toNat

/-- POST: a continuation record on its home course, with the checks in their order (R299). -/
def postLane (ends : Bool) (sl : Nat) (d a b : GReg) (s : State) (bu : Bundle) (x : Strand) : LaneOut :=
  recLane s x (fun l e =>
    let n := (x.reg b).toNat % 65536
    let ent := x.reg (gAt b 1)
    let access : LaneOut := .fault (.trap (.plain 7))
    match e.nodeKernel n with
    | none => access
    | some k =>
      let own := match (s.team? x.tid).map Team.kind with
        | some (.node m) => some m
        | _ => none
      let rd := if own = some n then x.rdepth + 1 else 0
      if e.nodes.length ≤ n then access
      else if ent ≠ 0 ∧ ent.toNat % 8 ≠ 0 then .fault (.trap (.plain 5))
      else if ent ≠ 0 ∧ (ent.toNat < k.entry ∨ k.entry + k.codesize ≤ ent.toNat) then access
      else if (match own with | some m => decide (m ≠ n) && decide (e.level n ≤ e.level m) | none => false) then access
      else if k.depth < rd then access
      else
        let s := s.recordRelease x
        let pay := (wordsBytes (x.span d 16)).take k.payload
        slotOrStall ends sl s bu x (l.nthCourse (homeHash (x.pair a))) l.seq (some n)
          (contImage (x.pair a) n rd ent (s.sampleOf x) pay) none false)

def execPost (c : Ctl) (d a b : GReg) (s : State) : Host.Outcome State Fault Refusal :=
  whenFree c State.keyBusy s (fun s => inBundle s (wordByLane c (fun x => x) (postLane false c.slots d a b)))

def execPostE (c : Ctl) (d a b : GReg) (s : State) : Host.Outcome State Fault Refusal :=
  whenFree c State.keyBusy s (fun s => inBundle s (wordByLane c (fun x => x) (postLane true c.slots d a b)))

/-- RETIRE ends the strand and frees its record (R300). -/
def execRetire (c : Ctl) (s : State) : Host.Outcome State Fault Refusal :=
  inBundle s (wordByLane c (fun x => x) (fun s _ x => recLane s x (fun _ _ => .leave (s.endStrand x.sid).grants)))

/-- RLD reads the strand's own record (R301). -/
def execRld (c : Ctl) (w : Width) (d : GReg) (off : Fin 128) (s : State) : Host.Outcome State Fault Refusal :=
  inBundle s (wordByLane c (fun x => x.zeroSpan d w.regs) (fun s _ x => ownLane s x (fun _ _ _ r =>
    flyTo x [.ld] d w.regs (.result .load x.sid (spanWords d (w.extend (leNat (((imageBytes r.image).drop off.1).take w.bytes)))) none) s)))

/-- The bits of a byte of a record that hold fields; the others are written as zero (Tables 14.4, 14.5). -/
def keptBits (node : Bool) (k : Nat) : Byte :=
  if node then (if (11 ≤ k ∧ k ≤ 15) ∨ (20 ≤ k ∧ k ≤ 39) then 0 else 0xFF)
  else if k = 32 then 0x1F
  else if 36 ≤ k ∧ k ≤ 39 then 0
  else 0xFF

/-- A record image that a saved area gives back: bits that hold no field are zero (R6, Tables 14.4, 14.5). -/
def keptImage (node : Bool) (img : BitVec 1024) : BitVec 1024 :=
  bytesImage ((imageBytes img).zipIdx.map (fun e => e.1 &&& keptBits node e.2))

/-- A record image with bytes of an RST at an offset: TSTATE is not written (R301). -/
def storeImage (node : Bool) (img : BitVec 1024) (off : Nat) (bs : List Byte) : BitVec 1024 :=
  bytesImage ((imageBytes img).zipIdx.map (fun e =>
    if off ≤ e.2 ∧ e.2 < off + bs.length ∧ e.2 < 112 then bs.getD (e.2 - off) 0 &&& keptBits node e.2 else e.1))

def execRst (c : Ctl) (w : Width) (d : GReg) (off : Fin 128) (s : State) : Host.Outcome State Fault Refusal :=
  inBundle s (wordByLane c (fun x => x) (fun s _ x => ownLane s x (fun l _ i r =>
    let img := storeImage (s.partOf x.tid).isSome r.image off.1 (x.storeBytes w d)
    flyFrom x [.st] (.scratchStore x.sid) (s.modRec (s.teamCourse x.tid) l.seq i (fun r => { r with image := img })))))

/-! ### Episodes (R325 to R327) -/

/-- The shader kind of a strand's wave: 0 HIT, 1 MISS, 2 ANYHIT, 3 ISECT. -/
def State.shaderKind (s : State) (tid : Nat) : Option Nat :=
  match (s.team? tid).map Team.kind with
  | some (.shader k _) => some k
  | _ => none

/-- The registers of Table 15.8. -/
def hitAttr (kind : Nat) (side : BitVec 512) (report : Option Word) (tmax : Word) : List Word :=
  let w (lo : Nat) : Word := BitVec.ofNat 32 (sideField side lo 32)
  let h (lo : Nat) : Word := BitVec.ofNat 32 (sideField side lo 16)
  match kind with
  | 0 => [tmax, w 0, w 320, w 32, w 64, w 96, h 144, tmax]
  | 1 => [tmax, 0, 0, 0xFFFFFFFF, 0xFFFFFFFF, 0xFFFFFFFF, h 144, tmax]
  | 2 => [w 480, w 256, w 288, w 352, w 384, w 416, h 448, tmax]
  | _ =>
    match report with
    | some t => [t, w 256, w 288, w 352, w 384, w 416, h 448, tmax]
    | none => [0, 0, 0, w 352, w 384, w 416, h 448, tmax]

def execHitattr (c : Ctl) (d : GReg) (s : State) : Host.Outcome State Fault Refusal :=
  inBundle s (wordByLane c (fun x => x.zeroSpan d 8) (fun s _ x => ownLane s x (fun _ _ _ r =>
    match s.shaderKind x.tid with
    | none => .fault (.trap (.plain 3))
    | some k =>
      .go (s.modStrand x.sid (fun y => y.setSpan d (hitAttr k x.side x.report (BitVec.ofNat 32 (field r.image 224 32))))) 0)))

/-- Whether a candidate is closer than what is committed (R313). -/
def closer (img : BitVec 1024) (side : BitVec 512) (t inst prim : Nat) : Bool :=
  let tv := f32v t
  let lo := FVal.cmp (f32v (field img 96 32)) tv
  let hi := FVal.cmp tv (f32v (field img 224 32))
  let key := decide (inst < sideField side 96 32) ||
    (decide (inst = sideField side 96 32) && decide (prim < sideField side 32 64))
  (lo == some .lt || lo == some .eq) && (hi == some .lt || hi == some .eq) &&
    (sideField side 144 16 == 0 || hi == some .lt || key)

/-- Commit the A fields: TMAX of the record, and the C fields of the side block (R313, R326). -/
def commitA (img : BitVec 1024) (side : BitVec 512) : BitVec 1024 × BitVec 512 :=
  let b := setField side 0 32 (sideField side 256 32)
  let b := setField b 320 32 (sideField side 288 32)
  let b := setField b 32 64 (sideField side 352 64)
  let b := setField b 96 32 (sideField side 416 32)
  let b := setField b 144 16 (sideField side 448 16)
  let b := setField b 160 16 (sideField side 464 16)
  (setField img 224 32 (sideField side 480 32), b)

/-- An ANYHIT or ISECT strand with its record, or ILLEGAL-CLAUSE. -/
def episodeLane (s : State) (x : Strand) (ok : Nat → Bool) (k : Launch → Ext → Nat → Rec → Nat → LaneOut) : LaneOut :=
  ownLane s x (fun l e i r =>
    match s.shaderKind x.tid with
    | some kind => if ok kind then k l e i r kind else .fault (.trap (.plain 3))
    | none => .fault (.trap (.plain 3)))

/-- The ray goes on after its episode: it finishes, or is binned for traversal again (R326). -/
def afterEpisode (s : State) (x : Strand) (l : Launch) (e : Ext) (i : Nat) (img : BitVec 1024) (side : BitVec 512)
    (fin : Bool) : LaneOut :=
  let s := s.recordRelease x
  let c := s.teamCourse x.tid
  let s := (s.modRec c l.seq i (fun r => { r with image := img, side := some side })).putSide c l.seq i side
  let s := s.disown x (BitVec.ofNat 64 (field img 320 64))
  .go (if fin then s.finishRay c l.seq i side else s.arriveRec c l.seq i (travKey e img)).grants 0

def execAccept (c : Ctl) (fin : Bool) (s : State) : Host.Outcome State Fault Refusal :=
  whenFree c State.keyBusy s (fun s => inBundle s (wordByLane c (fun x => x) (fun s _ x =>
    episodeLane s x (fun k => k == 2 || k == 3) (fun l e i r kind =>
      let take := kind == 2 || x.report.isSome
      let q := if take then commitA r.image x.side else (r.image, x.side)
      afterEpisode s x l e i q.1 q.2 (fin || (take && (field r.image 256 8).testBit 1))))))

def execIgnore (c : Ctl) (s : State) : Host.Outcome State Fault Refusal :=
  whenFree c State.keyBusy s (fun s => inBundle s (wordByLane c (fun x => x) (fun s _ x =>
    episodeLane s x (fun k => k == 2 || k == 3) (fun l e i r _ => afterEpisode s x l e i r.image x.side false))))

/-- REPORT offers a candidate of a custom primitive (R327). -/
def execReport (c : Ctl) (d : PReg) (a b : GReg) (kind : BitVec 7) (s : State) : Host.Outcome State Fault Refusal :=
  inBundle s (wordByLane c (fun x => x.setP d false) (fun s _ x =>
    episodeLane s x (fun k => k == 3) (fun _ _ _ r _ =>
      let t := x.reg a
      let take := !(f32v t.toNat).isNan && closer r.image x.side t.toNat (sideField x.side 416 32) (sideField x.side 352 64) &&
        (match x.report with
          | some u => FVal.cmp (f32v t.toNat) (f32v u.toNat) == some .lt
          | none => true)
      .go (s.modStrand x.sid (fun y =>
        let y := if take then
            let sd := setField y.side 480 32 t.toNat
            let sd := setField sd 256 32 (x.reg b).toNat
            let sd := setField sd 288 32 (x.reg (gAt b 1)).toNat
            { y with side := setField sd 448 16 (0x80 + kind.toNat), report := some t }
          else y
        y.setP d take)) 0)))

end Sys2Proof.Machine
end

