-- ==== Sys2Proof/Machine/Neural.lean ====
section
/-! DEFINITION. NEVAL, NHANDLE, the gather table and its tiles (R255 to R264). -/

namespace Sys2Proof.Machine

/-! ### Handles (R256) -/

/-- An entry of the handle table; one not listed is FREE at its first generation. -/
def State.handle (s : State) (i : Nat) : Handle := (s.handles.find? (fun h => h.index == i)).getD ⟨i, false, 1, 0, 0⟩

def State.setHandle (s : State) (h : Handle) : State :=
  { s with handles := s.handles.filter (fun e => e.index != h.index) ++ [h] }

/-- The entry a handle names, if the handle is valid for a launch. -/
def State.validHandle (s : State) (seq : Nat) (h : Word) : Option Handle :=
  let e := s.handle (h.toNat % 4096)
  if e.bound && decide (e.gen = h.toNat / 65536) && decide (e.launch = seq) && decide (h.toNat / 4096 % 16 = 0) then some e
  else none

/-- An entry as it becomes FREE: GEN advances. -/
def Handle.freed (h : Handle) : Handle := { h with bound := false, gen := if h.gen = 0xFFFF then 1 else h.gen + 1 }

/-- The lowest FREE entry. -/
def State.freeHandle (s : State) : Option Handle :=
  ((List.range 4096).find? (fun i => !(s.handle i).bound)).map s.handle

/-- Every entry a launch bound becomes FREE at its end (R264). -/
def State.freeHandles (s : State) (seq : Nat) : State :=
  { s with handles := s.handles.map (fun h => if h.bound && h.launch == seq then h.freed else h) }

/-- NHANDLE.BIND checks only the form of the address (R264). It makes no access, so its faults report the access kind 0, and it acts
on the table at issue (DESIGN CHOICE, log 64). -/
def execNhandleBind (c : Ctl) (d a : GReg) (s : State) : Host.Outcome State Fault Refusal :=
  inBundle s (wordByLane c (fun x => x.zeroSpan d 1) (fun s _ x =>
    let ea := x.pair a
    if !canonical ea then .fault (.trap (.addr 7 0 ea))
    else if ea.toNat % 64 ≠ 0 then .fault (.trap (.addr 5 0 ea))
    else match s.freeHandle with
      | none => flyTo x [.ld] d 1 (.result .load x.sid (spanWords d [0]) none) s
      | some h =>
        flyTo x [.ld] d 1 (.result .load x.sid (spanWords d [BitVec.ofNat 32 (h.gen * 65536 + h.index)]) none)
          (s.setHandle { h with bound := true, launch := s.seqOf x.tid, record := ea })))

/-- NHANDLE.REVOKE: the entry is FREE at once; the rule lets the revoke reach the table later (DESIGN CHOICE, log 64). -/
def execNhandleRevoke (c : Ctl) (d a : GReg) (s : State) : Host.Outcome State Fault Refusal :=
  inBundle s (wordByLane c (fun x => x.zeroSpan d 1) (fun s _ x =>
    match s.validHandle (s.seqOf x.tid) (x.reg a) with
    | none => flyTo x [.ld] d 1 (.result .load x.sid (spanWords d [1]) none) s
    | some h => flyTo x [.ld] d 1 (.revoke x.sid d (x.reg a)) (s.setHandle h.freed)))

/-- Whether a row with a handle has still to run or to write its results, on any course. -/
def State.rowsOf (s : State) (h : Word) : Bool :=
  s.flights.any (fun f => match f.op with
    | .nevalReq _ k _ => k == h
    | .nevalRes _ _ k => k == h
    | _ => false) ||
  s.courses.any (fun x => x.gather.any (fun e => e.handle == h) ||
    x.queue.any (fun j => match j with | .tile e => e.handle == h | _ => false))

/-- NHANDLE_REVOKE_COMPLETE: the status is written once every row of the handle has run or faulted (R264). -/
def execNhandleRevokeComplete (id : Nat) (s : State) : Host.Outcome State Fault Refusal :=
  match s.flight? id with
  | none => .next s
  | some f =>
    match f.op with
    | .revoke sid d h =>
      if s.rowsOf h || s.destWaits f sid d 1 then .next s
      else .next (((s.bring sid [(d, 0)]).modStrand sid (Strand.lower s.now .ld)).dropFlight id)
    | _ => .next s

/-! ### NEVAL (R259, R260) -/

def execNeval (c : Ctl) (ty : Ty) (f16out : Bool) (outc inc : Fin 16) (d a b : GReg) (s : State) :
    Host.Outcome State Fault Refusal :=
  inBundle s (wordByLane c (fun x => x.zeroSpan d (nevalOut f16out outc)) (fun s bu x =>
    match s.validHandle (s.seqOf x.tid) (x.reg b) with
    | none => .fault (.trap (.plain 10))
    | some h =>
      flyTo x [.mx] d (nevalOut f16out outc) (.nevalReq ⟨x.sid, x.tid, s.seqOf x.tid, ty, f16out, 4 * (outc.1 + 1), 4 * (inc.1 + 1), d,
        x.span a (nevalIn ty inc), bu.pc, bu.cls, c.slots⟩ (x.reg b) h.record) s))

/-- Whether a tile takes the engine before another that was formed in the same cycle: by the arrival of row 0, then by entry
number (R260). -/
def NEntry.before (e g : NEntry) : Bool :=
  decide (g.formed = e.formed) && (decide (e.since < g.since) || (decide (e.since = g.since) && decide (e.index < g.index)))

/-- Put a formed tile into the engine's queue. -/
def insertTile (e : NEntry) : List Job → List Job
  | [] => [.tile e]
  | .tile g :: r => if e.before g then .tile e :: .tile g :: r else .tile g :: insertTile e r
  | j :: r => j :: insertTile e r

/-- Form a gather table entry into a tile: now, or in the cycle in which its row 0 had waited 256 cycles, if that has passed. -/
def State.formTile (s : State) (c : Nat) (e : NEntry) : State :=
  s.modCourse c (fun x => { x with
    gather := x.gather.filter (fun g => g.index != e.index),
    queue := insertTile { e with formed := some (min s.now (e.since + 256)) } x.queue })

/-- Entries whose row 0 has waited 256 cycles are formed: no request joins them in a later cycle (R260). -/
def State.formDue (s : State) : State :=
  (List.range s.courses.length).foldl (fun s c =>
    ((s.course c).gather.filter (fun e => decide (e.since + 256 ≤ s.now))).foldl (fun s e => s.formTile c e) s) s

/-- Whether a formed tile takes a request that arrives in the cycle of its formation. -/
def NEntry.takes (e : NEntry) (h : Word) (now : Nat) : Bool :=
  e.handle == h && e.formed == some now && decide (e.rows.length < 64)

/-- The lowest free entry of a gather table. -/
def Course.freeEntry (x : Course) : Option Nat := (List.range 64).find? (fun i => !x.gather.any (fun e => e.index == i))

/-- A request joins the entry of its handle, or opens the lowest free entry; none when it has to wait (R259, R260). -/
def State.gatherRow (s : State) (c : Nat) (row : NRow) (h : Word) (record : DWord) : Option State :=
  let x := s.course c
  if x.queue.any (fun j => match j with | .tile e => e.takes h s.now | _ => false) then
    some (s.modCourse c (fun x => { x with queue := x.queue.map (fun j => match j with
      | .tile e => if e.takes h s.now then .tile { e with rows := e.rows ++ [row] } else j
      | _ => j) }))
  else match x.gather.find? (fun e => e.handle == h && decide (e.rows.length < 64)) with
    | some e =>
      let e' := { e with rows := e.rows ++ [row] }
      let s := s.modCourse c (fun x => { x with gather := x.gather.map (fun g => if g.index = e.index then e' else g) })
      some (if e'.rows.length = 64 then s.formTile c e' else s)
    | none =>
      x.freeEntry.map (fun i => s.modCourse c (fun x => { x with gather := x.gather ++ [⟨i, h, record, [row], s.now, none⟩] }))

/-- Whether a request has to wait in front of the table: for an earlier request of its core (R259), or for an acquire or a release of
DIE scope or wider of its strand that is still pending: the tile's reads come after them (R206, R257). -/
def State.requestWaits (s : State) (f : Flight) (sid : Nat) : Bool :=
  s.flights.any (fun g => decide (g.id < f.id) && g.core == f.core && (match g.op with | .nevalReq _ _ _ => true | _ => false)) ||
    (s.earlier f sid).any (fun g => g.op.acquires || (g.op.releasesHome && (g.acc.isNone || g.op.acted)))

/-- The releases of DIE scope or wider that a course has accepted from a strand are performed. -/
def State.drainReleases (s : State) (c sid : Nat) : State :=
  s.performAll (needed (fun f => f.op.strands.contains sid && f.op.releasesHome) (s.accepted c))

/-- NEVAL_REQUEST_ARRIVAL: the request joins the gather table (R260). A tile observes what has been performed at DIE scope, the
strand's own releases included, and nothing of its course's copies (R257). -/
def execNevalRequestArrival (id : Nat) (s : State) : Host.Outcome State Fault Refusal :=
  match s.flight? id with
  | none => .next s
  | some f =>
    match f.op with
    | .nevalReq row h record =>
      if s.requestWaits f row.sid then .next s
      else match ((s.dropFlight id).drainReleases (courseOf f.core) row.sid).gatherRow (courseOf f.core) row h record with
        | some s' => .next s'
        | none => .next s
    | _ => .next s

/-- NEVAL_ENTRY_TIMEOUT: row 0 has waited 256 cycles. -/
def execNevalEntryTimeout (course entry : Nat) (s : State) : Host.Outcome State Fault Refusal :=
  match (s.course course).gather.find? (fun e => e.index == entry) with
  | none => .next s
  | some e => if e.since + 256 ≤ s.now then .next (s.formTile course e) else .next s

/-! ### A tile (R257, R261, R262) -/

/-- A layer record's fields. -/
structure Layer where
  baddr : DWord
  waddr : DWord
  act : Nat
  ftz : Bool
  wfmt : Ty
  inn : Nat
  outn : Nat

/-- The layer record in 64 bytes, unless it is malformed (R257). -/
def Layer.read (bs : List Byte) : Option Layer :=
  let v := leNat bs
  let f (lo n : Nat) : Nat := v / 2 ^ lo % 2 ^ n
  let okCount (lo n : Nat) : Bool := decide (lo ≤ n) && decide (n ≤ 64) && decide (n % 4 = 0)
  match (match f 20 4 with | 0 => some Ty.f16 | 1 => some Ty.bf16 | 2 => some Ty.f8e4 | 3 => some Ty.f8e5 | _ => none) with
  | none => none
  | some w =>
    if f 28 4 ≤ 3 ∧ okCount 16 (f 8 8) ∧ okCount 4 (f 0 8) ∧ f 64 64 % 256 = 0 ∧ f 128 64 % 4 = 0 then
      some ⟨BitVec.ofNat 64 (f 128 64), BitVec.ofNat 64 (f 64 64), f 28 4, decide (f 25 1 = 1), w, f 8 8, f 0 8⟩
    else none

/-- A checked read of a tile. -/
def State.tileRead (s : State) (c : Nat) (va : DWord) (n align : Nat) : Except LaneFault (State × List Byte) :=
  match s.check c va align accRead (·.read) with
  | .error f => .error f
  | .ok acc => .ok (s.dieRead c acc n)

/-- Reads of `n` bytes at `count` addresses `step` apart. -/
def State.tileRows (s : State) (c n step align : Nat) : Nat → DWord → Except LaneFault (State × List (List Byte))
  | 0, _ => .ok (s, [])
  | k + 1, va =>
    match s.tileRead c va n align with
    | .error f => .error f
    | .ok r =>
      match State.tileRows r.1 c n step align k (va + BitVec.ofNat 64 step) with
      | .error f => .error f
      | .ok q => .ok (q.1, r.2 :: q.2)

/-- The weights and the bias of a layer: weight rows in ascending order, then bias values; the first that fails gives the fault
(DESIGN CHOICE, log 64). -/
def State.tileData (s : State) (c : Nat) (l : Layer) : Except LaneFault (State × List (List Byte) × List (List Byte)) :=
  match s.tileRows c (l.inn * Ty.stride l.wfmt / 8) 256 256 l.outn l.waddr with
  | .error f => .error f
  | .ok w =>
    if l.baddr = 0 then .ok (w.1, w.2, [])
    else match w.1.tileRows c 4 4 4 l.outn l.baddr with
      | .error f => .error f
      | .ok b => .ok (b.1, w.2, b.2)

/-- The activation (R262). -/
def activate (act : Nat) (ftz : Bool) (y : FVal) : FVal :=
  let neg := FVal.cmp y (.zero false) == some .lt
  match act with
  | 0 => y
  | 1 => if y.isNan then y else if FVal.cmp y (.zero false) == some .gt then y else .zero false
  | 2 => if neg then rnF32 ftz (y.scale2 (-3)) else y
  | _ =>
    if y.isNan then .zero false
    else if FVal.cmp y (.zero false) != some .gt then .zero false
    else if FVal.cmp y (.fin false 1 1) == some .gt then .fin false 1 1
    else y

/-- The first k elements, padded with +0. -/
def padTo (k : Nat) (vs : List FVal) : List FVal := vs ++ List.replicate (k - vs.length) (.zero false)

/-- The outputs of one row (R262). -/
def rowOutputs (l : Layer) (r : NRow) (ws bias : List (List Byte)) : List FVal :=
  let f : FmtWord := ⟨r.ty, l.wfmt, false, l.ftz, false⟩
  let a := padTo f.k ((rowVals r.ty l.ftz (wordsBytes r.x)).take l.inn)
  ws.zipIdx.map (fun e =>
    let b := padTo f.k ((rowVals l.wfmt l.ftz e.1).take l.inn)
    let p := partialOf f f.group none (products a b)
    let y := match bias[e.2]? with
      | some bb => rnF32 l.ftz (FVal.add .rn p (opVal .f32 l.ftz (leNat bb)))
      | none => p
    activate l.act l.ftz y)

/-- The patterns of two F16 results in one register. -/
def pairWords : List Nat → List Word
  | a :: b :: r => BitVec.ofNat 32 (a + 65536 * b) :: pairWords r
  | [a] => [BitVec.ofNat 32 a]
  | [] => []

/-- The result registers of a row. -/
def resultWords (f16out ftz : Bool) (ys : List FVal) : List Word :=
  if f16out then
    pairWords (ys.map (fun y => let p := (packVal .f16 .rn y 0).1; if ftz then Fmt.f16.flush p else p))
  else ys.map (fun y => BitVec.ofNat 32 (packVal .f32 .rn y 0).1)

/-- A strand leaves whatever bundle it is in, for a fault of something it issued earlier. -/
def State.pull (s : State) (sid : Nat) : State :=
  let s := { s with bundles := (s.bundles.map (fun (b : Bundle) => b.without sid)).filter (fun (b : Bundle) => !b.lanes.isEmpty) }
  { s with flights := s.flights.filter (fun (f : Flight) => match f.op with | .monitorRead t => t != sid | _ => true) }

/-- A row whose NEVAL faults: MX is lowered and the strand takes the trap at its NEVAL, unless it has ended (R261). A strand with two
such rows in one tile takes the fault of each in turn, the second inside its handler (DESIGN CHOICE, log 59). -/
def State.trapRow (s : State) (r : NRow) (t : Trap) : State :=
  let s := s.modStrand r.sid (Strand.lower s.now .mx)
  match s.strand? r.sid with
  | some x => if x.state = .ended then s else (s.pull r.sid).trap r.sid r.pc r.cls t 0
  | none => s

/-- The rows of a tile are held at their NEVALs on one record (R261, R376); a strand with two rows is held once, at the later NEVAL
(DESIGN CHOICE, log 59). A tile whose strands have all ended posts no record (DESIGN CHOICE, log 64). -/
def State.holdRows (s : State) (e : NEntry) (va : DWord) (acc : BitVec 3) : State :=
  let live := e.rows.filter (fun r => (s.strand? r.sid).elim false (fun x => x.state != .ended))
  let s := e.rows.foldl (fun s r => s.modStrand r.sid (Strand.lower s.now .mx)) s
  let s := live.foldl (fun s r => (s.pull r.sid).modStrand r.sid (fun y => { y with pc := r.pc, cls := r.cls, heldVa := va, heldLen := r.len })) s
  s.hold (live.map (·.sid)).dedup .tile acc va (BitVec.ofNat 32 e.index)

/-- A NEVAL-HANDLE fault with a cause. -/
def handleFault (cause : Nat) : Trap := ⟨ecause 0 cause 10, 0, 0⟩

/-- Whether a row fits the record. -/
def Layer.fits (l : Layer) (r : NRow) : Bool :=
  fmtClass r.ty == fmtClass l.wfmt && r.inn == l.inn && r.outn == l.outn

/-- Run a tile on the engine. It makes all its reads in this one step, the record first; the rule lets a racing write fall between
them (DESIGN CHOICE, log 64). -/
def State.runTile (s : State) (c : Nat) (e : NEntry) : State :=
  let fail (s : State) (f : LaneFault) : State :=
    match f with
    | .trap t => e.rows.foldl (fun s r => s.trapRow r t) s
    | .page va acc => s.holdRows e va acc
  match s.tileRead c e.record 64 64 with
  | .error f => fail s f
  | .ok rec =>
    match Layer.read rec.2 with
    | none => e.rows.foldl (fun s r => s.trapRow r (handleFault 1)) rec.1
    | some l =>
      match rec.1.tileData c l with
      | .error f => fail rec.1 f
      | .ok (s, ws, bias) =>
        let s := (e.rows.filter (fun r => !l.fits r)).foldl (fun s r => s.trapRow r (handleFault 2)) s
        let good := e.rows.filter (fun r => l.fits r)
        let s := good.foldl (fun s r =>
          s.fly r.tid (.nevalRes r.sid (spanWords r.d (resultWords r.f16out l.ftz (rowOutputs l r ws bias))) e.handle)) s
        (s.count c 11 1).count c 12 (64 - good.length)

/-- NEVAL_TILE_START: the tile at the head of the queue takes the free engine. -/
def execNevalTileStart (course : Nat) (s : State) : Host.Outcome State Fault Refusal :=
  let x := s.course course
  match x.running, x.queue with
  | none, .tile e :: q => .next ((s.modCourse course (fun x => { x with queue := q })).runTile course e)
  | _, _ => .next s

/-- NEVAL_RESULT_WRITE: result registers are written, each once and whole, and MX falls with the last; a strand that has ended
takes none (R262). -/
def execNevalResultWrite (id : Nat) (s : State) : Host.Outcome State Fault Refusal :=
  match s.flight? id with
  | none => .next s
  | some f =>
    match f.op with
    | .nevalRes sid ws h =>
      if (s.strand? sid).elim true (fun x => x.state == .ended) then .next (s.dropFlight id)
      else
        let due := (ws.zipIdx.filter (fun e => s.words.getLsbD e.2)).map (·.1)
        let rest := (ws.zipIdx.filter (fun e => !s.words.getLsbD e.2)).map (·.1)
        let s := s.bring sid due
        if rest.isEmpty then .next ((s.modStrand sid (Strand.lower s.now .mx)).dropFlight id)
        else .next (s.modFlight id (fun g => { g with op := .nevalRes sid rest h }))
    | _ => .next s

end Sys2Proof.Machine
end

