-- ==== Sys2Proof/Machine/Sha3.lean ====
section
/-! DEFINITION. SHA3-512 of FIPS 202 over bytes: the digest of a command record (Table 13.6) and of firmware (R397, R398).
The spec names the function and does not restate it (PRESUMED, log 10). -/

namespace Sys2Proof.Machine

/-- Rotate a lane left. -/
def rotl64 (x : DWord) (n : Nat) : DWord := x.rotateLeft n

/-- Lane (x, y) of a Keccak state, index x + 5y. -/
def kLane (a : List DWord) (x y : Nat) : DWord := a.getD (x % 5 + 5 * (y % 5)) 0

/-- Rotation offsets of ρ, index x + 5y. -/
def kRho : List Nat :=
  [0, 1, 62, 28, 27, 36, 44, 6, 55, 20, 3, 10, 43, 25, 39, 41, 45, 15, 21, 8, 18, 2, 61, 56, 14]

/-- Round constants of ι. -/
def kConsts : List DWord :=
  [0x0000000000000001, 0x0000000000008082, 0x800000000000808A, 0x8000000080008000,
   0x000000000000808B, 0x0000000080000001, 0x8000000080008081, 0x8000000000008009,
   0x000000000000008A, 0x0000000000000088, 0x0000000080008009, 0x000000008000000A] ++
  [0x000000008000808B, 0x800000000000008B, 0x8000000000008089, 0x8000000000008003,
   0x8000000000008002, 0x8000000000000080, 0x000000000000800A, 0x800000008000000A,
   0x8000000080008081, 0x8000000000008080, 0x0000000080000001, 0x8000000080008008]

/-- A list of 25 lanes by x and y. -/
def kBuild (f : Nat → Nat → DWord) : List DWord := (List.range 25).map (fun i => f (i % 5) (i / 5))

/-- One round of Keccak-f[1600]. -/
def kRound (a : List DWord) (rc : DWord) : List DWord :=
  let c : List DWord := (List.range 5).map (fun x =>
    kLane a x 0 ^^^ kLane a x 1 ^^^ kLane a x 2 ^^^ kLane a x 3 ^^^ kLane a x 4)
  let d : List DWord := (List.range 5).map (fun x => c.getD ((x + 4) % 5) 0 ^^^ rotl64 (c.getD ((x + 1) % 5) 0) 1)
  let t := kBuild (fun x y => rotl64 (kLane a x y ^^^ d.getD x 0) (kRho.getD (x + 5 * y) 0))
  let b := kBuild (fun x y => kLane t (x + 3 * y) x)
  let r := kBuild (fun x y => kLane b x y ^^^ (~~~(kLane b (x + 1) y) &&& kLane b (x + 2) y))
  match r with
  | l :: ls => (l ^^^ rc) :: ls
  | [] => []

/-- Keccak-f[1600]. -/
def keccakF (a : List DWord) : List DWord := kConsts.foldl kRound a

/-- Absorb one block of 72 bytes, then permute. -/
def kAbsorb (a : List DWord) (block : List Byte) : List DWord :=
  keccakF (a.zipIdx.map (fun e => e.1 ^^^ BitVec.ofNat 64 (leNat ((block.drop (8 * e.2)).take 8))))

/-- Consecutive blocks of 72 bytes. -/
def kBlocks : Nat → List Byte → List (List Byte)
  | 0, _ => []
  | n + 1, bs => bs.take 72 :: kBlocks n (bs.drop 72)

/-- The message with its domain bits and padding. -/
def kPad (bs : List Byte) : List Byte :=
  let r := 72 - bs.length % 72
  if r = 1 then bs ++ [0x86] else bs ++ [0x06] ++ List.replicate (r - 2) 0 ++ [0x80]

/-- The 64 digest bytes. -/
def sha3_512 (bs : List Byte) : List Byte :=
  let m := kPad bs
  let a := (kBlocks (m.length / 72) m).foldl kAbsorb (List.replicate 25 0)
  (a.flatMap (fun w => leBytes 8 w.toNat)).take 64

end Sys2Proof.Machine
end

