-- ==== Sys2Proof/Machine/Room.lean ====
section
/-! DEFINITION. Reads of the launch unit, the journal, room and claims on cores and courses, creation and removal of
teams (R20, R24, R29, R30, R217, R229, R272, R276, R355). -/

namespace Sys2Proof.Machine

/-! ### Creation (R17, R24, R29) -/

/-- A strand as it is created. -/
def Strand.fresh (sid tid strandId now : Nat) (pc : DWord) (rng : BitVec 128) : Strand where
  sid := sid
  tid := tid
  strandId := strandId
  age := sid
  pc := pc
  g := Vector.replicate 256 0
  p := Vector.replicate 16 false
  maxabs := 0
  rng := rng
  ld := 0
  st := 0
  mx := 0
  cp := 0
  clkhi := 0
  yielded := false
  since := now
  cls := none
  state := .ready
  tvec := 0
  epc := 0
  ecause := 0
  eva := 0
  eclause := 0
  ediff := 0
  efrid := 0
  owned := none
  sample := 0
  rdepth := 0
  side := 0
  report := none
  poison := 0
  wrote := 0
  strong := (0, none)
  heldVa := 0
  heldLen := 1

/-- Units of 4 KiB (R29). -/
def units (n : Nat) : Nat := (n + 4095) / 4096

/-- Scratchpad units of a kernel with its latch area (R29, R81). -/
def Kernel.scu (k : Kernel) : Nat := units (k.latBase + 16 * k.latches)

/-- Register units of a team of n strands. -/
def Kernel.rgu (k : Kernel) (n : Nat) : Nat := units (n * k.regs * 4)

/-- A team as it is created (R29, R80, R141). -/
def Team.fresh (tid seq gangId teamId : Nat) (kind : TKind) (k : Kernel) (image : DWord) (core n : Nat) : Team where
  tid := tid
  seq := seq
  gangId := gangId
  teamId := teamId
  kind := kind
  kernel := k
  image := image
  core := core
  block := 0
  sregs := Vector.replicate 64 0
  sregTime := none
  keyrings := Vector.replicate 16 Keyring.fresh
  scratch := []
  rgu := k.rgu n
  scu := k.scu
  l1u := k.l1
  carve := none
  l1 := []
  l1Fills := []
  barred := []
  saving := false
  extra := 0

/-! ### Reads of the launch unit -/

/-- The translation unit of the launch unit, the stream engines and the port: they belong to no course (DESIGN
CHOICE, log 21). -/
def unitCourse : Nat := 32

/-- A byte of a checked access, read as a plain SYS read. -/
def State.sysByte (s : State) (a : Acc) : Byte :=
  match s.place a with
  | .scratch t o => s.scratchGet t o
  | .memory => memGet s.mem a.pa
  | .cached => s.home a.pa

/-- n bytes read at SYS scope, each checked with READ; none when a check fails. The checks are a byte's: a descriptor or record that
the image places at an address that is no multiple of its size is read, not refused (R80, R167; DESIGN CHOICE, log 55). -/
def State.sysRead (s : State) (va : DWord) (n : Nat) : Option (List Byte) :=
  (List.range n).foldr (fun i r =>
    match r, s.check unitCourse (va + BitVec.ofNat 64 i) 1 accRead (·.read) with
    | some bs, .ok a => some (s.sysByte a :: bs)
    | _, _ => none) (some [])

/-! ### Queues and the journal -/

def State.queue (s : State) (q : Nat) : Queue := s.queues.getD q Queue.reset

def State.modQueue (s : State) (q : Nat) (f : Queue → Queue) : State := { s with queues := modAt f q s.queues }

/-- Write the RO fields of a queue descriptor (Table 13.2). -/
def State.showQueue (s : State) (q : Nat) : State :=
  let base := s.areas.qt + 64 * q
  let x := s.queue q
  let s := s.sysWrite (base + 32) (leBytes 4 x.consumed.toNat ++ leBytes 4 x.lastSeq.toNat ++ leBytes 4 x.produced.toNat)
  s.sysWrite base [(s.home base &&& 0xBF#8) ||| (if x.enabled then 0x40#8 else 0)]

/-- STATE of a journal entry (Table 13.6). -/
def LState.code : LState → Nat
  | .accepted => 1
  | .admitted => 2
  | .dying _ => 2
  | .completed => 3
  | .faulted => 4

/-- Write a launch's journal entry: bytes 8 to 31, then bytes 0 to 7 (R272). -/
def State.journal (s : State) (l : Launch) (state cause tend : Nat) : State :=
  let base := s.areas.j + 32 * (l.seq % 65536)
  let v := l.seq % 2 ^ 32 + l.queue * 2 ^ 32 + state * 2 ^ 40 + cause * 2 ^ 56 + l.digest.toNat * 2 ^ 64 + l.tacc % 2 ^ 48 * 2 ^ 113
    + l.tadm * 2 ^ 161 + tend * 2 ^ 193
  (s.sysWrite (base + 8) ((leBytes 32 v).drop 8)).sysWrite base (leBytes 8 v)

/-- Cycles since acceptance, saturating. -/
def Launch.elapsed (l : Launch) (now : Nat) : Nat := min (2 ^ 32 - 1) ((now + 2 ^ 64 - l.tacc) % 2 ^ 64)

/-- ENABLED falls when the last accepted command of a disabled queue is done (R268). -/
def State.settleQueue (s : State) (q : Nat) : State :=
  if (s.queue q).disabling && !s.launches.any (fun l => l.queue == q && l.state != .completed && l.state != .faulted) then
    (s.modQueue q (fun x => { x with enabled := false, disabling := false, aborting := false })).showQueue q
  else s

/-- The address of the record a number names. -/
def State.recordBase (s : State) (frid : Nat) : Nat := s.areas.fr + 64 * (frid % 4096)

/-- KIND codes of Table 19.4. -/
def FKind.code : FKind → Nat
  | .data => 0
  | .fetch => 1
  | .round => 2
  | .tile => 3
  | .brick => 4
  | .check => 5

/-- The 64 bytes of a record as posted (Table 19.4). -/
def FRec.bytes (r : FRec) (frid : Nat) : List Byte :=
  leBytes 64 ((if r.kind = .check then 5 else 1) + frid % 2 ^ 32 * 2 ^ 32 + r.acc.toNat * 2 ^ 64 + r.kind.code * 2 ^ 72
    + min r.held 0xFFFF * 2 ^ 80 + r.aux.toNat * 2 ^ 96 + r.strandId.toNat * 2 ^ 128 + r.teamId.toNat * 2 ^ 160
    + r.gangId.toNat * 2 ^ 192 + r.seq * 2 ^ 224 + r.va.toNat * 2 ^ 256)

/-- Write a record: bytes 8 to 63, then bytes 0 to 7 (R376). -/
def State.writeRecord (s : State) (r : FRec) (frid : Nat) : State :=
  let base := s.recordBase frid
  let bs := r.bytes frid
  (s.sysWrite (base + 8) (bs.drop 8)).sysWrite base (bs.take 8)

/-- A record becomes FREE: what an ignored write has left in it is written over first, then STATE becomes 0 (R377). -/
def State.freeRecord (s : State) (r : FRec) (frid : Nat) : State :=
  (if r.restore then s.writeRecord r frid else s).sysWrite (s.recordBase frid) [0]

/-- At the end of a launch its posted records become FREE and those not posted are dropped; notices stay (R378). -/
def State.freeRecords (s : State) (seq : Nat) : State :=
  let mine (r : FRec) : Bool := r.seq == seq && r.kind != .check
  let s := (s.faults.filter mine).foldl (fun s r =>
    match r.frid with
    | some k => s.freeRecord r k
    | none => s) s
  { s with faults := s.faults.filter (fun r => !mine r) }

/-- Record a launch COMPLETED or FAULTED. A marked launch that retires or faults is FAULTED with CAUSE 8 (R380). -/
def State.finishLaunch (s : State) (seq cause : Nat) : State :=
  match s.launch? seq with
  | none => s
  | some l =>
    let cause := if l.marked ∧ cause ≠ 9 then 8 else cause
    let s := s.freeRecords seq
    let fin : LState := if cause = 0 then .completed else .faulted
    ((s.modLaunch seq (fun l => { l with state := fin })).journal l fin.code cause (l.elapsed s.now)).settleQueue l.queue

/-! ### Room (R29, R229, R276) -/

/-- Strands resident on a core. -/
def State.residents (s : State) (core : Nat) : Nat :=
  (s.strands.filter (fun x => x.state != .ended && (s.team? x.tid).elim false (fun t => t.core == core))).length

/-- Units of a team of n strands. -/
def Kernel.need (k : Kernel) (n : Nat) : Nat := k.rgu n + k.scu + k.l1

/-- Whether a team of some units and strands fits on a core now. -/
def State.coreFits (s : State) (core u n : Nat) : Bool :=
  decide (s.unitsUsed core + u ≤ 128) && decide (s.residents core + n ≤ 2048)

/-- The cores of a course. -/
def coresOf (c : Nat) : List Nat := (List.range 8).map (fun k => 8 * c + k)

/-- Whether a launch holds a claim on a course. -/
def State.claimed (s : State) (c seq : Nat) : Bool :=
  (s.course c).tiles.any (fun t => t.claim.elim false (fun e => e.1 == seq)) || (s.course c).obClaim.contains (some seq)

/-- Whether a course has the free slots and buffers of a claim, or already gives them. -/
def State.claimRoom (s : State) (c : Nat) (l : Launch) : Bool :=
  s.claimed c l.seq ||
    (decide (l.cmd.tslots ≤ ((s.course c).tiles.filter (fun t => t.claim.isNone)).length) &&
      (List.range 4).all (fun k => !l.cmd.obMask.getLsbD k || (s.course c).obClaim[k]? == some none))

/-- Give free tile slots the claim indices from i up. -/
def claimTiles (seq : Nat) : Nat → Nat → List Tile → List Tile
  | _, _, [] => []
  | 0, _, ts => ts
  | n + 1, i, t :: ts =>
    if t.claim.isNone then { Tile.reset with claim := some (seq, i) } :: claimTiles seq n (i + 1) ts
    else t :: claimTiles seq (n + 1) i ts

/-- Make a launch's claim on a course, once (R229). -/
def State.claim (s : State) (c : Nat) (l : Launch) : State :=
  if s.claimed c l.seq then s
  else s.modCourse c (fun x => { x with
    tiles := claimTiles l.seq l.cmd.tslots 0 x.tiles,
    obClaim := x.obClaim.zipIdx.map (fun e => if l.cmd.obMask.getLsbD e.2 then some l.seq else e.1) })

/-- Give up a launch's claim on a course. -/
def State.unclaim (s : State) (c seq : Nat) : State :=
  s.modCourse c (fun x => { x with
    tiles := x.tiles.map (fun t => if t.claim.elim false (fun e => e.1 == seq) then Tile.reset else t),
    obClaim := x.obClaim.map (fun o => if o = some seq then none else o) })

/-- Courses of a launch's set on which it may be placed, leaving out some. -/
def State.openCourses (s : State) (l : Launch) (blocked : BitVec 32) : List Nat :=
  l.courseList.filter (fun c => !blocked.getLsbD c && !(s.course c).fenced && s.claimRoom c l)

/-- One of some choices, which the spec leaves to the device. -/
def State.pick (s : State) (xs : List Nat) : Option (Nat × State) :=
  match xs with
  | [] => none
  | x :: r =>
    let q := s.free
    some ((x :: r).getD (q.1.toNat % (r.length + 1)) x, q.2)

/-! ### Creation of teams (R17, R24, R30, R32) -/

/-- Create a team with n strands on a core; `mk` gives a strand from its name and STRANDID. -/
def State.addTeam (s : State) (t : Team) (n : Nat) (mk : Nat → Nat → Strand) : State :=
  { s with
    teams := s.teams ++ [t],
    strands := s.strands ++ (List.range n).map (fun k => mk (s.nextId + 1 + k) k),
    nextId := s.nextId + 1 + n }

/-- The course block of a new team: that of its launch's teams on the course, else the course's own if it is free, else
the lowest free one (R246). -/
def State.blockFor (s : State) (l : Launch) (c : Nat) : Nat :=
  match s.teams.find? (fun t => t.seq == l.seq && courseOf t.core == c) with
  | some t => t.block
  | none =>
    let used := (s.teams.filter (fun t => t.seq == l.seq)).map (·.block) ++
      (s.saved.filter (fun v => v.seq == l.seq)).flatMap (fun v => v.teams.map (·.block))
    if used.contains (l.ordinal c) then ((List.range 32).find? (fun k => !used.contains k)).getD 0 else l.ordinal c

/-- A gang team of a launch on a core. -/
def State.addGangTeam (s : State) (l : Launch) (gang teamId core : Nat) : State :=
  let k := l.kernel
  let block := s.blockFor l (courseOf core)
  let entry := l.cmd.image + BitVec.ofNat 64 k.entry
  (s.claim (courseOf core) l).addTeam
    { Team.fresh s.nextId l.seq gang teamId .gang k l.cmd.image core k.team with block := block } k.team
    (fun sid n => Strand.fresh sid s.nextId n s.now entry (seedExpand l.cmd.seed (BitVec.ofNat 32 n)))

/-- Place the teams of a gang one by one on cores with room, or none of them (R30). -/
def State.placeTeams (l : Launch) (gang : Nat) (courses : List Nat) : Nat → Nat → State → Option State
  | 0, _, s => some s
  | n + 1, i, s =>
    match s.pick ((courses.flatMap coresOf).filter (fun k => s.coreFits k (l.kernel.need l.kernel.team) l.kernel.team)) with
    | none => none
    | some (core, s) => State.placeTeams l gang courses n (i + 1) (s.addGangTeam l gang i core)

def State.placeGang (s : State) (l : Launch) (gang : Nat) (blocked : BitVec 32) : Option State :=
  State.placeTeams l gang (s.openCourses l blocked) (l.cmd.teamsM1 + 1) 0 s

/-- The claims and quotas of a record launch on every course of its set (R284, R229). -/
def State.claimRecords (s : State) (l : Launch) (e : Ext) (blocked : BitVec 32) : Option State :=
  if l.courseList.all (fun c => !blocked.getLsbD c && !(s.course c).fenced && s.claimRoom c l &&
      decide (((s.launches.filter (fun m => m.seq != l.seq && !m.spilled && m.courses.getLsbD c && m.state != .accepted
        && m.state != .completed && m.state != .faulted)).map (fun m => m.ext.elim 0 (·.quota))).sum + e.quota ≤ 16384))
  then some (l.courseList.foldl (fun s c => s.claim c l) s) else none

/-- The payload registers of a strand made from a record (R24). -/
def payloadRegs (img : BitVec 1024) (n : Nat) : List Word := bytesWords (((imageBytes img).drop 48).take n)

/-- A strand of a wave (R24, R32, R292). It takes the declared payload bytes of its record and no others: of an entry record whose
node declares fewer than 4, g0 holds n cut to them (DESIGN CHOICE, log 53). -/
def State.waveStrand (s : State) (l : Launch) (w : Wave) (k : Kernel) (c tid : Nat) (sid n : Nat) : Strand :=
  let idx := w.recs.getD n 0
  let img := (s.rec? c w.seq idx).elim 0 (·.image)
  let off := match w.key with
    | .node _ _ => if field img 128 32 = 0 then k.entry else field img 128 32
    | _ => k.entry
  let x := Strand.fresh sid tid n s.now (l.cmd.image + BitVec.ofNat 64 off) (seedExpand l.cmd.seed (BitVec.ofNat 32 n))
  let x := x.setSpan 0 (payloadRegs img (match w.key with | .node _ _ => k.payload | _ => 64))
  { x with owned := some idx, sample := BitVec.ofNat 64 (field img 320 64),
           rdepth := (match w.key with | .node _ d => d | _ => 0), side := w.sides.getD n 0 }

/-- The kind of team a key makes. -/
def Key.kind : Key → TKind
  | .node n _ => .node n
  | .shade k i => .shader k i
  | .trav _ _ => .gang

/-! ### Scratchpad windows (R170, R355) -/

/-- Leaves of a table of the walk, below a present entry. -/
def State.windowLeaves (s : State) (e1 : Nat) : List Page :=
  if !e1.testBit 0 || e1.testBit 1 then []
  else match s.nextTable e1 256 with
    | .error _ => []
    | .ok t0 => (List.range 32).filterMap (fun i =>
        let e0 := s.homeN (t0 + 8 * i) 8
        if e0.testBit 0 && e0.testBit 1 then (match leafPage e0 false with | .ok p => some p | .error _ => none) else none)

/-- The pages whose leaves name a mapping entry: the backing pages of its window. -/
def State.backingPages (s : State) (entry : Nat) : List Nat :=
  let sub (t n align : Nat) (k : Nat → List Page) : List Page := (List.range n).flatMap (fun i =>
    let e := s.homeN (t + 8 * i) 8
    if e.testBit 0 && !e.testBit 1 then
      (match s.nextTable e align with | .ok u => k u | .error _ => []) else [])
  let pages := sub s.troot 4096 32768 (fun t2 => sub t2 4096 16384 (fun t1 =>
    (List.range 2048).flatMap (fun i => s.windowLeaves (s.homeN (t1 + 8 * i) 8))))
  ((pages.filter (fun p => p.home == 2 && p.smidx == entry)).map (·.pa)).eraseDups

/-- Put bytes at the home without a write of any agent: a write-back. -/
def State.backWrite (s : State) (pa : Nat) (bs : List Byte) : State :=
  (({ s with dieCache := cellPutL pa bs s.dieCache } : State).invalidate none pa bs.length)

/-- Write the bytes of a bound window back to its backing pages. -/
def State.windowBack (s : State) (b : Binding) : State :=
  (s.backingPages b.entry).foldl (fun s pa => s.backWrite pa (readN (s.scratchGet b.tid) (4096 * b.soff) (4096 * b.len))) s

/-! ### Removal of a team (R20, R217, R355) -/

/-- Complete the passes of a team's keys, write its dirty words back and free its keys. -/
def State.freeKeys (s : State) (tid : Nat) : State :=
  let s := (s.keys.filter (fun k => (k.holder == tid && k.passing.isSome) || k.passing == some tid)).foldl (fun s k => s.completePass k) s
  let s := (s.keys.filter (fun k => k.holder == tid)).foldl (fun s k => s.writeBack (s.teamCourse tid) k.pa 4096) s
  { s with keys := s.keys.filter (fun k => k.holder != tid) }

/-- Remove a team that has ended or is discarded: keys, windows, rings, strands and carve-out. A saved team's windows have been
written back already. -/
def State.dropTeam (s : State) (tid : Nat) : State :=
  let s := s.freeKeys tid
  let s := (s.bindings.filter (fun b => b.tid == tid && (s.team? tid).isSome)).foldl (fun s b => s.windowBack b) s
  { s with
    bindings := s.bindings.filter (fun b => b.tid != tid),
    rings := s.rings.filter (fun r => r.tid != tid),
    flights := s.flights.filter (fun f => f.tid != tid || f.acc.isSome || (match f.op with
      | .nevalReq _ _ _ => true
      | .nevalRes _ _ _ => true
      | _ => false)),
    bundles := (s.bundles.map (fun (b : Bundle) => { b with lanes := b.lanes.filter (fun sid =>
      (s.strand? sid).elim false (fun x => x.tid != tid)) })).filter (fun (b : Bundle) => !b.lanes.isEmpty),
    strands := s.strands.filter (fun x => x.tid != tid),
    teams := s.teams.filter (fun t => t.tid != tid) }

end Sys2Proof.Machine
end

