-- ==== Sys2Proof/Machine/Launch.lean ====
section
/-! DEFINITION. Doorbells, LAUNCH and QSTAT, and the acceptance of commands with the checks of the image, the kernels and
the launch extension (R78 to R81, R266 to R272, R280 to R283). -/

namespace Sys2Proof.Machine

/-! ### Doorbells (R267, R268) -/

/-- Send something out of the port. -/
def State.say (s : State) (o : Out) : State := { s with outbox := s.outbox ++ [o] }

/-- Whether a data QP is ready to send (R393). -/
def State.qpReady (s : State) (qpn : Nat) : Bool := s.qps.any (fun q => q.qpn == qpn)

/-- Drop a doorbell and count it in DBERR, which the die's group alone holds. -/
def State.dropDoorbell (s : State) : State := { s with counters := modAt (· + 1) 6 s.counters }

/-- QPN of a queue: as latched, or as its descriptor stands while it is disabled. -/
def State.queueQpn (s : State) (q : Nat) : Nat :=
  if (s.queue q).enabled then (s.queue q).qpn else s.homeN (s.areas.qt + 64 * q + 20) 3

/-- A doorbell SEND: refused with a NAK on a QP that is not ready; dropped in the cases that every OP shares. QPN 1 carries
management commands, not doorbells. -/
def State.doorbell (s : State) (m : Doorbell) (k : State → State) : Host.Outcome State Fault Refusal :=
  if m.qpn = 1 then .next s
  else if !s.qpReady m.qpn then .next (s.say (.nak m.qpn .invalid))
  else
    let s := s.say (.ack m.qpn)
    if !s.trootSet || decide (m.len < 16) || s.queueQpn m.queue.1 != m.qpn then .next s.dropDoorbell else .next (k s)

/-- DOORBELL_SUBMIT. A PRODUCER behind the producer count, as counts modulo 2^32 compare, is ignored and drops nothing; one too far
ahead of CONSUMED is dropped. Any other SUBMIT between an ABORT and the end of the queue's enablement, in which PRODUCED − CONSUMED
reads zero, changes nothing (DEDUCED, log 35). -/
def execDoorbellSubmit (m : Doorbell) (s : State) : Host.Outcome State Fault Refusal :=
  s.doorbell m (fun s =>
    let q := s.queue m.queue.1
    if !q.enabled || q.devOk then s.dropDoorbell
    else if (m.producer - q.produced).getLsbD 31 then s
    else if 2 ^ q.caLog2 < (m.producer - q.consumed).toNat then s.dropDoorbell
    else if q.aborting then s
    else if (q.produced - q.consumed).toNat < (m.producer - q.consumed).toNat then
      (s.modQueue m.queue.1 (fun q => { q with produced := m.producer })).showQueue m.queue.1
    else s)

/-- DOORBELL_ENABLE: the descriptor is read once and checked. -/
def execDoorbellEnable (m : Doorbell) (s : State) : Host.Outcome State Fault Refusal :=
  s.doorbell m (fun s =>
    if (s.queue m.queue.1).enabled then s
    else
      let d := s.homeN (s.areas.qt + 64 * m.queue.1) 32
      let ca : DWord := BitVec.ofNat 64 (d / 2 ^ 192)
      let lg := d / 2 ^ 128 % 16
      let qpn := d / 2 ^ 160 % 2 ^ 24
      if lg < 4 ∨ 12 < lg ∨ ca.toNat % 4096 ≠ 0 ∨ !canonical ca ∨ qpn = 1 ∨ !s.qpReady qpn then s.dropDoorbell
      else
        let set := s.psets.getD (d / 8 % 8) (0, 0)
        (s.modQueue m.queue.1 (fun q => { q with
          produced := 0, consumed := 0, caBase := ca, qpn := qpn, caLog2 := lg, devOk := d.testBit 7, enabled := true,
          disabling := false, aborting := false, pset := d / 8 % 8, prio := d % 8, courses := set.1, engines := set.2 })).showQueue m.queue.1)

/-- DOORBELL_DISABLE. -/
def execDoorbellDisable (m : Doorbell) (s : State) : Host.Outcome State Fault Refusal :=
  s.doorbell m (fun s =>
    if (s.queue m.queue.1).enabled then
      (s.modQueue m.queue.1 (fun q => { q with disabling := true })).settleQueue m.queue.1
    else s)

/-- DOORBELL_ABORT: what is not accepted is dropped, of a disabled queue too; what is not admitted is FAULTED with CAUSE 9, what is
admitted stops. -/
def execDoorbellAbort (m : Doorbell) (s : State) : Host.Outcome State Fault Refusal :=
  s.doorbell m (fun s =>
    let k := m.queue.1
    let s := (s.modQueue k (fun q => { q with produced := q.consumed, disabling := q.enabled, aborting := q.enabled })).showQueue k
    let mine := s.launches.filter (fun l => l.queue == k)
    let s := mine.foldl (fun s l =>
      match l.state with
      | .accepted => s.finishLaunch l.seq 9
      | .admitted => s.endLaunch l.seq 9
      | .dying _ => s.modLaunch l.seq (fun l => { l with state := .dying 9 })
      | _ => s) s
    let turns := s.turnOf.filter (fun q => !mine.any (fun (l : Launch) => l.seq == q && l.state == LState.accepted))
    ({ s with turnOf := turns } : State).settleQueue k)

/-! ### LAUNCH and QSTAT (R280, R281) -/

/-- A SYS write of the launch unit or an engine that belongs to no course. -/
def State.sysPut (s : State) (a : Acc) (bs : List Byte) (judged : Option Nat := none) : State :=
  match s.place a with
  | .scratch t o => s.scratchPut t o bs
  | .memory => s.agentMem a.pa bs judged
  | .cached => ((s.recallRange none a.pa bs.length).agentWrite none a.pa bs judged).atOwner .sys a.pa bs.length

/-- Enqueue a record of 64 bytes in a queue that device code feeds: the machine and the status. A command area that cannot be
written takes nothing, and the record counts as enqueued (DESIGN CHOICE, log 65). -/
def State.enqueueRecord (s : State) (q : Nat) (bs : List Byte) : State × Word :=
  let x := s.queue q
  if !x.enabled || !x.devOk || x.aborting then (s, 2)
  else if (x.produced - x.consumed).toNat = 2 ^ x.caLog2 then (s, 1)
  else
    let va := x.caBase + BitVec.ofNat 64 (64 * (x.produced.toNat % 2 ^ x.caLog2))
    let s := match s.check unitCourse va 64 accWrite (·.write) with
      | .ok a => s.sysPut a bs
      | .error _ => s
    ((s.modQueue q (fun y => { y with produced := y.produced + 1 })).showQueue q, x.produced <<< 16)

def execLaunch (c : Ctl) (d a : GReg) (off : Off) (s : State) : Host.Outcome State Fault Refusal :=
  whenFree c State.keyBusy s (fun s =>
    inBundle s (wordByLane c (fun x => x) (fun s b x =>
      match s.check (coreUnit b.core) (x.ea a off) 64 accRead (·.read) with
      | .error f => .fault f
      | .ok acc =>
        let cs := courseOf b.core
        let s := (s.drainCourse cs).beforeRelease cs
        let bs := (List.range 64).map (fun i => s.sysByte { acc with va := acc.va + BitVec.ofNat 64 i, pa := acc.pa + i })
        let r := s.enqueueRecord ((x.reg d).toNat % 64) bs
        flyTo x [.ld] d 1 (.result .load x.sid (spanWords d [r.2]) none) r.1)))

/-- A QSTAT form. -/
def qstatWord (fn : Fin 3) (c : Ctl) (d a : GReg) (s : State) : Host.Outcome State Fault Refusal :=
  inBundle s (wordByLane c (fun x => x) (fun s _ x => flyTo x [.ld] d 1 (.qstat x.sid d fn (x.reg a)) s))

def execQstatQ (c : Ctl) (d a : GReg) (s : State) : Host.Outcome State Fault Refusal := qstatWord 0 c d a s

def execQstatLast (c : Ctl) (d a : GReg) (s : State) : Host.Outcome State Fault Refusal := qstatWord 1 c d a s

def execQstatSeq (c : Ctl) (d a : GReg) (s : State) : Host.Outcome State Fault Refusal := qstatWord 2 c d a s

/-! ### The command record (Table 13.4) -/

def Command.ofNat (v : Nat) : Command where
  opc := v % 2 ^ 8
  overlap := v.testBit 8
  indirect := v.testBit 9
  depEn := v.testBit 10
  kdesc := v / 2 ^ 16 % 2 ^ 16
  tslots := v / 2 ^ 40 % 2 ^ 5
  obMask := BitVec.ofNat 4 (v / 2 ^ 48)
  gangs := v / 2 ^ 64 % 2 ^ 32
  depSeq := v / 2 ^ 96 % 2 ^ 32
  image := BitVec.ofNat 64 (v / 2 ^ 128)
  seed := BitVec.ofNat 64 (v / 2 ^ 192)
  gaddr := BitVec.ofNat 64 (v / 2 ^ 256)
  extAddr := BitVec.ofNat 64 (v / 2 ^ 320)
  ctxAddr := BitVec.ofNat 64 (v / 2 ^ 384)
  teamsM1 := v / 2 ^ 448 % 2 ^ 16

/-! ### The image (R78 to R81) -/

/-- What a launch needs of an image header. -/
structure Header where
  kcount : Nat
  textOff : Nat
  textSize : Nat
  kdOff : Nat
  deriving DecidableEq, Repr, Inhabited

/-- Read an image header; none when it cannot be read or its MAGIC or VERSION differs. -/
def State.imageHeader (s : State) (image : DWord) : Option Header :=
  match s.sysRead image 64 with
  | none => none
  | some bs =>
    let v := leNat bs
    if v % 2 ^ 32 = 0x31494B5A ∧ v / 2 ^ 32 % 2 ^ 16 = 1 then
      some ⟨v / 2 ^ 48 % 2 ^ 16, v / 2 ^ 64 % 2 ^ 32, v / 2 ^ 96 % 2 ^ 32, v / 2 ^ 256 % 2 ^ 32⟩
    else none

/-- The fields of a kernel descriptor (Table 4.7). -/
def Kernel.ofNat (index v : Nat) : Kernel where
  index := index
  entry := v / 2 ^ 32 % 2 ^ 32
  width := 16 * 2 ^ (v / 2 ^ 64 % 4)
  kind := v / 2 ^ 66 % 4
  shkind := v / 2 ^ 68 % 16
  regs := v / 2 ^ 72 % 2 ^ 9
  team := v / 2 ^ 96 % 2 ^ 11
  latches := v / 2 ^ 112 % 2 ^ 6
  scratch := v / 2 ^ 128 % 2 ^ 20
  l1 := v / 2 ^ 160 % 2 ^ 8
  payload := v / 2 ^ 168 % 2 ^ 8
  nodeIdx := v / 2 ^ 176 % 2 ^ 16
  depth := v / 2 ^ 192 % 2 ^ 8
  codesize := v / 2 ^ 256 % 2 ^ 32

/-- Strands of a kernel's teams at most: TEAM, or W for shaders and nodes. -/
def Kernel.most (k : Kernel) : Nat := if k.kind = 0 then k.team else k.width

/-- Whether a descriptor passes R80. -/
def Kernel.passes (k : Kernel) (h : Header) : Bool :=
  decide (k.width ≤ 64) && decide (k.kind ≤ 2) && (k.kind != 1 || decide (k.shkind ≤ 3)) &&
  decide (16 ≤ k.regs) && decide (k.regs ≤ 256) &&
  (if k.kind = 0 then decide (1 ≤ k.team) && decide (k.team ≤ 1024) else k.team == 0) &&
  decide (k.latches ≤ 32) && (k.kind == 0 || (decide (k.payload ≤ 64) && decide (k.payload % 4 = 0))) &&
  decide (1 ≤ k.l1) && decide (k.l1 ≤ 126) && decide (k.entry % 8 = 0) && decide (h.textOff ≤ k.entry) &&
  decide (k.entry < h.textOff + h.textSize) && decide (k.need k.most ≤ 128)

/-- A descriptor of an image; none when it cannot be read. -/
def State.descriptor (s : State) (image : DWord) (h : Header) (k : Nat) : Option Kernel :=
  (s.sysRead (image + BitVec.ofNat 64 (h.kdOff + 64 * k)) 64).map (fun bs => Kernel.ofNat k (leNat bs))

/-- The passing descriptors of an image, by index. -/
def State.kernels (s : State) (image : DWord) (h : Header) : List Kernel :=
  (List.range h.kcount).filterMap (fun k => (s.descriptor image h k).filter (fun d => d.passes h))

/-- Bytes of a team image of a kernel (R382). -/
def Kernel.imageBytes (k : Kernel) (scu : Nat) : Nat :=
  let n := k.most
  let regs := (0x2000 + 256 * n + (if k.kind = 0 then 0 else 128 * n) + 63) / 64 * 64
  (regs + 4 * n * k.regs + 63) / 64 * 64 + 4096 * scu

/-- TSIZE of an image's kernels. -/
def teamSize (ks : List Kernel) : Nat := ks.foldl (fun m k => max m ((k.imageBytes k.scu + 65535) / 65536 * 65536)) 0

/-! ### The launch extension (R282, R283) -/

def Ext.ofNat (v : Nat) : Ext where
  mins := [BitVec.ofNat 32 v, BitVec.ofNat 32 (v / 2 ^ 32), BitVec.ofNat 32 (v / 2 ^ 64)]
  maxs := [BitVec.ofNat 32 (v / 2 ^ 96), BitVec.ofNat 32 (v / 2 ^ 128), BitVec.ofNat 32 (v / 2 ^ 160)]
  waveTo := v / 2 ^ 192 % 2 ^ 32
  quota := v / 2 ^ 224 % 2 ^ 16
  reserve := v / 2 ^ 240 % 2 ^ 16
  stkEnt := v / 2 ^ 272 % 2 ^ 8
  spillA := BitVec.ofNat 64 (v / 2 ^ 320)
  stackA := BitVec.ofNat 64 (v / 2 ^ 384)
  cellMap := BitVec.ofNat 64 (v / 2 ^ 448)
  root := BitVec.ofNat 64 (v / 2 ^ 576)
  nodes := []
  kernels := []

/-- Pairs (NQ, LEVEL) of a node table's bytes. -/
def nodeTable (n : Nat) (bs : List Byte) : List (Nat × Nat) :=
  (List.range n).map (fun i => let v := leNat ((bs.drop (8 * i)).take 8); (v % 2 ^ 16, v / 2 ^ 16 % 2 ^ 8))

/-- Whether a bound is refused: NaN, or MIN not below MAX. -/
def badBound (lo hi : Word) : Bool := (FVal.cmp (f32v lo.toNat) (f32v hi.toNat)) != some .lt

/-- Read an extension with its node table; none when the command is refused for it. The entry kernel is judged when its
descriptor can be read. -/
def State.extension (s : State) (cmd : Command) (entry : Option Kernel) (ks : List Kernel) : Option Ext :=
  match s.sysRead cmd.extAddr 128 with
  | none => none
  | some bs =>
    let v := leNat bs
    let n := v / 2 ^ 256 % 2 ^ 16
    let tab : DWord := BitVec.ofNat 64 (v / 2 ^ 512)
    match s.sysRead tab (8 * n) with
    | none => none
    | some ns =>
      let e : Ext := { Ext.ofNat v with nodes := nodeTable n ns, kernels := ks.filter (fun k => k.kind != 0) }
      let bad := entry.elim false (fun k => k.kind != 2 || decide (n ≤ k.nodeIdx)) || cmd.ctxAddr == 0 ||
        (List.range 3).any (fun i => badBound (e.mins.getD i 0) (e.maxs.getD i 0)) ||
        e.quota == 0 || decide (16384 < e.quota) || n == 0 ||
        decide (e.quota < (e.nodes.map (·.1)).sum + e.reserve) ||
        (List.range n).any (fun i => match e.nodeKernel i with
          | some k => decide (e.nq i < k.width * (k.depth + 1))
          | none => false) ||
        decide (e.root.toNat % 64 ≠ 0) || decide (e.cellMap.toNat % 64 ≠ 0) || decide (e.stackA.toNat % 64 ≠ 0) ||
        decide (e.spillA.toNat % 65536 ≠ 0) || decide (tab.toNat % 8 ≠ 0)
      if bad then none else some e

/-! ### Acceptance (R269, R271) -/

/-- Whether a launch could be placed on its set with every course of it empty. -/
def fitsEmpty (courses : BitVec 32) (cmd : Command) (k : Kernel) : Bool :=
  let cores := 8 * ((List.range 32).filter (fun c => courses.getLsbD c)).length
  k.kind != 0 || decide (cmd.teamsM1 + 1 ≤ cores * min (128 / k.need k.team) (2048 / k.team))

/-- What acceptance finds: the lowest CAUSE (0 none), the kernel, the extension and TSIZE. -/
def State.judge (s : State) (q : Queue) (seq : Nat) (cmd : Command) : Nat × Kernel × Option Ext × Nat :=
  let hdr := s.imageHeader cmd.image
  let raw := hdr.bind (fun h => if cmd.kdesc < h.kcount then s.descriptor cmd.image h cmd.kdesc else none)
  let good := match hdr, raw with
    | some h, some k => k.passes h
    | _, _ => false
  let ks := (hdr.map (fun h => s.kernels cmd.image h)).getD []
  let k := raw.getD default
  let ext := if cmd.extAddr = 0 then none else s.extension cmd raw ks
  let one := cmd.opc != 1 || decide (cmd.image.toNat % 65536 ≠ 0) || decide (cmd.ctxAddr.toNat % 65536 ≠ 0) ||
    (cmd.indirect && decide (cmd.gaddr.toNat % 4 ≠ 0)) || decide (16 < cmd.tslots) ||
    (match raw with
      | some k => (k.kind == 0 && cmd.extAddr != 0) || ((k.kind == 1 || k.kind == 2) && cmd.extAddr == 0)
      | none => false) ||
    (cmd.extAddr != 0 && ext.isNone)
  let three := q.courses == 0 || (good && !fitsEmpty q.courses cmd k)
  let four := cmd.depEn && (decide (seq ≤ cmd.depSeq) || cmd.depSeq == 0)
  (if one then 1 else if !good then 2 else if three then 3 else if four then 4 else 0, k, ext, teamSize ks)

/-- Whether the launch unit has a record of a queue to accept. -/
def State.hasRecord (s : State) (q : Nat) : Bool :=
  let x := s.queue q
  x.enabled && !x.disabling && x.produced != x.consumed

/-- The queue whose turn of acceptance it is: round-robin from the last one. -/
def State.acceptTurn (s : State) : Option Nat :=
  ((List.range 64).map (fun i => (s.rrAccept + i) % 64)).find? s.hasRecord

/-- COMMAND_ACCEPT: the queue's next record is read, numbered, journaled and checked. -/
def execCommandAccept (queue : Nat) (s : State) : Host.Outcome State Fault Refusal :=
  let seq := s.seq + 1
  if s.acceptTurn ≠ some queue ∨ s.launches.any (fun l =>
      l.seq % 65536 == seq % 65536 && l.state != .completed && l.state != .faulted) then .next s
  else
    let q := s.queue queue
    let rd := s.sysRead (q.caBase + BitVec.ofNat 64 (64 * (q.consumed.toNat % 2 ^ q.caLog2))) 64
    let free := s.free
    let bs := rd.getD []
    let s := if rd.isNone then free.2 else s
    let digest : BitVec 49 := if rd.isNone then free.1.setWidth 49 else BitVec.ofNat 49 (leNat (sha3_512 bs))
    let cmd := Command.ofNat (leNat bs)
    let r := s.judge q seq cmd
    let l : Launch := {
      seq := seq, queue := queue, prio := q.prio, courses := q.courses, engines := q.engines, cmd := cmd, kernel := r.2.1,
      ext := r.2.2.1, state := .accepted, count := if cmd.indirect then none else some cmd.gangs, placed := 0, waves := 0,
      marked := false, tacc := s.now, tadm := 0, digest := digest, saving := false, spilled := false, kept := [],
      tsize := r.2.2.2 }
    let s : State := { s with
      seq := seq, rrAccept := (queue + 1) % 64,
      launches := s.launches.filter (fun m => m.seq % 65536 != seq % 65536) ++ [l] }
    let s := s.journal l 1 0 0
    let s := (s.modQueue queue (fun x => { x with consumed := x.consumed + 1, lastSeq := BitVec.ofNat 32 seq })).showQueue queue
    let cause := if rd.isNone then 1 else r.1
    .next (if cause = 0 then s else s.finishLaunch seq cause)

end Sys2Proof.Machine
end

