-- ==== Sys2Proof/Machine/MemoryEvents.lean ====
section
/-! DEFINITION. The events that complete memory instructions: loads and results, acceptance and performance of writes,
delta merges, evictions, keys, cache control, barriers and monitors (files 05, 08, 09, 10). -/

namespace Sys2Proof.Machine

/-! ### Loads (R161, R171 to R178, R254) -/

/-- The ranges of a load's bytes that one single-copy access takes: an N128 is two halves (R187). -/
def accessUnits (w : Width) (pa : Nat) : List (Nat × Nat) :=
  if w.bytes = 16 then [(pa, 8), (pa + 8, 8)] else [(pa, w.bytes)]

/-- Whether a lane's bytes may be served from its team's L1 (R161, R187): they are there, each single-copy access from one fill,
its strand has read nothing newer there, and has no accepted access to them that L1 does not show. A counter is read no older than
the snapshot before the latest, so L1 never serves one (R369). -/
def State.inL1 (s : State) (f : Flight) (sc : Scope) (l : LaneLoad) : Bool :=
  (sc == .plain || sc == .team) && s.place l.acc == .cached && !overlaps l.acc.pa l.width.bytes s.areas.cnt 8448 && (s.team? f.tid).elim false (fun t =>
    (List.range l.width.bytes).all (fun i => (cellGet t.l1 (l.acc.pa + i)).isSome) &&
      (accessUnits l.width l.acc.pa).all (fun u => t.oneFill u.1 u.2) &&
      !t.barred.any (fun e => e.1 == l.sid && overlaps e.2 4 l.acc.pa l.width.bytes)) &&
    !s.flights.any (fun g => g.acc.isSome && g.op.hidden && g.op.strands.contains l.sid && g.op.covers l.acc.pa l.width.bytes)

/-- Whether some lanes of a GATHER may take their bytes of one line from L1: as one access, from one fill (R178, R187). -/
def State.lineInL1 (s : State) (f : Flight) (sc : Scope) (ls : List LaneLoad) : Bool :=
  ls.all (s.inL1 f sc) && (s.team? f.tid).elim false (fun t =>
    match (t.l1Fills.filter (fun e => ls.any (fun l => inWords l.acc.pa l.width.bytes e.1))).map (·.2) with
    | [] => true
    | k :: ks => ks.all (· == k))

/-- Words of a range that a strand may no longer read from its team's L1 (R187). -/
def State.bar (s : State) (tid sid pa n : Nat) : State :=
  let w := wordSpan pa n
  let ws := (List.range (w.2 / 4)).map (fun i => (sid, w.1 + 4 * i))
  s.modTeam tid (fun t => { t with
    barred := t.barred ++ ws.filter (fun e => (cellGet t.l1 e.2).isSome && !t.barred.contains e) })

/-- Read n bytes of an access at its scope. A load of SCOPE 0 or TEAM fills L1, one that the course serves fills its cache, and
a wider one makes stale L1 words unreadable for its strand (R161, R162, R187). -/
def State.readScope (s : State) (c tid sid : Nat) (sc : Scope) (a : Acc) (n : Nat) (fill : Bool) : State × List Byte :=
  match s.place a with
  | .cached =>
    let w := wordSpan a.pa n
    let s := if sc.atHome then (((s.drainRange c a.pa n).mergeRange c a.pa n).atOwner sc a.pa n).fillHome a.pa n else s.fillCourse c a.page w.1 w.2
    let bs := readN (s.byteAt c tid sc) a.pa n
    if fill && (sc == .plain || sc == .team) then (s.fillL1 tid w.1 (readN (s.courseByte c) w.1 w.2), bs)
    else (s.bar tid sid a.pa n, bs)
  | _ => (s.drainOwn c sid a.pa n).readAt c tid sc a n

/-- One lane's bytes. -/
def State.readLane (s : State) (f : Flight) (sc : Scope) (fromL1 : Bool) (l : LaneLoad) : State × List Byte :=
  if fromL1 then
    (s, readN (fun a => (s.team? f.tid).elim 0 (fun t => (cellGet t.l1 a).getD 0)) l.acc.pa l.width.bytes)
  else s.readScope (courseOf f.core) f.tid l.sid sc l.acc l.width.bytes true

/-- Whether the rows an LDA reads are final (R254). -/
def State.rowsUp (s : State) (f : Flight) (a : Acc) : Bool :=
  (s.course (courseOf f.core)).tiles.all (fun t =>
    !(t.bound && t.claim.elim false (fun e => e.1 == f.seq) && decide (t.base.toNat ≤ a.va.toNat) &&
      decide (a.va.toNat < t.base.toNat + 16384)) || decide ((a.va.toNat - t.base.toNat) / 256 + 1 ≤ t.wm))

/-- The acquire an ORDER 3 read of a lane's bytes would be (R195). -/
def State.laneAcquire (s : State) (f : Flight) (l : LaneLoad) : Acquire :=
  remoteAcquire f.core (s.writerOf (courseOf f.core) l.acc.pa l.width.bytes)

/-- One access of a load: the bytes of its lanes into a buffer, what each lane's strong read (R185: not an LDA) returned
noted, and promotion. -/
def State.readGroup (s : State) (f : Flight) (sc : Scope) (o : Order) (kind : LoadKind) (fromL1 : Bool) (ls : List LaneLoad) :
    State × Bytes :=
  ls.foldl (fun (q : State × Bytes) l =>
    let src := q.1.writerOf (courseOf f.core) l.acc.pa l.width.bytes
    let e := q.1.readLane f sc fromL1 l
    let s := if sc = .plain ∨ kind = .lda then e.1 else e.1.modStrand l.sid (fun x => x.noteStrong f.id src)
    let s := if o = .acqRemote then (match remoteAcquire f.core src with
      | .promoted core _ => s.promote core
      | _ => s) else s
    (s, cellPutL l.acc.pa e.2 q.2)) (s, [])

/-- A lane whose sector has been read. -/
def LaneLoad.arrived (l : LaneLoad) (m : Bytes) : LaneLoad :=
  { l with came := some (spanWords l.d (l.width.extend (leNat (readN (fun a => (cellGet m a).getD 0) l.acc.pa l.width.bytes)))) }

/-- The words of some that are written now: those chosen by place that no earlier operation still writes (R58, R172). -/
def State.dueWords (s : State) (f : Flight) (sid : Nat) (words : BitVec 64) (ws : List (GReg × Word)) : List (GReg × Word) :=
  (ws.zipIdx.filter (fun e => words.getLsbD e.2 && !s.destWaits f sid e.1.1 1)).map (·.1)

/-- Write chosen words of a lane that has arrived; LD falls with the last (R171). -/
def State.writeLane (s : State) (f : Flight) (words : BitVec 64) (l : LaneLoad) : State × Option LaneLoad :=
  match l.came with
  | none => (s, some l)
  | some ws =>
    let due := s.dueWords f l.sid words ws
    let rest := ws.filter (fun e => !due.contains e)
    let s := s.bring l.sid due
    if rest.isEmpty then (s.modStrand l.sid (Strand.lower s.now .ld), none) else (s, some { l with came := some rest })

/-- What a load's acquire does when its last word is written; a promotion has been made at the read. -/
def loadAcquire (sc : Scope) (o : Order) (far : Bool) : Option Acquire :=
  if o = .acq then some (.scope sc) else if o = .acqRemote && far then some .engine else none

/-- A sector of a load returns, or more of its words are written; none when nothing can happen. A GATHER reads each line once
(R178). -/
def State.loadReturn (s : State) (f : Flight) (sids : List Nat) (lanes : List LaneLoad) (sc : Scope) (o : Order) (far : Bool)
    (buf : List (Nat × Bytes)) (kind : LoadKind) (sector : Nat) (fromL1 : Bool) (words : BitVec 64) : Option State :=
  let here (l : LaneLoad) : Bool := l.acc.pa / 32 == sector
  let new := lanes.filter (fun l => here l && l.came.isNone)
  let line := sector / 4
  let group := if kind = .gather then lanes.filter (fun l => l.acc.pa / 128 == line && l.came.isNone) else new
  let old := buf.find? (fun e => e.1 == line)
  let read := !new.isEmpty && old.isNone
  if !lanes.any here || (read && (group.any (fun l => s.waits f l.sid l.acc.pa l.width.bytes ||
      (kind = .lda && !s.rowsUp f l.acc) || (o = .acqRemote && s.acquireWaits (s.laneAcquire f l))) ||
      (fromL1 && (o = .acqRemote || !(if kind = .gather then s.lineInL1 f sc group else group.all (s.inL1 f sc)))))) then none
  else
    let r : State × Bytes := match old with
      | some e => (s, e.2)
      | none => if read then s.readGroup f sc o kind fromL1 group else (s, [])
    let far := far || (o = .acqRemote && read && group.any (fun l => s.laneAcquire f l != .scope .team))
    let up := lanes.map (fun l => if here l && l.came.isNone then l.arrived r.2 else l)
    let w : State × List LaneLoad := up.foldl (fun (q : State × List LaneLoad) l =>
      if here l then
        let e := q.1.writeLane f words l
        (e.1, q.2 ++ e.2.toList)
      else (q.1, q.2 ++ [l])) (r.1, [])
    if w.2.isEmpty then
      let t := w.1.dropFlight f.id
      some ((match loadAcquire sc o far with
        | some q => t.acquired f.tid q
        | none => t).settleFences)
    else
      let buf := if kind = .gather && read then (line, r.2) :: buf else buf
      some (w.1.modFlight f.id (fun f => { f with op := .load sids w.2 sc o far buf kind }))

/-- More words of a result are written; LD falls with the last, and the ATOM's acquire takes effect (R58, R190). -/
def State.resultReturn (s : State) (f : Flight) (kind : ResKind) (sid : Nat) (ws : List (GReg × Word)) (acq : Option Acquire)
    (words : BitVec 64) : State :=
  let due := s.dueWords f sid words ws
  let rest := ws.filter (fun e => !due.contains e)
  if due.isEmpty || (rest.isEmpty && acq.elim false (fun q => s.acquireWaits q)) then s
  else
    let s := s.bring sid due
    if rest.isEmpty then
      let s := (s.modStrand sid (Strand.lower s.now .ld)).dropFlight f.id
      (match acq with
        | some q => s.acquired f.tid q
        | none => s).settleFences
    else s.modFlight f.id (fun g => { g with op := .result kind sid rest acq })

/-- A one-word result of a strand that is known now. -/
def State.writeResult (s : State) (f : Flight) (sid : Nat) (d : GReg) (v : Word) : State :=
  s.resultReturn f .load sid [(d, v)] none 15

/-- Records of a queue that are enqueued and not yet retired or faulted (Table 13.7). -/
def State.pending (s : State) (q : Nat) : Nat :=
  let x := s.queue q
  min 0xFFFF ((x.produced - x.consumed).toNat +
    (s.launches.filter (fun l => l.queue == q && l.state != .completed && l.state != .faulted)).length)

/-- The value QSTAT returns (R273). -/
def State.qstatWord (s : State) (fn : Fin 3) (v : Word) : Word :=
  let q := v.toNat % 64
  let x := s.queue q
  if fn = 0 then
    BitVec.ofNat 32 ((if x.enabled then 2 ^ 31 else 0) + x.prio * 2 ^ 28 + x.pset * 2 ^ 25 + (if x.devOk then 2 ^ 24 else 0)
      + s.pending q)
  else if fn = 1 then x.lastSeq
  else
    let e := s.homeN (s.areas.j + 32 * (v.toNat % 65536)) 8
    if e % 2 ^ 32 = v.toNat then BitVec.ofNat 32 (e / 2 ^ 56 % 256 * 256 + e / 2 ^ 40 % 8) else 0xFFFFFFFF

/-- FULL of a ring (R330). -/
def Ring.full (r : Ring) : Bool := decide (2 ^ r.rlog2 ≤ (r.target - r.cons).toNat)

/-- The value CPSTAT returns (Table 16.7). -/
def State.cpstatWord (s : State) (tid base : Nat) : Word :=
  match s.rings.find? (fun r => r.tid == tid && r.base == base) with
  | none => 0
  | some r => BitVec.ofNat 32 ((if r.full then 2 ^ 31 else 0) + (if r.ovr then 2 ^ 30 else 0) + r.errCode % 16 * 2 ^ 24
      + r.begun.length % 4096 * 2 ^ 12 + min 4095 (r.target - r.cons).toNat)

/-- Whether an earlier KEYGET or KEYDROP of the strand, or of a lower lane of the same word, on a block is still to be applied
(R218, R222). -/
def State.keyBefore (s : State) (f : Flight) (va : DWord) : Bool :=
  s.flights.any (fun g => g.before f && (match g.op with
    | .keyget _ a _ _ => a.va.toNat / 4096 == va.toNat / 4096
    | .keydrop _ a _ => a.va.toNat / 4096 == va.toNat / 4096
    | _ => false))

/-- HELD and PASSING keys in the key table of the die that owns an address (R215). -/
def State.keysOf (s : State) (pa : Nat) : Nat := (s.keys.filter (fun k => k.pa / 2 ^ 51 == pa / 2 ^ 51)).length

/-- KEYGET is judged and returns (R219); none while it waits for a pass to its own team. -/
def State.keygetReturn (s : State) (f : Flight) (sid : Nat) (acc : Acc) (d : GReg) : Option State :=
  let refuse (st h : Nat) : Option State := some (s.writeResult f sid d (keyStatus h st))
  let grant (s : State) : Option State := some ((s.writeResult f sid d (keyStatus 0xFFFF 0)).acquired f.tid (.scope .die))
  if s.keyBefore f acc.va || s.unaccepted f sid then none
  else match s.key? acc.va with
    | none =>
      if 4096 ≤ s.keysOf acc.pa then refuse 2 0xFFFF
      else grant { s with keys := s.keys ++ [⟨acc.va.toNat / 4096, acc.pa / 4096 * 4096, f.tid, none⟩] }
    | some k =>
      match k.passing with
      | none => if k.holder = f.tid then grant s else refuse 1 (s.holderName f.tid k.holder)
      | some t => if t = f.tid then none else refuse 1 (s.holderName f.tid t)

/-- LOAD_SECTOR_RETURN: what an operation that raised LD brings back. -/
def execLoadSectorReturn (id sector : Nat) (fromL1 : Bool) (s : State) : Host.Outcome State Fault Refusal :=
  match s.flight? id with
  | none => .next s
  | some f =>
    match f.op with
    | .load sids lanes sc o far buf kind =>
      .next ((s.loadReturn f sids lanes sc o far buf kind sector fromL1 s.words).getD s)
    | .result .load sid ws acq => .next (s.resultReturn f .load sid ws acq s.words)
    | .qstat sid d fn v => .next (s.writeResult f sid d (s.qstatWord fn v))
    | .cpstat sid d base => .next (s.writeResult f sid d (s.cpstatWord f.tid base))
    | .keyget sid acc d _ => .next (if s.destWaits f sid d 1 then s else (s.keygetReturn f sid acc d).getD s)
    | _ => .next s

/-- SFU_RESULT (R131). -/
def execSfuResult (id : Nat) (s : State) : Host.Outcome State Fault Refusal :=
  match s.flight? id with
  | none => .next s
  | some f =>
    match f.op with
    | .result .sfu sid ws acq => .next (s.resultReturn f .sfu sid ws acq 15)
    | _ => .next s

/-- DIV_RESULT (R89). -/
def execDivResult (id : Nat) (s : State) : Host.Outcome State Fault Refusal :=
  match s.flight? id with
  | none => .next s
  | some f =>
    match f.op with
    | .result .div sid ws acq => .next (s.resultReturn f .div sid ws acq 15)
    | _ => .next s

/-! ### Writes (R51, R198 to R202, R211, R216) -/

/-- STORE_ACCEPT. -/
def execStoreAccept (id : Nat) (s : State) : Host.Outcome State Fault Refusal :=
  match s.flight? id with
  | none => .next s
  | some f => .next (if s.acceptable f then (s.acceptFlight f).settleFences else s)

/-- Whether an accepted write may be performed at its home now: what its course accepted and has to be performed before it has
been. -/
def State.performable (s : State) (f : Flight) : Bool :=
  f.acc.isSome && !(s.accepted (courseOf f.core)).any (fun g => g.precedes f)

/-- Whether a write first has to recall the key of its block (R216). -/
def State.needsRecall (s : State) (f : Flight) : Bool :=
  let held (a : Acc) : Bool :=
    s.place a == .cached && (match s.keyAt a.pa with
      | some k => k.passing.isSome || k.holder != f.tid
      | none => false)
  match f.op with
  | .store _ a _ _ _ _ => held a
  | .atom _ a _ _ _ _ _ _ _ _ _ _ => held a
  | .red _ a _ _ _ _ _ _ => held a
  | _ => false

/-- STORE_HOME_PERFORM. -/
def execStoreHomePerform (id : Nat) (s : State) : Host.Outcome State Fault Refusal :=
  match s.flight? id with
  | none => .next s
  | some f =>
    match f.op with
    | .store _ _ _ _ _ _ => .next (if s.performable f && !s.needsRecall f then s.performOne f else s)
    | _ => .next s

/-- RED_HOME_APPLY. -/
def execRedHomeApply (id : Nat) (s : State) : Host.Outcome State Fault Refusal :=
  match s.flight? id with
  | none => .next s
  | some f =>
    match f.op with
    | .red _ _ _ _ _ _ _ _ => .next (if s.performable f && !s.needsRecall f then s.performOne f else s)
    | _ => .next s

/-- The words of a performed ATOM that are written now. -/
def State.atomReturn (s : State) (id : Nat) (words : BitVec 64) : State :=
  match s.flight? id with
  | none => s
  | some f =>
    match f.op with
    | .result .atom sid ws acq => s.resultReturn f .atom sid ws acq words
    | _ => s

/-- ATOM_HOME_PERFORM: the read and the write are done in one step, and words of the old value are written. -/
def execAtomHomePerform (id : Nat) (s : State) : Host.Outcome State Fault Refusal :=
  match s.flight? id with
  | none => .next s
  | some f =>
    match f.op with
    | .atom _ _ _ _ _ _ _ _ _ _ _ _ =>
      .next (if s.performable f && !s.needsRecall f then ((s.performOne f).atomReturn id s.words).settleFences else s)
    | .result .atom _ _ _ => .next (s.atomReturn id s.words)
    | _ => .next s

/-- KEY_RECALL: a write to a block that it has to recall; the pass in progress completes, the dirty words go home, the key
is FREE and the write is performed (R216). -/
def execKeyRecall (id : Nat) (s : State) : Host.Outcome State Fault Refusal :=
  match s.flight? id with
  | none => .next s
  | some f => .next (if s.performable f && s.needsRecall f then ((s.performOne f).atomReturn id s.words).settleFences else s)

/-- DELTA_MERGE: the device merges the delta elements on a word, and of its line, at any time (R201, R202), but not those of a tile
that is pinned (R227). -/
def execDeltaMerge (course word : Nat) (s : State) : Host.Outcome State Fault Refusal :=
  .next (if s.keepsDelta course word then s else s.mergeRange course (word / 4 * 4) 4)

/-! ### Evictions, windows and prefetches (R170, R180, R212) -/

/-- Recall the window bytes of a line to their backing; a saved team's have been written back (R170). -/
def State.recallWindows (s : State) (base : Nat) : State :=
  (s.bindings.filter (fun b => (s.team? b.tid).isSome)).foldl (fun s b =>
    (s.backingPages b.entry).foldl (fun s pa =>
      (List.range 128).foldl (fun s i =>
        let a := base + i
        if pa ≤ a ∧ a < pa + 4096 * b.len then s.backWrite a [s.scratchGet b.tid (4096 * b.soff + (a - pa))] else s) s) s) s

/-- Clear a range from a course cache once its delta and dirty words have gone home; no key changes (R212, R224). -/
def State.recallCourse (s : State) (c pa n : Nat) : State :=
  ((s.mergeRange c pa n (keepKey := true)).writeBack c pa n).modCourse c (fun x => { x with clean := eraseWords pa n x.clean })

/-- Eviction of a line from the die cache: every copy is recalled, then the home writes the line to memory if it is newer, and
drops it (R212). -/
def State.evictLine (s : State) (line : Nat) : State :=
  let base := 128 * line
  let s := (List.range s.courses.length).foldl (fun s c => s.recallCourse c base 128) s
  let s := s.recallWindows base
  let s := if (List.range 128).any (fun i => (cellGet s.dieCache (base + i)).isSome) then s.touchMem base 128 else s
  { s with
    mem := ((List.range 128).foldl (fun m i =>
      match cellGet s.dieCache (base + i) with
      | some v => memPut (base + i) v m
      | none => m) s.mem),
    dieCache := cellEraseN base 128 s.dieCache,
    dieClean := cellEraseN base 128 s.dieClean,
    peerLines := s.peerLines.filter (· != line) }

/-- DIE_CACHE_EVICTION: a pinned line is never chosen (R212). -/
def execDieCacheEviction (line : Nat) (s : State) : Host.Outcome State Fault Refusal :=
  .next (if s.pinned line then s else s.evictLine line)

/-- WINDOW_WRITEBACK: the bytes of a bound window go to their backing page. -/
def execWindowWriteback (entry : Nat) (s : State) : Host.Outcome State Fault Refusal :=
  match s.bindings.find? (fun b => b.entry == entry && (s.team? b.tid).isSome) with
  | some b => .next (s.windowBack b)
  | none => .next s

/-- PREF_FILL: the line arrives in the tier its scope names; a line whose key another team holds is left alone (R180), and so
is L1 where the course has a pending delta that the device may not merge for it (R227). -/
def execPrefFill (id : Nat) (s : State) : Host.Outcome State Fault Refusal :=
  match s.flight? id with
  | none => .next s
  | some f =>
    match f.op with
    | .pref sc acc =>
      let c := courseOf f.core
      let base := acc.pa / 128 * 128
      let t := s.dropFlight id
      if (match s.keyAt acc.pa with | some k => k.holder != f.tid | none => false) || s.place acc != .cached then .next t
      else if sc.atHome then .next (t.fillHome base 128)
      else
        let kept := (s.course c).deltas.any (fun e => e.1 / 128 == base / 128 && s.keepsDelta c e.1)
        let t := if kept then t.fillLine c acc.page base 128 else t.fillCourse c acc.page base 128
        .next (if sc = .team ∧ !kept then t.fillL1 f.tid base (readN (t.courseByte c) base 128) else t)
    | _ => .next s

/-! ### Keys and cache control (R220 to R224) -/

/-- KEYPASS_COMPLETE: the pass completes, if a recall has not completed it already, and the status is written. -/
def execKeypassComplete (id : Nat) (s : State) : Host.Outcome State Fault Refusal :=
  match s.flight? id with
  | none => .next s
  | some f =>
    let t := match f.op with
      | .keypass _ acc _ _ => (s.key? acc.va).elim s (fun k => s.completePass k)
      | _ => s
    match (t.flight? id).map Flight.op with
    | some (.result .pass sid ws acq) => .next (t.resultReturn f .pass sid ws acq 15)
    | _ => .next s

/-- KEYDROP_COMPLETE: a DIE-scope release; the key of the strand's own team goes FREE (R221). -/
def execKeydropComplete (id : Nat) (s : State) : Host.Outcome State Fault Refusal :=
  match s.flight? id with
  | none => .next s
  | some f =>
    match f.op with
    | .keydrop sid acc _ =>
      let c := courseOf f.core
      let done (s : State) : Host.Outcome State Fault Refusal := .next (((s.lowerAll .st [sid]).dropFlight id).settleFences)
      if s.keyBefore f acc.va || s.unaccepted f sid || s.signed c sid || (s.earlier f sid).any (fun g => g.op.acquires) then .next s
      else match s.key? acc.va with
        | none => done s
        | some k =>
          if k.holder ≠ f.tid then done s
          else if k.passing.isSome then .next s
          else done (((s.drainCourse c).beforeRelease c).recallKey k)
    | _ => .next s

/-- The word addresses a mask names in a line. -/
def maskWords (base : Nat) (mask : Word) : List Nat := ((List.range 32).filter (fun k => mask.getLsbD k)).map (fun k => base + 4 * k)

/-- CWB of one word: to the home, and with SYS to memory too. -/
def State.cwbWord (s : State) (c : Nat) (sys : Bool) (a : Nat) : State :=
  let s := ((s.drainRange c a 4).mergeRange c a 4 (keepKey := true)).writeBack c a 4
  if sys then { s.touchMem a 4 with mem := memPutL a (readN s.home a 4) s.mem } else s

/-- CINV of one word. -/
def State.cinvWord (s : State) (c tid : Nat) (course : Bool) (a : Nat) : State :=
  let s := s.clearL1 tid a 4
  if course then s.recallCourse c a 4 else s

/-- CDISC of one word: the machine, and whether it discarded the word. -/
def State.cdiscWord (s : State) (c tid : Nat) (a : Nat) : State × Bool :=
  let s := s.clearL1 tid a 4
  let x := s.course c
  let delta := x.deltas.any (fun e => overlaps a 4 e.1 (deltaBytes e))
  let dirty := (List.range 4).any (fun i => (cellGet x.dirty (a + i)).isSome) && s.ownKey tid a
  let s := s.dropDeltas c a 4
  let s := if dirty then s.modCourse c (fun x => { x with dirty := cellEraseN a 4 x.dirty }) else s.writeBack c a 4
  (s.modCourse c (fun x => { x with clean := eraseWords a 4 x.clean }), delta || dirty)

/-- Whether an earlier cache operation of the strand, or of a lower lane of the same word, on the same line is still to be
performed (R224). -/
def State.cacheBefore (s : State) (f : Flight) (pa : Nat) : Bool :=
  s.flights.any (fun g => g.before f && (match g.op with
    | .cacheOp _ a _ _ _ _ => a.pa / 128 == pa / 128
    | _ => false))

/-- CACHE_OP_PERFORM (R223, R224). -/
def execCacheOpPerform (id : Nat) (s : State) : Host.Outcome State Fault Refusal :=
  match s.flight? id with
  | none => .next s
  | some f =>
    match f.op with
    | .cacheOp sid acc what sc mask _ =>
      let c := courseOf f.core
      let base := acc.pa / 128 * 128
      if s.cacheBefore f acc.pa || s.waits f sid base 128 then .next s
      else
        let ws := if 2 ≤ acc.page.home then [] else maskWords base mask
        let s := if what = 0 then ws.foldl (fun s a => s.cwbWord c (sc == .sys) a) s
          else if what = 1 then ws.foldl (fun s a => s.cinvWord c f.tid (sc == .course) a) s
          else
            let r := ws.foldl (fun (r : State × Bool) a => let e := r.1.cdiscWord c f.tid a; (e.1, r.2 || e.2)) (s, false)
            if r.2 then r.1.count c 1 1 else r.1
        .next (((s.lowerAll .st [sid]).dropFlight id).settleFences)
    | _ => .next s

/-! ### The gang barrier (R203 to R205) -/

/-- Live strands of a gang. -/
def State.gangStrands (s : State) (seq gang : Nat) : List Strand :=
  s.strands.filter (fun x => x.state != .ended && (s.team? x.tid).elim false (fun t =>
    t.kind == .gang && t.seq == seq && t.gangId == gang))

/-- Whether a strand has arrived at SYNCG. -/
def Strand.atBarrier (x : Strand) : Bool := match x.state with | .barrier _ => true | _ => false

/-- Whether what the arrivals issued before is done, but for what a drain of their courses performs (R205). -/
def State.barrierReady (s : State) (seq gang : Nat) : Bool :=
  let xs := s.gangStrands seq gang
  let teams := s.teams.filter (fun t => t.kind == .gang && t.seq == seq && t.gangId == gang)
  let mine (tid : Nat) : Bool := teams.any (fun t => t.tid == tid)
  !xs.isEmpty && decide ((xs.length : Int) ≤ (xs.countP Strand.atBarrier : Nat) + (teams.map (·.extra)).sum) &&
  !s.flights.any (fun f => xs.any (fun x => f.op.strands.contains x.sid) && (match f.op with
    | .publish _ _ _ _ => true
    | .binding _ _ _ _ => true
    | .trigger _ _ _ _ _ => true
    | .keypass _ _ _ _ => true
    | op => op.writes && f.acc.isNone)) &&
  !s.courses.any (fun c => c.rounds.any (fun r => mine r.tid)) &&
  teams.all (fun t => (List.range 16).all (fun k =>
    match t.keyrings[k]? with
    | some kr => !kr.slots.any (fun g => g.mma.isSome && xs.any (fun x => x.sid == g.sid))
    | none => true)) &&
  s.rings.all (fun r => !mine r.tid || r.done == r.target)

/-- SYNCG_COMPLETE. -/
def execSyncgComplete (seq gang : Nat) (s : State) : Host.Outcome State Fault Refusal :=
  if s.barrierReady seq gang then
    let xs := s.gangStrands seq gang
    let tids := (s.teams.filter (fun t => t.kind == .gang && t.seq == seq && t.gangId == gang)).map (·.tid)
    let cs := (tids.map s.teamCourse).eraseDups
    let s := cs.foldl (fun s c => (s.drainCourse c).releaseDie c) s
    let s := tids.foldl (fun s t => s.emptyL1 t) s
    let s := tids.foldl (fun s t => s.modTeam t (fun t => { t with extra := 0 })) s
    .next ((xs.filter Strand.atBarrier).foldl (fun s x => s.modStrand x.sid (fun y => y.wake s (s.coreOf y.tid))) s)
  else .next s

/-! ### Monitors (R102, R103) -/

/-- End a MONITOR wait: READY at the following clause. -/
def State.endMonitor (s : State) (sid : Nat) : State := s.modStrand sid (fun x => x.wake s (s.coreOf x.tid))

/-- Every armed MONITOR wait whose span has been written, or whose count has run out, ends (R103). -/
def State.endMonitors (s : State) : State :=
  { s with strands := s.strands.map (fun x =>
      match x.state with
      | .monitor m => if m.armed && (m.written || decide (m.remaining ≤ s.now - m.since)) then x.wake s (s.coreOf x.tid) else x
      | _ => x) }

/-- MONITOR_READ_RETURN: the read and the arming act as one at the span's home. -/
def execMonitorReadReturn (id : Nat) (s : State) : Host.Outcome State Fault Refusal :=
  match s.flight? id with
  | none => .next s
  | some f =>
    match f.op with
    | .monitorRead sid =>
      match (s.strand? sid).map Strand.state with
      | some (.monitor m) =>
        if s.waits f sid m.acc.pa m.width.bytes then .next s
        else
          let r := s.readScope (courseOf f.core) f.tid sid m.scope m.acc m.width.bytes false
          let s := (r.1.dropFlight id).settleFences
          if leNat r.2 = m.cmp.toNat then
            .next (s.modStrand sid (fun x => { x with state := .monitor { m with armed := true, since := s.now, written := false } }))
          else .next (s.endMonitor sid)
      | _ => .next (s.dropFlight id)
    | _ => .next s

/-- MONITOR_WRITE_WAKE. -/
def execMonitorWriteWake (sid : Nat) (s : State) : Host.Outcome State Fault Refusal :=
  match (s.strand? sid).map Strand.state with
  | some (.monitor m) => .next (if m.armed && m.written then s.endMonitor sid else s)
  | _ => .next s

/-- MONITOR_TIMEOUT: `remaining` has been lowered once each cycle since the arming. -/
def execMonitorTimeout (sid : Nat) (s : State) : Host.Outcome State Fault Refusal :=
  match (s.strand? sid).map Strand.state with
  | some (.monitor m) => .next (if m.armed && decide (m.remaining ≤ s.now - m.since) then s.endMonitor sid else s)
  | _ => .next s

/-- MONITOR_OTHER_WAKE: any other cause, at the device's discretion. -/
def execMonitorOtherWake (sid : Nat) (s : State) : Host.Outcome State Fault Refusal :=
  match (s.strand? sid).map Strand.state with
  | some (.monitor m) => .next (if m.armed then s.endMonitor sid else s)
  | _ => .next s

end Sys2Proof.Machine
end

