-- ==== Sys2Proof/Machine/Copy.lean ====
section
/-! DEFINITION. Copy rings, their entries and stamps (R329 to R342), the scratchpad mapping table (R353, R354) and page
walks (R351). -/

namespace Sys2Proof.Machine

/-! ### The ring header (Table 16.1) -/

def State.ring? (s : State) (tid base : Nat) : Option Ring := s.rings.find? (fun r => r.tid == tid && r.base == base)

/-- The parameters of a header as it stands: RLOG2 first (R329). -/
def ringPar (m : Bytes) (base : Nat) : RingPar :=
  let lo := memGetN m (base + 8) 4
  ⟨lo % 16, memGetN m (base + 12) 4, memGetN m (base + 16) 4, lo / 16 % 2⟩

/-- The engine's half of the notify word. -/
def Ring.notify (r : Ring) : Nat := (if r.full then 2 ^ 31 else 0) + (if r.ovr then 2 ^ 30 else 0) + r.errCode % 16 * 2 ^ 20

/-- Write a 4-byte engine field when its value has changed. -/
def State.putField (s : State) (tid a old new : Nat) : State := if old = new then s else s.scratchPut tid a (leBytes 4 new)

/-- Replace a ring, writing the engine fields whose values change (R329). -/
def State.putRing (s : State) (old new : Ring) : State :=
  let s : State := { s with rings := s.rings.map (fun r => if r.tid = new.tid ∧ r.base = new.base then new else r) }
  let s := s.putField new.tid (new.base + 4) old.notify new.notify
  let s := s.putField new.tid (new.base + 20) old.cons.toNat new.cons.toNat
  let s := s.putField new.tid (new.base + 24) old.done.toNat new.done.toNat
  s.putField new.tid (new.base + 28) old.errSeq.toNat new.errSeq.toNat

/-- Lower the CPs of publications that CONS has reached, or that a lower target has left behind (R330). -/
def State.settlePubs (s : State) (r : Ring) : State :=
  let done (p : Nat × Word) : Bool := p.2 == r.cons || r.cons == r.target
  let s := (r.pubs.filter done).foldl (fun s p => s.modStrand p.1 (Strand.lower s.now .cp)) s
  { s with rings := s.rings.map (fun q => if q.tid = r.tid ∧ q.base = r.base then
      { q with pubs := q.pubs.filter (fun p => !done p) } else q) }

/-- The parameters in force after a publication up to P: what lay beyond P is withdrawn. -/
def Ring.coverTo (r : Ring) (p : Word) (par : RingPar) : List (Word × RingPar) :=
  let cut := r.pars.map (fun e => if (p - r.cons).toNat < (e.1 - r.cons).toNat then (p, e.2) else e)
  let kept := cut.filter (fun e => e.1 != r.cons)
  if kept.any (fun e => e.1 == p) || p == r.cons then kept else kept ++ [(p, par)]

/-- A ring whose engine has served nothing yet. -/
def Ring.fresh (tid base : Nat) : Ring := ⟨tid, base, 0, 0, 0, false, 0, 0, 0, [], [], [], 0⟩

/-- Judge a publication of the count P, by a strand whose CP waits for it, if any (R330). -/
def State.publish (s : State) (tid base : Nat) (sid : Option Nat) (p : Word) : State :=
  match s.team? tid with
  | none => s
  | some t =>
    let s : State := if (s.ring? tid base).isSome then s else { s with rings := s.rings ++ [Ring.fresh tid base] }
    match s.ring? tid base with
    | none => s
    | some r =>
      let par := ringPar t.scratch base
      let refuse (r' : Ring) : State :=
        let s := s.putRing r { r' with ovr := true, rlog2 := par.rlog2 }
        let s := match sid with
          | some x => s.modStrand x (Strand.lower s.now .cp)
          | none => s
        s.count (courseOf t.core) 7 1
      if 11 < par.rlog2 then refuse { r with errCode := 5 }
      else if 2 ^ par.rlog2 < (p - r.cons).toNat then refuse r
      else
        let r' := { r with target := p, ovr := false, rlog2 := par.rlog2, pars := r.coverTo p par,
                           pubs := r.pubs ++ (sid.map (fun x => (x, p))).toList }
        (s.putRing r r').settlePubs r'

/-- RING_PUBLICATION: the store reaches the ring header; if its window has been unbound it is an ordinary write. -/
def execRingPublication (id : Nat) (s : State) : Host.Outcome State Fault Refusal :=
  match s.flight? id with
  | none => .next s
  | some f =>
    match f.op with
    | .publish sid acc v sc =>
      if f.acc.isNone || s.unacted f sid then .next s
      else
        let c := courseOf f.core
        let s := s.drainCourse c
        let s := if sc.atHome then s.beforeRelease c sc else s
        let t := s.dropFlight id
        match s.ringHeader f.tid acc with
        | some base => .next ((t.scratchPut f.tid base (leBytes 4 v.toNat)).publish f.tid base (some sid) v).settleFences
        | none =>
          .next ((t.performStore f.core f.tid acc (bytesAt acc.pa (leBytes 4 v.toNat)) sc .rel true).modStrand sid
            (Strand.lower s.now .cp)).settleFences
    | _ => .next s

/-! ### Entries (Table 16.2) -/

structure Entry where
  kind : Nat
  ssp : Nat
  dsp : Nat
  stamp : Nat
  dir : Bool
  esz : Nat
  latch : Nat
  x : Nat
  y : Nat
  z : Nat
  sz : Nat
  sy : Nat
  dst : Nat
  src : Nat
  deriving DecidableEq, Repr

def Entry.ofBits (b : BitVec 256) : Entry :=
  let v := b.toNat
  { kind := v / 2 ^ 252 % 16, ssp := v / 2 ^ 250 % 4, dsp := v / 2 ^ 248 % 4, stamp := v / 2 ^ 246 % 4,
    dir := v.testBit 245, esz := v / 2 ^ 243 % 4, latch := v / 2 ^ 232 % 256, x := v / 2 ^ 208 % 2 ^ 24,
    y := v / 2 ^ 196 % 2 ^ 12 + 1, z := v / 2 ^ 184 % 2 ^ 12 + 1, sz := v / 2 ^ 160 % 2 ^ 24, sy := v / 2 ^ 128 % 2 ^ 32,
    dst := v / 2 ^ 64 % 2 ^ 64, src := v % 2 ^ 64 }

/-- Elements of a COMPRESS block are nibbles, bytes or pairs of bytes; the bytes of a block of 16. -/
def Entry.block (e : Entry) : Nat := if e.esz = 0 then 16 else if e.esz = 1 then 32 else 8

/-- Payload bytes written, masks included (R338). -/
def Entry.bytes (e : Entry) : Nat :=
  match e.kind with
  | 0 => e.x
  | 1 => e.x * e.y * e.z
  | 4 => e.x / 2 + 2 * (e.x / e.block)
  | _ => e.x * e.y

/-- Bytes at the packed destination. -/
def Entry.packed (e : Entry) : Nat := if e.kind = 4 then e.x / 2 else e.bytes

/-- Whether an entry is malformed, but for its tensor map (R332, R334, R336 to R338). -/
def Entry.malformed (e : Entry) (latches : Nat) : Bool :=
  decide (4 < e.kind) || decide (1 < e.ssp) || e.stamp == 3 || e.x == 0 ||
  (e.latch != 0xFF && (decide (31 < e.latch) || decide (latches ≤ e.latch))) ||
  (e.kind == 1 && decide (2 ^ 24 < e.x * e.y * e.z)) || ((e.kind == 2 || e.kind == 3) && decide (2 ^ 24 < e.x * e.y)) ||
  (e.stamp == 1 && (e.dsp == 2 || (e.kind == 1 && e.dir))) ||
  (e.kind == 2 && (e.z != 1 || decide (e.src % 64 ≠ 0))) || (e.kind == 3 && (decide (128 < e.x) || e.ssp != 0)) ||
  (e.kind == 4 && (e.esz == 3 || decide (e.x % e.block ≠ 0) || decide (e.sy % 2 ≠ 0)))

/-! ### Reading a source (R333) -/

/-- n source bytes of a space, or the STATUS of the first that fails. -/
def State.copyRead (s : State) (tid bound ssp : Nat) (bad : List Nat) (a n : Nat) : State × Except Nat (List Byte) :=
  let c := s.teamCourse tid
  if ssp = 1 then
    let a := a % 2 ^ 32
    if bound < a + n then (s, .error 3) else (s, .ok (readN (s.scratchGet tid) a n))
  else
    (List.range n).foldl (fun (r : State × Except Nat (List Byte)) i =>
      match r.2 with
      | .error e => (r.1, .error e)
      | .ok bs =>
        match r.1.check c (BitVec.ofNat 64 (a + i)) 1 accRead (·.read) with
        | .error _ => (r.1, .error 1)
        | .ok acc =>
          if bad.contains (acc.pa / 4 * 4) then (r.1, .error 7)
          else
            let s := match r.1.place acc with
              | .cached => r.1.serveCourse c acc.pa 1
              | _ => r.1
            let q := s.readAt c tid .course acc 1
            (q.1, .ok (bs ++ q.2))) (s, .ok [])

/-! ### Tensor maps (R335, R336) -/

structure TMap where
  base : Nat
  sn : Nat
  sh : Nat
  sw : Nat
  c : Nat
  w : Nat
  h : Nat
  n : Nat
  r : Nat
  s : Nat
  u : Nat
  v : Nat
  du : Nat
  dv : Nat
  pt : Nat
  pb : Nat
  pl : Nat
  pr : Nat
  esz : Nat
  deriving DecidableEq, Repr

def TMap.ofBits (b : BitVec 512) : TMap :=
  let f (lo n : Nat) : Nat := b.toNat / 2 ^ lo % 2 ^ n
  { base := f 0 64, sn := f 64 32, sh := f 96 32, sw := f 128 32, c := f 160 16, w := f 176 16, h := f 192 16, n := f 208 16,
    r := f 224 4 + 1, s := f 228 4 + 1, u := f 232 4 + 1, v := f 236 4 + 1, du := f 240 4 + 1, dv := f 244 4 + 1,
    pt := f 248 4, pb := f 252 4, pl := f 256 4, pr := f 260 4, esz := f 264 2 }

/-- OH and OW. -/
def TMap.oh (m : TMap) : Int := ((m.h + m.pt + m.pb : Int) - m.du * (m.r - 1) - 1) / m.u + 1
def TMap.ow (m : TMap) : Int := ((m.w + m.pl + m.pr : Int) - m.dv * (m.s - 1) - 1) / m.v + 1

/-- First channel and channel count. -/
def TMap.chan (m : TMap) (e : Entry) : Nat × Int :=
  (e.sy % 2 ^ 16, if e.sy / 2 ^ 16 = 0 then (m.c : Int) - (e.sy % 2 ^ 16 : Nat) else e.sy / 2 ^ 16)

/-- Whether the map or its use is malformed. -/
def TMap.malformed (m : TMap) (e : Entry) : Bool :=
  let cc := (m.chan e).2
  decide (cc < 1) || decide (m.oh < 1) || decide (m.ow < 1) || m.esz == 3 || m.n == 0 || m.h == 0 || m.w == 0 || m.c == 0 ||
    decide ((e.x : Int) < m.r * m.s * cc * (2 ^ m.esz : Nat))

/-- The address of an element, if it lies inside the tensor. -/
def TMap.elem (m : TMap) (n : Nat) (h w : Int) (c : Nat) : Option Nat :=
  if 0 ≤ h ∧ h < m.h ∧ 0 ≤ w ∧ w < m.w ∧ c < m.c then
    some (m.base + n * m.sn + h.toNat * m.sh + w.toNat * m.sw + c * 2 ^ m.esz)
  else none

/-- Where each byte of row r comes from: an address, or a zero. -/
def TMap.row (m : TMap) (e : Entry) (r : Nat) : List (Option Nat) :=
  let oh := m.oh.toNat
  let ow := m.ow.toNat
  let q := e.sz + r
  let c0 := (m.chan e).1
  let cc := (m.chan e).2.toNat
  let size := 2 ^ m.esz
  let data : List (Option Nat) :=
    if q < m.n * oh * ow then
      (List.range m.r).flatMap (fun (i : Nat) => (List.range m.s).flatMap (fun (j : Nat) => (List.range cc).flatMap (fun k =>
        let a := m.elem (q / (oh * ow)) ((q / ow % oh * m.u + i * m.du : Nat) - (m.pt : Int))
          ((q % ow * m.v + j * m.dv : Nat) - (m.pl : Int)) (c0 + k)
        (List.range size).map (fun b => a.map (· + b)))))
    else []
  (data ++ List.replicate e.x none).take e.x

/-! ### The payload (R334, R337) -/

/-- The address of byte i of a STRIDED side. -/
def Entry.strided (e : Entry) (base i : Nat) : Nat :=
  let b := i % e.x
  let r := i / e.x % e.y
  let p := i / e.x / e.y
  base + p * e.sz + r * e.sy + b

/-- A payload write: destination space (0 memory, 1 scratchpad, 2 operand buffer, 3 host region), address, byte. -/
abbrev PayByte := Nat × Nat × Byte

/-- The payload so far, and the STATUS it ended with, 0 while it goes on. -/
abbrev Payload := State × List PayByte × Nat

/-- Read a run of source bytes and give them destinations. -/
def payRun (tid bound : Nat) (b : Begun) (ssp dsp : Nat) (dst : Nat → Nat) (srcs : List Nat) (p : Payload) : Payload :=
  srcs.zipIdx.foldl (fun (p : Payload) e =>
    if p.2.2 ≠ 0 then p
    else
      let r := p.1.copyRead tid bound ssp b.bad e.1 1
      match r.2 with
      | .error st => (r.1, p.2.1, st)
      | .ok bs => (r.1, p.2.1 ++ [(dsp, dst e.2, bs.headD 0)], 0)) p

/-- The elements of a block, as numbers. -/
def blockElems (esz : Nat) (bs : List Byte) : List Nat :=
  let v := leNat bs
  (List.range 16).map (fun i => if esz = 0 then v / 2 ^ (8 * i) % 2 ^ 8 else if esz = 1 then v / 2 ^ (16 * i) % 2 ^ 16
    else v / 2 ^ (4 * i) % 2 ^ 4)

/-- Element bits of a COMPRESS. -/
def elemBits (esz : Nat) : Nat := if esz = 0 then 8 else if esz = 1 then 16 else 4

/-- Whether COMPRESS takes an element for nonzero: a floating zero has any sign (R116; DESIGN CHOICE, log 22). -/
def elemKept (esz v : Nat) : Bool :=
  match Config.elemKind esz with
  | 0 => v != 0
  | 1 => v % 2 ^ (elemBits esz - 1) != 0
  | 2 => if esz = 0 then v % 32 != 0 else v % 2 ^ (elemBits esz - 1) != 0

/-- A block's stored bytes, its mask, and whether it dropped an element. -/
def compressBlock (esz : Nat) (bs : List Byte) : List Byte × Nat × Bool :=
  let xs := (blockElems esz bs).zipIdx.filter (fun e => elemKept esz e.1)
  let k := xs.take 8
  let v := (k.zipIdx.map (fun e => e.1.1 * 2 ^ (elemBits esz * e.2))).sum
  (leBytes (elemBits esz) v, (k.map (fun e => 2 ^ e.2)).sum, decide (8 < xs.length))

/-- The payload of an entry, up to its first error. -/
def State.payload (s : State) (tid bound : Nat) (b : Begun) (e : Entry) (m : Option TMap) : Payload :=
  match e.kind with
  | 0 => payRun tid bound b e.ssp e.dsp (fun i => e.dst + i) ((List.range e.x).map (fun i => e.src + i)) (s, [], 0)
  | 1 =>
    let n := e.x * e.y * e.z
    if e.dir then payRun tid bound b e.ssp e.dsp (fun i => e.strided e.dst i) ((List.range n).map (fun i => e.src + i)) (s, [], 0)
    else payRun tid bound b e.ssp e.dsp (fun i => e.dst + i) ((List.range n).map (fun i => e.strided e.src i)) (s, [], 0)
  | 2 =>
    match m with
    | none => (s, [], 5)
    | some m =>
      ((List.range e.y).flatMap (fun r => m.row e r)).zipIdx.foldl (fun (p : Payload) a =>
        match a.1 with
        | none => if p.2.2 ≠ 0 then p else (p.1, p.2.1 ++ [(e.dsp, e.dst + a.2, 0)], 0)
        | some x => payRun tid bound b 0 e.dsp (fun _ => e.dst + a.2) [x] p) (s, [], 0)
  | 3 =>
    (List.range e.y).foldl (fun (p : Payload) r =>
      if p.2.2 ≠ 0 then p
      else
        let q := p.1.copyRead tid bound 1 b.bad (e.sy + 4 * r) 4
        match q.2 with
        | .error st => (q.1, p.2.1, st)
        | .ok bs =>
          payRun tid bound b 0 e.dsp (fun i => e.dst + r * e.x + i) ((List.range e.x).map (fun i => e.src + 128 * leNat bs + i))
            (q.1, p.2.1, 0)) (s, [], 0)
  | _ =>
    let r := (List.range (e.x / e.block)).foldl (fun (p : Payload × Bool) n =>
      if p.1.2.2 ≠ 0 then p
      else
        let q := p.1.1.copyRead tid bound e.ssp b.bad (e.src + n * e.block) e.block
        match q.2 with
        | .error st => ((q.1, p.1.2.1, st), p.2)
        | .ok bs =>
          let w := compressBlock e.esz bs
          let half := e.block / 2
          ((q.1, p.1.2.1 ++ (w.1.zipIdx.map (fun (x : Byte × Nat) => (e.dsp, e.dst + n * half + x.2, x.1))) ++
            ((leBytes 2 w.2.1).zipIdx.map (fun (x : Byte × Nat) => (1, e.sy + 2 * n + x.2, x.1))), 0), p.2 || w.2.2)) ((s, [], 0), false)
    if r.1.2.2 = 0 ∧ r.2 then (r.1.1, r.1.2.1, 8) else r.1

/-! ### Writing a destination (R333) -/

/-- A host region an entry names, if its bytes up to `last` lie inside (R390). -/
def State.hostRegion (s : State) (dst last : Nat) : Option Region :=
  s.regions.find? (fun r => r.index == dst / 2 ^ 48 % 256 && decide (last ≤ r.len.toNat))

/-- Write one payload byte of memory or scratchpad, or the STATUS that stops it. -/
def State.copyPut (s : State) (tid bound : Nat) (w : PayByte) : Except Nat State :=
  match w.1 with
  | 0 =>
    let c := s.teamCourse tid
    match s.check c (BitVec.ofNat 64 w.2.1) 1 accWrite (·.write) with
    | .error _ => .error 2
    | .ok acc => .ok (s.dieWrite c acc [w.2.2])
  | 1 => if bound ≤ w.2.1 % 2 ^ 32 then .error 3 else .ok (s.scratchPut tid (w.2.1 % 2 ^ 32) [w.2.2])
  | 2 =>
    .ok (s.modCourse (s.teamCourse tid) (fun x => { x with obs := modAt (memPut (w.2.1 % 2 ^ 14) w.2.2) (w.2.1 / 2 ^ 14 % 4) x.obs }))
  | _ => .ok s

/-- Write payload bytes in order up to the first that fails: the machine, how many were written, the STATUS. -/
def copyPuts (tid bound : Nat) : List PayByte → State × Nat × Nat → State × Nat × Nat
  | [], r => r
  | w :: ws, r =>
    match r.1.copyPut tid bound w with
    | .error st => (r.1, r.2.1, st)
    | .ok s => copyPuts tid bound ws (s, r.2.1 + 1, 0)

/-- RDMA WRITEs of consecutive host bytes. -/
def hostRuns : List (Nat × Byte) → List (Nat × List Byte)
  | [] => []
  | (a, v) :: r =>
    match hostRuns r with
    | (b, vs) :: rest => if a + 1 = b then (a, v :: vs) :: rest else (a, [v]) :: (b, vs) :: rest
    | [] => [(a, [v])]

/-- What a destination refuses before any byte is written: an operand buffer outside the claim, a host region (R333, R390). -/
def State.copyDst (s : State) (tid : Nat) (e : Entry) : Nat :=
  if e.dsp = 2 then
    let ob := e.dst / 2 ^ 14 % 4
    let off := e.dst % 2 ^ 14
    let top := if e.kind = 1 ∧ e.dir then off + (e.z - 1) * e.sz + (e.y - 1) * e.sy + e.x else off + e.packed
    if off % 16 ≠ 0 ∨ e.packed % 16 ≠ 0 ∨ 16384 < top ∨ (s.course (s.teamCourse tid)).obClaim[ob]? ≠ some (some (s.seqOf tid))
    then 4 else 0
  else if e.dsp = 3 then
    let off := e.dst % 2 ^ 48
    let top := if e.kind = 1 ∧ e.dir then off + (e.z - 1) * e.sz + (e.y - 1) * e.sy + e.x else off + e.packed
    match s.hostRegion e.dst top with
    | none => 2
    | some r => if s.qpReady r.qpn then 0 else 6
  else 0

/-- Move an entry's payload: the machine, payload bytes written, the STATUS. What the destination refuses as a whole comes before any
source byte is read (DESIGN CHOICE, log 65); a payload that the host refuses is not written in full. -/
def State.copyMove (s : State) (tid bound : Nat) (b : Begun) (e : Entry) (m : Option TMap) : State × Nat × Nat :=
  let d := s.copyDst tid e
  if d ≠ 0 then (s, 0, d)
  else
    let p := s.payload tid bound b e m
    let r := copyPuts tid bound p.2.1 (p.1, 0, 0)
    let out := p.2.1.filter (fun w => w.1 == 3)
    let s := match s.hostRegion e.dst 0 with
      | some g => (hostRuns (out.map (fun w => (w.2.1 % 2 ^ 48, w.2.2)))).foldl (fun s h =>
          s.say (.write g.qpn (g.remote + BitVec.ofNat 64 h.1) g.rkey h.2)) r.1
      | none => r.1
    (s, r.2.1, if r.2.2 ≠ 0 then r.2.2 else if (p.2.2 = 0 ∨ p.2.2 = 8) ∧ e.dsp = 3 ∧ b.refused = 1 then 6 else p.2.2)

/-! ### Stamps (R338) -/

/-- The stamp's bytes. -/
def stampBytes (k st : Nat) : List Byte := leBytes 8 ((k + 1) % 2 ^ 32 + st * 2 ^ 32)

/-- Write a scratchpad stamp, or STATUS 3. -/
def State.stampScratch (s : State) (tid bound a k st : Nat) : State × Nat :=
  if bound < a + 8 then (s, 3) else (s.scratchPut tid a (stampBytes k st), 0)

/-- Write an entry's stamp: the machine, and the STATUS of a stamp that cannot be written. -/
def State.stamp (s : State) (tid bound k st : Nat) (par : RingPar) (e : Entry) (bad refused : Bool) : State × Nat :=
  if e.stamp = 2 then s.stampScratch tid bound (par.sbase + 8 * (k % 2 ^ par.rlog2)) k st
  else if e.stamp = 1 ∧ !bad then
    let a := (e.dst + e.packed + 7) / 8 * 8
    let c := s.teamCourse tid
    if e.dsp = 0 then
      match s.check c (BitVec.ofNat 64 a) 8 accWrite (·.write) with
      | .error _ => (s, 2)
      | .ok acc => (((s.drainCourse c).beforeRelease c).dieWrite c acc (stampBytes k st), 0)
    else if e.dsp = 1 then s.stampScratch tid bound ((e.dst % 2 ^ 32 + e.packed + 7) / 8 * 8) k st
    else
      let off := (e.dst % 2 ^ 48 + e.packed + 7) / 8 * 8
      match s.hostRegion e.dst (off + 8) with
      | none => (s, 2)
      | some g =>
        if s.qpReady g.qpn then
          (s.say (.write g.qpn (g.remote + BitVec.ofNat 64 off) g.rkey (stampBytes k st)), if refused then 6 else 0)
        else (s, 6)
  else (s, 0)

/-! ### Engine events (R330, R336, R338, R339) -/

/-- The parameters that cover the next entry. -/
def Ring.covering (r : Ring) : RingPar := ((r.pars.find? (fun e => e.1 != r.cons)).map (·.2)).getD default

/-- Whether a ring's next entry can begin: one is published, and its team is neither being saved nor discarded, nor about to get
new sizes. -/
def State.canBegin (s : State) (r : Ring) : Bool :=
  (s.team? r.tid).elim false (fun t => r.cons != r.target && !t.saving && t.carve.isNone &&
    !(match (s.launch? t.seq).map Launch.state with | some (.dying _) => true | _ => false))

/-- Whether another ring of an engine has its turn before a ring: the engine begins entries round-robin (R339), the next of the ring
that it has served least lately (DESIGN CHOICE, log 66). -/
def State.beginsFirst (s : State) (r : Ring) : Bool :=
  s.rings.any (fun q => decide (s.teamCourse q.tid = s.teamCourse r.tid) && decide (q.covering.eng = r.covering.eng) &&
    decide (q.served < r.served) && s.canBegin q)

/-- COPY_ENTRY_BEGIN: the entry at CONS is read, and its tensor map; CONS advances. -/
def execCopyEntryBegin (team ring : Nat) (s : State) : Host.Outcome State Fault Refusal :=
  match s.ring? team ring, s.team? team with
  | some r, some t =>
    if !s.canBegin r || s.beginsFirst r then .next s
    else
      let par := r.covering
      let a := par.rbase + 32 * (r.cons.toNat % 2 ^ par.rlog2)
      let bound := s.scratchSize team
      let bits : Option (BitVec 256) :=
        if bound < a + 32 then none else some (BitVec.ofNat 256 (leNat (readN (s.scratchGet team) a 32)))
      let q : State × Option (Nat × BitVec 512) :=
        match bits.map Entry.ofBits with
        | some e =>
          if e.kind = 2 ∧ !e.malformed t.kernel.latches then
            let m := s.copyRead team bound e.ssp [] e.src 64
            match m.2 with
            | .ok bs => (m.1, some (0, BitVec.ofNat 512 (leNat bs)))
            | .error st => (m.1, some (st, 0))
          else (s, none)
        | none => (s, none)
      let cons := r.cons + 1
      let r' := { r with cons := cons, pars := r.pars.filter (fun e => e.1 != cons),
                         begun := r.begun ++ [⟨r.cons.toNat, par, bits, 0, q.2, []⟩], served := s.nextId }
      .next ((({ q.1 with nextId := q.1.nextId + 1 } : State).putRing r r').settlePubs r')
  | _, _ => .next s

/-- COPY_ENTRY_COMPLETE: the payload of the ring's oldest begun entry is done; credit, stamp, DONE. -/
def execCopyEntryComplete (team ring : Nat) (s : State) : Host.Outcome State Fault Refusal :=
  match s.ring? team ring, s.team? team with
  | some r, some t =>
    match r.begun with
    | [] => .next s
    | b :: rest =>
      let finish (s : State) (st : Nat) : State :=
        match s.ring? team ring with
        | none => s
        | some r =>
          (s.putRing r { r with begun := rest, done := r.done + 1,
                                errSeq := if st = 0 then r.errSeq else BitVec.ofNat 32 (b.k + 1),
                                errCode := if st = 0 then r.errCode else st % 16 }).settleCarves team
      match b.entry with
      | none => .next (finish s 3)
      | some bits =>
        let e := Entry.ofBits bits
        let bound := s.scratchSize team
        let m := (b.map.map (fun x => TMap.ofBits x.2))
        let mapErr := (b.map.map (·.1)).getD 0
        if e.malformed t.kernel.latches || (mapErr == 0 && m.elim false (fun m => m.malformed e)) then
          .next (finish (s.stamp team bound b.k 5 b.par e true false).1 5)
        else
          let mv : State × Nat × Nat := if mapErr ≠ 0 then (s, 0, mapErr) else s.copyMove team bound b e m
          let s := mv.1.count (courseOf t.core) 15 mv.2.1
          let s := if e.latch = 0xFF then s else s.creditLatch team e.latch e.bytes
          let q := s.stamp team bound b.k mv.2.2 b.par e false (b.refused == 2)
          .next (finish q.1 (if mv.2.2 = 0 then q.2 else mv.2.2))
  | _, _ => .next s

/-! ### Bindings (R354) -/

/-- Write bytes of a mapping entry as a DIE-scope release. -/
def State.putMapping (s : State) (entry off : Nat) (bs : List Byte) : State :=
  s.sysWrite (s.areas.sm + 16 * entry + off) bs

/-- Act on a binding store's word. A new window empties its team's L1, which may hold copies of the page's backing bytes that the
team's STS will not reach (R161, R173). -/
def State.bindWord (s : State) (t : Team) (e : Nat) (v : Word) : State :=
  let soff := (v.extractLsb' 8 7).toNat
  let len := (v.extractLsb' 4 4).toNat + 1
  let old := s.bindings.find? (fun b => b.entry == e)
  let status (s : State) (n : Nat) : State := s.putMapping e 5 [BitVec.ofNat 8 n]
  if v.getLsbD 0 then
    if old.elim false (fun b => b.tid != t.tid) then status s 2
    else if t.scu < soff + len then status s 1
    else if old.isNone && decide (16 ≤ (s.bindings.filter (fun b => b.tid == t.tid)).length) then status s 3
    else
      let s : State := { s with bindings := s.bindings.filter (fun b => b.entry != e) ++ [⟨e, t.tid, soff, len, v.getLsbD 1, false⟩] }
      (s.emptyL1 t.tid).putMapping e 5 [0, BitVec.ofNat 8 t.core]
  else if old.elim true (fun b => b.tid != t.tid) then status s 4
  else { s with bindings := s.bindings.map (fun b => if b.entry = e then { b with unbinding := true } else b) }

/-- BINDING_STORE: the store is performed as a release, then the device acts on it. -/
def execBindingStore (id : Nat) (s : State) : Host.Outcome State Fault Refusal :=
  match s.flight? id with
  | none => .next s
  | some f =>
    match f.op with
    | .binding sid acc v sc =>
      let e := (acc.pa - s.areas.sm) / 16
      if f.acc.isNone || s.unacted f sid || s.bindings.any (fun b => b.entry == e && b.unbinding) then .next s
      else
        let c := courseOf f.core
        let s := ((s.drainCourse c).beforeRelease c sc).dropFlight id
        let s := (s.sysPut acc (leBytes 4 v.toNat)).updateOwn c f.tid (bytesAt acc.pa (leBytes 4 v.toNat))
        match s.team? f.tid with
        | some t => .next (s.bindWord t e v).settleFences
        | none => .next s
    | _ => .next s

/-- WINDOW_UNBIND_COMPLETE: every entry published to the ring it exposes is DONE; the window goes back to its backing. -/
def execWindowUnbindComplete (entry : Nat) (s : State) : Host.Outcome State Fault Refusal :=
  match s.bindings.find? (fun b => b.entry == entry && b.unbinding) with
  | none => .next s
  | some b =>
    if (b.ring && (s.ring? b.tid (4096 * b.soff)).elim false (fun r => r.done != r.target)) || (s.team? b.tid).isNone then .next s
    else
      let s := s.windowBack b
      let s : State := { s with bindings := s.bindings.filter (fun x => x.entry != entry) }
      .next (s.putMapping entry 5 [0])

/-! ### Page walks (R350, R351) -/

/-- Which entries of a unit's TLB a new one competes with: a core's 64, or the 8 of its set of a course's or the port's. -/
def TlbEntry.rival (e f : TlbEntry) : Bool := e.unit == f.unit && (decide (64 ≤ f.unit) || e.vpage % 256 == f.vpage % 256)

/-- Drop the entry at a position that the device chooses among those that p names. -/
def State.dropOne {α : Type} (s : State) (p : α → Bool) (xs : List α) : State × List α :=
  match s.pick ((List.range xs.length).filter (fun k => (xs[k]?).elim false p)) with
  | some (k, s) => (s, xs.eraseIdx k)
  | none => (s, xs)

/-- Put a leaf result in a unit's TLB, unless it is there; a full TLB or set first loses an entry. -/
def State.tlbPut (s : State) (f : TlbEntry) : State :=
  if s.tlb.any (fun e => e.unit == f.unit && e.holds f.vpage) then s
  else
    let room := if 64 ≤ f.unit then 64 else 8
    let q : State × List TlbEntry :=
      if room ≤ (s.tlb.filter (fun e => e.rival f)).length then s.dropOne (fun e => e.rival f) s.tlb else (s, s.tlb)
    { q.1 with tlb := q.2 ++ [f] }

/-- Keep a non-leaf entry of a walk in the walk cache. -/
def State.walkPut (s : State) (w : WalkEntry) : State :=
  if s.walkCache.any (fun e => e.level == w.level && e.part == w.part) then s
  else
    let q : State × List WalkEntry := if 4096 ≤ s.walkCache.length then s.dropOne (fun _ => true) s.walkCache else (s, s.walkCache)
    { q.1 with walkCache := q.2 ++ [w] }

/-- The non-leaf entries that a walk with this result has read. -/
def State.walked (s : State) (va : DWord) (large : Bool) : List WalkEntry :=
  let v := va.toNat
  let e3 := s.walkEntry 3 (v / 2 ^ 44 % 4096) (s.troot + 8 * (v / 2 ^ 44 % 4096))
  let w3 : WalkEntry := ⟨3, v / 2 ^ 44 % 4096, e3⟩
  match s.nextTable e3 32768 with
  | .error _ => []
  | .ok t2 =>
    let e2 := s.walkEntry 2 (v / 2 ^ 32 % 2 ^ 24) (t2 + 8 * (v / 2 ^ 32 % 4096))
    let w2 : WalkEntry := ⟨2, v / 2 ^ 32 % 2 ^ 24, e2⟩
    match s.nextTable e2 16384 with
    | .error _ => [w3]
    | .ok t1 =>
      if large then [w3, w2]
      else [w3, w2, ⟨1, v / 2 ^ 21 % 2 ^ 35, s.walkEntry 1 (v / 2 ^ 21 % 2 ^ 35) (t1 + 8 * (v / 2 ^ 21 % 2048))⟩]

/-- Misses that have waited for room in the miss table enter it, in arrival order. -/
def State.settleMisses (s : State) : State :=
  s.missWait.foldl (fun s w =>
    if s.misses.any (fun m => m.vpage == w.2) then
      { s with misses := s.misses.map (fun m => if m.vpage = w.2 then { m with units := m.units ++ [w.1] } else m) }
    else if s.misses.length < 4096 then
      { s with misses := s.misses ++ [⟨w.2, [w.1], Found.of (s.walk (BitVec.ofNat 64 (65536 * w.2)))⟩] }
    else { s with missWait := s.missWait ++ [w] }) { s with missWait := [] }

/-- An access of a unit finds its page in no TLB: it joins the walk of the page, starts one, or waits while the miss table is
full (R351). -/
def State.pageMiss (s : State) (unit : Nat) (va : DWord) : State :=
  let v := va.toNat / 65536
  if canonical va && (s.tlbHit unit v).isNone && !s.misses.any (fun m => m.vpage == v && m.units.contains unit) then
    ({ s with missWait := s.missWait ++ [(unit, v)] } : State).settleMisses
  else s

/-- A core takes over an entry of its course's TLB. -/
def State.coreFill (s : State) (core : Nat) (va : DWord) : State :=
  match s.tlb.find? (fun e => e.unit == courseOf core && e.holds (va.toNat / 65536)) with
  | some e => s.tlbPut { e with unit := coreUnit core }
  | none => s

/-- PAGE_WALK_COMPLETE: a walk that a walker has taken up delivers its result to every request that joined it, and to the TLBs of
their courses; those for other parts of a 2 MiB page have joined it too. A failure, or a page whose address is reserved, is
cached nowhere. -/
def execPageWalkComplete (course : Nat) (va : DWord) (s : State) : Host.Outcome State Fault Refusal :=
  let v := va.toNat / 65536
  match (s.misses.take 64).find? (fun m => m.vpage == v && m.units.any (fun u => (unitsOf u).contains course)) with
  | none => .next s
  | some m =>
    match m.found.result with
    | .ok p =>
      let mine (x : Miss) : Bool := if p.large then x.vpage / 32 == v / 32 else x.vpage == v
      let units := ((s.misses.filter mine).flatMap (·.units)).flatMap unitsOf
      let t : State := { s with misses := s.misses.filter (fun x => !mine x) }
      if s.reserved (p.addr va) then .next t.settleMisses
      else .next (units.foldl (fun s u => s.tlbPut ⟨u, v, p⟩) ((s.walked va p.large).foldl (fun s w => s.walkPut w) t)).settleMisses
    | .error _ => .next ({ s with misses := s.misses.filter (fun x => x.vpage != m.vpage) } : State).settleMisses

end Sys2Proof.Machine
end

