-- ==== Sys2Proof/Machine/Faults.lean ====
section
/-! DEFINITION. Fault records and their answers (R375 to R378), machine checks and the loss of the pair link (R380, R394). -/

namespace Sys2Proof.Machine

/-! ### Posting (R375, R376) -/

/-- Whether a slot of the record ring is FREE. -/
def State.recordFree (s : State) (frid : Nat) : Bool :=
  !s.faults.any (fun r => match r.frid with | some k => k % 4096 == frid % 4096 | none => false)

/-- FAULT_RECORD_POST: the oldest cause that has no record gets the next number, once its slot is FREE. -/
def execFaultRecordPost (s : State) : Host.Outcome State Fault Refusal :=
  match s.faults.find? (fun r => r.frid.isNone) with
  | none => .next s
  | some r =>
    let k := s.frid + 1
    if s.recordFree k then
      .next (({ s with frid := k, faults := s.faults.map (fun e => if e.cause = r.cause then { e with frid := some k } else e) }
        : State).writeRecord r k)
    else .next s

/-! ### Answers (R377) -/

/-- Apply an answer to one held strand: RETRY reissues, SKIP goes on after the slots of the instruction it is held at, TRAP takes the
trap path; a fetch answered SKIP behaves as TRAP. -/
def State.answerStrand (s : State) (sid : Nat) (a : Fin 5) (kind : FKind) (acc : BitVec 3) (va : DWord) (frid : Nat) : State :=
  match s.strand? sid with
  | none => s
  | some x =>
    let core := s.coreOf x.tid
    if a = 2 then s.modStrand sid (fun y => y.wake s core)
    else if a = 3 ∧ kind ≠ .fetch then
      s.modStrand sid (fun y => y.leaveAt s core (y.pc + 8 * BitVec.ofNat 64 x.heldLen) (y.cls.map (·.after x.heldLen)) 0)
    else s.trap sid x.pc x.cls (.addr 6 acc va) (BitVec.ofNat 32 frid)

/-- Apply an answer to a ray held on a brick read: RETRY returns it to its bin, the others end it (R312, R377). -/
def State.answerRay (s : State) (cause : Nat) (a : Fin 5) : State :=
  let s := (List.range s.courses.length).foldl (fun s c =>
    (s.course c).recs.foldl (fun s r =>
      if r.state = .held cause then
        if a = 2 then s.modRec c r.seq r.idx (fun r => { r with state := .binned })
        else
          let s := s.modRec c r.seq r.idx (fun r => { r with state := .binned, err := 0xFF01 })
          s.finishRay c r.seq r.idx 0
      else s) s) s
  { s with launches := s.launches.map (fun l => { l with kept := l.kept.map (fun k =>
      if k.held = some cause then { k with held := none, answer := some a } else k) }) }

/-- Apply an answer to what a record holds, saved strands included, and free the record. -/
def State.answerRecord (s : State) (r : FRec) (frid : Nat) (a : Fin 5) : State :=
  let held := s.strands.filter (fun x => x.state == .faultHeld r.cause)
  let s := held.foldl (fun s x => s.answerStrand x.sid a r.kind r.acc x.heldVa frid) s
  let s : State := { s with saved := s.saved.map (fun v => { v with teams := v.teams.map (fun t => { t with
    strands := t.strands.map (fun y =>
      if y.held = some r.cause then { y with held := none, answer := some (a, r.kind, r.acc, y.heldVa, frid) } else y) }) }) }
  let s := (s.answerRay r.cause a).grants
  ({ s with faults := s.faults.filter (fun e => e.cause != r.cause) } : State).freeRecord r frid

/-- The posted record with a number whose answer is pending. -/
def State.answered (s : State) (frid : Nat) (a : Fin 5) : Option FRec :=
  s.faults.find? (fun r => r.frid == some frid && r.answer == some a)

def execFaultAnswerRetry (frid : Nat) (s : State) : Host.Outcome State Fault Refusal :=
  match s.answered frid 2 with
  | some r => .next (s.answerRecord r frid 2)
  | none => .next s

def execFaultAnswerSkip (frid : Nat) (s : State) : Host.Outcome State Fault Refusal :=
  match s.answered frid 3 with
  | some r => .next (s.answerRecord r frid 3)
  | none => .next s

def execFaultAnswerTrap (frid : Nat) (s : State) : Host.Outcome State Fault Refusal :=
  match s.answered frid 4 with
  | some r => .next (s.answerRecord r frid 4)
  | none => .next s

/-- FAULT_RECORD_FREE: a write of 0 to byte 0 of a notice frees it. -/
def execFaultRecordFree (frid : Nat) (s : State) : Host.Outcome State Fault Refusal :=
  match s.answered frid 0 with
  | some r => .next (({ s with faults := s.faults.filter (fun e => e.cause != r.cause) } : State).freeRecord r frid)
  | none => .next s

/-- FAULT_RECORD_RESTORE: the bytes of a record are written back as posted. -/
def execFaultRecordRestore (frid : Nat) (s : State) : Host.Outcome State Fault Refusal :=
  match s.faults.find? (fun r => r.frid == some frid && r.restore) with
  | some r =>
    .next (({ s with faults := s.faults.map (fun e => if e.cause = r.cause then { e with restore := false } else e) } : State).writeRecord
      r frid)
  | none => .next s

/-! ### Machine checks (R380) -/

/-- Whether a launch has work on the die. -/
def Launch.live (l : Launch) : Bool := l.state == .admitted || (match l.state with | .dying _ => true | _ => false)

/-- Post a machine check at a physical address and mark launches. The unit code is not stated (DESIGN CHOICE, log 6). -/
def State.machineCheck (s : State) (pa : Nat) (seq : Nat) (charged : Launch → Bool) : State :=
  let q := s.free
  let s := q.2.formFault .check 0 (BitVec.ofNat 64 pa) seq 0 0 0xFFFFFFFF#32 (DWord.lo q.1) 0
  { s with launches := s.launches.map (fun l => if charged l then { l with marked := true } else l) }

/-- A word met uncorrectable by a write-back or an eviction takes some value, in memory and with no copy left (DESIGN CHOICE,
log 6). -/
def State.scramble (s : State) (word : Nat) : State :=
  let q := s.free
  let t := q.2
  { t with mem := memPutL word (leBytes 4 q.1.toNat) t.mem, dieCache := cellEraseN word 4 t.dieCache,
           dieClean := cellEraseN word 4 t.dieClean,
           courses := t.courses.map (fun x => { x with clean := cellEraseN word 4 x.clean }) }

/-- The destination words of a lane's load that an uncorrectable word feeds take values the spec does not state, the free values
from n on (DESIGN CHOICE, log 6). -/
def LaneLoad.spoil (n word : Nat) (l : LaneLoad) : LaneLoad :=
  { l with came := l.came.map (fun ws => ws.zipIdx.map (fun e =>
      if overlaps word 4 (l.acc.pa + 4 * e.2) (min 4 l.width.bytes) then (e.1.1, (Config.freeWord (n + e.2)).lo) else e.1)) }

/-- The loads in flight of a launch read an uncorrectable word: each affected destination word takes some value. No other reader of
the word is touched (Table 19.5). -/
def State.spoilLoads (s : State) (seq word : Nat) : State :=
  s.flights.foldl (fun s f =>
    match f.op with
    | .load sids lanes sc o far buf kind =>
      let hit (l : LaneLoad) : Bool := lanes.any (fun k => k.sid == l.sid && k.came.isNone && overlaps word 4 k.acc.pa k.width.bytes)
      if f.seq = seq ∧ lanes.any hit then
        match s.loadReturn f sids lanes sc o far buf kind (word / 32) false 0 with
        | none => s
        | some t =>
          { t.modFlight f.id (fun g => { g with op := match g.op with
              | .load a ls b c d e k => .load a (ls.zipIdx.map (fun q =>
                  if hit q.1 then q.1.spoil (t.fresh + 4 * q.2) word else q.1)) b c d e k
              | op => op }) with fresh := t.fresh + 4 * lanes.length }
      else s
    | _ => s) s

/-- The unit whose uncorrectable count a word raises: the cache of a course that holds a clean copy, a half-stack or a channel
group; which of them it is the device knows (DESIGN CHOICE, log 6). -/
def State.badUnit (s : State) (word n : Nat) : Nat :=
  let us := ((List.range s.courses.length).filter (fun c => (cellGet (s.course c).clean word).isSome)) ++
    (List.range 12).map (32 + ·)
  us.getD (n % us.length) 32

/-- Bring the powered time and the histograms of the life record up to now; which bins the seconds fall in is not the model's
(DESIGN CHOICE, log 6). -/
def State.updateLife (s : State) : State :=
  let q := s.free
  let secs := (s.now - s.life.since) / 2700000000
  { q.2 with life := { s.life with
      powered := s.life.powered + secs, since := s.life.since + 2700000000 * secs,
      temp := bump32 secs (q.1.toNat % 16) s.life.temp, volt := bump32 secs (q.1.toNat / 16 % 16) s.life.volt } }

/-- The launch that an uncorrectable delta word is charged to: the owner of the bound tile slot that covers it (R228), else of
the line's last delta (Table 19.5). -/
def Course.deltaOwner (x : Course) (word : Nat) : Nat :=
  match x.tiles.find? (fun t => t.bound && decide (t.pa ≤ word) && decide (word < t.pa + 16384)) with
  | some t => t.claim.elim 0 (·.1)
  | none => ((x.deltas.filter (fun e => e.1 / 128 == word / 128)).getLast?.bind (·.2.2.2.2.getLast?)).getD 0

/-- An uncorrectable word of memory is met by the begun copy entries of a launch: in their source data, or in a tensor map that an
entry names by its address (SSP 0) as it was read (R340). -/
def State.spoilCopies (s : State) (seq word : Nat) : State :=
  let inMap (r : Ring) (b : Begun) : Bool := b.entry.elim false (fun e => let va := e.toNat % 2 ^ 64
    e.toNat / 2 ^ 250 % 4 == 0 && match s.translate (s.teamCourse r.tid) (BitVec.ofNat 64 va) with
    | .ok p => overlaps word 4 (p.addr (BitVec.ofNat 64 va)) 64
    | .error _ => false)
  { s with rings := s.rings.map (fun r =>
      if s.seqOf r.tid = seq then
        { r with begun := r.begun.map (fun b =>
            { b with bad := b.bad ++ [word], map := if inMap r b then b.map.map (fun _ => (7, 0)) else b.map }) }
      else r) }

/-- MACHINE_CHECK (Table 19.5); the life record is updated at once (R370). -/
def execMachineCheck (src : McSource) (s : State) : Host.Outcome State Fault Refusal :=
  match src with
  | .delta c word =>
    if (s.course c).deltas.any (fun e => overlaps e.1 (deltaBytes e) word 4) then
      let owner := (s.course c).deltaOwner word
      .next ((((s.dropDeltas c word 4).countBad c).machineCheck word owner (fun l => l.seq == owner)).updateLife)
    else .next s
  | .keyed c word =>
    match s.keyAt word with
    | some k =>
      if (s.course c).dirty.any (fun e => decide (word ≤ e.1) && decide (e.1 < word + 4)) && s.teamCourse k.holder == c then
        let owner := s.seqOf k.holder
        let s := (s.modCourse c (fun x => { x with dirty := cellEraseN word 4 x.dirty })).completePass k
        let s := s.writeBack c k.pa 4096
        let s : State := { s with keys := s.keys.filter (fun e => e.block != k.block) }
        .next ((s.countBad c).machineCheck word owner (fun l => l.seq == owner)).updateLife
      else .next s
    | none => .next s
  | .memory seq word =>
    let u := s.free
    let w := word / 4 * 4
    let s := u.2.countBad (s.badUnit w u.1.toNat)
    let s := if seq = 0 then s.scramble w else (s.spoilLoads seq w).spoilCopies seq w
    .next (s.machineCheck word seq (fun l => if seq = 0 then l.live else l.seq == seq)).updateLife

/-- Whether a flight has a PAIR or SYS access to the peer's memory in flight. -/
def State.toPeer (s : State) (f : Flight) : Bool :=
  let peer (a : Acc) (sc : Scope) : Bool := decide (a.pa / 2 ^ 51 ≠ s.dieId) && decide (sc = .pair ∨ sc = .sys) &&
    (match s.place a with | .scratch _ _ => false | _ => true)
  match f.op with
  | .load _ ls sc _ _ _ _ => ls.any (fun l => peer l.acc sc)
  | .store _ a _ sc _ _ => peer a sc
  | .red _ a _ _ _ sc _ _ => peer a sc
  | .atom _ a _ _ _ _ _ sc _ _ _ _ => peer a sc
  | .publish _ a _ sc => peer a sc
  | .binding _ a _ sc => peer a sc
  | .trigger _ _ a _ sc => peer a sc
  | .cacheOp _ a _ sc _ _ => peer a sc
  | .monitorRead sid =>
    match (s.strand? sid).map Strand.state with
    | some (.monitor m) => peer m.acc m.scope
    | _ => false
  | _ => false

/-- What becomes of an operation in flight to the peer: it is applied whole or lost, and what it would have returned takes some
value (R207). -/
def State.cutOff (s : State) (f : Flight) : State :=
  let q := s.free
  let s := q.2
  let lose (s : State) (sids : List Nat) : State :=
    let s := if f.acc.isNone then s.lowerAll .st sids else s
    if q.1.getLsbD 0 then s.performOne f else s.dropFlight f.id
  match f.op with
  | .store sids _ _ _ _ _ => lose s sids
  | .red sid _ _ _ _ _ _ _ => lose s [sid]
  | .atom sid _ w _ _ _ _ sc o acqrel d _ =>
    let s := if f.acc.isNone then s.lowerAll .st [sid] else s
    if q.1.getLsbD 0 then s.performOne f
    else
      let v := s.free
      v.2.modFlight f.id (fun g => { g with
        op := .result .atom sid (spanWords d (plainWords w v.1.toNat)) (atomAcquire sc o acqrel f.core none) })
  | .cacheOp sid _ _ _ _ _ => (s.lowerAll .st [sid]).dropFlight f.id
  | .monitorRead sid => (s.modStrand sid (fun x => x.wake s (s.coreOf x.tid))).dropFlight f.id
  | .publish sid _ _ _ => (((if f.acc.isNone then s.lowerAll .st [sid] else s).lowerAll .cp [sid]).dropFlight f.id)
  | .binding sid _ _ _ => ((if f.acc.isNone then s.lowerAll .st [sid] else s).dropFlight f.id)
  | .trigger sid _ _ _ _ => ((if f.acc.isNone then s.lowerAll .st [sid] else s).dropFlight f.id)
  | _ => s

/-- AVGER_LINK_LOSS: peer addresses are reserved from then on; each write in flight to the peer is lost or applied, which
a free value decides; launches with a PAIR or SYS access in flight are marked (R394, R207, Table 19.5). -/
def execAvgerLinkLoss (s : State) : Host.Outcome State Fault Refusal :=
  if s.link = .up then
    let hit := s.flights.filter s.toPeer
    let seqs := hit.map (·.seq)
    let s := hit.foldl (fun s f => s.cutOff f) s
    let s : State := { s with link := .lost }
    .next (s.machineCheck (2 ^ 51 * (1 - s.dieId)) 0 (fun l => seqs.contains l.seq)).updateLife
  else .next s

end Sys2Proof.Machine
end

