-- ==== Sys2Proof/Machine/Saving.lean ====
section
/-! DEFINITION. Saved context: team images, course blocks and the pool spill area, the saving of gangs and teams and their
resume (R28, R31, R246, R279, R294, R303, R381 to R384). -/

namespace Sys2Proof.Machine

/-! ### The areas -/

/-- Write bytes of a context or spill area; none when a check fails. -/
def State.areaWrite (s : State) (va : DWord) (bs : List Byte) : Option State :=
  bs.zipIdx.foldl (fun r e => r.bind (fun s =>
    match s.check unitCourse (va + BitVec.ofNat 64 e.2) 1 accWrite (·.write) with
    | .ok a => some (s.sysPut a [e.1])
    | .error _ => none)) (some s)

/-- Offset of course block k, of the team image slots, and of slot i (Table 19.6). -/
def blockOff (k : Nat) : Nat := 0x10000 + 0x100000 * k
def Launch.slotOff (l : Launch) (i : Nat) : Nat := blockOff l.courseList.length + l.tsize * i

def Launch.ctx (l : Launch) (off : Nat) : DWord := l.cmd.ctxAddr + BitVec.ofNat 64 off

/-- The lowest free team image slot. -/
def State.imageSlot (s : State) (l : Launch) : Option Nat :=
  match s.sysRead (l.ctx 0) 8 with
  | none => none
  | some bs =>
    (List.range ((leNat bs - l.slotOff 0) / max 1 l.tsize)).find? (fun i => s.sysRead (l.ctx (l.slotOff i)) 1 == some [0])

/-! ### Strand blocks (Table 19.8) -/

/-- STATE, PARK, WAITA, WAITV, WAITC and FRID of a strand. -/
def State.waitFields (s : State) (x : Strand) : Nat × Nat × Nat × Nat × Nat × Nat :=
  match x.state with
  | .parked m => (2, m.toNat, 0, 0, 0, 0)
  | .parkedFull m => (2, m.toNat, 0, 0, 0, 0)
  | .monitor m =>
    let left := if m.armed then m.remaining - (s.now - m.since) else m.remaining
    (3, 0, m.ea.toNat, left + m.width.code.toNat * 2 ^ 17 + m.scope.code.toNat * 2 ^ 20, m.cmp.toNat, 0)
  | .latch a tok _ => (4, 0, a, if tok then 1 else 0, 0, 0)
  | .barrier _ => (4, 0, 0, 0, 0, 0)
  | .recordStall _ => (5, 0, 0, 0, 0, 0)
  | .faultHeld k => (6, 0, 0, 0, 0, ((s.faults.find? (fun r => r.cause == k)).bind (·.frid)).getD 0)
  | _ => (0, 0, 0, 0, 0, 0)

/-- CLS and SIDX bits. -/
def clsBits (k : Option Cls) (yielded : Bool) : Nat :=
  (if yielded then 2 ^ 323 else 0) + (match k with
    | none => 0
    | some k => k.eng.toNat * 2 ^ 330 + (if k.term then 2 ^ 329 else 0) + (k.left - 1) % 16 * 2 ^ 325 + 2 ^ 324 + k.idx % 16 * 2 ^ 272)

/-- p0 to p15. -/
def predBits (p : Vector Bool 16) : Nat :=
  (p.toList.zipIdx.map (fun e => if e.1 || e.2 == 15 then 2 ^ e.2 else 0)).sum

/-- A strand block. -/
def State.strandBlock (s : State) (x : Strand) (rank : Nat) : List Byte :=
  let w := s.waitFields x
  leBytes 256 (x.pc.toNat + w.2.2.2.2.1 * 2 ^ 64 + w.2.1 * 2 ^ 276 + w.1 * 2 ^ 280 + rank * 2 ^ 288 + clsBits x.cls x.yielded
    + predBits x.p * 2 ^ 336 + x.ctrs.toNat * 2 ^ 352 + x.maxabs.toNat * 2 ^ 384 + x.rng.toNat * 2 ^ 416
    + x.clkhi.toNat * 2 ^ 544 + w.2.2.2.1 * 2 ^ 576 + w.2.2.1 * 2 ^ 608 + x.tvec.toNat * 2 ^ 672 + x.epc.toNat * 2 ^ 736
    + x.ecause.toNat * 2 ^ 800 + x.eva.toNat * 2 ^ 832 + x.ediff.toNat * 2 ^ 896 + x.eclause.toNat * 2 ^ 960
    + w.2.2.2.2.2 * 2 ^ 992 + x.poison.toNat * 2 ^ 1024)

/-- What the block has no bytes for. -/
def Strand.kept (now : Nat) (x : Strand) : SavedStrand where
  sid := x.sid
  strandId := x.strandId
  ended := x.state == .ended
  full := match x.state with | .parkedFull _ => true | _ => false
  barrier := match x.state with | .barrier sc => some sc | _ => none
  held := match x.state with | .faultHeld k => some k | _ => none
  heldVa := x.heldVa
  heldLen := x.heldLen
  answer := none
  owned := x.owned
  sample := x.sample
  rdepth := x.rdepth
  side := x.side
  report := x.report
  stall := match x.state with | .recordStall y => some y | _ => none
  granted := none
  carve := match x.state with | .latch _ _ d => d | _ => none
  efrid := x.efrid
  waited := now - x.since
  wrote := x.wrote
  strong := x.strong

/-! ### Team images (R382, Table 19.7) -/

/-- Strands of a team, by STRANDID. -/
def State.teamStrands (s : State) (tid : Nat) : List Strand :=
  let xs := s.strands.filter (fun x => x.tid == tid)
  (List.range xs.length).filterMap (fun k => xs.find? (fun x => x.strandId == k))

/-- Offsets of the captured records, the registers and the scratchpad in a team image of n strands. -/
def stallOff (n : Nat) : Nat := 0x2000 + 256 * n
def regsOff (k : Kernel) (n : Nat) : Nat := (stallOff n + (if k.kind = 0 then 0 else 128 * n) + 63) / 64 * 64
def scratchOff (k : Kernel) (n : Nat) : Nat := (regsOff k n + 4 * n * k.regs + 63) / 64 * 64

/-- A keyring image: MEMBERS as its configuration (the model's reading), the status word, the slots. -/
def Keyring.image (k : Keyring) : List Byte :=
  let slots := k.slots.map (fun g => (2 ^ 15 + (if g.mma.isNone then 2 ^ 14 else 0) + g.strandId % 2 ^ 11) * 2 ^ (8 * (64 + 2 * (g.slot % 64))))
  leBytes 256 (k.members.toNat + k.status.toNat * 2 ^ 64 + slots.sum)

/-- Arrivals at a gang's barrier, and its scope code. -/
def State.barrierOf (s : State) (seq gang : Nat) : Nat × Nat :=
  let at' := (s.gangStrands seq gang).filterMap (fun x => match x.state with | .barrier sc => some sc.code.toNat | _ => none)
  let more : Int := ((s.teams.filter (fun t => t.seq == seq && t.gangId == gang)).map (·.extra)).sum
  ((at'.length + more).toNat, at'.foldl max 0)

/-- The parts of a team image: offset and bytes. -/
def State.teamImage (s : State) (t : Team) (rank : Strand → Nat) : List (Nat × List Byte) :=
  let xs := s.teamStrands t.tid
  let n := xs.length
  let b := if t.kind = .gang then s.barrierOf t.seq t.gangId else (0, 0)
  let hdr := 1 + t.seq % 2 ^ 32 * 2 ^ 64 + t.gangId * 2 ^ 96 + t.teamId * 2 ^ 128 + n * 2 ^ 160 + t.kernel.index * 2 ^ 192
    + t.rgu * 2 ^ 208 + t.scu * 2 ^ 216 + t.l1u * 2 ^ 224 + b.2 * 2 ^ 232 + (if t.teamId = 0 then b.1 * 2 ^ 256 else 0)
  [(0, leBytes 256 hdr), (0x100, wordsBytes t.sregs.toList),
   (0x1000, t.keyrings.toList.flatMap Keyring.image),
   (0x2000, xs.flatMap (fun x => s.strandBlock x (rank x)))] ++
  (if t.kernel.kind = 0 then [] else [(stallOff n, xs.flatMap (fun x => match x.state with
    | .recordStall y => imageBytes y.image
    | _ => List.replicate 128 0))]) ++
  [(regsOff t.kernel n, xs.flatMap (fun x => wordsBytes (x.g.toList.take t.kernel.regs))),
   (scratchOff t.kernel n, readN (memGet t.scratch) 0 (4096 * t.scu))]

/-- Write a team's image in a free slot. -/
def State.writeTeam (s : State) (l : Launch) (t : Team) (rank : Strand → Nat) : Option (State × Nat) :=
  match s.imageSlot l with
  | none => none
  | some i =>
    if l.tsize < scratchOff t.kernel (s.teamStrands t.tid).length + 4096 * t.scu then none
    else ((s.teamImage t rank).foldl (fun (r : Option State) (p : Nat × List Byte) => r.bind (fun s => s.areaWrite (l.ctx (l.slotOff i + p.1)) p.2))
      (some s)).map (fun s => (s, i))

/-! ### Round images (R246, R381)

The spec gives a round image its 48 KiB and no layout. The model's (DESIGN CHOICE, log 52): row s of A at 256 s, of B at 16 KiB + 256 s,
the scales of A and of B at 32 and 36 KiB + 64 s, the metadata at 40 KiB + 128 s. -/

/-- Offsets of captured rows. -/
def rowParts (base stride : Nat) (rows : List (Nat × List Byte)) : List (Nat × List Byte) :=
  rows.map (fun e => (base + stride * e.1, e.2))

/-- The captured rows of an operand; one in memory or in a buffer has none. -/
def Operand.captured : Operand → List (Nat × List Byte)
  | .rows r => r
  | _ => []

/-- The captured operands, scales and metadata of a round: offset and bytes. -/
def Round.parts (r : Round) : List (Nat × List Byte) :=
  rowParts 0 256 r.a.captured ++ rowParts 0x4000 256 r.b.captured ++ rowParts 0x8000 64 r.sa ++ rowParts 0x9000 64 r.sb ++
    rowParts 0xA000 128 (r.md.map (fun e => (e.1, wordsBytes e.2)))

/-- The rows at some offsets as parts give them. -/
def rowsFrom (parts : List (Nat × List Byte)) (base stride : Nat) (rows : List (Nat × List Byte)) : List (Nat × List Byte) :=
  rows.map (fun e => (e.1, ((parts.find? (fun p => p.1 == base + stride * e.1)).map (·.2)).getD e.2))

/-- A round with what its image holds. -/
def Round.withParts (r : Round) (parts : List (Nat × List Byte)) : Round :=
  let op (base : Nat) : Operand → Operand
    | .rows l => .rows (rowsFrom parts base 256 l)
    | o => o
  { r with
    a := op 0 r.a, b := op 0x4000 r.b, sa := rowsFrom parts 0x8000 64 r.sa, sb := rowsFrom parts 0x9000 64 r.sb,
    md := (rowsFrom parts 0xA000 128 (r.md.map (fun e => (e.1, wordsBytes e.2)))).map (fun e => (e.1, bytesWords e.2)) }

/-- Offset of a round image in its course block. -/
def roundOff (k index : Nat) : Nat := blockOff k + 0x11000 + 0xC000 * index

/-- Write some parts of the context area at an offset. -/
def State.writeParts (s : State) (l : Launch) (off : Nat) (ps : List (Nat × List Byte)) : Option State :=
  ps.foldl (fun (r : Option State) p => r.bind (fun s => s.areaWrite (l.ctx (off + p.1)) p.2)) (some s)

/-- Read parts back, each as long as it was. -/
def State.readParts (s : State) (l : Launch) (off : Nat) : List (Nat × List Byte) → Option (List (Nat × List Byte))
  | [] => some []
  | p :: r =>
    match s.sysRead (l.ctx (off + p.1)) p.2.length, State.readParts s l off r with
    | some bs, some q => some ((p.1, bs) :: q)
    | _, _ => none

/-- Rounds of a launch saved for a course block. -/
def State.blockRounds (s : State) (seq k : Nat) : List SavedRound :=
  (s.saved.filter (fun v => v.seq == seq)).flatMap (fun v => v.rounds.filter (fun r => r.block == k))

/-! ### Course blocks (Table 19.6) -/

/-- Write the number of saved rounds of a block. -/
def State.writeCount (s : State) (l : Launch) (k n : Nat) : Option State := s.areaWrite (l.ctx (blockOff k + 0x10400)) (leBytes 4 n)

/-- Write the slots and buffers of a launch on a course. -/
def State.writeBlock (s : State) (l : Launch) (c k : Nat) : Option State :=
  let x := s.course c
  let obs := (List.range 4).map (fun i =>
    (0x4000 * i, if x.obClaim[i]? = some (some l.seq) then readN (memGet (x.obs.getD i [])) 0 16384 else List.replicate 16384 0))
  let slots := (List.range l.cmd.tslots).filterMap (fun i => (s.tile? c l.seq i).map (fun t =>
    (0x10000 + 64 * i, leBytes 64 (t.base.toNat + t.status.toNat * 2 ^ 64 + t.rng.toNat * 2 ^ 96))))
  s.writeParts l (blockOff k) (obs ++ slots)

/-- No physical address: that of a bound tile whose page is gone when its slot is loaded. -/
def noAddress : Nat := 2 ^ 64

/-- Load the slots and buffers of a block into a course that has just given the claim; none when it cannot be read. -/
def State.readBlock (s : State) (l : Launch) (c k : Nat) : Option State :=
  match s.sysRead (l.ctx (blockOff k)) 0x10404 with
  | none => none
  | some bs =>
    let slot (i : Nat) : Nat := leNat ((bs.drop (0x10000 + 64 * i)).take 64)
    let s := s.modCourse c (fun x => { x with
      obs := x.obs.zipIdx.map (fun e => if x.obClaim[e.2]? = some (some l.seq) then
        memPutL 0 ((bs.drop (0x4000 * e.2)).take 0x4000) [] else e.1) })
    some ((List.range l.cmd.tslots).foldl (fun s i =>
      let v := slot i
      let base : DWord := BitVec.ofNat 64 v
      let pa := match s.check c base 1 0 (fun _ => true) with | .ok a => a.pa | .error _ => noAddress
      s.modTile c l.seq i (fun t => { t with
        bound := v.testBit 95, base := base, pa := pa, wm := v / 2 ^ 64 % 128, pend := v / 2 ^ 72 % 8,
        rng := BitVec.ofNat 128 (v / 2 ^ 96) })) s)

/-! ### Draining (R28, R31, R246, R263, R378) -/

/-- Whether an operation in flight may stand while its gang is saved: it is dropped and made again, or kept. -/
def FlightOp.mayStand : FlightOp → Bool
  | .pref _ _ => true
  | .monitorRead _ => true
  | .twait _ _ _ => true
  | .tclr _ _ _ _ _ => true
  | .load _ _ _ _ _ _ kind => kind == .lda
  | _ => false

/-- Whether work belongs to what is saved: to one of the teams, or to a team of the launch that has ended (R246, R263). -/
def State.workOf (s : State) (seq : Nat) (tids : List Nat) (workSeq tid : Nat) : Bool :=
  tids.contains tid || (workSeq == seq && (s.team? tid).isNone)

/-- Rounds of what is saved that a course still holds, and rounds of the launch saved for the block already: a block holds 16. -/
def State.roundLoad (s : State) (seq : Nat) (tids : List Nat) (c : Nat) : Nat :=
  ((s.course c).rounds.filter (fun r => s.workOf seq tids r.seq r.tid)).length +
    (match s.teams.find? (fun t => t.seq == seq && courseOf t.core == c) with
      | some t => (s.blockRounds seq t.block).length
      | none => 0)

/-- Whether a result in flight has come and waits for an earlier operation on the same registers, an LDA that stands (R172): it stands
with it. -/
def State.standsBehind (s : State) (f : Flight) : Bool :=
  match f.op with
  | .load _ ls _ _ _ _ _ => ls.all (fun l => l.came.elim false (fun ws => ws.all (fun e => s.destWaits f l.sid e.1 1)))
  | .result _ sid ws _ => !ws.isEmpty && ws.all (fun e => s.destWaits f sid e.1 1)
  | _ => false

/-- Whether the work in flight of some teams of a launch has drained. -/
def State.drained (s : State) (seq : Nat) (tids : List Nat) : Bool :=
  let mine (sid : Nat) : Bool := (s.strand? sid).elim false (fun x => tids.contains x.tid)
  let row (r : NRow) : Bool := s.workOf seq tids r.seq r.tid
  !s.bundles.any (fun b => b.lanes.any mine) &&
  s.flights.all (fun f => !tids.contains f.tid || f.op.mayStand || s.standsBehind f || (f.acc.isSome && (match f.op with
    | .store _ _ _ _ _ _ => true
    | .red _ _ _ _ _ _ _ _ => true
    | _ => false))) &&
  !s.flights.any (fun f => match f.op with
    | .nevalReq r _ _ => row r
    | .nevalRes _ _ _ => f.seq == seq && (s.team? f.tid).isNone
    | _ => false) &&
  s.courses.all (fun c =>
    !c.gather.any (fun e => e.rows.any row) &&
    !c.queue.any (fun j => match j with | .tile e => e.rows.any row | _ => false) &&
    !c.running.any (fun g => s.workOf seq tids g.r.seq g.r.tid)) &&
  (List.range s.courses.length).all (fun c => decide (s.roundLoad seq tids c ≤ 16)) &&
  s.rings.all (fun r => !tids.contains r.tid || r.begun.isEmpty)

/-- Gather table entries with rows of what is saved form their tiles at once (R263). -/
def State.formRows (s : State) (seq : Nat) (tids : List Nat) : State :=
  (List.range s.courses.length).foldl (fun s c =>
    ((s.course c).gather.filter (fun e => e.rows.any (fun r => s.workOf seq tids r.seq r.tid))).foldl (fun s e => s.formTile c e) s) s

/-- What falls in the cycle of a save is applied first: monitors that have been written or have run out, and answers to the records
that hold a strand (R28, R104, R378). -/
def State.beforeSave (s : State) (tids : List Nat) : State :=
  let s := s.endMonitors
  (s.faults.filter (fun r => s.strands.any (fun x => tids.contains x.tid && x.state == .faultHeld r.cause))).foldl (fun s r =>
    match r.frid, r.answer with
    | some k, some a => if 2 ≤ a.1 then s.answerRecord r k a else s
    | _, _ => s) s

/-- Merge the deltas that a launch has in a course: those of its reductions, and those on its bound tiles and under its rounds
(R205, R246). -/
def State.mergeLaunch (s : State) (c seq : Nat) : State :=
  let s := ((s.course c).deltas.filter (fun e => e.2.2.2.2.contains seq)).foldl (fun s e => s.mergeDelta c e) s
  let s := (s.course c).tiles.foldl (fun s k =>
    if k.bound && k.claim.elim false (fun e => e.1 == seq) then s.mergeRange c k.pa 16384 else s) s
  ((s.course c).rounds.filter (fun r => r.seq == seq)).foldl (fun s r => s.mergeRange c r.tilePa 16384) s

/-- What a team leaves its course before a save: accepted accesses, deltas, dirty words (R217, R246). -/
def State.settleHome (s : State) (t : Team) : State :=
  let c := courseOf t.core
  let s := (s.drainCourse c).mergeLaunch c t.seq
  (s.keys.filter (fun k => k.holder == t.tid)).foldl (fun s k => s.writeBack c k.pa 4096) s

/-- What is written home before some teams are saved together: what each leaves its course, then, with nothing of theirs still to
reach a scratchpad, their windows. Monitors that any of it has written end before the images are taken (R28, R104, R170). -/
def State.settleAll (s : State) (ts : List Team) : State :=
  let s := ts.foldl (fun s t => s.settleHome t) s
  let s := (s.bindings.filter (fun b => ts.any (fun t => t.tid == b.tid))).foldl (fun s b => s.windowBack b) s
  s.endMonitors

/-! ### Saving -/

/-- Rounds that are taken off a course: whether each had a place in the queue. -/
def Course.roundsOf (x : Course) (goes : Round → Bool) : List (Bool × Round) :=
  (x.queue.filterMap (fun j => match j with | .round r => if goes r then some (true, r) else none | _ => none)) ++
    (x.waiting.filter goes).map (fun r => (false, r))

/-- Insert by the order of completion. -/
def insertRound (r : SavedRound) : List SavedRound → List SavedRound
  | [] => [r]
  | q :: l => if r.round.stamp ≤ q.round.stamp then r :: q :: l else q :: insertRound r l

/-- Rounds in the order in which they completed. -/
def sortRounds : List SavedRound → List SavedRound
  | [] => []
  | r :: l => insertRound r (sortRounds l)

/-- Give rounds their images: the lowest ones of their blocks that no saved round has. -/
def placeRounds (used : List (Nat × Nat)) : List SavedRound → List SavedRound
  | [] => []
  | r :: l =>
    let i := ((List.range 16).find? (fun i => !used.contains (r.block, i))).getD 0
    { r with index := i } :: placeRounds ((r.block, i) :: used) l

/-- Take rounds off a course. -/
def Course.dropRounds (x : Course) (goes : Round → Bool) : Course :=
  { x with queue := x.queue.filter (fun j => match j with | .round r => !goes r | _ => true),
           waiting := x.waiting.filter (fun r => !goes r) }

/-- Whether some teams are the last of their launch on a course. -/
def State.leaves (s : State) (seq : Nat) (ts : List Team) (c : Nat) : Bool :=
  !s.teams.any (fun t => t.seq == seq && courseOf t.core == c && !ts.any (fun u => u.tid == t.tid))

/-- Whether a round of a course is saved with some teams: one of theirs, or, when they are the last of the launch there, one of a team
of the launch that has ended (R246). -/
def State.goes (s : State) (seq : Nat) (ts : List Team) (c : Nat) (r : Round) : Bool :=
  ts.any (fun t => t.tid == r.tid) || (r.seq == seq && (s.team? r.tid).isNone && s.leaves seq ts c)

/-- The saved form of a team. -/
def State.keptTeam (s : State) (t : Team) (slot : Nat) : SavedTeam :=
  ⟨slot, t.teamId, t.tid, t.block, t.kind, t.keyrings, (s.teamStrands t.tid).map (Strand.kept s.now)⟩

/-- Remove teams whose state has been saved, with the rounds saved with them; keys, bindings, rings and handles stay. -/
def State.removeSaved (s : State) (seq : Nat) (ts : List Team) : State :=
  let tids := ts.map (·.tid)
  let cs := (ts.map (fun t => courseOf t.core)).eraseDups
  { s with
    courses := s.courses.zipIdx.map (fun e => if cs.contains e.2 then e.1.dropRounds (s.goes seq ts e.2) else e.1),
    flights := s.flights.filter (fun f => !tids.contains f.tid),
    strands := s.strands.filter (fun x => !tids.contains x.tid),
    teams := s.teams.filter (fun t => !tids.contains t.tid) }

/-- Write the images of some teams: their slots, or none. -/
def writeTeams (l : Launch) (rank : Strand → Nat) : List Team → State → Option (State × List Nat)
  | [], s => some (s, [])
  | t :: ts, s => (s.writeTeam l t rank).bind (fun w => (writeTeams l rank ts w.1).map (fun r => (r.1, w.2 :: r.2)))

/-- Write the blocks of the courses that these teams were the last of their launch on, and give up the claims. -/
def leaveBlocks (l : Launch) (ts : List Team) : List (Nat × Nat) → State → Option State
  | [], s => some s
  | (c, k) :: r, s =>
    if !s.leaves l.seq ts c then leaveBlocks l ts r s
    else match s.writeBlock l c k with
      | none => none
      | some s => leaveBlocks l ts r (if l.ext.isSome then s else s.unclaim c l.seq)

/-- Rounds of some courses and their blocks in completion order, with their round images (R246). -/
def State.roundsFor (s : State) (l : Launch) (goes : Nat → Round → Bool) (blocks : List (Nat × Nat)) : List SavedRound :=
  placeRounds ((s.saved.filter (fun v => v.seq == l.seq)).flatMap (fun v => v.rounds.map (fun r => (r.block, r.index))))
    (sortRounds (blocks.flatMap (fun b => ((s.course b.1).roundsOf (goes b.1)).map (fun e => ⟨b.2, 0, e.1, e.2⟩))))

/-- The courses of some teams, each with its course block. -/
def blocksOf (ts : List Team) : List (Nat × Nat) := (ts.map (fun t => (courseOf t.core, t.block))).eraseDups

/-- The rounds that are saved with some teams. -/
def State.roundsOf (s : State) (l : Launch) (ts : List Team) : List SavedRound := s.roundsFor l (s.goes l.seq ts) (blocksOf ts)

/-- Write the images of saved rounds, and the counts of their blocks. -/
def State.writeRounds (s : State) (l : Launch) (rs : List SavedRound) (blocks : List Nat) : Option State :=
  (rs.foldl (fun (o : Option State) r => o.bind (fun s => s.writeParts l (roundOff r.block r.index) r.round.parts)) (some s)).bind (fun s =>
    blocks.foldl (fun (o : Option State) k => o.bind (fun s =>
      s.writeCount l k ((s.blockRounds l.seq k).length + (rs.filter (fun r => r.block == k)).length))) (some s))

/-- Write what the device writes of the context header: TSIZE, m, and zeros in its IGN bits (Table 19.6). -/
def State.writeHeader (s : State) (l : Launch) : Option State :=
  s.areaWrite (l.ctx 8) (leBytes 56 (l.tsize + l.courseList.length * 2 ^ 32))

/-- Write the header, the images of some teams and of their rounds, and the blocks they leave: their image slots; none when the context
area is too small or cannot be written. -/
def State.writeContext (s : State) (l : Launch) (ts : List Team) : Option (State × List Nat) :=
  let tids := ts.map (·.tid)
  let all := s.strands.filter (fun x => tids.contains x.tid)
  let rank (x : Strand) : Nat := (all.filter (fun y => decide (y.age < x.age))).length
  let blocks := blocksOf ts
  let rs := s.roundsOf l ts
  (s.writeHeader l).bind (fun s => (writeTeams l rank ts s).bind (fun r =>
    (r.1.writeRounds l rs (blocks.map (·.2))).bind (fun s => (leaveBlocks l ts blocks s).map (fun s => (s, r.2)))))

/-- The operations in flight of some teams that are kept and go on after the resume. -/
def State.keptFlights (s : State) (ts : List Team) : List Flight :=
  s.flights.filter (fun f => ts.any (fun t => t.tid == f.tid) && (match f.op with
    | .pref _ _ => false
    | .monitorRead _ => false
    | op => op.mayStand || s.standsBehind f))

/-- What becomes of some teams whose home accesses are settled: their images, then the saved gang; a context area that is too small or
cannot be written ends the launch with CAUSE 6. -/
def State.putSaved (s : State) (l : Launch) (gang : Nat) (stalled : Bool) (ts : List Team) : State :=
  match s.writeContext l ts with
  | none => s.endLaunch l.seq 6
  | some (s', slots) =>
    let v : Saved := ⟨l.seq, gang, l.prio, stalled, (ts.zip slots).map (fun e => s.keptTeam e.1 e.2), s.roundsOf l ts, s.keptFlights ts⟩
    { s'.removeSaved l.seq ts with saved := s'.saved ++ [v] }

/-- Save some teams together, as they stand once everything of theirs is home. -/
def State.saveTeams (s : State) (l : Launch) (gang : Nat) (stalled : Bool) (ts : List Team) : State :=
  let s := s.settleAll ts
  s.putSaved l gang stalled (ts.filterMap (fun t => s.team? t.tid))

/-! ### The pool spill area (R303, R384) -/

/-- KEYKIND, KEYA and KEYB of a bin entry. -/
def Key.bits : Key → Nat
  | .trav cell cls => 1 + cell * 2 ^ 8 + cls * 2 ^ 24
  | .shade k i => 2 + k * 2 ^ 8 + i * 2 ^ 24
  | .node n d => 3 + n * 2 ^ 8 + d * 2 ^ 24

def Key.ofBits (v : Nat) : Option Key :=
  let a := v / 2 ^ 8 % 2 ^ 16
  let b := v / 2 ^ 24 % 2 ^ 16
  match v % 4 with
  | 1 => some (.trav a b)
  | 2 => some (.shade a b)
  | 3 => some (.node a b)
  | _ => none

/-- Bytes of a launch's course block in the spill area. -/
def Ext.spillOff (e : Ext) (k : Nat) : DWord := e.spillA + BitVec.ofNat 64 (k * (144 * e.quota + 16448))

/-- A record's place: its bin and rank, or its rank on the arrival list, with its arrival cycle. -/
def Course.placeOf (x : Course) (seq idx : Nat) : Option (Option Nat × Nat × Int) :=
  match x.bins.find? (fun b => b.seq == seq && b.recs.any (fun r => r.1 == idx)) with
  | some b => some (some b.idx, (b.recs.findIdx? (fun r => r.1 == idx)).getD 0, ((b.recs.find? (fun r => r.1 == idx)).map (·.2)).getD 0)
  | none => (x.arrivals.find? (fun a => a.1 == seq && a.2.1 == idx)).map (fun a =>
      (none, (x.arrivals.findIdx? (fun a => a.1 == seq && a.2.1 == idx)).getD 0, a.2.2.2))

/-- The waves of a launch that are not placed return to the heads of their bins, latest wave first (R305). -/
def Course.unformWaves (x : Course) (seq : Nat) : Course :=
  (x.waves.filter (fun (w : Wave) => w.seq == seq)).reverse.foldl (fun (x : Course) (w : Wave) =>
    let rs : List (Nat × Int) := w.recs.zip w.times
    let x : Course := { x with recs := x.recs.map (fun (r : Rec) => if r.seq = seq ∧ w.recs.contains r.idx then { r with state := .binned } else r) }
    if x.bins.any (fun (b : Bin) => b.seq == seq && b.key == w.key) then
      { x with bins := x.bins.map (fun (b : Bin) => if b.seq = seq ∧ b.key = w.key then { b with recs := rs ++ b.recs } else b) }
    else match x.freeBin with
      | some i => { x with bins := x.bins ++ [⟨i, seq, w.key, rs, none⟩] }
      | none => { x with arrivals := rs.map (fun (r : Nat × Int) => (seq, r.1, w.key, r.2)) ++ x.arrivals })
    { x with waves := x.waves.filter (fun (w : Wave) => w.seq != seq) }

/-- A slot state (Table 19.11). -/
def State.slotState (s : State) (x : Course) (r : Rec) : Nat :=
  let pl := x.placeOf r.seq r.idx
  let base := match pl with
    | some (some b, k, t) => min (2 ^ 32 - 1) (s.now - t).toNat + b * 2 ^ 32 + k * 2 ^ 48
    | some (none, k, t) => min (2 ^ 32 - 1) (s.now - t).toNat + 2 ^ 42 + k * 2 ^ 48
    | none => 0
  let st := match r.state with | .binned => 1 | .traversing => 2 | .owned => 3 | .held _ => 4
  let frid := match r.state with
    | .held c => ((s.faults.find? (fun f => f.cause == c)).bind (·.frid)).getD 0
    | _ => 0
  base + st * 2 ^ 43 + (r.charge.getD 0xFFFF) * 2 ^ 64 + frid * 2 ^ 96

/-- Write one course's block of the spill area. -/
def State.writeSpill (s : State) (l : Launch) (e : Ext) (c k : Nat) : Option State :=
  let x := s.course c
  let mine := x.recs.filter (fun r => r.seq == l.seq)
  let recs := (List.range e.quota).flatMap (fun i => match mine.find? (fun r => r.idx == i) with
    | some r => imageBytes r.image
    | none => List.replicate 128 0)
  let states := (List.range e.quota).flatMap (fun i => match mine.find? (fun r => r.idx == i) with
    | some r => leBytes 16 (s.slotState x r)
    | none => List.replicate 16 0)
  let bins := (List.range 1024).flatMap (fun i => match x.bins.find? (fun b => b.idx == i && b.seq == l.seq) with
    | some b => leBytes 16 (b.key.bits + (if x.curBin = some i then 2 ^ 64 else 0))
    | none => List.replicate 16 0)
  let own := x.curBin.any (fun i => x.bins.any (fun b => b.idx == i && b.seq == l.seq))
  let trailer := leBytes 64 ((if k = 0 then l.placed else 0) + (x.lastCur.getD (2 ^ 32 - 1)) * 2 ^ 32 + (if own then x.served else 0) * 2 ^ 64)
  s.areaWrite (e.spillOff k) (recs ++ states ++ bins ++ trailer)

/-- Take a launch's records, bins and traversals off a course. -/
def Course.dropRecords (x : Course) (seq : Nat) : Course :=
  let cur := x.curBin.filter (fun i => x.bins.any (fun b => b.idx == i && b.seq != seq))
  ({ x with recs := x.recs.filter (fun r => r.seq != seq), bins := x.bins.filter (fun b => b.seq != seq),
            arrivals := x.arrivals.filter (fun a => a.1 != seq), waves := x.waves.filter (fun w => w.seq != seq),
            trav := x.trav.filter (fun t => t.2.1 != seq), curBin := cur }).settleArrivals

/-- What a course's block has no bytes for. -/
def Course.kept (x : Course) (seq k : Nat) : List Kept :=
  (x.recs.filter (fun r => r.seq == seq)).map (fun r =>
    ⟨k, r.idx, r.vis, r.side, r.err, (x.arrivals.find? (fun a => a.1 == seq && a.2.1 == r.idx)).map (·.2.2.1),
      (match r.state with | .held c => some c | _ => none), none⟩)

/-- Write every course's block. -/
def writeSpills (l : Launch) (e : Ext) : List (Nat × Nat) → State → Option State
  | [], s => some s
  | (c, k) :: r, s =>
    match s.writeSpill l e c k with
    | none => none
    | some s => writeSpills l e r s

/-- The rounds of a launch that its courses still hold when its pool is spilled: those of teams that have ended. -/
def State.leftRounds (s : State) (l : Launch) : List SavedRound :=
  s.roundsFor l (fun _ r => r.seq == l.seq) l.courseList.zipIdx

/-- A saved team of a launch on a block, with which a round that is left there is kept. -/
def State.keeperOf (s : State) (seq block : Nat) : Option Saved :=
  s.saved.find? (fun v => v.seq == seq && v.teams.any (fun t => t.block == block))

/-- Keep rounds with saved teams of their blocks. -/
def State.keepRounds (s : State) (seq : Nat) (rs : List SavedRound) : State :=
  rs.foldl (fun s r =>
    match s.keeperOf seq r.block with
    | some v => { s with saved := s.saved.map (fun w => if w.seq == seq && w.gangId == v.gangId && w.teams.map (·.tid) == v.teams.map (·.tid)
        then { w with rounds := w.rounds ++ [r] } else w) }
    | none => s) s

/-- Whether the context area has room for a launch's course blocks (R381). -/
def State.blocksFit (s : State) (l : Launch) : Bool :=
  (s.sysRead (l.ctx 0) 8).elim false (fun bs => decide (l.slotOff 0 ≤ leNat bs))

/-- Spill the pool of a launch whose teams have been saved: its quotas and claims are released (R303, R381). -/
def State.spill (s : State) (l : Launch) (e : Ext) : State :=
  let cs := l.courseList.zipIdx
  let s := cs.foldl (fun s c => s.modCourse c.1 (fun x => x.unformWaves l.seq)) s
  let rs := s.leftRounds l
  let put (s : State) : Option State :=
    ((((s.writeHeader l).bind (fun s => s.writeRounds l rs (cs.map (·.2)))).bind (fun s => writeSpills l e cs s)).bind
      (fun s => leaveBlocks { l with ext := none } [] cs s))
  match (if s.blocksFit l then put s else none) with
  | none => s.endLaunch l.seq 6
  | some s' =>
    let kept := cs.flatMap (fun c => (s.course c.1).kept l.seq c.2)
    let s' := s'.keepRounds l.seq rs
    (cs.foldl (fun s c => ((s.modCourse c.1 (fun x => (x.dropRecords l.seq).dropRounds (fun r => r.seq == l.seq))).triggerFull c.1
      (s.course c.1).bins).formFull c.1) s').modLaunch l.seq (fun l => { l with spilled := true, saving := false, kept := kept })

/-- The pool of a launch that is being saved and has no team left on the die is spilled once its rows and rounds have drained; a round
that no saved team of its course keeps runs first (R246, R263, R303). -/
def State.spillOrForm (s : State) (l : Launch) (e : Ext) : State :=
  if !s.drained l.seq [] then s.formRows l.seq []
  else if (s.leftRounds l).any (fun r => (s.keeperOf l.seq r.block).isNone) then s
  else s.spill l e

/-- Save teams whose work has drained; else their gather rows form tiles. -/
def State.saveOrForm (s : State) (l : Launch) (gang : Nat) (stalled : Bool) (ts : List Team) : State :=
  let tids := ts.map (·.tid)
  if s.drained l.seq tids then (s.beforeSave tids).saveTeams l gang stalled ts else s.formRows l.seq tids

/-- GANG_SAVE: a drained gang or team is saved; the last of a record launch's teams is followed by its pool. -/
def execGangSave (seq gang : Nat) (s : State) : Host.Outcome State Fault Refusal :=
  match s.launch? seq with
  | none => .next s
  | some l =>
    let ts := s.teams.filter (fun t => t.seq == seq && t.saving &&
      (if t.kind = .gang then t.gangId == gang else t.teamId == gang))
    let tids := ts.map (·.tid)
    if l.state ≠ .admitted then .next s
    else if ts.isEmpty then
      match l.ext with
      | some e => .next (if l.saving && !l.spilled && !s.teams.any (fun t => t.seq == seq) then s.spillOrForm l e else s)
      | none => .next s
    else if (s.strands.filter (fun x => tids.contains x.tid)).all (fun x => x.state == .ended) then .next s
    else .next (s.saveOrForm l gang false ts)

/-! ### Resume: strands -/

/-- A width or scope from its code. -/
def widthOfCode (n : Nat) : Width := ([.n8, .i8, .n16, .i16, .n32, .n64, .n128].find? (fun (w : Width) => w.code.toNat == n)).getD .n32
def scopeOfCode (n : Nat) : Scope := ([.plain, .team, .course, .die, .pair, .sys].find? (fun (c : Scope) => c.code.toNat == n)).getD .plain

/-- A field of a strand block. -/
def blockField (b lo n : Nat) : Nat := b / 2 ^ lo % 2 ^ n

/-- The clause state a block holds. -/
def blockCls (b : Nat) : Option Cls :=
  if b.testBit 324 then
    some ⟨BitVec.ofNat 6 (blockField b 330 6), b.testBit 329, blockField b 325 4 + 1, blockField b 272 4⟩
  else none

/-- A translation made afresh (R352). Where it fails there is no address, and nothing may be read or written (log 60). -/
def State.reAcc (s : State) (c : Nat) (a : Acc) : Acc :=
  match s.check c a.va 1 0 (fun _ => true) with
  | .ok b => b
  | .error _ => { a with pa := noAddress, page := { a.page with read := false, write := false } }

/-- The cause that a restored FRID names: of the record that is posted under it, of the cause that has none yet, or no cause at
all, a name that nothing answers (R376, R383). -/
def State.causeOf (s : State) (kept : Option Nat) (frid : Nat) : Nat :=
  if frid = 0 then (kept.filter (fun k => s.faults.any (fun r => r.cause == k))).getD s.nextId
  else ((s.faults.find? (fun r => r.frid == some frid && r.kind != .check)).map (·.cause)).getD s.nextId

/-- The state a block restores; none for a STATE code of no state (R383). `scope` is the barrier's scope in the header. -/
def State.blockState (s : State) (c : Nat) (y : SavedStrand) (scope b : Nat) (x : Strand) (image : BitVec 1024) : Option SState :=
  let st : Option SState := match blockField b 280 8 with
    | 0 => some .ready
    | 2 =>
      let m : BitVec 4 := BitVec.ofNat 4 (blockField b 276 4)
      if y.full then some (if x.full m = 0 then .ready else .parkedFull m)
      else some (if x.nonzero m = 0 then .ready else .parked (x.nonzero m))
    | 3 =>
      let ea : DWord := BitVec.ofNat 64 (blockField b 608 64)
      let v := blockField b 576 32
      let w := widthOfCode (v / 2 ^ 17 % 8)
      match s.check c ea w.bytes accRead (·.read) with
      | .ok acc => some (.monitor ⟨ea, w, scopeOfCode (v / 2 ^ 20 % 8), BitVec.ofNat 64 (blockField b 64 64), acc, false, v % 2 ^ 17, 0, false⟩)
      | .error _ => some .ready
    | 4 =>
      match y.barrier with
      | some sc => some (.barrier (if scope = 0 then sc else scopeOfCode scope))
      | none => some (.latch (blockField b 608 64) (b.testBit 576) y.carve)
    | 5 => some (if y.granted.isSome then .ready else .recordStall (match y.stall with
      | some z => { z with image := keptImage (z.vis.isNone && z.charge.isSome) image, vis := z.vis.map (s.reAcc c) }
      | none => ⟨keptImage false image, none, c, none, false, s.nextId⟩))
    | 6 => some (if y.answer.any (fun a => a.2.2.2.2 == blockField b 992 32) then .faultHeld (y.held.getD s.nextId)
      else .faultHeld (s.causeOf y.held (blockField b 992 32)))
    | _ => none
  st.map (fun st => if y.ended then .ended else if y.granted = some true then .ready else st)

/-- A strand from its block, its registers and what was kept; `ages` is the age that AGE counts from. The wait of one that was READY goes
on, that of one that is READY now starts (R25, R356). -/
def State.loadStrand (s : State) (c tid ages : Nat) (y : SavedStrand) (scope b : Nat) (regs : List Word) (img : BitVec 1024) :
    Option Strand :=
  let f := blockField b
  let x : Strand := { Strand.fresh y.sid tid y.strandId s.now (BitVec.ofNat 64 (f 0 64)) (BitVec.ofNat 128 (f 416 128)) with
    age := ages + f 288 32, maxabs := BitVec.ofNat 32 (f 384 32), p := Vector.ofFn (fun (i : Fin 16) => (f 336 16).testBit i.1),
    ld := f 352 8, st := f 360 8, mx := f 368 8, cp := f 376 8, clkhi := BitVec.ofNat 32 (f 544 32), yielded := b.testBit 323,
    cls := blockCls b, tvec := BitVec.ofNat 64 (f 672 64), epc := BitVec.ofNat 64 (f 736 64), ecause := BitVec.ofNat 32 (f 800 32),
    eva := BitVec.ofNat 64 (f 832 64), eclause := BitVec.ofNat 32 (f 960 32) &&& 0xFFFF8000#32, ediff := BitVec.ofNat 64 (f 896 64),
    owned := y.owned, sample := y.sample, rdepth := y.rdepth, side := y.side, report := y.report, efrid := y.efrid,
    since := if f 280 8 = 0 then s.now - y.waited else s.now, wrote := y.wrote, strong := y.strong, heldVa := y.heldVa,
    heldLen := y.heldLen }
  let x := { x.setSpan 0 regs with poison := BitVec.ofNat 256 (f 1024 256), wrote := y.wrote }
  (s.blockState c y scope b x img).map (fun st => { x with state := st })

/-! ### Resume: teams -/

/-- A team image's header (Table 19.7). -/
structure TeamHeader where
  seq : Nat
  gangId : Nat
  teamId : Nat
  strands : Nat
  kdesc : Nat
  rgu : Nat
  scu : Nat
  l1u : Nat
  syncs : Nat
  synca : Nat
  deriving DecidableEq, Repr

def TeamHeader.ofNat (v : Nat) : TeamHeader :=
  let f (lo n : Nat) : Nat := v / 2 ^ lo % 2 ^ n
  ⟨f 64 32, f 96 32, f 128 32, f 160 32, f 192 16, f 208 8, f 216 8, f 224 8, f 232 8, f 256 32⟩

/-- Where a team image slot of a saved launch stands, by TSIZE and m of the context header as they are now (R383). -/
def State.savedOff (s : State) (l : Launch) (slot : Nat) : Nat :=
  match s.sysRead (l.ctx 8) 8 with
  | some bs => blockOff (leNat (bs.drop 4)) + leNat (bs.take 4) * slot
  | none => l.slotOff slot

/-- The header of a team image. -/
def State.imageHead (s : State) (l : Launch) (slot : Nat) : Option TeamHeader :=
  (s.sysRead (l.ctx (s.savedOff l slot)) 36).map (fun bs => TeamHeader.ofNat (leNat bs))

/-- Units of the on-core array that a header asks for. -/
def TeamHeader.units (h : TeamHeader) : Nat := h.rgu + h.scu + h.l1u

/-- The kernel of a saved team. -/
def Launch.kernelOf (l : Launch) (k : TKind) : Kernel :=
  match k, l.ext with
  | .node n, some e => (e.nodeKernel n).getD l.kernel
  | .shader a b, some e => (e.shader a b).getD l.kernel
  | _, _ => l.kernel

/-- The kernel that KDESC names (R383): the team's own, or another descriptor that the device read at acceptance, the values of which
stay in force (R80); its own for an index that it did not read (DESIGN CHOICE, log 51). -/
def Launch.kernelAt (l : Launch) (k : TKind) (kdesc : Nat) : Kernel :=
  let own := l.kernelOf k
  if own.index = kdesc then own else ((l.ext.bind (fun e => e.kernels.find? (fun d => d.index == kdesc)))).getD own

/-- The launch that a header's SEQ names: the saved team's own, or another (R383). -/
def Launch.seqAt (l : Launch) (seq : Nat) : Nat := if seq = l.seq % 2 ^ 32 then l.seq else seq

/-- What is kept of strand i of a saved team; of a strand that only a changed header counts, nothing was. -/
def SavedTeam.strandAt (t : SavedTeam) (names i : Nat) : SavedStrand :=
  (t.strands.find? (fun y => y.strandId == i)).getD
    ⟨names + i, i, false, false, none, none, 0, 1, none, none, 0, 0, 0, none, none, none, none, 0, 0, 0, (0, none)⟩

/-- A keyring from its image: configuration, status word, and its slots with their STRANDIDs; the MMA of a signature is the one kept
for its slot, of a slot that had none an abstention (DESIGN CHOICE, log 51). -/
def Keyring.restore (k : Keyring) (sidOf : Nat → Nat) (bs : List Byte) : Keyring :=
  let v := leNat bs
  let w := v / 2 ^ 64 % 2 ^ 32
  { k with
    members := BitVec.ofNat 64 v,
    mode := match w / 2 ^ 30 with | 0 => .solo | 1 => .count | 2 => .mask | _ => k.mode,
    round := w / 65536 % 256,
    expect := w % 256,
    slots := (List.range 64).filterMap (fun i =>
      let e := v / 2 ^ (8 * (64 + 2 * i)) % 2 ^ 16
      if e.testBit 15 then
        let g := (k.slots.find? (fun g => g.slot == i)).getD ⟨i, 0, 0, none, 0, none, 1⟩
        some { g with strandId := e % 2 ^ 11, sid := sidOf (e % 2 ^ 11), mma := if e.testBit 14 then none else g.mma }
      else none) }

/-- Bytes of a team image slot. -/
def State.imagePart (s : State) (l : Launch) (slot off n : Nat) : Option (List Byte) := s.sysRead (l.ctx (s.savedOff l slot + off)) n

/-- What is read of a team image past its header: special and team registers, keyrings, strand blocks, captured records, registers. -/
structure ImageParts where
  sregs : List Byte
  rings : List Byte
  blocks : List Byte
  stalls : Option (List Byte)
  regs : List Byte

/-- The strands of a team from its image. -/
def State.loadStrands (s : State) (t : SavedTeam) (k : Kernel) (h : TeamHeader) (scope core names ages : Nat) (p : ImageParts) : List Strand :=
  (List.range h.strands).filterMap (fun i =>
    let y := t.strandAt names i
    s.loadStrand (courseOf core) t.tid ages y scope (leNat ((p.blocks.drop (256 * i)).take 256)) (bytesWords ((p.regs.drop (4 * i * k.regs)).take (4 * k.regs)))
      (match p.stalls with
        | some b => bytesImage ((b.drop (128 * i)).take 128)
        | none => 0))

/-- A team from its image and its scratchpad. -/
def Launch.loadedTeam (l : Launch) (t : SavedTeam) (k : Kernel) (h : TeamHeader) (core names : Nat) (p : ImageParts) (sc : List Byte) : Team :=
  { Team.fresh t.tid (l.seqAt h.seq) h.gangId h.teamId t.kind k l.cmd.image core h.strands with
    block := t.block,
    sregs := Vector.ofFn (fun (i : Fin 64) => BitVec.ofNat 32 (leNat ((p.sregs.drop (4 * i.1)).take 4))),
    keyrings := Vector.ofFn (fun (i : Fin 16) =>
      (t.rings.get i).restore (fun n => (t.strandAt names n).sid) ((p.rings.drop (256 * i.1)).take 256)),
    scratch := memPutL 0 sc [], rgu := h.rgu, scu := h.scu, l1u := h.l1u }

/-- A strand in LATCH whose PHASE differs from its token is READY at once (R365). -/
def Strand.compareLatch (sc : Bytes) (x : Strand) : Strand :=
  match x.state with
  | .latch a tok _ => if latchPhase sc a != tok then { x with state := .ready } else x
  | _ => x

/-- Put a loaded team on the die: monitors are read again, PHASE is compared, and its image slot becomes free. -/
def State.putLoaded (s : State) (l : Launch) (slot : Nat) (tm : Team) (xs : List Strand) : Option State :=
  let s : State := { s with teams := s.teams ++ [tm], strands := s.strands ++ xs.map (Strand.compareLatch tm.scratch) }
  (xs.foldl (fun (s : State) (x : Strand) => match x.state with | .monitor _ => s.fly x.tid (.monitorRead x.sid) | _ => s) s).areaWrite (l.ctx (s.savedOff l slot)) [0]

/-- Restore one team on a core from its image, with ages counted from `ages`; none when a STATE code or the area is bad. -/
def State.loadTeam (s : State) (l : Launch) (scope ages : Nat) (t : SavedTeam) (core : Nat) : Option State :=
  (s.imageHead l t.slot).bind (fun h =>
    let k := l.kernelAt t.kind h.kdesc
    let n := h.strands
    let at' := s.imagePart l t.slot
    match at' 0x100 0x1000, at' 0x1000 0x1000, at' 0x2000 (256 * n), at' (regsOff k n) (4 * n * k.regs), at' (scratchOff k n) (4096 * h.scu) with
    | some sr, some kr, some bl, some rg, some sc =>
      let p : ImageParts := ⟨sr, kr, bl, if k.kind = 0 then none else at' (stallOff n) (128 * n), rg⟩
      let names := s.nextId
      let s : State := { s with nextId := s.nextId + n }
      let xs := s.loadStrands t k h scope core names ages p
      if xs.length < n then none else s.putLoaded l t.slot (l.loadedTeam t k h core names p sc) xs
    | _, _, _, _, _ => none)

/-- The ring at a header of a restored team, served as though published with its saved PROD: CONS and DONE are those of the scratchpad
image, and nothing is published before (R342, R358). -/
def State.serveRing (s : State) (tid base : Nat) : State :=
  let num (a : Nat) : Word := BitVec.ofNat 32 (leNat (readN (s.scratchGet tid) a 4))
  let old := (s.ring? tid base).getD (Ring.fresh tid base)
  let r := { old with cons := num (base + 20), done := num (base + 24), target := num (base + 20), pars := [] }
  let s : State := { s with rings := s.rings.filter (fun q => !(q.tid == tid && q.base == base)) ++ [r] }
  let s := s.publish tid base none (num base)
  (s.ring? tid base).elim s (fun r => s.settlePubs r)

/-- Every ring that a binding of a restored team exposes is served. -/
def State.serveRings (s : State) (tid : Nat) : State :=
  (((s.bindings.filter (fun b => b.tid == tid && b.ring)).map (fun b => 4096 * b.soff)).eraseDups).foldl (fun s base =>
    s.serveRing tid base) s

/-- After a resume: answers given while saved, .E forms granted while saved, whose records free slots, OWNCORE, rings (R298, R342,
R355, R378). -/
def State.afterLoad (s : State) (t : SavedTeam) (core : Nat) : State :=
  let s := t.strands.foldl (fun s y =>
    let s := match y.answer with
      | some (a, kind, acc, va, frid) =>
        if (s.strand? y.sid).elim false (fun x => match x.state with | .faultHeld k => y.held == some k | _ => false) then
          s.answerStrand y.sid a kind acc va frid
        else s
      | none => s
    if y.granted = some true then (s.endStrand y.sid).grants else s) s
  ((s.bindings.filter (fun b => b.tid == t.tid)).foldl (fun s b => s.putMapping b.entry 6 [BitVec.ofNat 8 core]) s).serveRings t.tid

/-! ### Resume: placement (R31, R246, R279) -/

/-- The first success among some choices. -/
def firstSome {α β : Type} (f : α → Option β) : List α → Option β
  | [] => none
  | x :: xs => match f x with | some y => some y | none => firstSome f xs

/-- Whether a launch holds slots or buffers on the courses where it stands: then each of its course blocks has a course of its own. -/
def Launch.claims (l : Launch) : Bool := decide (l.cmd.tslots ≠ 0) || l.cmd.obMask != 0

/-- Courses that an unadmitted launch of higher priority, which lacks room, holds against the resumes of a launch (R276, R278). -/
def State.heldFrom (s : State) (l : Launch) : BitVec 32 :=
  s.turnOf.foldl (fun (m : BitVec 32) q => match s.launch? q with
    | some h => if l.prio < h.prio then m ||| h.courses else m
    | none => m) 0

/-- Courses that block k of a launch may go to. -/
def State.blockCourses (s : State) (l : Launch) (k : Nat) (order : List Nat) : List Nat :=
  let held := s.heldFrom l
  match s.teams.find? (fun t => t.seq == l.seq && t.block == k) with
  | some t => [courseOf t.core].filter (fun c => !held.getLsbD c)
  | none =>
    if l.ext.isSome then [l.nthCourse k].filter (fun c => !(s.course c).fenced && !held.getLsbD c)
    else
      let free := s.openCourses l held
      order.filter (fun c => free.contains c && !(l.claims && s.teams.any (fun t => t.seq == l.seq && courseOf t.core == c)))

/-- Units and strands that a saved team needs. -/
def State.savedNeed (s : State) (l : Launch) (t : SavedTeam) : Nat × Nat :=
  match s.imageHead l t.slot with
  | some h => (h.units, h.strands - (t.strands.filter (fun y => y.ended)).length)
  | none => (0, 0)

/-- A core for each of some teams, the teams of one block on one course (R246): the first assignment there is, with the units and
strands that the ones before it take. -/
def State.seat (s : State) (l : Launch) (order : List Nat) : List SavedTeam → List (Nat × Nat) → List (Nat × Nat × Nat) →
    Option (List (SavedTeam × Nat))
  | [], _, _ => some []
  | t :: r, blocks, used =>
    let courses := match blocks.find? (fun b => b.1 == t.block) with
      | some b => [b.2]
      | none => (s.blockCourses l t.block order).filter (fun c => !(l.claims && blocks.any (fun b => b.2 == c)))
    let need := s.savedNeed l t
    firstSome (fun k =>
      let mine := used.filter (fun e => e.1 == k)
      if s.coreFits k (need.1 + (mine.map (·.2.1)).sum) (need.2 + (mine.map (·.2.2)).sum) then
        (State.seat s l order r ((t.block, courseOf k) :: blocks) ((k, need.1, need.2) :: used)).map (fun q => (t, k) :: q)
      else none) (courses.flatMap coresOf)

/-- Where a saved gang or team can go now, trying courses in an order. -/
def State.placeSaved (s : State) (l : Launch) (v : Saved) (order : List Nat) : Option (List (SavedTeam × Nat)) :=
  s.seat l order v.teams [] []

/-- Whether a saved gang or team may be restored now, room apart: some strand of a team saved for its stalls has its slot. -/
def Launch.mayResume (l : Launch) (v : Saved) : Bool :=
  l.state == .admitted && !l.spilled && !l.saving && (!v.stalled || v.teams.any (fun t => t.strands.any (fun y => y.granted.isSome)))

/-- The pages of an operand, made afresh; those that are gone are left out. -/
def Operand.again (s : State) (c : Nat) : Operand → Operand
  | .mem d pages => .mem d (pages.filterMap (fun e =>
      match s.check c (BitVec.ofNat 64 (e.1 * 65536)) 1 0 (fun _ => true) with
      | .ok a => some (e.1, a.pa)
      | .error _ => none))
  | o => o

/-- A saved round as its image and fresh translations of its operand pages and of the tile that it was issued for give it (R226,
R352). None when the image cannot be read. -/
def State.reloadRound (s : State) (l : Launch) (c : Nat) (v : SavedRound) : Option Round :=
  (s.readParts l (roundOff v.block v.index) v.round.parts).map (fun ps =>
    let r := v.round.withParts ps
    let tile := s.reAcc c ⟨r.tileVa, r.tilePa, r.page⟩
    { r with a := r.a.again s c, b := r.b.again s c, tilePa := tile.pa, page := tile.page })

/-- Put a saved round back in its course. -/
def State.requeue (s : State) (c : Nat) (queued : Bool) (r : Round) : State :=
  s.modCourse c (fun x => if queued then { x with queue := x.queue ++ [.round r] } else { x with waiting := x.waiting ++ [r] })

/-- Put the saved rounds of a gang back, in completion order: as many of each block as its saved round count says, of the images that the
block had before (R246, R381, R383). -/
def State.requeueAll (s : State) (l : Launch) (courseFor : Nat → Nat) (before : State) : List SavedRound → Option State
  | [] => some s
  | v :: r =>
    let rank := ((before.blockRounds l.seq v.block).filter (fun w => decide (w.index < v.index))).length
    match s.sysRead (l.ctx (blockOff v.block + 0x10400)) 4 with
    | none => none
    | some bs =>
      if leNat bs ≤ rank then State.requeueAll s l courseFor before r
      else match s.reloadRound l (courseFor v.block) v with
        | none => none
        | some q => State.requeueAll (s.requeue (courseFor v.block) v.queued q) l courseFor before r

/-- A lane of an LDA that stood in a save: its address made afresh; if it has none any more its destination words take values the spec
does not state, the free values from n on (log 60). -/
def State.againLane (s : State) (c n : Nat) (l : LaneLoad) : LaneLoad :=
  match s.check c l.acc.va 1 0 (fun _ => true) with
  | .ok a => { l with acc := a }
  | .error _ => if l.came.isSome then l
    else { l with came := some (spanWords l.d ((List.range l.width.regs).map (fun i => (Config.freeWord (n + i)).lo))) }

/-- Put a kept operation back in flight. -/
def State.refly (s : State) (f : Flight) : State :=
  let c := s.teamCourse f.tid
  let op : FlightOp := match f.op with
    | .load sids ls sc o far buf kind => .load sids (ls.zipIdx.map (fun e => s.againLane c (s.fresh + 4 * e.2) e.1)) sc o far buf kind
    | .tclr sids a bind slot seed => .tclr sids (s.reAcc c a) bind slot seed
    | op => op
  let used := match f.op with | .load _ ls _ _ _ _ _ => 4 * ls.length | _ => 0
  { s with flights := s.flights ++ [{ f with core := s.coreOf f.tid, op := op }], fresh := s.fresh + used }

/-- Claim and load the blocks, with their courses, that no team of the launch stands on yet. -/
def loadBlocks (l : Launch) : List (Nat × Nat) → State → Option State
  | [], s => some s
  | (k, c) :: r, s =>
    if s.claimed c l.seq || !l.claims then loadBlocks l r s
    else ((s.claim c l).readBlock l c k).bind (fun s => loadBlocks l r s)

/-- Load the teams of a saved gang on their cores. -/
def loadTeams (l : Launch) (scope ages : Nat) : List (SavedTeam × Nat) → State → Option State
  | [], s => some s
  | t :: r, s => (s.loadTeam l scope ages t.1 t.2).bind (fun s => loadTeams l scope ages r s)

/-- The barrier's scope and arrivals in the header of the gang's team 0, if it is saved with a gang. -/
def State.savedBarrier (s : State) (l : Launch) (v : Saved) : Option (Nat × Nat) :=
  ((v.teams.filter (fun t => t.kind == .gang)).filterMap (fun t => s.imageHead l t.slot)).findSome? (fun h =>
    if h.teamId = 0 then some (h.syncs, h.synca) else none)

/-- Arrivals that a header counts beyond the restored strands in LATCH at SYNCG (R383). -/
def State.countArrivals (s : State) (l : Launch) (v : Saved) (n : Nat) : State :=
  let tids := v.teams.map (·.tid)
  let have' := s.strands.countP (fun x => tids.contains x.tid && x.atBarrier)
  match s.teams.find? (fun t => tids.contains t.tid && t.seq == l.seq && t.teamId == 0) with
  | some t => s.modTeam t.tid (fun t => { t with extra := (n : Int) - (have' : Nat) })
  | none => s

/-- Restore a saved gang or team whole. -/
def State.restore (s : State) (l : Launch) (v : Saved) (pairs : List (SavedTeam × Nat)) : State :=
  let courseFor (k : Nat) : Nat := ((pairs.find? (fun p => p.1.block == k)).map (fun p => courseOf p.2)).getD 0
  let before := s
  let gone : State := { s with saved := s.saved.filter (fun w => !(w.seq == v.seq && w.gangId == v.gangId && w.teams.map (·.tid) == v.teams.map (·.tid))) }
  let sync := s.savedBarrier l v
  match (loadBlocks l ((pairs.map (fun p => (p.1.block, courseOf p.2))).eraseDups) gone).bind (fun s =>
      (loadTeams l ((sync.map (·.1)).getD 0) s.nextId pairs s).bind (fun t =>
        { t with nextId := t.nextId + 2 ^ 32 }.requeueAll l courseFor before v.rounds)) with
  | none => gone.endLaunch l.seq 6
  | some s =>
    let s := match sync with
      | some n => s.countArrivals l v n.2
      | none => s
    let s := v.flights.foldl (fun s f => s.refly f) s
    pairs.foldl (fun s p => s.afterLoad p.1 p.2) s

/-! ### Resume: records (R303, R384) -/

/-- A slot of a spilled course: index, image, state word, what was kept. -/
structure Spilt where
  idx : Nat
  image : BitVec 1024
  st : Nat
  kept : Kept
  deriving DecidableEq, Repr

def Spilt.code (p : Spilt) : Nat := p.st / 2 ^ 43 % 8
def Spilt.rank (p : Spilt) : Nat := p.st / 2 ^ 48 % 2 ^ 14

/-- Insert by rank. -/
def insertRank (p : Spilt) : List Spilt → List Spilt
  | [] => [p]
  | q :: r => if p.rank ≤ q.rank then p :: q :: r else q :: insertRank p r

def sortRank : List Spilt → List Spilt
  | [] => []
  | p :: r => insertRank p (sortRank r)

/-- The record a slot holds again; one held on a brick read waits for the record that its FRID names, unless that has been answered. -/
def State.toRec (s : State) (p : Spilt) (seq : Nat) : Rec :=
  let ch := p.st / 2 ^ 64 % 2 ^ 16
  ⟨p.idx, seq, if ch = 0xFFFF then none else some ch,
    (if p.code = 3 then .owned
     else if p.code = 4 ∧ p.kept.answer.isNone then .held (s.causeOf p.kept.held (p.st / 2 ^ 96 % 2 ^ 32))
     else .binned), keptImage (p.kept.vis.isNone && ch != 0xFFFF) p.image, p.kept.vis, p.kept.side, p.kept.err⟩

/-- The key that a record's image gives it on its own: of a ray, or of a continuation record (R289). -/
def Rec.ownKey (r : Rec) (e : Ext) : Key :=
  if r.vis.isSome ∨ r.charge.isNone then travKey e r.image else .node (field r.image 64 16) (field r.image 80 8)

/-- Rebuild one course from its block; none when it cannot be read or an SSTATE is of no state. -/
def State.readSpill (s : State) (l : Launch) (e : Ext) (c k : Nat) : Option State :=
  match s.sysRead (e.spillOff k) (144 * e.quota + 16448) with
  | none => none
  | some bs =>
    let at' (off n : Nat) : Nat := leNat ((bs.drop off).take n)
    let slots : List Spilt := (List.range e.quota).map (fun i =>
      ⟨i, BitVec.ofNat 1024 (at' (128 * i) 128), at' (128 * e.quota + 16 * i) 16,
        (l.kept.find? (fun x => x.course == k && x.idx == i)).getD ⟨k, i, none, none, 0, none, none, none⟩⟩)
    let live := slots.filter (fun p => p.code != 0)
    if live.any (fun p => decide (4 < p.code)) then none
    else
      let old := (s.course c).bins
      let binKey (b : Nat) : Option Key := Key.ofBits (at' (144 * e.quota + 16 * b) 16)
      let keyOf (p : Spilt) : Key :=
        (if p.st.testBit 42 then p.kept.key else binKey (p.st / 2 ^ 32 % 2 ^ 10)).getD ((s.toRec p l.seq).ownKey e)
      let t (p : Spilt) : Int := (s.now : Int) - (p.st % 2 ^ 32 : Nat)
      let s := s.modCourse c (fun x => { x with recs := x.recs ++ live.map (fun p =>
        let r := s.toRec p l.seq
        { r with vis := r.vis.map (s.reAcc c) }) })
      let s := (live.filter (fun p => p.code == 2)).foldl (fun s p =>
        s.modCourse c (fun x => x.join l.seq p.idx (travKey e p.image) s.now)) s
      let binned := live.filter (fun p => p.code == 1 || p.code == 4)
      let s := (sortRank (binned.filter (fun p => !p.st.testBit 42)) ++ sortRank (binned.filter (fun p => p.st.testBit 42))).foldl
        (fun s p => s.modCourse c (fun x => x.join l.seq p.idx (keyOf p) (t p))) s
      let off := 144 * e.quota + 16384
      let last := at' (off + 4) 4
      let cur := (List.range 1024).find? (fun b => (at' (144 * e.quota + 16 * b) 16).testBit 64)
      let s := s.modCourse c (fun x =>
        let x := if last = 2 ^ 32 - 1 then x else { x with lastCur := some last, lastSeq := l.seq }
        match cur.bind binKey, x.curBin with
        | some key, none =>
          match x.bins.find? (fun b => b.seq == l.seq && b.key == key) with
          | some b => { x with curBin := some b.idx, served := at' (off + 8) 4 }
          | none => x
        | _, _ => x)
      let s := s.triggerFull c old
      some (if k = 0 then s.modLaunch l.seq (fun l => { l with placed := at' off 4 }) else s)

def readSpills (l : Launch) (e : Ext) : List (Nat × Nat) → State → Option State
  | [], s => some s
  | b :: r, s => (s.readSpill l e b.1 b.2).bind (fun s => readSpills l e r s)

/-- Bring a spilled pool back: quotas and claims first, then every block, answers given meanwhile last. -/
def State.unspill (s : State) (l : Launch) (e : Ext) : State :=
  match s.claimRecords l e 0 with
  | none => s
  | some s =>
    let cs := l.courseList.zipIdx
    match (loadBlocks { l with ext := none } (cs.map (fun c => (c.2, c.1))) (cs.foldl (fun s c => s.unclaim c.1 l.seq) s)).bind
        (fun s => readSpills l e cs s) with
    | none => s.endLaunch l.seq 6
    | some s =>
      let s := { s with nextId := s.nextId + 1 }.modLaunch l.seq (fun l => { l with spilled := false, kept := [] })
      let s := l.kept.foldl (fun s k =>
        match k.answer with
        | some a =>
          if a = 2 then s
          else
            let c := l.nthCourse k.course
            (s.modRec c l.seq k.idx (fun r => { r with err := 0xFF01 })).finishRay c l.seq k.idx 0
        | none => s) s
      (cs.foldl (fun s c => s.formFull c.1) s).grants

/-- GANG_RESUME: a saved gang or team is restored whole; a spilled pool comes back before its teams. -/
def execGangResume (seq gang : Nat) (s : State) : Host.Outcome State Fault Refusal :=
  match s.launch? seq with
  | none => .next s
  | some l =>
    match l.spilled, l.ext with
    | true, some e => .next (if l.state == .admitted && s.heldFrom l &&& l.courses == 0 then s.unspill l e else s)
    | _, _ =>
      match s.saved.find? (fun v => v.seq == seq && v.gangId == gang) with
      | none => .next s
      | some v =>
        if l.mayResume v then
          let q := s.free
          let cs := l.courseList
          let k := q.1.toNat % max 1 cs.length
          match q.2.placeSaved l v (cs.drop k ++ cs.take k) with
          | some pairs => .next (q.2.restore l v pairs)
          | none => .next s
        else .next s

/-- STALLED_TEAM_SAVE: a formed wave has waited for room beyond WAVETO; the oldest team of its launch on the course whose
every live strand is stalled on a record is saved (R294). -/
def State.stalledTeam (s : State) (c seq : Nat) : Option Team :=
  s.teams.find? (fun t =>
    let xs := s.strands.filter (fun x => x.tid == t.tid && x.state != .ended)
    t.seq == seq && t.kind != .gang && courseOf t.core == c && !t.saving && !xs.isEmpty &&
      xs.all (fun x => match x.state with | .recordStall _ => true | _ => false))

def execStalledTeamSave (course : Nat) (s : State) : Host.Outcome State Fault Refusal :=
  let late := (s.course course).waves.filter (fun w => (s.extOf w.seq).elim false (fun e => decide (e.waveTo < s.now - w.since)))
  match firstSome (fun (w : Wave) => (s.stalledTeam course w.seq).map (fun t => (w.seq, t))) late with
  | none => .next s
  | some (seq, t) =>
    match s.launch? seq with
    | none => .next s
    | some l =>
      if l.state ≠ .admitted then .next s
      else .next (s.saveOrForm l t.teamId true [t])

end Sys2Proof.Machine
end

