-- ==== Sys2Proof/Machine/Admission.lean ====
section
/-! DEFINITION. Admission turns and victims, entry records, waves, and the ends of teams and launches (R20, R30, R32, R268,
R273 to R279, R288, R292 to R294). -/

namespace Sys2Proof.Machine

/-! ### Admissibility (R273) -/

def Launch.final (l : Launch) : Bool := l.state == .completed || l.state == .faulted

/-- Whether a declared dependence is met. -/
def State.dependenceMet (s : State) (l : Launch) : Bool :=
  !l.cmd.depEn || decide (65535 < l.seq - l.cmd.depSeq) || (s.launch? l.cmd.depSeq).elim true Launch.final

/-- Whether an earlier launch of the same queue has still to be admitted: those are admitted in SEQ order. -/
def State.behind (s : State) (l : Launch) : Bool :=
  s.launches.any (fun m => m.queue == l.queue && decide (m.seq < l.seq) && m.state == .accepted)

/-- The launch of the same queue accepted last before a launch. -/
def State.predecessor (s : State) (l : Launch) : Option Launch :=
  (s.launches.filter (fun m => m.queue == l.queue && decide (m.seq < l.seq))).foldl (fun (r : Option Launch) m =>
    if r.elim true (fun q => decide (q.seq < m.seq)) then some m else r) none

def State.admissible (s : State) (l : Launch) : Bool :=
  l.state == .accepted && s.dependenceMet l && !s.behind l &&
    (s.predecessor l).elim true (fun p => p.final || (l.cmd.overlap && p.state != .accepted))

/-! ### The order of a turn (R276) -/

/-- Whether a launch has gangs still to be placed. -/
def Launch.unplaced (l : Launch) : Bool :=
  l.state == .admitted && l.ext.isNone && l.count.elim false (fun n => decide (l.placed < n))

/-- Admissible launches of a priority: those that keep their turn, then queue by queue after the one last admitted. -/
def State.candidates (s : State) (prio : Nat) : List Launch :=
  let ok (l : Launch) : Bool := l.prio == prio && s.admissible l
  let held := (s.turnOf.filterMap s.launch?).filter ok
  held ++ ((List.range 64).map (fun i => (s.rrAdmit + i) % 64)).flatMap (fun q =>
    s.launches.filter (fun l => l.queue == q && ok l && !s.turnOf.contains l.seq))

/-- What a turn considers: by priority, the unplaced gangs of admitted launches before the launches not admitted. -/
def State.turnOrder (s : State) : List Launch :=
  [7, 6, 5, 4, 3, 2, 1, 0].flatMap (fun p => s.launches.filter (fun l => l.prio == p && l.unplaced) ++ s.candidates p)

/-- Courses that saved gangs of a priority or above hold against a launch that is not admitted (R279). -/
def State.resumeHolds (s : State) (prio : Nat) : BitVec 32 :=
  s.launches.foldl (fun (m : BitVec 32) l =>
    if decide (prio ≤ l.prio) && l.state == .admitted && (l.spilled || s.saved.any (fun v => v.seq == l.seq && l.mayResume v)) then
      m ||| l.courses else m) 0

/-! ### Victims (R278) -/

/-- A gang, or the whole of a record launch (none). -/
structure Victim where
  seq : Nat
  prio : Nat
  gang : Option Nat
  deriving DecidableEq, Repr

/-- Whether a team belongs to a victim. -/
def Victim.has (v : Victim) (t : Team) : Bool := t.seq == v.seq && v.gang.elim true (fun g => t.gangId == g)

/-- Lower priority first, then later SEQ, then higher GANGID. -/
def Victim.before (v w : Victim) : Bool :=
  decide (v.prio < w.prio) || (decide (v.prio = w.prio) && (decide (w.seq < v.seq) || (decide (w.seq = v.seq) &&
    decide (w.gang.getD 0 ≤ v.gang.getD 0))))

def insertVictim (v : Victim) : List Victim → List Victim
  | [] => [v]
  | w :: r => if v.before w then v :: w :: r else w :: insertVictim v r

def sortVictims : List Victim → List Victim
  | [] => []
  | v :: r => insertVictim v (sortVictims r)

/-- The victims that may be chosen for a launch, in order. A gang whose strands have all ended ends and is not saved (R28). -/
def State.victims (s : State) (l : Launch) : List Victim :=
  let on (t : Team) : Bool := l.courses.getLsbD (courseOf t.core) && !t.saving
  sortVictims ((s.launches.filter (fun m => m.state == .admitted && decide (m.prio < l.prio) && m.cmd.ctxAddr != 0)).flatMap (fun m =>
    let mine := s.teams.filter (fun t => t.seq == m.seq && on t)
    let live (v : Victim) : Bool := s.strands.any (fun x => x.state != .ended && (s.team? x.tid).elim false v.has)
    if m.ext.isSome then (if mine.isEmpty || m.saving || m.spilled then [] else [⟨m.seq, m.prio, none⟩])
    else (((mine.map (·.gangId)).eraseDups).map (fun g => (⟨m.seq, m.prio, some g⟩ : Victim))).filter live))

/-- The machine without some teams and the claims they leave, to see what fits. -/
def State.without (s : State) (gone : Team → Bool) (spilled : Launch → Bool) : State :=
  let tids := (s.teams.filter gone).map (·.tid)
  let left := s.teams.filter (fun t => !tids.contains t.tid)
  let s : State := { s with
    teams := left,
    strands := s.strands.filter (fun x => !tids.contains x.tid),
    launches := s.launches.map (fun l => if spilled l then { l with spilled := true } else l) }
  s.launches.foldl (fun s l =>
    l.courseList.foldl (fun s c =>
      if (l.ext.isSome && l.spilled) || (l.ext.isNone && l.state == .admitted && !left.any (fun t => t.seq == l.seq && courseOf t.core == c))
      then s.unclaim c l.seq else s) s) s

/-- Whether a launch's next gang, or its quotas and claims, would fit. -/
def State.fits (s : State) (l : Launch) (blocked : BitVec 32) : Bool :=
  match l.ext with
  | none => (s.placeGang l 0 blocked).isSome
  | some e => (s.claimRecords l e blocked).isSome

/-- The machine once what is being saved, and some victims, have gone. -/
def State.vacated (s : State) (vs : List Victim) : State :=
  s.without (fun t => t.saving || vs.any (fun v => v.has t)) (fun m => m.saving || vs.any (fun v => v.seq == m.seq && v.gang.isNone))

/-- The shortest run of victims that makes room. -/
def State.enough (s : State) (l : Launch) (blocked : BitVec 32) (vs : List Victim) : Option (List Victim) :=
  ((List.range (vs.length + 1)).map (fun n => vs.take n)).find? (fun ws => (s.vacated ws).fits l blocked)

/-- Mark teams of a launch for saving. -/
def State.markSaving (s : State) (v : Victim) : State :=
  let s : State := { s with teams := s.teams.map (fun t => if v.has t then { t with saving := true } else t) }
  if v.gang.isNone then s.modLaunch v.seq (fun l => { l with saving := true }) else s

/-- Choose victims for a launch that lacks room; when saving all of them would not make it, none. -/
def State.preempt (s : State) (l : Launch) (blocked : BitVec 32) : State :=
  match s.enough l blocked (s.victims l) with
  | some vs => vs.foldl (fun s v => s.markSaving v) s
  | none => s

/-! ### The turn (R275, R276) -/

/-- Read the indirect count once; none when GADDR cannot be read. -/
def State.readCount (s : State) (l : Launch) : State × Option Nat :=
  match l.count with
  | some n => (s, some n)
  | none =>
    match s.check unitCourse l.cmd.gaddr 4 accRead (·.read) with
    | .error _ => (s, none)
    | .ok a =>
      let n := leNat ((List.range 4).map (fun i => s.sysByte { a with va := a.va + BitVec.ofNat 64 i, pa := a.pa + i }))
      (s.modLaunch l.seq (fun l => { l with count := some n }), some n)

/-- The turn goes to the next queue. -/
def State.turnTaken (s : State) (l : Launch) : State :=
  { s with rrAdmit := (l.queue + 1) % 64, turnOf := s.turnOf.filter (· != l.seq) }

/-- Record a launch ADMITTED. -/
def State.enterAdmitted (s : State) (l : Launch) (placed : Nat) : State :=
  let s := (s.turnTaken l).modLaunch l.seq (fun m => { m with state := .admitted, placed := placed, tadm := m.elapsed s.now })
  match s.launch? l.seq with
  | some m => s.journal m 2 0 0
  | none => s

/-- A launch that lacks room keeps its turn, unless room is there and only the launches that keep theirs hold it. -/
def State.keepTurn (s : State) (l : Launch) : State :=
  if s.turnOf.contains l.seq || s.fits l (s.resumeHolds l.prio) then s else { s with turnOf := s.turnOf ++ [l.seq] }

/-- Whether a turn is a launch's own: it can be placed beside what others hold, or it keeps its turn, or it lacks room though no
launch held its set; its indirect count is read in no other turn (R275, R276). -/
def State.hasTurn (s : State) (l : Launch) (blocked : BitVec 32) : Bool :=
  l.courses &&& ~~~blocked != 0 && (s.turnOf.contains l.seq || s.fits l blocked || !s.fits l (s.resumeHolds l.prio))

/-- Place what one launch of the turn has to place: the machine, and whether it did or has finished. -/
def State.tryAdmit (s : State) (l : Launch) (blocked : BitVec 32) : State × Bool :=
  if l.state = .admitted then
    match s.placeGang l l.placed blocked with
    | some s => (s.modLaunch l.seq (fun m => { m with placed := m.placed + 1 }), true)
    | none => (s, false)
  else if !s.hasTurn l blocked then (s, false)
  else
    let r := s.readCount l
    match r.2 with
    | none => (({ r.1 with turnOf := r.1.turnOf.filter (· != l.seq) } : State).finishLaunch l.seq 5, true)
    | some 0 =>
      ((((r.1.turnTaken l).modLaunch l.seq (fun m => { m with tadm := m.elapsed s.now })).finishLaunch l.seq 0), true)
    | some _ =>
      let lacking : State × Bool := (r.1.keepTurn l, false)
      match l.ext with
      | none =>
        match r.1.placeGang l 0 blocked with
        | some s => (s.enterAdmitted l 1, true)
        | none => lacking
      | some e =>
        match r.1.claimRecords l e blocked with
        | some s => (s.enterAdmitted l 0, true)
        | none => lacking

/-- Go through a turn: an admitted launch with gangs to place, and a launch that keeps its turn, hold their sets against those that
follow; the first launch that keeps its turn looks for victims. A launch whose whole set is held is passed over: it is not its turn,
and its indirect count is not read (R275, R276). -/
def admissionScan : List Launch → BitVec 32 → Bool → State → State
  | [], _, _, s => s
  | l :: r, blocked, looked, s =>
    let fresh := l.state == .accepted
    let mask := if fresh then blocked ||| s.resumeHolds l.prio else blocked
    let q := s.tryAdmit l mask
    if q.2 then q.1
    else
      let keeps := q.1.turnOf.contains l.seq
      let s := if fresh && keeps && !looked then q.1.preempt l mask else q.1
      admissionScan r (if fresh && !keeps then blocked else blocked ||| l.courses) (looked || (fresh && keeps)) s

/-- ADMISSION_TURN. -/
def execAdmissionTurn (s : State) : Host.Outcome State Fault Refusal := .next (admissionScan s.turnOrder 0 false s)

/-! ### Entry records (R288) -/

/-- The image of entry record n. -/
def entryImage (node n : Nat) : BitVec 1024 :=
  contImage 0 node 0 0 (BitVec.ofNat 64 n) (leBytes 64 n)

/-- ENTRY_RECORD_CREATE. -/
def execEntryRecordCreate (seq : Nat) (s : State) : Host.Outcome State Fault Refusal :=
  match s.launch? seq with
  | none => .next s
  | some l =>
    let c := l.nthCourse l.placed
    let node := l.kernel.nodeIdx
    if l.state == .admitted && l.ext.isSome && !l.saving && !l.spilled && l.count.elim false (fun n => decide (l.placed < n)) &&
        s.slotFree c seq (some node) then
      .next ((s.newRec c seq (some node) (entryImage node (l.placed % 2 ^ 32)) none false).modLaunch seq (fun m =>
        { m with placed := m.placed + 1 }))
    else .next s

/-! ### Waves (R32, R292, R293) -/

/-- Whether a launch's waves form and are placed. -/
def Launch.flows (l : Launch) : Bool := l.state == .admitted && !l.saving && !l.spilled

/-- The cycle in which the oldest record of a SHADE or NODE bin has waited more than WAVETO cycles, if it has come, and the width of
the wave. -/
def State.dueBin (s : State) (b : Bin) : Option (Int × Nat) :=
  match s.launch? b.seq with
  | none => none
  | some l =>
    match l.ext.bind (fun e => (e.keyKernel b.key).map (fun k => (e, k))), b.recs with
    | some (e, k), (_, t) :: _ => if l.flows && decide ((e.waveTo : Int) < s.now - t) then some (t + e.waveTo + 1, k.width) else none
    | _, _ => none

/-- The wave of a bin that is due forms, in the cycle in which it became due: no record that arrives later joins it. -/
def State.timeOut (s : State) (course : Nat) (b : Bin) : State :=
  match s.dueBin b with
  | some (cycle, w) => (s.formWave course b w cycle.toNat).formFull course
  | none => s

/-- The bin of a course that became due first. -/
def State.nextDue (s : State) (c : Nat) : Option Bin :=
  ((s.course c).bins.foldl (fun (m : Option (Int × Bin)) b =>
    match s.dueBin b, m with
    | some (t, _), some (u, d) => if t < u ∨ (t = u ∧ b.idx < d.idx) then some (t, b) else some (u, d)
    | some (t, _), none => some (t, b)
    | none, m => m) none).map (·.2)

def State.timeOutN (c : Nat) : Nat → State → State
  | 0, s => s
  | n + 1, s =>
    match s.nextDue c with
    | none => s
    | some b => State.timeOutN c n (s.timeOut c b)

/-- Every bin whose oldest record has waited too long forms its wave, in the order in which they became due. -/
def State.timeOuts (s : State) : State :=
  (List.range s.courses.length).foldl (fun s c => s.timeOutN c (s.course c).recs.length) s

/-- WAVE_TIMEOUT. -/
def execWaveTimeout (course bin : Nat) (s : State) : Host.Outcome State Fault Refusal :=
  match (s.course course).bins.find? (fun b => b.idx == bin) with
  | none => .next s
  | some b => .next (s.timeOut course b)

/-- The rank of a wave: SHADE first, then NODE by (LEVEL, RDEPTH), the deepest first. -/
def State.waveRank (s : State) (w : Wave) : Nat :=
  match w.key with
  | .shade _ _ => 2 ^ 32
  | .node n d => (s.extOf w.seq).elim 0 (fun e => e.level n) * 256 + d
  | .trav _ _ => 0

/-- Whether a wave is placed before another. -/
def State.waveBefore (s : State) (v w : Wave) : Bool :=
  decide (s.waveRank w < s.waveRank v) || (decide (s.waveRank v = s.waveRank w) && decide (v.order < w.order))

/-- Cores of a course that have room for a wave. -/
def State.waveCores (s : State) (c : Nat) (w : Wave) : List Nat :=
  match s.launch? w.seq, (s.extOf w.seq).bind (fun e => e.keyKernel w.key) with
  | some l, some k =>
    if l.flows && !(s.course c).fenced then
      (coresOf c).filter (fun core => s.coreFits core (k.need w.recs.length) w.recs.length) else []
  | _, _ => []

/-- Whether a team saved for its stalls is to be restored on a course ahead of its waves (R294). -/
def State.stalledFirst (s : State) (c : Nat) : Bool :=
  s.saved.any (fun v => v.stalled && (s.launch? v.seq).elim false (fun l =>
    l.mayResume v && v.teams.any (fun t => l.nthCourse t.block == c) && (s.placeSaved l v l.courseList).isSome))

/-- Place a wave on a core. Its team is of no gang: GANGID reads 0 in it (DESIGN CHOICE, log 65). -/
def State.placeWave (s : State) (c : Nat) (w : Wave) (l : Launch) (k : Kernel) (core : Nat) : State :=
  let t : Team := { Team.fresh s.nextId l.seq 0 l.waves w.key.kind k l.cmd.image core w.recs.length with block := l.ordinal c }
  ((s.addTeam t w.recs.length (s.waveStrand l w k c s.nextId)).modCourse c (fun x =>
    { x with waves := x.waves.filter (fun v => v.order != w.order) })).modLaunch l.seq (fun m => { m with waves := m.waves + 1 })

/-- WAVE_PLACE: the highest-ranked wave that heads its launch's waves on the course and has room. -/
def execWavePlace (course : Nat) (s : State) : Host.Outcome State Fault Refusal :=
  let ws := (s.course course).waves
  let heads := ws.filter (fun w => !ws.any (fun v => v.seq == w.seq && s.waveBefore v w))
  let ready := heads.filter (fun w => !(s.waveCores course w).isEmpty)
  match ready.find? (fun w => !ready.any (fun v => s.waveBefore v w)) with
  | none => .next s
  | some w =>
    match s.launch? w.seq, (s.extOf w.seq).bind (fun e => e.keyKernel w.key), s.pick (s.waveCores course w) with
    | some l, some k, some (core, t) => .next (if s.stalledFirst course then s else t.placeWave course w l k core)
    | _, _, _ => .next s

/-! ### The end of a team (R20) -/

/-- Work of a team that still needs its carve-out or its course: stores not accepted or to be acted on, operand reads, buffer
writes. -/
def State.teamBusy (s : State) (tid : Nat) : Bool :=
  s.flights.any (fun f => f.tid == tid && (f.op.acted || (f.acc.isNone && (f.op.writes || (match f.op with
    | .obst _ _ _ _ => true
    | _ => false))))) ||
  s.courses.any (fun c => c.rounds.any (fun r => r.tid == tid &&
    !(r.a.fromRegs && r.b.fromRegs) && !c.running.any (fun g => g.r.stamp == r.stamp && g.ops.isSome))) ||
  s.rings.any (fun r => r.tid == tid && (!r.begun.isEmpty || r.done != r.target))

/-- TEAM_CARVEOUT_RELEASE. -/
def execTeamCarveoutRelease (tid : Nat) (s : State) : Host.Outcome State Fault Refusal :=
  match s.team? tid with
  | none => .next s
  | some t =>
    if s.strands.any (fun x => x.tid == tid && x.state != .ended) || s.teamBusy tid then .next s
    else .next ((s.drainCourse (courseOf t.core)).dropTeam tid).settleFences

/-! ### The end of a launch (R268, R274) -/

/-- Whether work of a launch that runs remains on the die or saved. -/
def State.working (s : State) (l : Launch) : Bool :=
  s.teams.any (fun t => t.seq == l.seq) || s.saved.any (fun v => v.seq == l.seq) || l.spilled ||
  s.courses.any (fun c => c.recs.any (fun r => r.seq == l.seq) || c.rounds.any (fun r => r.seq == l.seq)) ||
  l.count.elim true (fun n => decide (l.placed < n))

/-- What a launch holds that ends with it: claims and handles. -/
def State.freeLaunch (s : State) (l : Launch) : State :=
  (l.courseList.foldl (fun s c => s.unclaim c l.seq) s).freeHandles l.seq

/-- LAUNCH_RETIRE: the DIE-scope release of every course of the set, then COMPLETED. -/
def execLaunchRetire (seq : Nat) (s : State) : Host.Outcome State Fault Refusal :=
  match s.launch? seq with
  | none => .next s
  | some l =>
    if l.state == .admitted && !s.working l then
      let s := l.courseList.foldl (fun s c => (s.drainCourse c).beforeRelease c) s
      .next (((s.freeLaunch l).finishLaunch seq 0).settleFences)
    else .next s

/-- Discard the rounds of a launch on a course. Its rows in the gather table stay: they run, and their results are discarded (R255,
R262). -/
def Course.dropWork (x : Course) (seq : Nat) : Course :=
  { x with
    waiting := x.waiting.filter (fun r => r.seq != seq),
    queue := x.queue.filter (fun j => match j with
      | .round r => r.seq != seq
      | .tile _ => true) }

/-- Stop the work of a launch: the running round ends, accepted writes complete, loads and what is not accepted are
dropped. -/
def State.discard (s : State) (seq : Nat) : State :=
  let s := (List.range s.courses.length).foldl (fun s c =>
    let s := if (s.course c).running.any (fun g => g.r.seq == seq) then s.finishRunning c else s
    let s := if s.flights.any (fun f => f.seq == seq && courseOf f.core == c) then s.drainCourse c else s
    ((s.modCourse c (fun x => (x.dropRecords seq).dropWork seq)).triggerFull c (s.course c).bins).formFull c) s
  { s with flights := s.flights.filter (fun f => f.seq != seq), saved := s.saved.filter (fun v => v.seq != seq),
           turnOf := s.turnOf.filter (· != seq) }

/-- Teams of a saved gang hold keys, windows and rings that go with it. -/
def State.forgetSaved (s : State) (v : Saved) : State := v.teams.foldl (fun s t => s.dropTeam t.tid) s

/-- Whether rows of a launch stand in a gather table or in a tile that has still to run. -/
def State.rowsRun (s : State) (seq : Nat) : Bool :=
  s.courses.any (fun x => x.gather.any (fun e => e.rows.any (fun r => r.seq == seq)) ||
    x.queue.any (fun j => match j with
      | .tile e => e.rows.any (fun r => r.seq == seq)
      | .round _ => false))

/-- ABORT_COMPLETE: no bundle of the launch is in mid-clause, no engine runs an entry of its rings, no row of it stands in a gather
table or tile, and what a course cache accepted from it has been acted on; its state is discarded and it is recorded FAULTED (R268,
R374). -/
def execAbortComplete (seq : Nat) (s : State) : Host.Outcome State Fault Refusal :=
  match s.launch? seq with
  | none => .next s
  | some l =>
    match l.state with
    | .dying cause =>
      let mine (tid : Nat) : Bool := s.seqOf tid == seq && (s.team? tid).isSome
      if s.bundles.any (fun b => b.lanes.any (fun sid => (s.strand? sid).elim false (fun x => mine x.tid))) ||
          s.rings.any (fun r => mine r.tid && !r.begun.isEmpty) || s.rowsRun seq ||
          s.flights.any (fun f => f.seq == seq && f.acc.isSome && f.op.acted) then .next s
      else
        let gone := s.saved.filter (fun v => v.seq == seq)
        let s := gone.foldl (fun s v => s.forgetSaved v) (s.discard seq)
        let s := (s.teams.filter (fun t => t.seq == seq)).foldl (fun s t => s.dropTeam t.tid) s
        .next (((s.freeLaunch l).finishLaunch seq cause).settleFences)
    | _ => .next s

end Sys2Proof.Machine
end

