-- ==== Sys2Proof/Machine/Intersect.lean ====
section
/-! DEFINITION. Intersection tests on exact values: boxes, triangles, capsules and cubic curves, and the object-space ray
(R308, R309, R312, R314 to R316). Finite F32 values stand as integer multiples of 2 to the −149. -/

namespace Sys2Proof.Machine

/-! ### Values -/

/-- NaN or an infinity. -/
def FVal.bad (v : FVal) : Bool := v.isNan || v.isInf

def FVal.isZero : FVal → Bool
  | .zero _ => true
  | _ => false

def FVal.isNeg : FVal → Bool
  | .nan => false
  | .inf s => s
  | .zero s => s
  | .fin s _ _ => s

/-- Component k of a vector. -/
def axisOf (v : List FVal) (k : Nat) : FVal := v.getD k .nan

/-- rn on F32 values. -/
def rnV (v : FVal) : FVal := rnF32 false v

def FVal.sub (a b : FVal) : FVal := FVal.add .rn a b.neg

/-- A pattern with −0 made +0. -/
def plusZero (p : Nat) : Nat := if p = 2 ^ 31 then 0 else p

/-- Dot product of integer vectors. -/
def dotI (a b : List Int) : Int := (List.zipWith (fun (x y : Int) => x * y) a b).sum

def subI (a b : List Int) : List Int := List.zipWith (fun (x y : Int) => x - y) a b

/-! ### The object-space ray (R309) -/

/-- One row of the matrix, applied and rounded once. -/
def rowTimes (m : List FVal) (v : List FVal) (point : Bool) : FVal :=
  rnV (sumExact ((List.zipWith FVal.mul (m.take 3) v) ++ (if point then [axisOf m 3] else [])))

/-- Origin and direction in object space; none when the instance is to be passed by. -/
def objectRay (m : List FVal) (o d : List FVal) : Option (List FVal × List FVal) :=
  let rows := [m.take 4, (m.drop 4).take 4, (m.drop 8).take 4]
  let o' := rows.map (fun r => rowTimes r o true)
  let d' := rows.map (fun r => rowTimes r d false)
  if (o' ++ d').any FVal.bad || d'.all FVal.isZero then none else some (o', d')

/-! ### Boxes (R308, R312) -/

/-- A rational, its denominator positive. -/
structure Rat2 where
  n : Int
  d : Nat
  deriving DecidableEq, Repr

def Rat2.le (a b : Rat2) : Bool := decide (a.n * b.d ≤ b.n * a.d)

/-- n/d for a nonzero d. -/
def Rat2.of (n d : Int) : Rat2 := if d < 0 then ⟨-n, d.natAbs⟩ else ⟨n, d.natAbs⟩

def Rat2.max (a b : Rat2) : Rat2 := if a.le b then b else a
def Rat2.min (a b : Rat2) : Rat2 := if a.le b then a else b

/-- A bound of a segment as an integer multiple of 2 to the −149; infinities beyond every finite crossing. -/
def boundI (v : FVal) : Int :=
  match v with
  | .inf neg => if neg then -(2 ^ 2000) else 2 ^ 2000
  | v => fixed149 v

/-- Whether the segment meets the box on exact values. -/
def meetsBox (o d : List FVal) (tmin tmax : FVal) (lo hi : List Int) : Bool :=
  let start : Option (Rat2 × Rat2) := some (⟨boundI tmin, 2 ^ 149⟩, ⟨boundI tmax, 2 ^ 149⟩)
  let r := (List.range 3).foldl (fun (r : Option (Rat2 × Rat2)) k =>
    r.bind (fun q =>
      let ok := fixed149 (axisOf o k)
      let dk := fixed149 (axisOf d k)
      let l := lo.getD k 0
      let h := hi.getD k 0
      if h < l then none
      else if dk = 0 then (if l ≤ ok ∧ ok ≤ h then some q else none)
      else
        let a := Rat2.of (l - ok) dk
        let b := Rat2.of (h - ok) dk
        some (q.1.max (a.min b), q.2.min (a.max b)))) start
  r.elim false (fun q => q.1.le q.2)

/-! ### Triangles (R314, R315) -/

/-- A hit: T, U and V as F32 patterns, and its kind. -/
structure Hit where
  t : Nat
  u : Nat
  v : Nat
  kind : Nat
  deriving DecidableEq, Repr

/-- The axis of the greatest magnitude, lowest on ties. -/
def majorAxis (d : List FVal) : Nat :=
  let m (k : Nat) : Int := (fixed149 (axisOf d k)).natAbs
  if m 1 ≤ m 0 ∧ m 2 ≤ m 0 then 0 else if m 2 ≤ m 1 then 1 else 2

/-- An edge value whose rounded form is zero takes the sign of its edge, given as exact (ex, ey); whether it is negative. -/
def edgeNeg (ex ey : FVal) : Bool :=
  let up (v : FVal) : Bool := !v.isZero && !v.isNeg
  !(up ey || (ey.isZero && up ex))

/-- The triangle test; the facing is apart from kind 1 or 2 so that culling can be judged. -/
def triangle (o d a b c : List FVal) (flip : Bool) : Option (Hit × Bool) :=
  let kz := majorAxis d
  let k1 := (kz + 1) % 3
  let k2 := (kz + 2) % 3
  let swap := (axisOf d kz).isNeg
  let kx := if swap then k2 else k1
  let ky := if swap then k1 else k2
  let sx := rnV (FVal.div (axisOf d kx) (axisOf d kz))
  let sy := rnV (FVal.div (axisOf d ky) (axisOf d kz))
  let sz := rnV (FVal.div (.fin false 1 1) (axisOf d kz))
  let shear (p : List FVal) : List FVal :=
    let q := (List.range 3).map (fun k => rnV ((axisOf p k).sub (axisOf o k)))
    q ++ [rnV ((axisOf q kx).sub (FVal.mul sx (axisOf q kz))), rnV ((axisOf q ky).sub (FVal.mul sy (axisOf q kz))),
      rnV (FVal.mul sz (axisOf q kz))]
  let sa := shear a
  let sb := shear b
  let sc := shear c
  let x (v : List FVal) : FVal := axisOf v 3
  let y (v : List FVal) : FVal := axisOf v 4
  let z (v : List FVal) : FVal := axisOf v 5
  let cross (p q : List FVal) : FVal := (FVal.mul (x p) (y q)).sub (FVal.mul (y p) (x q))
  let exact := [cross sc sb, cross sa sc, cross sb sa]
  let round := exact.map rnV
  if ([sx, sy, sz] ++ sa ++ sb ++ sc ++ round ++ o ++ d ++ a ++ b ++ c).any FVal.bad then none
  else
    let e := if round.any FVal.isZero then exact else round
    let u := axisOf e 0
    let v := axisOf e 1
    let w := axisOf e 2
    let neg (q : FVal) (p r : List FVal) : Bool := if q.isZero then edgeNeg ((x r).sub (x p)) ((y r).sub (y p)) else q.isNeg
    let nu := neg u sb sc
    let nv := neg v sc sa
    let nw := neg w sa sb
    let det := sumExact [u, v, w]
    if nu != nv || nv != nw || det.isZero then none
    else
      let t := FVal.div (sumExact [FVal.mul u (z sa), FVal.mul v (z sb), FVal.mul w (z sc)]) det
      if (rnV t).bad then none
      else
        let front := !det.isNeg != flip
        some (⟨plusZero (rn32 t), plusZero (rn32 (FVal.div v det)), plusZero (rn32 (FVal.div w det)), if front then 1 else 2⟩, front)

/-! ### Roots of quadratics -/

/-- The real (−b ± √disc) / a, with a positive and disc not negative. -/
structure Surd where
  a : Int
  b : Int
  disc : Int
  plus : Bool
  deriving DecidableEq, Repr

/-- Whether a root is at most, or at least, n/d. -/
def Surd.le (r : Surd) (n : Int) (d : Nat) : Bool :=
  let y := r.b * d + r.a * n
  if r.plus then decide (0 ≤ y) && decide (r.disc * d * d ≤ y * y) else decide (0 ≤ y) || decide (y * y ≤ r.disc * d * d)

def Surd.ge (r : Surd) (n : Int) (d : Nat) : Bool :=
  let y := r.b * d + r.a * n
  if r.plus then decide (y ≤ 0) || decide (y * y ≤ r.disc * d * d) else decide (y ≤ 0) && decide (r.disc * d * d ≤ y * y)

/-- The real roots of a·t² + 2b·t + c. -/
def quadRoots (a b c : Int) : List Surd :=
  if a = 0 then (if b = 0 then [] else if 0 < b then [⟨2 * b, c, 0, false⟩] else [⟨-2 * b, -c, 0, false⟩])
  else if b * b < a * c then []
  else
    let a' := if a < 0 then -a else a
    let b' := if a < 0 then -b else b
    [⟨a', b', b * b - a * c, false⟩, ⟨a', b', b * b - a * c, true⟩]

/-- The magnitude of an F32 pattern as a multiple of 2 to the −149, and 2 to the 128 for the pattern after the last. -/
def magI (p : Nat) : Int := if p / 2 ^ 23 = 0 then ((p : Nat) : Int) else (((2 ^ 23 + p % 2 ^ 23) * 2 ^ (p / 2 ^ 23 - 1) : Nat) : Int)

/-- The greatest finite pattern with a property that falls from true to false, found bit by bit. -/
def lastPat (ok : Nat → Bool) : Nat → Nat → Nat
  | 0, p => p
  | n + 1, p => lastPat ok n (if decide (p + 2 ^ n < 0x7F800000) && ok (p + 2 ^ n) then p + 2 ^ n else p)

/-- rn of a root, as a pattern; an overflow gives the pattern of an infinity. -/
def Surd.rn (r : Surd) : Nat :=
  let neg := !r.ge 0 1
  let atLeast (v : Int) (d : Nat) : Bool := if neg then r.le (-v) d else r.ge v d
  let p := lastPat (fun q => atLeast (magI q) (2 ^ 149)) 31 0
  let mid := magI p + magI (p + 1)
  let past := atLeast mid (2 ^ 150)
  let exact := past && (if neg then r.ge (-mid) (2 ^ 150) else r.le mid (2 ^ 150))
  let q := if past && (!exact || p % 2 == 1) then p + 1 else p
  q + (if neg then 2 ^ 31 else 0)

/-- An order key of F32 patterns. -/
def patKey (p : Nat) : Int := if p < 2 ^ 31 then ((p : Nat) : Int) else -((p - 2 ^ 31 : Nat) : Int) - 1

/-! ### Capsules and curves (R316) -/

/-- Whether n/d lies between a root and a bound: all or any of some roots against a bound. -/
def allGe (rs : List Surd) (v : FVal) : Bool :=
  match v with
  | .inf neg => neg
  | v => rs.all (fun r => r.ge (fixed149 v) (2 ^ 149))

def anyGe (rs : List Surd) (v : FVal) : Bool :=
  match v with
  | .inf neg => neg
  | v => rs.any (fun r => r.ge (fixed149 v) (2 ^ 149))

def allLe (rs : List Surd) (v : FVal) : Bool :=
  match v with
  | .inf neg => !neg
  | v => rs.all (fun r => r.le (fixed149 v) (2 ^ 149))

def anyLe (rs : List Surd) (v : FVal) : Bool :=
  match v with
  | .inf neg => !neg
  | v => rs.any (fun r => r.le (fixed149 v) (2 ^ 149))

/-- A capsule on integers. -/
structure Capsule where
  p0 : List Int
  p1 : List Int
  ra : Int
  rb : Int
  cap0 : Bool
  cap1 : Bool
  deriving DecidableEq, Repr

/-- Crossings of the sphere at s = p/q. -/
def Capsule.sphere (k : Capsule) (o d : List Int) (p q : Int) : List Surd :=
  let v := subI k.p1 k.p0
  let w := List.zipWith (fun (x y : Int) => q * x - p * y) (subI o k.p0) v
  let r := q * k.ra + p * (k.rb - k.ra)
  quadRoots (q * q * dotI d d) (q * dotI d w) (dotI w w - r * r)

/-- Where the line crosses the surface between the spheres at p0/q0 and p1/q1. -/
def Capsule.lateral (k : Capsule) (o d : List Int) (p0 q0 p1 q1 : Int) : List Surd :=
  let v := subI k.p1 k.p0
  let w := subI o k.p0
  let dr := k.rb - k.ra
  let a := dotI v v - dr * dr
  if a ≤ 0 then []
  else
    let b0 := dotI w v + k.ra * dr
    let b1 := dotI d v
    let rs := quadRoots (a * dotI d d - b1 * b1) (a * dotI w d - b0 * b1) (a * (dotI w w - k.ra * k.ra) - b0 * b0)
    let above (r : Surd) (p q : Int) : Bool :=
      if b1 = 0 then decide (a * p ≤ q * b0)
      else let x := Rat2.of (a * p - q * b0) (q * b1); if 0 < b1 then r.ge x.n x.d else r.le x.n x.d
    let below (r : Surd) (p q : Int) : Bool :=
      if b1 = 0 then decide (q * b0 ≤ a * p)
      else let x := Rat2.of (a * p - q * b0) (q * b1); if 0 < b1 then r.le x.n x.d else r.ge x.n x.d
    rs.filter (fun r => above r p0 q0 && below r p1 q1)

/-- Points at which the line meets the boundary or the inside of the union, its first and last crossings among them. -/
def Capsule.roots (k : Capsule) (o d : List Int) : List Surd :=
  if k.ra < 0 ∧ k.rb < 0 then []
  else
    let p0 := if k.ra < 0 then -k.ra else 0
    let q0 := if k.ra < 0 then k.rb - k.ra else 1
    let p1 := if k.rb < 0 then k.ra else 1
    let q1 := if k.rb < 0 then k.ra - k.rb else 1
    k.sphere o d p0 q0 ++ k.sphere o d p1 q1 ++ k.lateral o d p0 q0 p1 q1

/-- A candidate T: the clamped projection, or none when it lies on an uncapped end. -/
def Capsule.project (k : Capsule) (o d : List Int) (t : Nat) : Option Nat :=
  let v := subI k.p1 k.p0
  let w := subI o k.p0
  let vv := dotI v v
  if vv = 0 then some 0
  else
    let tn := fixed149 (f32v t)
    let num := 2 ^ 149 * dotI w v + tn * dotI d v
    let den := 2 ^ 149 * vv
    if num < 0 ∧ !k.cap0 then none
    else if den < num ∧ !k.cap1 then none
    else some (if num ≤ 0 then 0 else if den ≤ num then 0x3F800000 else rn32 (.fin false num.toNat den.toNat))

/-- The capsule test: T and s as patterns. -/
def Capsule.test (k : Capsule) (o d : List Int) (tmin tmax : FVal) : Option (Nat × Nat) :=
  let rs := k.roots o d
  match rs.map Surd.rn with
  | [] => none
  | p :: ps =>
    let first := ps.foldl (fun m q => if patKey q < patKey m then q else m) p
    let last := ps.foldl (fun m q => if patKey m < patKey q then q else m) p
    let entry := if allGe rs tmin && anyLe rs tmax then [first] else []
    let exit := if anyGe rs tmin && allLe rs tmax then [last] else []
    match (entry ++ exit).find? (fun t => decide (t % 2 ^ 31 = 0x7F800000) || (k.project o d t).isSome) with
    | none => none
    | some t => if t % 2 ^ 31 = 0x7F800000 then none else (k.project o d t).map (fun s => (t, s))

/-- A capsule of F32 values against a ray, all finite. -/
def capsuleHit (o d p0 p1 : List FVal) (ra rb : FVal) (cap0 cap1 : Bool) (tmin tmax : FVal) : Option (Nat × Nat) :=
  if (p0 ++ p1 ++ [ra, rb]).any FVal.bad then none
  else Capsule.test ⟨p0.map fixed149, p1.map fixed149, fixed149 ra, fixed149 rb, cap0, cap1⟩ (o.map fixed149) (d.map fixed149)
    tmin tmax

/-- A Bernstein sum at i/8, rounded once. -/
def bezier8 (i : Nat) (ps : List FVal) : FVal :=
  let w := [(8 - i) ^ 3, 3 * i * (8 - i) ^ 2, 3 * i ^ 2 * (8 - i), i ^ 3]
  let n := (List.zipWith (fun (a : Nat) (p : FVal) => (a : Int) * fixed149 p) w ps).sum
  rnV (ofSigned .rn n (2 ^ 149 * 512))

/-- The curve test: pieces in order, the least T, the lower piece on ties. -/
def curveHit (o d : List FVal) (pts : List (List FVal)) (rads : List FVal) (cap0 cap1 : Bool) (tmin tmax : FVal) :
    Option (Nat × Nat) :=
  let point (i : Nat) : List FVal := (List.range 3).map (fun k => bezier8 i (pts.map (fun p => axisOf p k)))
  let rad (i : Nat) : FVal := bezier8 i rads
  if (pts.flatten ++ rads).any FVal.bad || (List.range 9).any (fun i => (rad i :: point i).any FVal.bad) then none
  else
    (List.range 8).foldl (fun (best : Option (Nat × Nat)) i =>
      match capsuleHit o d (point i) (point (i + 1)) (rad i) (rad (i + 1)) (i != 0 || cap0) (i != 7 || cap1) tmin tmax with
      | none => best
      | some (t, s) =>
        let u := rn32 (FVal.div (FVal.add .rn (ofSigned .rn i 1) (f32v s)) (.fin false 8 1))
        match best with
        | none => some (t, u)
        | some (b, v) => if FVal.cmp (f32v t) (f32v b) = some .lt then some (t, u) else some (b, v)) none

end Sys2Proof.Machine
end

