-- ==== Sys2Proof/Machine/Management.lean ====
section
/-! DEFINITION. Management commands and their answers (R277, R319, R345, R352, R390 to R394, R396 to R399). -/

namespace Sys2Proof.Machine

/-! ### Messages (R391 to R393) -/

/-- The header of an answer (Table 20.6). -/
def answerHeader (op sub status : Nat) (tag : Word) (rlen : Nat) : BitVec 128 :=
  BitVec.ofNat 128 (op + sub * 2 ^ 8 + status * 2 ^ 16 + tag.toNat * 2 ^ 32 + rlen * 2 ^ 96)

/-- The base block (Table 20.3). -/
def State.baseBlock (s : State) : List Byte :=
  leBytes 64 (s.areas.qt + s.areas.j * 2 ^ 64 + s.areas.sm * 2 ^ 128 + s.areas.fr * 2 ^ 192 + s.areas.cnt * 2 ^ 256
    + (Config.firmwareVersion s.fw.image).toNat * 2 ^ 320 + s.dieId * 2 ^ 352 + s.troot * 2 ^ 360)

/-- The boot message. -/
def State.bootMessage (s : State) : Out := .answer 1 (answerHeader 1 0 3 0 64) s.baseBlock

/-- What a command gives: a status with its result, or nothing while its effect is not complete. -/
abbrev Answer := Option (Nat × List Byte)

/-- Run a command. Commands are executed one at a time in arrival order: one that finds another before it is held, and its event
comes again when it is the first (log 45). A message too short is malformed; the answer goes out once the effect is complete. -/
def State.manage (s : State) (op sub need : Nat) (m : MgmtMsg) (k : State → State × Answer) :
    Host.Outcome State Fault Refusal :=
  if !s.fw.linkUp then .next (s.say (.nak 1 .invalid))
  else
    let s : State := { s with fw := { s.fw with booting := false },
                              commands := if s.commands.contains (op, sub, m) then s.commands else s.commands ++ [(op, sub, m)] }
    if s.commands.head? ≠ some (op, sub, m) then .next s
    else
      let r := if m.len < need then (s, some (2, [])) else k s
      match r.2 with
      | some a =>
        .next (({ r.1 with commands := r.1.commands.tail } : State).say (.answer 1 (answerHeader op sub a.1 m.tag a.2.length) a.2))
      | none => .next r.1

/-- The commands of Table 20.2: OP and SUB. -/
def knownCommands : List (Nat × Nat) :=
  [(1, 0), (2, 0), (3, 0), (4, 0), (5, 0), (6, 0), (6, 1), (7, 0), (8, 0), (9, 0), (10, 0), (11, 0), (11, 1), (12, 0), (12, 1),
    (13, 0), (14, 0)]

/-- Done with no result, refused, malformed. -/
def done0 (s : State) : State × Answer := (s, some (0, []))
def refused1 (s : State) : State × Answer := (s, some (1, []))
def malformed2 (s : State) : State × Answer := (s, some (2, []))

/-- A management command in its bytes: TAG at bits 63:32 of the header, ARGk at byte 8 + 8k, the nonce from byte 64 on; bytes that a
short message lacks count as zero (R392, Table 20.5). -/
def MgmtMsg.ofBytes (bs : List Byte) : MgmtMsg :=
  let arg (k : Nat) : DWord := BitVec.ofNat 64 (leNat ((bs.drop (8 + 8 * k)).take 8))
  { tag := BitVec.ofNat 32 (leNat ((bs.drop 4).take 4)), len := bs.length, arg0 := arg 0, arg1 := arg 1, arg2 := arg 2,
    arg3 := arg 3, arg4 := arg 4, arg5 := arg 5, arg6 := arg 6, nonce := (bs.drop 64).take 64 }

def execHello (m : MgmtMsg) (s : State) : Host.Outcome State Fault Refusal :=
  s.manage 1 0 64 m (fun s => (s, some (0, s.baseBlock)))

/-! ### Translation (R345, R352) -/

/-- SETTROOT; a root that is no aligned table of the die's GDDR-7 is a reserved value, and cached translations and walks in flight go
with the old root (DEDUCED, log 31). -/
def execSettroot (m : MgmtMsg) (s : State) : Host.Outcome State Fault Refusal :=
  s.manage 2 0 64 m (fun s =>
    let r := m.arg0.toNat
    if r % 32768 ≠ 0 ∨ gddrBytes ≤ r % 2 ^ 51 ∨ r / 2 ^ 51 ≠ s.dieId then malformed2 s
    else if s.launches.any Launch.live || !s.saved.isEmpty then refused1 s
    else done0 { s with troot := r, trootSet := true, tlb := [], walkCache := [], misses := [] })

/-- Addresses an operation in flight was translated for. -/
def FlightOp.accs : FlightOp → List Acc
  | .load _ ls _ _ _ _ _ => ls.map (·.acc)
  | .store _ a _ _ _ _ => [a]
  | .red _ a _ _ _ _ _ _ => [a]
  | .atom _ a _ _ _ _ _ _ _ _ _ _ => [a]
  | .pref _ a => [a]
  | .keyget _ a _ _ => [a]
  | .keypass _ a _ _ => [a]
  | .keydrop _ a _ => [a]
  | .cacheOp _ a _ _ _ _ => [a]
  | .tclr _ a _ _ _ => [a]
  | .publish _ a _ _ => [a]
  | .binding _ a _ _ => [a]
  | .trigger _ _ a _ _ => [a]
  | .result _ _ _ _ => []
  | .qstat _ _ _ _ => []
  | .cpstat _ _ _ => []
  | .scratchStore _ => []
  | .fence _ _ _ => []
  | .monitorRead _ => []
  | .twait _ _ _ => []
  | .obst _ _ _ _ => []
  | .nevalReq _ _ _ => []
  | .nevalRes _ _ _ => []
  | .revoke _ _ _ => []

/-- Whether an operand's pages meet a range. -/
def Operand.meets (base len : Nat) : Operand → Bool
  | .mem _ pages => pages.any (fun e => overlaps (65536 * e.1) 65536 base len)
  | _ => false

/-- Whether accesses translated for a range have still to be performed. -/
def State.rangeBusy (s : State) (base len : Nat) : Bool :=
  let meet (a : Acc) (n : Nat) : Bool := overlaps a.va.toNat n base len
  let vis (v : Option Acc) : Bool := v.elim false (fun a => meet a 16)
  s.flights.any (fun f => f.op.accs.any (fun a => meet a (match f.op with | .tclr _ _ _ _ _ => 16384 | _ => 128))) ||
  s.courses.any (fun x =>
    x.rounds.any (fun r => r.a.meets base len || r.b.meets base len || overlaps r.tileVa.toNat 16384 base len) ||
    x.recs.any (fun r => vis r.vis)) ||
  s.strands.any (fun x => match x.state with
    | .recordStall z => vis z.vis
    | .monitor a => !a.armed && meet a.acc 8
    | _ => false)

/-- Lines that a cached translation of a PINNED page pins (R166). -/
def TlbEntry.pins (e : TlbEntry) (line : Nat) : Bool :=
  e.page.home == 1 && decide (e.page.pa / 128 ≤ line) && decide (line < (e.page.pa + (if e.page.large then 2 ^ 21 else 65536)) / 128)

/-- The virtual range of some page or table, in canonical form. -/
def canonicalBase (a : Nat) : Nat := if a.testBit 55 then a % 2 ^ 56 + (2 ^ 64 - 2 ^ 56) else a

/-- SHOOTDOWN: the cached translations and the walks in flight of the range go, and the pins they made (log 25); monitors armed in it
end, and the answer waits until every access made with them has been performed. -/
def execShootdown (m : MgmtMsg) (s : State) : Host.Outcome State Fault Refusal :=
  s.manage 3 0 64 m (fun s =>
    let base := m.arg0.toNat
    let len := m.arg1.toNat
    let out (e : TlbEntry) : Bool :=
      let n := if e.page.large then 2 ^ 21 else 65536
      !overlaps (65536 * e.vpage / n * n) n base len
    let gone := s.tlb.filter (fun e => !out e)
    let s : State := { s with
      courses := s.courses.map (fun x => { x with pins := x.pins.filter (fun l => !gone.any (fun e => e.pins l)) }),
      tlb := s.tlb.filter out,
      walkCache := s.walkCache.filter (fun e =>
        let n := if e.level = 3 then 2 ^ 44 else if e.level = 2 then 2 ^ 32 else 2 ^ 21
        !overlaps (canonicalBase (e.part * n)) n base len),
      misses := s.misses.filter (fun e => out ⟨0, e.vpage, match e.found with | .page p => p | _ => default⟩) }
    let ends := s.strands.filterMap (fun x => match x.state with
      | .monitor a => if a.armed && overlaps a.acc.va.toNat 8 base len then some x.sid else none
      | _ => none)
    let s := ends.foldl (fun s sid => s.endMonitor sid) s
    let s := (List.range s.courses.length).foldl (fun s c => (s.drainCourse c).beforeRelease c) s
    if s.rangeBusy base len then (s, none) else done0 s)

/-! ### Tables of the die (R277, R319, R390) -/

def execSetpset (m : MgmtMsg) (s : State) : Host.Outcome State Fault Refusal :=
  s.manage 4 0 64 m (fun s =>
    done0 { s with psets := s.psets.set (m.arg0.toNat % 8) (m.arg1.setWidth 32, m.arg2.setWidth 4) })

/-- Keep as many held bricks as there is room for; the lines of the others are evicted (R212). -/
def trimBricks : Nat → List Nat → State → State
  | _, [], s => s
  | room, c :: cs, s =>
    let bs := (s.course c).bricks
    let s := (bs.drop room).foldl (fun s b => (List.range 32).foldl (fun s i => s.evictLine (32 * b + i)) s) s
    trimBricks (room - bs.length) cs (s.modCourse c (fun x => { x with bricks := x.bricks.take room }))

def execSetbrick (m : MgmtMsg) (s : State) : Host.Outcome State Fault Refusal :=
  s.manage 5 0 64 m (fun s =>
    if 6 < m.arg0.toNat then malformed2 s
    else done0 (trimBricks (4096 * m.arg0.toNat) (List.range s.courses.length) { s with brickPart := m.arg0.toNat }))

def execSetreg (m : MgmtMsg) (s : State) : Host.Outcome State Fault Refusal :=
  s.manage 6 0 64 m (fun s =>
    let i := m.arg0.toNat
    if 255 < i then malformed2 s
    else
      let rest := s.regs.filter (fun r => r.index != i)
      done0 { s with regs := if m.arg3.getLsbD 34 then
        rest ++ [⟨i, m.arg1, m.arg2, m.arg3.setWidth 32, m.arg3.getLsbD 32, m.arg3.getLsbD 33⟩] else rest })

def execSetregion (m : MgmtMsg) (s : State) : Host.Outcome State Fault Refusal :=
  s.manage 6 1 64 m (fun s =>
    let i := m.arg0.toNat
    if 255 < i then malformed2 s
    else
      let rest := s.regions.filter (fun r => r.index != i)
      done0 { s with regions := if m.arg1.getLsbD 63 then
        rest ++ [⟨i, m.arg1.toNat % 2 ^ 24, m.arg2, m.arg3.setWidth 32, m.arg4⟩] else rest })

/-! ### Stream engines (R396) -/

/-- An engine with new settings: at once if it is idle, else when it begins its next frame. -/
def Stream.configure (k : Stream) (desc : DWord) (dest : BitVec 128) (a4 a5 : DWord) : Stream :=
  if k.busy.isNone && k.pending.isNone then { k with desc := desc, dest := dest, arg4 := a4, arg5 := a5, on := true, next := none }
  else { k with next := some (desc, dest, a4, a5) }

def execStream (m : MgmtMsg) (s : State) : Host.Outcome State Fault Refusal :=
  s.manage 7 0 64 m (fun s =>
    if 3 < m.arg0.toNat then malformed2 s
    else done0 { s with streams := modAt (fun k => k.configure m.arg1 (m.arg3 ++ m.arg2) m.arg4 m.arg5) m.arg0.toNat s.streams })

/-! ### Firmware and attestation (R397, R398) -/

/-- What an attestation report holds, in the order in which R398 names it (DESIGN CHOICE, log 32). -/
def State.report (s : State) (nonce : List Byte) : List Byte :=
  (List.range 64).map (fun i => nonce.getD i 0) ++ s.fw.identity ++ sha3_512 s.fw.image ++ leBytes 4 s.fw.rollback ++
    leBytes 1 s.brickPart ++ s.psets.flatMap (fun p => leBytes 4 p.1.toNat ++ leBytes 1 p.2.toNat)

def execAttest (m : MgmtMsg) (s : State) : Host.Outcome State Fault Refusal :=
  s.manage 8 0 128 m (fun s =>
    let r := s.report m.nonce
    (s, some (0, r ++ Config.attestSignature (sha3_512 r))))

/-- The checks on a firmware image: signature over its digest, and version. -/
def Firmware.accepts (f : Firmware) (image : List Byte) : Bool :=
  Config.firmwareAccepted image && decide (f.rollback ≤ (Config.firmwareVersion image).toNat)

/-- FWLOAD: an image in device memory replaces the running firmware if it is accepted. -/
def execFwload (m : MgmtMsg) (s : State) : Host.Outcome State Fault Refusal :=
  s.manage 10 0 64 m (fun s =>
    match s.sysRead m.arg0 m.arg1.toNat with
    | none => refused1 s
    | some bs => if s.fw.accepts bs then done0 { s with fw := { s.fw with image := bs } } else refused1 s)

/-! ### The life record (R370) -/

/-- The bytes of the life record, in the order of Table 18.6 (DESIGN CHOICE, log 33). -/
def Life.bytes (l : Life) : List Byte :=
  leBytes 8 l.powered ++ (l.temp ++ l.volt ++ l.corrected ++ l.uncorrected ++ l.retrains ++ l.fences ++ l.channels).flatMap (leBytes 4)

/-- Count a retrain of the Avger link (0) or of Ethernet lane i − 1, and update the record at once. -/
def State.countRetrain (s : State) (i : Nat) : State :=
  ({ s with life := { s.life with retrains := bump32 1 i s.life.retrains } } : State).updateLife

def execReadlife (m : MgmtMsg) (s : State) : Host.Outcome State Fault Refusal :=
  s.manage 9 0 64 m (fun s => (s, some (0, s.life.bytes)))

/-! ### Service (R399) -/

/-- What stands on a course and can be saved from it. -/
def State.fenceVictims (s : State) (c : Nat) : List Victim :=
  (s.launches.filter (fun l => l.state == .admitted && l.cmd.ctxAddr != 0 && l.courses.getLsbD c)).flatMap (fun l =>
    if l.ext.isSome then (if l.spilled then [] else [⟨l.seq, l.prio, none⟩])
    else ((s.teams.filter (fun t => t.seq == l.seq && courseOf t.core == c)).map (·.gangId)).eraseDups.map (fun g =>
      ⟨l.seq, l.prio, some g⟩))

/-- Whether work stands on a course still, or a launch runs that may use it and cannot be saved. -/
def State.courseBusy (s : State) (c : Nat) : Bool :=
  s.teams.any (fun t => courseOf t.core == c) ||
  s.launches.any (fun l => l.live && l.courses.getLsbD c && ((l.ext.isSome && !l.spilled) || l.cmd.ctxAddr == 0))

/-- FENCE: no more placement, the gangs and teams on the course are saved, launches that cannot be saved run out. -/
def execCourseFence (m : MgmtMsg) (s : State) : Host.Outcome State Fault Refusal :=
  s.manage 11 0 64 m (fun s =>
    let c := m.arg0.toNat
    if 31 < c then malformed2 s
    else
      let s := s.modCourse c (fun x => { x with fenced := true })
      let s := (s.fenceVictims c).foldl (fun s v => s.markSaving v) s
      if s.courseBusy c then (s, none) else done0 s)

/-- REINSTATE: the course takes work again; a fence and its reinstatement make one cycle of the life record. -/
def execReinstate (m : MgmtMsg) (s : State) : Host.Outcome State Fault Refusal :=
  s.manage 11 1 64 m (fun s =>
    let c := m.arg0.toNat
    if 31 < c then malformed2 s
    else if (s.course c).fenced then
      let s := s.modCourse c (fun x => { x with fenced := false })
      done0 { s with life := { s.life with fences := bump32 1 c s.life.fences } }
    else done0 s)

/-- RETRAIN of a channel group: its accesses stall, and nothing is lost or reordered. -/
def execRetrainChannel (m : MgmtMsg) (s : State) : Host.Outcome State Fault Refusal :=
  s.manage 12 0 64 m (fun s =>
    if 3 < m.arg0.toNat then malformed2 s
    else done0 { s with life := { s.life with channels := bump32 1 m.arg0.toNat s.life.channels } })

/-- RETRAIN of the Avger link: refused of a link that is lost or is not there. -/
def execRetrainLink (m : MgmtMsg) (s : State) : Host.Outcome State Fault Refusal :=
  s.manage 12 1 64 m (fun s => if s.link = .up then done0 (s.countRetrain 0) else refused1 s)

/-! ### Queue pairs (R393) -/

/-- Whether the QP arguments hold a reserved path MTU. -/
def badMtu (m : MgmtMsg) : Bool := m.arg4.toNat / 2 ^ 24 % 4 == 3

def execQpset (m : MgmtMsg) (s : State) : Host.Outcome State Fault Refusal :=
  s.manage 13 0 64 m (fun s =>
    let q := m.arg0.toNat % 1024
    let rest := s.qps.filter (fun p => p.qpn != q)
    if q < 2 then malformed2 s
    else if m.arg0.getLsbD 63 then done0 { s with qps := rest }
    else if badMtu m then malformed2 s
    else done0 { s with qps := rest ++ [⟨q, [m.arg0, m.arg1, m.arg2, m.arg3, m.arg4, m.arg5]⟩] })

def execProvision (m : MgmtMsg) (s : State) : Host.Outcome State Fault Refusal :=
  s.manage 14 0 64 m (fun s =>
    if badMtu m then malformed2 s
    else done0 { s with fw := { s.fw with provision := [m.arg0, m.arg1, m.arg2, m.arg3, m.arg4, m.arg5] } })

end Sys2Proof.Machine
end

