-- ==== Sys2Proof/Machine/Device.lean ====
section
/-! DEFINITION. Device reset and power, the port, stream engines, counter snapshots, the life record and temperature (R369,
R370, R393 to R396, R399). -/

namespace Sys2Proof.Machine

/-! ### Reset and power (R393, R399) -/

/-- What survives a device reset: flash and the fused values, the die's place in its package, and the model's own fields; a
lost link is tried again (R394). -/
def State.afterReset (s : State) : State :=
  { State.reset with
    plan := s.plan, words := s.words, turns := s.turns, fresh := s.fresh, outbox := s.outbox, dieId := s.dieId,
    link := if s.link = .lost then .up else s.link,
    fw := { s.fw with peer := s.fw.provision, linkUp := false, booting := false },
    life := { s.life with since := 0 } }

/-- DEVICE_RESET: every register of the die at its reset value. Memory is taken as lost (DESIGN CHOICE, log 34). -/
def execDeviceReset (s : State) : Host.Outcome State Fault Refusal := .next s.afterReset

/-- The package without power: device memory is lost, flash survives (R370, R399). -/
def State.off (s : State) : State := { s.afterReset with powered := false }

def execPowerLoss (s : State) : Host.Outcome State Fault Refusal := .next s.off

/-- THERMAL_POWEROFF at 115 °C. -/
def execThermalPoweroff (degrees : Nat) (s : State) : Host.Outcome State Fault Refusal :=
  .next (if 115 ≤ degrees then s.off else s)

/-- THERMAL_THROTTLE above 105 °C: one step of the core clock; cycle counts do not change. -/
def execThermalThrottle (degrees : Nat) (s : State) : Host.Outcome State Fault Refusal :=
  .next (if 105 < degrees then { s with throttle := s.throttle + 1 } else s)

/-! ### The port (R393) -/

/-- PORT_LINK_UP: with firmware that the boot ROM accepts, QPN 1 comes up and the boot message goes out. -/
def execPortLinkUp (s : State) : Host.Outcome State Fault Refusal :=
  if !s.fw.linkUp && s.fw.accepts s.fw.image then
    .next (({ s with fw := { s.fw with linkUp := true, booting := true } } : State).say s.bootMessage)
  else .next s

/-- BOOT_MESSAGE_REPEAT: once per second until the first command. -/
def execBootMessageRepeat (s : State) : Host.Outcome State Fault Refusal :=
  .next (if s.fw.linkUp && s.fw.booting then s.say s.bootMessage else s)

/-- ETHERNET_LANE_RETRAIN. -/
def execEthernetLaneRetrain (lane : Nat) (s : State) : Host.Outcome State Fault Refusal :=
  .next (if lane < 8 then s.countRetrain (lane + 1) else s)

/-! ### Counters (R369, R370) -/

/-- Write one group of counters (R369). -/
def State.putGroup (s : State) (u : Nat) (cs : List DWord) : State :=
  cs.zipIdx.foldl (fun s e =>
    let a := s.areas.cnt + 256 * u + 8 * e.2
    s.sysWrite a (leBytes 8 e.1.toNat)) s

/-- COUNTER_SNAPSHOT, once in each interval of 1,048,576 cycles. -/
def execCounterSnapshot (s : State) : Host.Outcome State Fault Refusal :=
  if s.now / 1048576 ≤ s.snaps then .next s
  else
    let s : State := { s with snaps := s.now / 1048576 }
    .next (s.courses.zipIdx.foldl (fun s e => s.putGroup (e.2 + 1) e.1.counters) (s.putGroup 0 s.counters))

/-- LIFE_RECORD_UPDATE. -/
def execLifeRecordUpdate (s : State) : Host.Outcome State Fault Refusal := .next s.updateLife

/-! ### Stream engines (R395, R396) -/

/-- STREAM_TRIGGER: the release store to FRAME is performed, and every engine that has the descriptor has a trigger. -/
def execStreamTrigger (id : Nat) (s : State) : Host.Outcome State Fault Refusal :=
  match s.flight? id with
  | none => .next s
  | some f =>
    match f.op with
    | .trigger sid engines acc v sc =>
      if f.acc.isNone || s.unacted f sid then .next s
      else
        let c := courseOf f.core
        let s := ((s.drainCourse c).beforeRelease c sc).dropFlight id
        let s := s.performStore f.core f.tid acc (bytesAt acc.pa (leBytes 4 v.toNat)) sc .rel true
        .next (({ s with streams := s.streams.zipIdx.map (fun e =>
          if engines.getLsbD e.2 then { e.1 with pending := some s.timebase } else e.1) } : State).settleFences)
    | _ => .next s

/-- A stream descriptor (Table 20.4). -/
structure FrameDesc where
  base0 : DWord
  base1 : DWord
  pitch0 : Nat
  pitch1 : Nat
  fmt0 : Nat
  fmt1 : Nat
  width : Nat
  height : Nat
  w1 : Nat
  h1 : Nat
  ox : Nat
  oy : Nat
  deriving DecidableEq, Repr

def FrameDesc.ofNat (v : Nat) : FrameDesc :=
  let h (lo : Nat) : Nat := v / 2 ^ lo % 2 ^ 16
  ⟨BitVec.ofNat 64 (v / 2 ^ 64), BitVec.ofNat 64 (v / 2 ^ 128), v / 2 ^ 192 % 2 ^ 32, v / 2 ^ 224 % 2 ^ 32, v / 2 ^ 256 % 16,
    v / 2 ^ 260 % 16, h 320, h 336, h 352, h 368, h 384, h 400⟩

/-- Whether a layer 1 is there. -/
def FrameDesc.layered (d : FrameDesc) : Bool := d.w1 != 0 && d.h1 != 0

/-- Whether a descriptor is malformed: an odd or too large frame, or a reserved format. -/
def FrameDesc.malformed (d : FrameDesc) : Bool :=
  d.width % 2 == 1 || d.height % 2 == 1 || decide (3840 < d.width) || decide (2160 < d.height) || decide (2 < d.fmt0) ||
    (d.layered && decide (2 < d.fmt1))

/-- Bytes of a pixel. -/
def pixelBytes (fmt : Nat) : Nat := if fmt = 2 then 8 else 4

/-- A pixel as straight RGBA in FP32, red in the lowest bits. -/
def pixel (fmt : Nat) (bs : List Byte) : List FVal :=
  let v := leNat bs
  let unit (lo n : Nat) : FVal := rnV (FVal.div (ofSigned .rn (v / 2 ^ lo % 2 ^ n : Nat) 1) (ofSigned .rn (2 ^ n - 1 : Nat) 1))
  match fmt with
  | 0 => [unit 0 8, unit 8 8, unit 16 8, unit 24 8]
  | 1 => [unit 0 10, unit 10 10, unit 20 10, unit 30 2]
  | _ => (List.range 4).map (fun k => FVal.ofPat .f16 (v / 2 ^ (16 * k) % 2 ^ 16))

/-- A row of pixels of a surface; none when it cannot be read. -/
def State.pixelRow (s : State) (base : DWord) (pitch fmt y w : Nat) : Option (List (List FVal)) :=
  let n := pixelBytes fmt
  (s.sysRead (base + BitVec.ofNat 64 (pitch * y)) (n * w)).map (fun bs =>
    (List.range w).map (fun x => pixel fmt ((bs.drop (n * x)).take n)))

/-- Straight-alpha over in FP32 (DESIGN CHOICE, log 8). -/
def overPixel (top below : List FVal) : List FVal :=
  let a := axisOf top 3
  (List.range 3).map (fun k => rnV (FVal.add .rn (rnV (FVal.mul a (axisOf top k)))
    (rnV (FVal.mul (rnV ((FVal.fin false 1 1).sub a)) (axisOf below k)))))

/-- Round to the nearest integer, ties to even. -/
def rnDiv (n : Int) (d : Nat) : Int :=
  let q := (2 * n + d) / (2 * d)
  if (2 * n + d) % (2 * d) = 0 ∧ q % 2 = 1 then q - 1 else q

/-- A colour value in units of 2^-149: a NaN counts as 0, an infinity is beyond every code. -/
def FVal.colour (v : FVal) : Int :=
  match v with
  | .inf neg => if neg then -(2 ^ 170) else 2 ^ 170
  | v => fixed149 v

/-- R, G and B as codes of BT.709 limited range in 8 bits, or of BT.2020 in 10 bits: Y, Cb and Cr, each rounded once with RN and kept
in its range (R395; PRESUMED, log 68). -/
def videoCodes (ten : Bool) (rgb : List FVal) : List Nat :=
  let r := (axisOf rgb 0).colour
  let g := (axisOf rgb 1).colour
  let b := (axisOf rgb 2).colour
  let one := 2 ^ 149
  let k := if ten then 4 else 1
  let y := if ten then 2627 * r + 6780 * g + 593 * b else 2126 * r + 7152 * g + 722 * b
  let code (lo off span hi : Nat) (n : Int) (d : Nat) : Nat := (min (max (rnDiv (k * off * d + k * span * n) d) (k * lo)) (k * hi)).toNat
  [code 16 16 219 235 y (10000 * one),
   code 16 128 224 240 (10000 * b - y) ((if ten then 18814 else 18556) * one),
   code 16 128 224 240 (10000 * r - y) ((if ten then 14746 else 15748) * one)]

/-- One composed and converted row, two bytes a code; none when a surface cannot be read. -/
def State.composeRow (s : State) (ten : Bool) (d : FrameDesc) (y : Nat) : Option (List Byte) :=
  let n := min d.w1 (d.width - d.ox)
  let has := d.layered && decide (d.oy ≤ y) && decide (y < d.oy + d.h1) && decide (d.ox < d.width)
  let top := if has then s.pixelRow d.base1 d.pitch1 d.fmt1 (y - d.oy) n else some []
  match s.pixelRow d.base0 d.pitch0 d.fmt0 y d.width, top with
  | some row, some t => some (row.zipIdx.flatMap (fun e =>
      let c := if d.ox ≤ e.2 then (match t[e.2 - d.ox]? with | some p => overPixel p e.1 | none => e.1.take 3) else e.1.take 3
      (videoCodes ten (c.map rnV)).flatMap (leBytes 2)))
  | _, _ => none

/-- The composed frame, from memory as the descriptor names it: that launches of queues naming the engine's set wrote it is what the
trigger's launch answers for (R277; DEDUCED, log 69). -/
def State.compose (s : State) (ten : Bool) (d : FrameDesc) : Option (List Byte) :=
  (List.range d.height).foldr (fun y r =>
    match r, s.composeRow ten d y with
    | some bs, some row => some (row ++ bs)
    | _, _ => none) (some [])

/-- New settings that wait take effect. -/
def Stream.renew (k : Stream) : Stream :=
  match k.next with
  | some (d, dest, a4, a5) => { k with desc := d, dest := dest, arg4 := a4, arg5 := a5, next := none }
  | none => k

/-- STREAM_FRAME_START: a free engine with a trigger acquires the latest FRAME, and reads descriptor and surfaces. -/
def execStreamFrameStart (engine : Nat) (s : State) : Host.Outcome State Fault Refusal :=
  match s.streams[engine]? with
  | none => .next s
  | some k =>
    match k.pending, k.busy with
    | some t, none =>
      let k := k.renew
      let q := s.free
      let put (s : State) (b : Word × DWord × Option (List Byte) × Word) : State :=
        { s with streams := s.streams.set engine { k with pending := none, busy := some b } }
      match s.sysRead k.desc 64 with
      | none => .next (put q.2 (DWord.lo q.1, t, none, 1))
      | some bs =>
        let v := leNat bs
        let frame : Word := BitVec.ofNat 32 (v / 2 ^ 448)
        let d := FrameDesc.ofNat v
        if d.malformed then .next (put s (frame, t, none, 2))
        else match s.compose (k.arg4.getLsbD 17) d with
          | none => .next (put s (frame, t, none, 1))
          | some px =>
            let set := k.arg4.toNat + k.arg5.toNat * 2 ^ 64 + d.width * 2 ^ 128 + d.height * 2 ^ 144
            .next (put s (frame, t, some (Config.encodedFrame set px), 0))
    | _, _ => .next s

/-- Write 4 bytes of a descriptor, which no other agent can write (R6), if they can be written. -/
def State.putDesc (s : State) (va : DWord) (v : Word) : State :=
  let bs := leBytes 4 v.toNat
  match s.check unitCourse va 4 accWrite (·.write) with
  | .ok a =>
    match s.place a with
    | .scratch t o => s.scratchPut t o bs
    | .memory => (s.memWrite a.pa bs).noteWrite (bytesAt a.pa bs) none
    | .cached => ((s.recallRange none a.pa 4).homeWrite none a.pa bs).noteWrite (bytesAt a.pa bs) none
  | .error _ => s

/-- STREAM_FRAME_DONE: ERR, then DONE as a DIE-scope release; a frame without an error is sent. -/
def execStreamFrameDone (engine : Nat) (s : State) : Host.Outcome State Fault Refusal :=
  match s.streams[engine]? with
  | none => .next s
  | some k =>
    match k.busy with
    | none => .next s
    | some (frame, t, data, err) =>
      let s := (s.putDesc (k.desc + 4) err).putDesc (k.desc + 60) frame
      let s := match data with
        | some bs => s.say (.rtp engine k.dest (k.arg4.toNat % 65536) (BitVec.ofNat 64 (t.toNat / 30000)) bs)
        | none => s
      .next { s with streams := s.streams.set engine { k with busy := none } }

end Sys2Proof.Machine
end

