-- ==== Sys2Proof/Machine/Agents.lean ====
section
/-! DEFINITION. What moves by itself: the device's choices that the opcode table has no row for, the peer die, errors of storage,
and what becomes due as time passes (R15, R103, R163, R210, R212, R260, R292, R340, R350, R351, R370, R379). -/

namespace Sys2Proof.Machine

/-! ### Room in the caches (R10, R163, R166, R212) -/

/-- Replace one line of a course's cache in each set whose lines take more than 16 ways; a pinned line is never chosen
(Table 1.1, R166). The device chooses the victim (DESIGN CHOICE, log 49). -/
def State.evictCourse (s : State) (c : Nat) : Nat → State
  | 0 => s
  | n + 1 =>
    let x := s.course c
    match s.pick (x.held.filter (fun l => decide (16 < waysOf x.held l) && !x.pins.contains l)) with
    | some (l, s) => State.evictCourse (s.recallCourse c (128 * l) 128) c n
    | none => s

/-- Evict lines from the portion of a bay that holds more lines than it has room for. -/
def State.evictBay (s : State) (bay : Nat) : Nat → State
  | 0 => s
  | n + 1 =>
    let ls := s.bayLines bay
    if ls.length ≤ s.bayRoom then s
    else match s.pick (ls.filter (fun l => !s.pinned l)) with
      | some (l, s) => State.evictBay (s.evictLine l) bay n
      | none => s

/-- Every cache brought back to its room. -/
def State.evictOver (s : State) : State :=
  let s := (List.range s.courses.length).foldl (fun s c => s.evictCourse c (s.course c).held.length) s
  (List.range 4).foldl (fun s b => s.evictBay b s.dieLines.length) s

/-- What is due before a turn's move: MONITOR waits that have ended, gather table entries and bins whose time is over, lines that a
cache has no room for. -/
def State.settle (s : State) : State := s.endMonitors.formDue.timeOuts.evictOver

/-! ### The peer die (R15, R207, R211, R216, R380) -/

/-- Whether n bytes at a physical address are in this die's memory, and the peer reaches them. -/
def State.fromPeer (s : State) (pa n : Nat) : Bool :=
  s.link == .up && decide (pa / 2 ^ 51 = s.dieId) && !s.reserved pa && !s.reserved (pa + n - 1) && n != 0

/-- The lines that some bytes lie in. -/
def linesOf (pa n : Nat) : List Nat := (List.range ((pa + n - 1) / 128 - pa / 128 + 1)).map (fun k => pa / 128 + k)

/-- The peer has copies of some lines: bit 32 of their sharer vectors. -/
def State.peerShares (s : State) (ls : List Nat) : State :=
  { s with peerLines := s.peerLines ++ ls.filter (fun l => !s.peerLines.contains l) }

/-- A read of the peer at the home: it never recalls a key (R216). -/
def State.peerRead (s : State) (pa n : Nat) : State :=
  if s.fromPeer pa n then (s.fillHome pa n).peerShares (linesOf pa n) else s

/-- A write of the peer at the home: keys of its blocks are recalled, and a release of one word may answer a fault record (R216,
R377). -/
def State.peerWrite (s : State) (pa : Nat) (data : List Byte) (release : Bool) : State :=
  if s.fromPeer pa data.length then
    ((s.recallRange none pa data.length).agentWrite none pa data
      (if release && data.length == 4 then some (leNat data) else none)).peerShares (linesOf pa data.length)
  else s

/-- A write of the peer to its own memory: what this die holds newer there reaches the owner's slice first, and this die's copies go
(R184, R207, R211). -/
def State.peerOwnWrite (s : State) (pa : Nat) (data : List Byte) : State :=
  let n := data.length
  if s.link == .up && s.foreign pa && !s.reserved pa && !s.reserved (pa + n - 1) && n != 0 then
    let s := ((s.recallRange none pa n).atomsFirst pa n).toOwner pa n
    let s : State := { s with
      mem := memPutL pa data s.mem, dieClean := eraseWords pa n s.dieClean,
      writers := s.writers.filter (fun e => !(decide (pa ≤ e.1) && decide (e.1 < pa + n))) }
    (s.invalidate none pa n).touch .all pa n
  else s

/-! ### Moves of the device (log 48) -/

/-- Whether a line can be taken from a course's cache: it is there, and not pinned. -/
def State.replaceable (s : State) (c line : Nat) : Bool :=
  (s.course c).valid.contains line && !(s.course c).pins.contains line

/-- The host refuses what a ring's oldest begun entry writes to it: its payload 1, its stamp 2 (R340). -/
def State.refuseEntry (s : State) (team ring : Nat) (n : Fin 3) : State :=
  { s with rings := s.rings.map (fun r =>
      if r.tid = team ∧ r.base = ring then
        { r with begun := match r.begun with
            | [] => []
            | b :: bs => { b with refused := n } :: bs }
      else r) }

/-- A register word of a strand becomes uncorrectable (R379). -/
def Strand.poisonReg (x : Strand) (r : GReg) : Strand := { x with poison := x.poison ||| (1#256 <<< r.1) }

/-- A message that names no command is malformed (R391). -/
def State.unknownCommand (s : State) (op sub : Byte) (m : MgmtMsg) : State :=
  if knownCommands.contains (op.toNat, sub.toNat) then s
  else match s.manage op.toNat sub.toNat 0 m malformed2 with
    | .next t => t
    | _ => s

/-- What the device, the peer die or an error of storage does in a turn of its own. -/
def State.deviceMove (s : State) : DeviceMove → State
  | .pageMiss unit va => s.pageMiss unit va
  | .coreFill core va => s.coreFill core va
  | .tlbReplace k => { s with tlb := s.tlb.eraseIdx k }
  | .walkReplace k => { s with walkCache := s.walkCache.eraseIdx k }
  | .courseEviction c line => if s.replaceable c line then s.recallCourse c (128 * line) 128 else s
  | .peerRead pa n => s.peerRead pa n
  | .peerWrite pa data release => if s.foreign pa then s.peerOwnWrite pa data else s.peerWrite pa data release
  | .corrected item => { s with life := { s.life with corrected := bump32 1 item s.life.corrected } }
  | .registerError sid r => s.modStrand sid (fun x => x.poisonReg r)
  | .hostRefusal team ring stamp => s.refuseEntry team ring (if stamp then 2 else 1)
  | .unknownCommand op sub m => s.unknownCommand op sub m

/-! ### The bytes of a SEND (R391, R392, Tables 13.3 and 20.5) -/

/-- The command that an OP and a SUB name (Table 20.2). -/
def State.command (s : State) (op sub : Byte) (m : MgmtMsg) : Host.Outcome State Fault Refusal :=
  match op.toNat, sub.toNat with
  | 1, 0 => execHello m s
  | 2, 0 => execSettroot m s
  | 3, 0 => execShootdown m s
  | 4, 0 => execSetpset m s
  | 5, 0 => execSetbrick m s
  | 6, 0 => execSetreg m s
  | 6, 1 => execSetregion m s
  | 7, 0 => execStream m s
  | 8, 0 => execAttest m s
  | 9, 0 => execReadlife m s
  | 10, 0 => execFwload m s
  | 11, 0 => execCourseFence m s
  | 11, 1 => execReinstate m s
  | 12, 0 => execRetrainChannel m s
  | 12, 1 => execRetrainLink m s
  | 13, 0 => execQpset m s
  | 14, 0 => execProvision m s
  | _, _ => .next (s.unknownCommand op sub m)

/-- A doorbell in its bytes (Table 13.3): QUEUE, and PRODUCER at bits 63:32. -/
def Doorbell.ofBytes (qpn : Nat) (bs : List Byte) : Doorbell :=
  let v := leNat (bs.take 16)
  { qpn := qpn, len := bs.length, queue := Fin.ofNat 64 v, producer := BitVec.ofNat 32 (v / 2 ^ 32) }

/-- The bytes of a SEND arrive: queue pair 1 carries management commands, the others doorbells, whose OP stands at bits 9:8. -/
def State.receive (s : State) (qpn : Nat) (bs : List Byte) : Host.Outcome State Fault Refusal :=
  if qpn = 1 then s.command (bs.getD 0 0) (bs.getD 1 0) (MgmtMsg.ofBytes bs)
  else
    let d := Doorbell.ofBytes qpn bs
    match leNat (bs.take 16) / 2 ^ 8 % 4 with
    | 0 => execDoorbellSubmit d s
    | 1 => execDoorbellEnable d s
    | 2 => execDoorbellDisable d s
    | _ => execDoorbellAbort d s

end Sys2Proof.Machine
end

