-- ==== Sys2Proof/Machine/Control.lean ====
section
/-! DEFINITION. Control transfers (R97 to R105) and the system instructions TRAP, BRK, ERET, MFC and MTC
(R385 to R388). -/

namespace Sys2Proof.Machine

/-- No destination to zero. -/
def keep (x : Strand) : Strand := x

/-- A lane leaves for the header at an address. -/
def goTo (s : State) (b : Bundle) (x : Strand) (target : DWord) : LaneOut :=
  .leave (s.modStrand x.sid (fun y => y.arrive s b.core target 0))

/-- The target OFF24 names: from the holding clause's header, in 8-byte units (R47). -/
def Bundle.target (b : Bundle) (off : Off) : DWord := b.header + 8 * off.signExtend 64

/-- A register-held target must be a multiple of 8 (R99). -/
def goToReg (s : State) (b : Bundle) (x : Strand) (target : DWord) : LaneOut :=
  if target.extractLsb' 0 3 != 0 then .fault (.trap (.addr 5 accExec target)) else goTo s b x target

def execBra (c : Ctl) (off : Off) (s : State) : Host.Outcome State Fault Refusal :=
  inBundle s (wordByLane c keep (fun s b x => goTo s b x (b.target off)))

def execBrx (c : Ctl) (a : GReg) (s : State) : Host.Outcome State Fault Refusal :=
  inBundle s (wordByLane c keep (fun s b x => goToReg s b x (x.pair a)))

/-- CALL writes the following clause's address first (R98). -/
def execCall (c : Ctl) (d : GReg) (off : Off) (s : State) : Host.Outcome State Fault Refusal :=
  inBundle s (wordByLane c keep (fun s b x =>
    goTo (s.modStrand x.sid (fun y => y.setPair d b.following)) b x (b.target off)))

/-- CALLX reads its target before it writes the return pair, and writes nothing when it faults (R99). -/
def execCallx (c : Ctl) (d a : GReg) (s : State) : Host.Outcome State Fault Refusal :=
  inBundle s (wordByLane c keep (fun s b x =>
    goToReg (if (x.pair a).extractLsb' 0 3 != 0 then s else s.modStrand x.sid (fun y => y.setPair d b.following))
      b x (x.pair a)))

/-- RET and BRX differ only in OP (R99). -/
def execRet (c : Ctl) (a : GReg) (s : State) : Host.Outcome State Fault Refusal :=
  inBundle s (wordByLane c keep (fun s b x => goToReg s b x (x.pair a)))

/-- YIELD transfers as BRA does and sets the yield mark (R101). -/
def execYield (c : Ctl) (off : Off) (s : State) : Host.Outcome State Fault Refusal :=
  inBundle s (wordByLane c keep (fun s b x =>
    goTo (s.modStrand x.sid (fun y => { y with yielded := true })) b x (b.target off)))

/-- The comparand of MWAIT. -/
def Strand.comparand (x : Strand) (w : Width) (d : GReg) : DWord :=
  if w = .n64 then x.pair d else (x.reg d).setWidth 64

/-- MWAIT enters MONITOR with its read in flight; its PC is the following clause (R102). -/
def execMwait (c : Ctl) (w : Width) (sc : Scope) (d a : GReg) (off : Off) (s : State) :
    Host.Outcome State Fault Refusal :=
  inBundle s (wordByLane c keep (fun s b x =>
    match s.check (coreUnit b.core) (x.ea a off) w.bytes accRead (·.read) with
    | .error f => .fault f
    | .ok acc =>
      .leave ((s.modStrand x.sid (fun y =>
        { y with pc := b.following, cls := none,
                 state := .monitor ⟨x.ea a off, w, sc, x.comparand w d, acc, false, 65536, 0, false⟩ })).fly x.tid
          (.monitorRead x.sid))))

def execNop (c : Ctl) (s : State) : Host.Outcome State Fault Refusal := inBundle s (wordOfStrand c keep keep)

/-! ### System instructions -/

/-- The resume point after a word of n slots: a slot of the clause, or the following header (R386, R55). -/
def Bundle.clsAfter (b : Bundle) (n : Nat) : Option Cls :=
  (b.cls.map (·.after n)).filter (fun k => k.left != 0)

/-- TRAP: EPC is the slot after it (R386). -/
def execTrap (c : Ctl) (code : BitVec 16) (s : State) : Host.Outcome State Fault Refusal :=
  inBundle s (wordByLane c keep (fun s b x =>
    .leave (s.trap x.sid (b.pc + 8) (b.clsAfter 1) ⟨ecause code.toNat 0 11, 0, 0⟩ 0)))

/-- BRK: EPC is its own slot (R386). -/
def execBrk (c : Ctl) (code : BitVec 16) (s : State) : Host.Outcome State Fault Refusal :=
  inBundle s (wordByLane c keep (fun _ _ _ => .fault (.trap ⟨ecause code.toNat 0 12, 0, 0⟩)))

/-- ERET is legal only inside a trap (R387). -/
def execEret (c : Ctl) (s : State) : Host.Outcome State Fault Refusal :=
  inBundle s (wordByLane c keep (fun s _ x =>
    if x.inTrap then .leave (s.trapReturn x.sid) else .fault (.trap (.plain 3))))

/-- A control register's value (Table 19.2). -/
def Strand.creg (x : Strand) : CReg → Word
  | .tveclo => DWord.lo x.tvec
  | .tvechi => DWord.hi x.tvec
  | .epclo => DWord.lo x.epc
  | .epchi => DWord.hi x.epc
  | .ecause => x.ecause
  | .evalo => DWord.lo x.eva
  | .evahi => DWord.hi x.eva
  | .eclause => x.eclause
  | .edifflo => DWord.lo x.ediff
  | .ediffhi => DWord.hi x.ediff
  | .efrid => x.efrid

/-- Write a control register: RO registers are not named by MTC, and bit 31 and bits 14:0 of ECLAUSE are not written
(R388, Table 19.3). -/
def Strand.setCreg (x : Strand) (r : CReg) (v : Word) : Strand :=
  match r with
  | .tveclo => { x with tvec := Word.pair v (DWord.hi x.tvec) }
  | .tvechi => { x with tvec := Word.pair (DWord.lo x.tvec) v }
  | .epclo => { x with epc := Word.pair v (DWord.hi x.epc) }
  | .epchi => { x with epc := Word.pair (DWord.lo x.epc) v }
  | .eclause => { x with eclause := (x.eclause &&& 0x80000000#32) ||| (v &&& 0x7FFF8000#32) }
  | _ => x

def execMfc (c : Ctl) (d : GReg) (r : CReg) (s : State) : Host.Outcome State Fault Refusal :=
  aluWord c d 1 (fun x => x.setG d (x.creg r)) s

def execMtc (c : Ctl) (r : CReg) (a : GReg) (s : State) : Host.Outcome State Fault Refusal :=
  inBundle s (wordOfStrand c keep (fun x => x.setCreg r (x.reg a)))

end Sys2Proof.Machine
end

