-- ==== Sys2Proof/Machine/CrossLane.lean ====
section
/-! DEFINITION. Cross-lane instructions (R149 to R159). -/

namespace Sys2Proof.Machine

/-- A participating lane: its lane number and its strand (R149). -/
abbrev Lanes := List (Nat × Strand)

/-- The bundle width of a bundle's kernel. -/
def State.widthOf (s : State) (b : Bundle) : Nat :=
  match s.strand? (b.lanes.headD 0) with
  | none => 64
  | some x => (s.team? x.tid).elim 64 (fun t => t.kernel.width)

/-- P of a word (R149), ascending. -/
def State.participants (s : State) (c : Ctl) (b : Bundle) : Lanes :=
  ((b.lanes.filterMap s.strand?).filter (fun x => x.active c && x.unmasked c)).map
    (fun x => (x.strandId % s.widthOf b, x))

/-- A cross-lane word: each lane of P computes from W, P and itself. -/
def crossWord (c : Ctl) (mz : Strand → Strand) (f : Nat → Lanes → Strand → Strand) (s : State) :
    Host.Outcome State Fault Refusal :=
  inBundle s (fun b s => wordOfStrand c mz (f (s.widthOf b) (s.participants c b)) b s)

/-- The strand at a lane of P. -/
def laneOf (P : Lanes) (j : Nat) : Option Strand := (P.find? (fun e => e.1 == j)).map (·.2)

/-- The selector's value (R152). -/
def LaneSel.value (x : Strand) : LaneSel → Nat
  | .reg b => (x.reg b).toNat
  | .imm v => v.toNat

/-- Take a value from lane j, or keep the lane's own (R152). -/
def takeFrom (ty : Ty) (d a : GReg) (w : Nat) (P : Lanes) (x : Strand) (j : Int) : Strand :=
  let src := if j < 0 ∨ (w : Int) ≤ j then none else laneOf P j.toNat
  x.put ty d ((src.getD x).pat ty a)

/-- An XLANE word whose source lane is j of W, the lane and the selector (R152). -/
def xlane (c : Ctl) (ty : Ty) (d a : GReg) (sl : LaneSel) (j : Nat → Nat → Nat → Int) (s : State) :
    Host.Outcome State Fault Refusal :=
  crossWord c (fun x => x.zeroSpan d ty.regs)
    (fun w P x => takeFrom ty d a w P x (j w (x.strandId % w) (LaneSel.value x sl))) s

def execXlaneSel (c : Ctl) (ty : Ty) (d a : GReg) (sl : LaneSel) (s : State) : Host.Outcome State Fault Refusal :=
  xlane c ty d a sl (fun _ _ v => v) s

def execXlaneShift (c : Ctl) (ty : Ty) (d a : GReg) (sl : LaneSel) (s : State) : Host.Outcome State Fault Refusal :=
  xlane c ty d a sl (fun _ i v => (i : Int) + (BitVec.ofNat 7 v).toInt) s

def execXlaneRot (c : Ctl) (ty : Ty) (d a : GReg) (sl : LaneSel) (s : State) : Host.Outcome State Fault Refusal :=
  xlane c ty d a sl (fun w i v => (((i + v) % w : Nat) : Int)) s

def execXlaneMirr (c : Ctl) (ty : Ty) (d a : GReg) (sl : LaneSel) (s : State) : Host.Outcome State Fault Refusal :=
  xlane c ty d a sl (fun w i v => ((Nat.xor i (2 ^ min (v % 8) (Nat.log2 w) - 1) : Nat) : Int)) s

/-- SHFX: the table of W x n words (R153). -/
def execShfx (c : Ctl) (d a b : GReg) (lg : Fin 4) (s : State) : Host.Outcome State Fault Refusal :=
  crossWord c (fun x => x.zeroSpan d 1) (fun w P x =>
    let n := 2 ^ lg.1
    let v := (x.reg b).toNat
    x.setG d (if v < w * n then (laneOf P (v / n)).elim 0 (fun y => y.reg (gAt a (v % n))) else 0)) s

/-- The mask Σ 2^j over some lanes. -/
def laneMask (P : Lanes) (f : Strand → Bool) : DWord :=
  P.foldl (fun m e => if f e.2 then m ||| (1#64 <<< e.1) else m) 0

/-- A VOTE destination's zeroing under MZ. -/
def VoteOp.zero (x : Strand) : VoteOp → Strand
  | .all d => x.setP d false
  | .any d => x.setP d false
  | .uni d => x.setP d false
  | .ballot d => x.zeroSpan d 2

def execVote (c : Ctl) (op : VoteOp) (neg : Bool) (a : PReg) (s : State) : Host.Outcome State Fault Refusal :=
  crossWord c (fun x => VoteOp.zero x op) (fun _ P x =>
    let v (y : Strand) : Bool := y.pred a != neg
    match op with
    | .all d => x.setP d (P.all (fun e => v e.2))
    | .any d => x.setP d (P.any (fun e => v e.2))
    | .uni d => x.setP d (P.all (fun e => v e.2) || !P.any (fun e => v e.2))
    | .ballot d => x.setPair d (laneMask P v)) s

/-- Whether every lane of P holds the same value. -/
def allEqual (P : Lanes) (f : Strand → Nat) : Bool := P.all (fun e => P.all (fun h => f e.2 == f h.2))

def execLaneMatch (c : Ctl) (ty : Ty) (all : Bool) (d a : GReg) (q : PReg) (s : State) :
    Host.Outcome State Fault Refusal :=
  crossWord c (fun x => (x.zeroSpan d 2).setP q false) (fun _ P x =>
    let eq := allEqual P (fun y => y.pat ty a)
    let m := if all then (if eq then laneMask P (fun _ => true) else 0)
             else laneMask P (fun y => y.pat ty a == x.pat ty a)
    (x.setPair d m).setP q eq) s

def execConflict (c : Ctl) (ty : Ty) (d a : GReg) (q : PReg) (s : State) : Host.Outcome State Fault Refusal :=
  crossWord c (fun x => (x.zeroSpan d 2).setP q false) (fun w P x =>
    let m := laneMask (P.filter (fun e => decide (e.1 < x.strandId % w))) (fun y => y.pat ty a == x.pat ty a)
    (x.setPair d m).setP q (m == 0)) s

/-- Position of a strand in a list of lanes. -/
def laneIndex (P : Lanes) (x : Strand) : Nat := P.findIdx (fun e => e.2.sid == x.sid)

def execCompact (c : Ctl) (d a : GReg) (q : PReg) (inv : Bool) (s : State) : Host.Outcome State Fault Refusal :=
  crossWord c (fun x => x.zeroSpan d 1) (fun _ P x =>
    let t := P.filter (fun e => e.2.pred q != inv)
    x.setG d ((t[laneIndex P x]?).elim 0 (fun e => e.2.reg a))) s

def execExpand (c : Ctl) (d a : GReg) (q : PReg) (inv : Bool) (s : State) : Host.Outcome State Fault Refusal :=
  crossWord c (fun x => x.zeroSpan d 1) (fun _ P x =>
    let t := P.filter (fun e => e.2.pred q != inv)
    x.setG d (if x.pred q != inv then (P[laneIndex t x]?).elim 0 (fun e => e.2.reg a) else 0)) s

/-- One step of a reduction (Table 7.5). -/
def redStep (ty : Ty) (mode : Rnd) (sat : Bool) (fn : RedFn) (a b : Word) : Word :=
  let va := FVal.ofPat .f32 a.toNat
  let vb := FVal.ofPat .f32 b.toNat
  let ia : Int := if ty.signed then a.toInt else a.toNat
  let ib : Int := if ty.signed then b.toInt else b.toNat
  match fn with
  | .add =>
    if ty = .f32 then BitVec.ofNat 32 (packVal .f32 mode (FVal.add mode va vb) 0).1
    else if sat then BitVec.ofInt 32 (ty.satInt (ia + ib)) else a + b
  | .min =>
    if ty = .f32 then BitVec.ofNat 32 (minMaxPat .f32 false a.toNat b.toNat va vb) else if ia ≤ ib then a else b
  | .max =>
    if ty = .f32 then BitVec.ofNat 32 (minMaxPat .f32 true a.toNat b.toNat va vb) else if ia ≤ ib then b else a
  | .and => a &&& b
  | .or => a ||| b
  | .xor => a ^^^ b

/-- Identity of a reduction (Table 7.5). -/
def redIdentity (ty : Ty) : RedFn → Word
  | .add => 0
  | .min => if ty = .f32 then 0x7F800000 else if ty = .i32 then 0x7FFFFFFF else 0xFFFFFFFF
  | .max => if ty = .f32 then 0xFF800000 else if ty = .i32 then 0x80000000 else 0
  | .and => 0xFFFFFFFF
  | .or => 0
  | .xor => 0

/-- The run of P that a strand is in: a new run starts at each lane whose predicate is true (R157). -/
def runOf (q : PReg) (x : Strand) : Lanes → Lanes → Lanes
  | cur, [] => if cur.any (fun e => e.2.sid == x.sid) then cur else []
  | cur, e :: P =>
    if e.2.pred q then
      (if cur.any (fun h => h.2.sid == x.sid) then cur else runOf q x [e] P)
    else runOf q x (cur ++ [e]) P

/-- The segment of a strand (R157). -/
def Seg.of (P : Lanes) (x : Strand) : Seg → Lanes
  | .whole => P
  | .head q => runOf q x [] P
  | .key b => P.filter (fun e => e.2.reg b == x.reg b)

/-- Fold some lanes from the first one's value. -/
def foldLanes (f : Word → Word → Word) (ident : Word) (a : GReg) : Lanes → Word
  | [] => ident
  | e :: P => P.foldl (fun acc h => f acc (h.2.reg a)) (e.2.reg a)

/-- A word written as a value of a type: a NaN is written canonical (R107). -/
def canonWord (ty : Ty) (v : Word) : Word :=
  if ty = .f32 ∧ 0x7F800000 < (v &&& 0x7FFFFFFF#32).toNat then 0x7FC00000 else v

def execBreduce (c : Ctl) (ty : Ty) (rnd : Rnd) (sat : Bool) (fn : RedFn) (sg : Seg) (d a : GReg) (s : State) :
    Host.Outcome State Fault Refusal :=
  crossWord c (fun x => x.zeroSpan d 1) (fun _ P x =>
    x.setG d (canonWord ty (foldLanes (redStep ty (c.rnd rnd) sat fn) (redIdentity ty fn) a (Seg.of P x sg)))) s

def execBscan (c : Ctl) (ty : Ty) (rnd : Rnd) (sat : Bool) (fn : RedFn) (sg : Seg) (excl : Bool) (d a : GReg)
    (s : State) : Host.Outcome State Fault Refusal :=
  crossWord c (fun x => x.zeroSpan d 1) (fun _ P x =>
    let seg := Seg.of P x sg
    let i := laneIndex seg x
    x.setG d (canonWord ty (foldLanes (redStep ty (c.rnd rnd) sat fn) (redIdentity ty fn) a
      (seg.take (if excl then i else i + 1))))) s

def execBcast (c : Ctl) (ty : Ty) (d a : GReg) (lane : Option (BitVec 6)) (s : State) :
    Host.Outcome State Fault Refusal :=
  crossWord c (fun x => x.zeroSpan d ty.regs) (fun w P x =>
    takeFrom ty d a w P x (match lane with
      | none => (((P.head?).elim 0 (fun e => e.1) : Nat) : Int)
      | some l => ((l.toNat : Nat) : Int))) s

/-- One entry of a merge: key, value, flags. -/
structure MergeEntry where
  key : Word
  val : Word
  fl : Word
  deriving DecidableEq, Repr

/-- Put the next element of a list into the merged output, combining equal neighbours (R159). -/
def mergePut (add : Word → Word → Word) (out : List MergeEntry) (k v fl : Word) : List MergeEntry :=
  match out.getLast? with
  | some e => if e.key = k then out.dropLast ++ [⟨k, add e.val v, e.fl ||| fl⟩] else out ++ [⟨k, v, fl⟩]
  | none => [⟨k, v, fl⟩]

/-- The merge loop; ties take list A (R159). -/
def mergeLoop (add : Word → Word → Word) : Nat → List (Word × Word) → List (Word × Word) → List MergeEntry →
    List MergeEntry
  | 0, _, _, out => out
  | _ + 1, [], [], out => out
  | n + 1, a :: la, [], out => mergeLoop add n la [] (mergePut add out a.1 a.2 1)
  | n + 1, [], b :: lb, out => mergeLoop add n [] lb (mergePut add out b.1 b.2 2)
  | n + 1, a :: la, b :: lb, out =>
    if a.1.toNat ≤ b.1.toNat then mergeLoop add n la (b :: lb) (mergePut add out a.1 a.2 1)
    else mergeLoop add n (a :: la) lb (mergePut add out b.1 b.2 2)

/-- A zero pattern of the type (R116). -/
def zeroWord (ty : Ty) (v : Word) : Bool := if ty = .f32 then (v &&& 0x7FFFFFFF#32) == 0 else v == 0

def execMergek (c : Ctl) (ty : Ty) (rnd : Rnd) (sat dz : Bool) (sg : Option GReg) (d a : GReg) (q : PReg) (inv : Bool)
    (s : State) : Host.Outcome State Fault Refusal :=
  crossWord c (fun x => x.zeroSpan d 4) (fun _ P x =>
    let G := match sg with
      | none => P
      | some b => P.filter (fun e => e.2.reg b == x.reg b)
    let pairs (L : Lanes) : List (Word × Word) := L.map (fun e => (e.2.reg a, e.2.reg (gAt a 1)))
    let la := pairs (G.filter (fun e => e.2.pred q == inv))
    let lb := pairs (G.filter (fun e => e.2.pred q != inv))
    let out := mergeLoop (redStep ty (c.rnd rnd) sat .add) (G.length + 1) la lb []
    let out := if dz then out.filter (fun e => !zeroWord ty e.val) else out
    let n := BitVec.ofNat 32 out.length
    x.setSpan d (match out[laneIndex G x]? with
      | some e => [e.key, canonWord ty e.val, n, e.fl]
      | none => [0xFFFFFFFF, 0, n, 0])) s

end Sys2Proof.Machine
end

