-- ==== Sys2Proof/Machine/FloatOps.lean ====
section
/-! DEFINITION. Floating-point, special-function, convert and random instructions (R124 to R137). -/

namespace Sys2Proof.Machine

/-! ### Operands -/

/-- A modified source element: pattern and value (R124). -/
def modPat (f : Fmt) (p : Nat) (abs neg : Bool) : Nat :=
  let p := if abs then p % f.signBit else p
  if neg then (if p < f.signBit then p + f.signBit else p - f.signBit) else p

/-- The pattern of element k of source A, after its modifiers. -/
def Strand.srcA (x : Strand) (ty : Ty) (m : Mods) (a : GReg) (k : Nat) : Nat :=
  modPat (fmtOf ty) (elem ty (x.pat ty a) k) m.absA m.negA

def Strand.srcB (x : Strand) (ty : Ty) (m : Mods) (b : GReg) (k : Nat) : Nat :=
  modPat (fmtOf ty) (elem ty (x.pat ty b) k) m.absB m.negB

/-- Elements a register (or pair) holds for arithmetic: two for the packed forms. -/
def Ty.lanes (ty : Ty) : Nat := if ty.isH then 2 else 1

/-- Write packed element patterns. -/
def Strand.putElems (x : Strand) (ty : Ty) (d : GReg) (ps : List Nat) : Strand :=
  x.put ty d (((ps.zipIdx.map (fun (p, k) => p * 2 ^ (Ty.stride ty * k))).sum : Nat) : Int)

/-- Compute elements one after another, each drawing from the RNG the one before it left (R121). -/
def eachElem (f : Nat → BitVec 128 → Nat × BitVec 128) : List Nat → BitVec 128 → List Nat × BitVec 128
  | [], r => ([], r)
  | k :: ks, r =>
    let (p, r) := f k r
    let (ps, r) := eachElem f ks r
    (p :: ps, r)

/-- An arithmetic form over the elements of its type: the exact value of each element is rounded on its own. -/
def Strand.arith (x : Strand) (ty : Ty) (mode : Rnd) (sat : Bool) (d : GReg) (val : Nat → FVal) : Strand :=
  let (ps, r) := eachElem (fun k r => arithPat (fmtOf ty) mode sat (val k) r) (List.range (Ty.lanes ty)) x.rng
  { x.putElems ty d ps with rng := r }

def fval (ty : Ty) (p : Nat) : FVal := FVal.ofPat (fmtOf ty) p

/-- A two-operand arithmetic form (R126). -/
def arith2 (c : Ctl) (ty : Ty) (rnd : Rnd) (sat : Bool) (m : Mods) (d a b : GReg) (f : Rnd → FVal → FVal → FVal)
    (s : State) : Host.Outcome State Fault Refusal :=
  aluWord c d ty.regs (fun x => x.arith ty (c.rnd rnd) sat d
    (fun k => f (c.rnd rnd) (fval ty (x.srcA ty m a k)) (fval ty (x.srcB ty m b k)))) s

/-- A fused form: exact, one rounding (R126). -/
def fused (c : Ctl) (ty : Ty) (rnd : Rnd) (sat : Bool) (m : Mods) (d a b cc : GReg) (s : State) :
    Host.Outcome State Fault Refusal :=
  aluWord c d ty.regs (fun x => x.arith ty (c.rnd rnd) sat d
    (fun k => FVal.add (c.rnd rnd) (FVal.mul (fval ty (x.srcA ty m a k)) (fval ty (x.srcB ty m b k)))
      (fval ty (elem ty (x.pat ty cc) k)))) s

def fsubVal (mode : Rnd) (a b : FVal) : FVal := FVal.add mode a b.neg
def fmulVal (_ : Rnd) (a b : FVal) : FVal := FVal.mul a b

/-- Lesser or greater, element by element, with patterns unchanged (R127). -/
def minMax (c : Ctl) (ty : Ty) (m : Mods) (greater : Bool) (d a b : GReg) (s : State) :
    Host.Outcome State Fault Refusal :=
  aluWord c d ty.regs (fun x => x.putElems ty d ((List.range (Ty.lanes ty)).map (fun k =>
    let pa := x.srcA ty m a k; let pb := x.srcB ty m b k
    minMaxPat (fmtOf ty) greater pa pb (fval ty pa) (fval ty pb)))) s

/-- A floating compare into a predicate (R128). -/
def fcompare (c : Ctl) (ty : Ty) (m : Mods) (fn : FCmpFn) (k : Comb) (d : PReg) (a b : GReg) (s : State) :
    Host.Outcome State Fault Refusal :=
  predWord c d (fun x => x.setCmp d k (fn.holds ((fval ty (x.srcA ty m a 0)).cmp (fval ty (x.srcB ty m b 0))))) s

/-- A special function: LD is raised and the result returns later (R131). -/
def sfuWord (c : Ctl) (d : GReg) (f : Strand → Word) (s : State) : Host.Outcome State Fault Refusal :=
  inBundle s (wordByLane c (fun x => x.zeroSpan d 1) (fun s _ x => flyTo x [.ld] d 1 (.result .sfu x.sid (spanWords d [f x]) none) s))

/-- A special function of one modified F32 operand. -/
def sfu1 (c : Ctl) (m : Mods) (d a : GReg) (f : Word → FVal → Word) (s : State) : Host.Outcome State Fault Refusal :=
  sfuWord c d (fun x => let p := x.srcA .f32 m a 0; f (BitVec.ofNat 32 p) (fval .f32 p)) s

/-! ### Arithmetic -/

def execFadd (c : Ctl) (rnd : Rnd) (sat : Bool) (m : Mods) (d a b : GReg) (s : State) :
    Host.Outcome State Fault Refusal := arith2 c .f32 rnd sat m d a b FVal.add s

def execFsub (c : Ctl) (rnd : Rnd) (sat : Bool) (m : Mods) (d a b : GReg) (s : State) :
    Host.Outcome State Fault Refusal := arith2 c .f32 rnd sat m d a b fsubVal s

def execFmul (c : Ctl) (rnd : Rnd) (sat : Bool) (m : Mods) (d a b : GReg) (s : State) :
    Host.Outcome State Fault Refusal := arith2 c .f32 rnd sat m d a b fmulVal s

def execFfma (c : Ctl) (rnd : Rnd) (sat : Bool) (m : Mods) (d a b cc : GReg) (s : State) :
    Host.Outcome State Fault Refusal := fused c .f32 rnd sat m d a b cc s

def execFmin (c : Ctl) (m : Mods) (d a b : GReg) (s : State) : Host.Outcome State Fault Refusal :=
  minMax c .f32 m false d a b s

def execFmax (c : Ctl) (m : Mods) (d a b : GReg) (s : State) : Host.Outcome State Fault Refusal :=
  minMax c .f32 m true d a b s

def execFcmp (c : Ctl) (m : Mods) (fn : FCmpFn) (k : Comb) (d : PReg) (a b : GReg) (s : State) :
    Host.Outcome State Fault Refusal := fcompare c .f32 m fn k d a b s

/-- The class of a pattern as a bit number of the mask: 0 to 7, 8 signalling NaN, 9 quiet NaN (R129). -/
def fclassOf (f : Fmt) (p : Nat) : Nat :=
  match FVal.ofPat f p with
  | .nan => if p.testBit (f.m - 1) then 9 else 8
  | .inf s => if s then 0 else 7
  | .zero s => if s then 3 else 4
  | .fin s _ _ =>
    let sub := decide (p % f.signBit < 2 ^ f.m)
    if s then (if sub then 2 else 1) else (if sub then 5 else 6)

def execFclass (c : Ctl) (ty : Ty) (mask : BitVec 10) (d : PReg) (a : GReg) (s : State) :
    Host.Outcome State Fault Refusal :=
  predWord c d (fun x => x.setP d (mask.getLsbD (fclassOf (fmtOf ty) (x.pat ty a)))) s

/-- a x 2^n; beyond 5,000 binades nothing changes any more (R130). -/
def scaleVal (v : FVal) (n : Int) : FVal :=
  match v with
  | .fin s p q => scaleFin s p q (max (-5000) (min n 5000))
  | v => v

def execFscale (c : Ctl) (ty : Ty) (rnd : Rnd) (m : Mods) (d a b : GReg) (s : State) :
    Host.Outcome State Fault Refusal :=
  aluWord c d ty.regs (fun x => x.arith ty (c.rnd rnd) false d
    (fun k => scaleVal (fval ty (x.srcA ty m a k)) (x.reg b).toInt)) s

/-- The value rounded to the integer grid, a zero keeping its sign (R130). -/
def toGrid (mode : Rnd) (v : FVal) : FVal :=
  match v with
  | .fin s n d =>
    let i := (roundInt mode (.fin s n d) 0).1
    if i = 0 then .zero s else .fin s i.natAbs 1
  | v => v

def execFrnd (c : Ctl) (ty : Ty) (rnd : Rnd) (m : Mods) (d a : GReg) (s : State) : Host.Outcome State Fault Refusal :=
  aluWord c d ty.regs (fun x => x.arith ty .rn false d (fun k => toGrid (c.rnd rnd) (fval ty (x.srcA ty m a k)))) s

/-- a − floor(a) rounded to nearest, kept below 1.0 (R130). -/
def ffracPat (f : Fmt) (v : FVal) : Nat :=
  match v with
  | .nan => f.nanPat
  | .inf _ => f.nanPat
  | .zero _ => 0
  | .fin s n d =>
    let p := (packVal f .rn (ofSigned .rn (signed s n % d) d) 0).1
    if p = f.bias * 2 ^ f.m then p - 1 else p

def execFfrac (c : Ctl) (ty : Ty) (m : Mods) (d a : GReg) (s : State) : Host.Outcome State Fault Refusal :=
  aluWord c d ty.regs (fun x => x.putElems ty d [ffracPat (fmtOf ty) (fval ty (x.srcA ty m a 0))]) s

def execFrcp (c : Ctl) (m : Mods) (d a : GReg) (s : State) : Host.Outcome State Fault Refusal :=
  sfu1 c m d a frcpVal s

def execFrsq (c : Ctl) (m : Mods) (d a : GReg) (s : State) : Host.Outcome State Fault Refusal :=
  sfu1 c m d a frsqVal s

def execFsqrt (c : Ctl) (rnd : Rnd) (m : Mods) (d a : GReg) (s : State) : Host.Outcome State Fault Refusal :=
  sfu1 c m d a (fun _ v => fsqrtVal (c.rnd rnd) v) s

def execFexp2 (c : Ctl) (m : Mods) (d a : GReg) (s : State) : Host.Outcome State Fault Refusal :=
  sfu1 c m d a fexp2Val s

def execFlog2 (c : Ctl) (m : Mods) (d a : GReg) (s : State) : Host.Outcome State Fault Refusal :=
  sfu1 c m d a flog2Val s

def execFsin (c : Ctl) (m : Mods) (d a : GReg) (s : State) : Host.Outcome State Fault Refusal :=
  sfu1 c m d a fsinVal s

def execFcos (c : Ctl) (m : Mods) (d a : GReg) (s : State) : Host.Outcome State Fault Refusal :=
  sfu1 c m d a fcosVal s

def execFdiv (c : Ctl) (rnd : Rnd) (m : Mods) (d a b : GReg) (s : State) : Host.Outcome State Fault Refusal :=
  sfuWord c d (fun x => BitVec.ofNat 32
    (packVal .f32 (c.rnd rnd) ((fval .f32 (x.srcA .f32 m a 0)).div (fval .f32 (x.srcB .f32 m b 0))) 0).1) s

def execDadd (c : Ctl) (rnd : Rnd) (sat : Bool) (m : Mods) (d a b : GReg) (s : State) :
    Host.Outcome State Fault Refusal := arith2 c .f64 rnd sat m d a b FVal.add s

def execDsub (c : Ctl) (rnd : Rnd) (sat : Bool) (m : Mods) (d a b : GReg) (s : State) :
    Host.Outcome State Fault Refusal := arith2 c .f64 rnd sat m d a b fsubVal s

def execDmul (c : Ctl) (rnd : Rnd) (sat : Bool) (m : Mods) (d a b : GReg) (s : State) :
    Host.Outcome State Fault Refusal := arith2 c .f64 rnd sat m d a b fmulVal s

def execDfma (c : Ctl) (rnd : Rnd) (sat : Bool) (m : Mods) (d a b cc : GReg) (s : State) :
    Host.Outcome State Fault Refusal := fused c .f64 rnd sat m d a b cc s

def execDmin (c : Ctl) (m : Mods) (d a b : GReg) (s : State) : Host.Outcome State Fault Refusal :=
  minMax c .f64 m false d a b s

def execDmax (c : Ctl) (m : Mods) (d a b : GReg) (s : State) : Host.Outcome State Fault Refusal :=
  minMax c .f64 m true d a b s

def execDcmp (c : Ctl) (m : Mods) (fn : FCmpFn) (k : Comb) (d : PReg) (a b : GReg) (s : State) :
    Host.Outcome State Fault Refusal := fcompare c .f64 m fn k d a b s

def execHadd2 (c : Ctl) (ty : Ty) (rnd : Rnd) (sat : Bool) (m : Mods) (d a b : GReg) (s : State) :
    Host.Outcome State Fault Refusal := arith2 c ty rnd sat m d a b FVal.add s

def execHmul2 (c : Ctl) (ty : Ty) (rnd : Rnd) (sat : Bool) (m : Mods) (d a b : GReg) (s : State) :
    Host.Outcome State Fault Refusal := arith2 c ty rnd sat m d a b fmulVal s

def execHfma2 (c : Ctl) (ty : Ty) (rnd : Rnd) (sat : Bool) (m : Mods) (d a b cc : GReg) (s : State) :
    Host.Outcome State Fault Refusal := fused c ty rnd sat m d a b cc s

def execHmin2 (c : Ctl) (ty : Ty) (m : Mods) (d a b : GReg) (s : State) : Host.Outcome State Fault Refusal :=
  minMax c ty m false d a b s

def execHmax2 (c : Ctl) (ty : Ty) (m : Mods) (d a b : GReg) (s : State) : Host.Outcome State Fault Refusal :=
  minMax c ty m true d a b s

/-! ### Converts -/

/-- The exact value of a source element: floating, E8M0 or integer (R106, R109, R110). -/
def srcVal (ty : Ty) (p : Nat) : FVal :=
  if ty.isFloat then fval ty p
  else if ty = .e8m0 then (if p = 255 then .nan else scaleFin false 1 1 ((p : Int) - 127))
  else
    let n := Ty.ibits ty
    let v : Int := if ty.signed && decide (2 ^ (n - 1) ≤ p) then (p : Int) - 2 ^ n else p
    ofSigned .rn v 1

/-- F32 to E8M0: a power of two from below or above, clamped (R132). -/
def toE8m0 (mode : Rnd) (v : FVal) : Nat :=
  match v with
  | .nan => 255
  | .inf _ => 255
  | .zero _ => 0
  | .fin _ n d =>
    let k := log2Frac n d
    let exact := match k with
      | .ofNat j => decide (n = d * 2 ^ j)
      | .negSucc j => decide (n * 2 ^ (j + 1) = d)
    let k := if mode = .ru && !exact then k + 1 else k
    (max 0 (min 254 (k + 127))).toNat

/-- The destination pattern of a convert (R132). -/
def cvtPat (dst src : Ty) (mode : Rnd) (sat : Bool) (v : FVal) (rng : BitVec 128) : Nat × BitVec 128 :=
  if dst = .e8m0 then (toE8m0 mode v, rng)
  else if src = .e8m0 then packVal .f32 .rn v rng
  else if dst.isFloat then convVal (fmtOf dst) mode sat v rng
  else
    let bound (i : Int) : Nat := (BitVec.ofInt (Ty.ibits dst) (Ty.satInt dst i)).toNat
    match v with
    | .nan => (0, rng)
    | .inf s => (bound (if s then -(2 ^ 64) else 2 ^ 64), rng)
    | .zero _ => (0, rng)
    | v => let (i, rng) := roundInt mode v rng; (bound i, rng)

/-- CVT (R132). E8M0 is no floating type here: as a source it leaves MAXABS alone (R122; DEDUCED, log 56). -/
def execCvt (c : Ctl) (dst src : Ty) (rnd : Rnd) (sat : Bool) (d a : GReg) (s : State) :
    Host.Outcome State Fault Refusal :=
  aluWord c d dst.regs (fun x =>
    let v := srcVal src (elem src (x.pat src a) 0)
    let (p, r) := cvtPat dst src (c.rnd rnd) sat v x.rng
    let x := { x with rng := r, maxabs := if src.isFloat then maxabsStep x.maxabs src v else x.maxabs }
    x.put dst d (p : Int)) s

/-- Element k of the F32 span of a pack. -/
def Strand.spanElem (x : Strand) (a : GReg) (k : Nat) : Nat := (x.reg (gAt a k)).toNat

/-- Pack converted elements into one register (R133). -/
def Strand.packInto (x : Strand) (ty : Ty) (mode : Rnd) (sat : Bool) (d : GReg) (ftz : Bool) (val : Nat → FVal) :
    Strand :=
  let (ps, r) := eachElem (fun k r =>
    let (p, r) := convVal (fmtOf ty) mode sat (val k) r
    (if ftz then (fmtOf ty).flush p else p, r)) (List.range ty.packCount) x.rng
  { x.putElems ty d ps with rng := r }

def execCvtpk (c : Ctl) (ty : Ty) (rnd : Rnd) (sat : Bool) (d a : GReg) (s : State) :
    Host.Outcome State Fault Refusal :=
  aluWord c d 1 (fun x => x.packInto ty (c.rnd rnd) sat d false (fun k => fval .f32 (x.spanElem a k))) s

/-- The format word's FTZ (Table 6.4), when CVTX names one. -/
def ftzOf (x : Strand) (fw : Option GReg) : Bool := (fw.map (fun g => (x.reg g).getLsbD 17)).getD false

/-- CVTX (R134). FTZ flushes elements and results, not the scale (R115; DEDUCED, log 56). -/
def execCvtx (c : Ctl) (ty : Ty) (rnd : Rnd) (sat : Bool) (d a b : GReg) (fw : Option GReg) (s : State) :
    Host.Outcome State Fault Refusal :=
  aluWord c d 1 (fun x =>
    let ftz := ftzOf x fw
    let ps := (List.range ty.packCount).map (x.spanElem a)
    let mx := ps.foldl (fun m p => maxabsStep m .f32 (fval .f32 p)) x.maxabs
    { x.packInto ty (c.rnd rnd) sat d ftz (fun k =>
        let p := x.spanElem a k
        FVal.mul (fval .f32 (if ftz then Fmt.f32.flush p else p)) (fval .f32 (x.reg b).toNat)) with maxabs := mx }) s

def execAmaxrd (c : Ctl) (d : GReg) (s : State) : Host.Outcome State Fault Refusal :=
  aluWord c d 1 (fun x => x.setG d x.maxabs) s

def execAmaxclr (c : Ctl) (d : GReg) (s : State) : Host.Outcome State Fault Refusal :=
  aluWord c d 1 (fun x => { x.setG d x.maxabs with maxabs := 0 }) s

/-! ### Random bits and nonzero tests -/

def execRngseed (c : Ctl) (a b : GReg) (s : State) : Host.Outcome State Fault Refusal :=
  inBundle s (wordOfStrand c (fun x => x) (fun x => { x with rng := seedExpand (x.pair a) (x.reg b) }))

def execRngnext (c : Ctl) (ty : Ty) (d : GReg) (s : State) : Host.Outcome State Fault Refusal :=
  aluWord c d ty.regs (fun x =>
    let (y, r) := draw x.rng
    { x.put ty d (y.toNat : Int) with rng := r }) s

/-- Whether a pattern is not zero: −0 is a zero pattern in a floating format (R116). -/
def nonzeroPat (ty : Ty) (p : Nat) : Bool := if ty.isFloat then p % (fmtOf ty).signBit != 0 else p != 0

/-- The elements of a word that are not zero. -/
def nonzeroElems (ty : Ty) (w : Word) : List Nat :=
  (List.range (32 / Ty.stride ty)).filter (fun k => nonzeroPat ty (elem ty w.toNat k))

def execNzcnt (c : Ctl) (ty : Ty) (d a : GReg) (s : State) : Host.Outcome State Fault Refusal :=
  aluWord c d 1 (fun x => x.setG d (BitVec.ofNat 32 (nonzeroElems ty (x.reg a)).length)) s

def execNzmask (c : Ctl) (ty : Ty) (d a : GReg) (s : State) : Host.Outcome State Fault Refusal :=
  aluWord c d 1 (fun x => x.setG d (BitVec.ofNat 32 ((nonzeroElems ty (x.reg a)).map (fun k => 2 ^ k)).sum)) s

end Sys2Proof.Machine
end

