-- ==== Sys2Proof/Machine/HostOps.lean ====
section
/-! DEFINITION. Host operations over RoCEv2: RDMA WRITE and READ, the 64-bit atomics, and what is refused (R208, R389, R390,
R393). -/

namespace Sys2Proof.Machine

/-- The registration entry that an rkey names, if n bytes at an address lie in it. -/
def State.registered (s : State) (rkey : Word) (va : DWord) (n : Nat) : Option Reg :=
  (s.regs.find? (fun r => r.rkey == rkey)).filter (fun r =>
    decide (r.base.toNat ≤ va.toNat) && decide (va.toNat + n ≤ r.base.toNat + r.len.toNat))

/-- Check n bytes of a host access, each on its own page; none when one fails. -/
def State.hostAccs (s : State) (va : DWord) (kind : BitVec 3) (ok : Page → Bool) : Nat → Option (List Acc)
  | 0 => some []
  | n + 1 =>
    match s.hostAccs va kind ok n, s.check unitCourse (va + BitVec.ofNat 64 n) 1 kind ok with
    | some as, .ok a => some (as ++ [a])
    | _, _ => none

/-- A host operation on a QP that is not ready is refused, and one whose rkey, range, permission or translation fails is a remote
access error: a NAK, and nothing changes (R390, R393). -/
def State.hostOp (s : State) (qpn : Nat) (ok : Option State) : Host.Outcome State Fault Refusal :=
  if !s.qpReady qpn then .next (s.say (.nak qpn .invalid))
  else match ok with
    | some t => .next t
    | none => .next (s.say (.nak qpn .access))

/-- A write of the host. It reaches STATUS and OWNCORE of a mapping entry, which are read-only to programs: the host sets an entry up
with a STATUS that no binding store answers (R354, R405; DEDUCED, log 70). -/
def State.hostPut (s : State) (a : Acc) (bs : List Byte) (judged : Option Nat := none) : State :=
  let t := s.sysPut a bs judged
  let own := (bytesAt a.pa bs).filter (fun e => s.mappingRo e.1)
  match s.place a with
  | .scratch _ _ => t
  | .memory => own.foldl (fun s e => s.memWrite e.1 [e.2]) t
  | .cached => own.foldl (fun s e => s.sysWrite e.1 [e.2]) t

/-- RDMA_WRITE: plain SYS writes of the message's bytes. -/
def execRdmaWrite (qpn : Nat) (rkey : Word) (va : DWord) (data : List Byte) (s : State) : Host.Outcome State Fault Refusal :=
  s.hostOp qpn (((s.registered rkey va data.length).filter (·.write)).bind (fun _ =>
    (s.hostAccs va accWrite (·.write) data.length).map (fun as =>
      ((as.zip data).foldl (fun s e => s.hostPut e.1 [e.2]) s).say (.ack qpn))))

/-- RDMA_READ: SYS reads. -/
def execRdmaRead (qpn : Nat) (rkey : Word) (va : DWord) (len : Nat) (s : State) : Host.Outcome State Fault Refusal :=
  s.hostOp qpn (((s.registered rkey va len).filter (·.read)).bind (fun _ =>
    (s.hostAccs va accRead (·.read) len).map (fun as => s.say (.readResp qpn (as.map s.sysByte)))))

/-- A host atomic: ATOM at SYS with ACQREL on an aligned doubleword, as one step after the write of any earlier ATOM (R198, R208);
`f` gives what it stores, if it stores. -/
def State.hostAtomic (s : State) (qpn : Nat) (rkey : Word) (va : DWord) (judged : Bool) (f : DWord → Option DWord) : Option State :=
  ((s.registered rkey va 8).filter (fun r => r.read && r.write)).bind (fun _ =>
    match s.check unitCourse va 8 (accRead ||| accWrite) (fun p => p.read && p.write) with
    | .error _ => none
    | .ok a =>
      let s := if s.place a = .cached then (s.recallAt none a.pa).atomsFirst a.pa 8 else s
      let old : DWord := BitVec.ofNat 64 (leNat ((List.range 8).map (fun i =>
        s.sysByte { a with va := a.va + BitVec.ofNat 64 i, pa := a.pa + i })))
      let s := match f old with
        | some v => s.hostPut a (leBytes 8 v.toNat) (if judged then some v.toNat else none)
        | none => s
      some (s.say (.atomResp qpn old)))

/-- COMPARE_SWAP: ATOM CAS; a swap of bytes 0 to 7 of a fault record is an answer (R377). -/
def execCompareSwap (qpn : Nat) (rkey : Word) (va cmp new : DWord) (s : State) : Host.Outcome State Fault Refusal :=
  s.hostOp qpn (s.hostAtomic qpn rkey va true (fun old => if old = cmp then some new else none))

/-- FETCH_ADD: ATOM ADD. -/
def execFetchAdd (qpn : Nat) (rkey : Word) (va v : DWord) (s : State) : Host.Outcome State Fault Refusal :=
  s.hostOp qpn (s.hostAtomic qpn rkey va false (fun old => some (old + v)))

/-- UNSUPPORTED_PACKET: dropped with a NAK; nothing else changes (R389). -/
def execUnsupportedPacket (qpn : Nat) (s : State) : Host.Outcome State Fault Refusal := .next (s.say (.nak qpn .invalid))

end Sys2Proof.Machine
end

