-- ==== Sys2Proof/Machine/Integer.lean ====
section
/-! DEFINITION. Integer, address, predicate, move and immediate instructions (R86 to R96). Each result is computed
exactly on integers and then reduced to the type's bits. -/

namespace Sys2Proof.Machine

/-! ### Shared computations -/

/-- The result of a type, saturated where SAT asks for it (R88). -/
def intResult (ty : Ty) (sat : Bool) (v : Int) : Int := if sat then ty.satInt v else v

/-- Quotient and remainder of R89. -/
def divRem (ty : Ty) (x y : Int) : Int × Int :=
  if y = 0 then (-1, x)
  else if ty = .i32 ∧ x = -(2 ^ 31) ∧ y = -1 then (-(2 ^ 31), 0)
  else (x.tdiv y, x - y * x.tdiv y)

/-- Counts of R90: shifts of the width or more. -/
def shlVal (w a n : Nat) : Nat := if w ≤ n then 0 else a * 2 ^ n
def shrVal (w a n : Nat) : Nat := if w ≤ n then 0 else a / 2 ^ n
def sarVal (w : Nat) (a : Int) (n : Nat) : Int := a / (2 ^ min n (w - 1) : Int)

def rotVal (right : Bool) (a : Word) (n : Nat) : Word :=
  if right then a.rotateRight (n % 32) else a.rotateLeft (n % 32)

/-- The 64-bit concatenation shift (R90). -/
def catshVal (left : Bool) (lo hi : Word) (n : Nat) : Word :=
  let v := Word.pair lo hi
  if left then DWord.hi (v <<< (n % 64)) else DWord.lo (v >>> (n % 64))

/-- Leading zero bits of the low n bits, counted from bit n − 1. -/
def clzFrom (a : Word) : Nat → Nat
  | 0 => 0
  | n + 1 => if a.getLsbD n then 0 else clzFrom a n + 1

def ctzFrom (a : Word) : Nat → Nat → Nat
  | _, 0 => 0
  | k, n + 1 => if a.getLsbD k then 0 else ctzFrom a (k + 1) n + 1

def popcount (a : Word) : Nat := ((List.range 32).filter (fun k => a.getLsbD k)).length

/-- Bit k of the result is bit n − 1 − k (BREV, and mode 3 of BSEL). -/
def brev (n : Nat) (a : Nat) : Nat := ((List.range n).map (fun k => if a.testBit (n - 1 - k) then 2 ^ k else 0)).sum

/-- LSB and number of bits of a field descriptor (R91). -/
def fieldLsb (b : Word) : Nat := b.toNat % 32
def fieldBits (b : Word) : Nat := min (fieldLsb b + b.toNat / 32 % 32) 31 - fieldLsb b + 1

def fextVal (ty : Ty) (a b : Word) : Word :=
  let n := fieldBits b
  let f := a.toNat / 2 ^ fieldLsb b % 2 ^ n
  if ty.signed && f.testBit (n - 1) then BitVec.ofInt 32 ((f : Int) - 2 ^ n) else BitVec.ofNat 32 f

def finsVal (a b v : Word) : Word :=
  let m : Word := BitVec.ofNat 32 ((2 ^ fieldBits b - 1) * 2 ^ fieldLsb b)
  (v &&& ~~~m) ||| ((a <<< fieldLsb b) &&& m)

/-- One byte of BSEL: source byte j, copied, cleared, sign-filled or bit-reversed (R91). -/
def bselByte (v : DWord) (c : Nat) : Nat :=
  let y := v.toNat / 2 ^ (8 * (c % 8)) % 256
  match c / 8 % 4 with
  | 0 => y
  | 1 => 0
  | 2 => if y.testBit 7 then 255 else 0
  | _ => brev 8 y

def bselVal (v : DWord) (sel : Word) : Word :=
  BitVec.ofNat 32 (((List.range 4).map (fun k => bselByte v (sel.toNat / 2 ^ (8 * k) % 256) * 2 ^ (8 * k))).sum)

/-- A two-operand integer result. -/
def intOp (c : Ctl) (ty : Ty) (sat : Bool) (d a b : GReg) (f : Int → Int → Int) (s : State) :
    Host.Outcome State Fault Refusal :=
  aluWord c d ty.regs (fun x => x.put ty d (intResult ty sat (f (x.val ty a) (x.val ty b)))) s

/-- A word result of one word operand. -/
def wordOp1 (c : Ctl) (d a : GReg) (f : Word → Word) (s : State) : Host.Outcome State Fault Refusal :=
  aluWord c d 1 (fun x => x.setG d (f (x.reg a))) s

/-- A word result of two word operands. -/
def wordOp2 (c : Ctl) (d a b : GReg) (f : Word → Word → Word) (s : State) : Host.Outcome State Fault Refusal :=
  aluWord c d 1 (fun x => x.setG d (f (x.reg a) (x.reg b))) s

/-- DIV and REM: LD is raised and the result returns later (R89). -/
def divWord (c : Ctl) (d : GReg) (f : Strand → Int) (s : State) : Host.Outcome State Fault Refusal :=
  inBundle s (wordByLane c (fun x => x.zeroSpan d 1)
    (fun s _ x => flyTo x [.ld] d 1 (.result .div x.sid (spanWords d [BitVec.ofInt 32 (f x)]) none) s))

/-! ### V3 forms (Table 5.4) -/

def execAdd (c : Ctl) (ty : Ty) (sat : Bool) (d a b : GReg) (s : State) : Host.Outcome State Fault Refusal :=
  intOp c ty sat d a b (· + ·) s

def execSub (c : Ctl) (ty : Ty) (sat : Bool) (d a b : GReg) (s : State) : Host.Outcome State Fault Refusal :=
  intOp c ty sat d a b (· - ·) s

def execMul (c : Ctl) (ty : Ty) (d a b : GReg) (s : State) : Host.Outcome State Fault Refusal :=
  intOp c ty false d a b (· * ·) s

/-- Bits 63:32 of the exact product. -/
def execMulh (c : Ctl) (ty : Ty) (d a b : GReg) (s : State) : Host.Outcome State Fault Refusal :=
  intOp c ty false d a b (fun x y => x * y / 2 ^ 32) s

def execMad (c : Ctl) (ty : Ty) (d a b cc : GReg) (s : State) : Host.Outcome State Fault Refusal :=
  aluWord c d 1 (fun x => x.put ty d (x.val ty a * x.val ty b + x.val ty cc)) s

/-- The addend and result are pairs: I64 for I32, N64 for N32. -/
def execMadl (c : Ctl) (ty : Ty) (d a b cc : GReg) (s : State) : Host.Outcome State Fault Refusal :=
  let wide := if ty.signed then Ty.i64 else Ty.n64
  aluWord c d 2 (fun x => x.put wide d (x.val ty a * x.val ty b + x.val wide cc)) s

def execDiv (c : Ctl) (ty : Ty) (d a b : GReg) (s : State) : Host.Outcome State Fault Refusal :=
  divWord c d (fun x => (divRem ty (x.val ty a) (x.val ty b)).1) s

def execRem (c : Ctl) (ty : Ty) (d a b : GReg) (s : State) : Host.Outcome State Fault Refusal :=
  divWord c d (fun x => (divRem ty (x.val ty a) (x.val ty b)).2) s

def execMin (c : Ctl) (ty : Ty) (d a b : GReg) (s : State) : Host.Outcome State Fault Refusal :=
  intOp c ty false d a b min s

def execMax (c : Ctl) (ty : Ty) (d a b : GReg) (s : State) : Host.Outcome State Fault Refusal :=
  intOp c ty false d a b max s

def execAbs (c : Ctl) (ty : Ty) (sat : Bool) (d a : GReg) (s : State) : Host.Outcome State Fault Refusal :=
  aluWord c d ty.regs (fun x => x.put ty d (intResult ty sat ((x.val ty a).natAbs : Int))) s

def execAnd (c : Ctl) (d a b : GReg) (s : State) : Host.Outcome State Fault Refusal := wordOp2 c d a b (· &&& ·) s

def execOr (c : Ctl) (d a b : GReg) (s : State) : Host.Outcome State Fault Refusal := wordOp2 c d a b (· ||| ·) s

def execXor (c : Ctl) (d a b : GReg) (s : State) : Host.Outcome State Fault Refusal := wordOp2 c d a b (· ^^^ ·) s

def execAndn (c : Ctl) (d a b : GReg) (s : State) : Host.Outcome State Fault Refusal :=
  wordOp2 c d a b (fun x y => x &&& ~~~y) s

def execNot (c : Ctl) (d a : GReg) (s : State) : Host.Outcome State Fault Refusal := wordOp1 c d a (fun x => ~~~x) s

def execShl (c : Ctl) (ty : Ty) (d a b : GReg) (s : State) : Host.Outcome State Fault Refusal :=
  aluWord c d ty.regs (fun x => x.put ty d (shlVal ty.ibits (x.pat ty a) (x.reg b).toNat : Nat)) s

def execShr (c : Ctl) (ty : Ty) (d a b : GReg) (s : State) : Host.Outcome State Fault Refusal :=
  aluWord c d ty.regs (fun x => x.put ty d (shrVal ty.ibits (x.pat ty a) (x.reg b).toNat : Nat)) s

def execSar (c : Ctl) (ty : Ty) (d a b : GReg) (s : State) : Host.Outcome State Fault Refusal :=
  aluWord c d ty.regs (fun x => x.put ty d (sarVal ty.ibits (x.val ty a) (x.reg b).toNat)) s

def execRot (c : Ctl) (right : Bool) (d a b : GReg) (s : State) : Host.Outcome State Fault Refusal :=
  wordOp2 c d a b (fun x y => rotVal right x y.toNat) s

def execCatsh (c : Ctl) (left : Bool) (d a b cc : GReg) (s : State) : Host.Outcome State Fault Refusal :=
  aluWord c d 1 (fun x => x.setG d (catshVal left (x.reg a) (x.reg b) (x.reg cc).toNat)) s

def execPopc (c : Ctl) (d a : GReg) (s : State) : Host.Outcome State Fault Refusal :=
  wordOp1 c d a (fun x => BitVec.ofNat 32 (popcount x)) s

def execClz (c : Ctl) (d a : GReg) (s : State) : Host.Outcome State Fault Refusal :=
  wordOp1 c d a (fun x => BitVec.ofNat 32 (clzFrom x 32)) s

def execCtz (c : Ctl) (d a : GReg) (s : State) : Host.Outcome State Fault Refusal :=
  wordOp1 c d a (fun x => BitVec.ofNat 32 (ctzFrom x 0 32)) s

def execBrev (c : Ctl) (d a : GReg) (s : State) : Host.Outcome State Fault Refusal :=
  wordOp1 c d a (fun x => BitVec.ofNat 32 (brev 32 x.toNat)) s

def execFext (c : Ctl) (ty : Ty) (d a b : GReg) (s : State) : Host.Outcome State Fault Refusal :=
  wordOp2 c d a b (fextVal ty) s

def execFins (c : Ctl) (d a b cc : GReg) (s : State) : Host.Outcome State Fault Refusal :=
  aluWord c d 1 (fun x => x.setG d (finsVal (x.reg a) (x.reg b) (x.reg cc))) s

def execBsel (c : Ctl) (d a b : GReg) (s : State) : Host.Outcome State Fault Refusal :=
  aluWord c d 1 (fun x => x.setG d (bselVal (x.pair a) (x.reg b))) s

def execLea (c : Ctl) (ty : Ty) (d a b : GReg) (sh : Fin 8) (s : State) : Host.Outcome State Fault Refusal :=
  aluWord c d 2 (fun x => x.put .n64 d (((x.pair a).toNat : Int) + x.val ty b * 2 ^ sh.1)) s

def execSel (c : Ctl) (ty : Ty) (d a b : GReg) (q : PReg) (inv : Bool) (s : State) : Host.Outcome State Fault Refusal :=
  aluWord c d ty.regs (fun x => x.put ty d (if x.pred q != inv then x.val ty a else x.val ty b)) s

def execMov (c : Ctl) (ty : Ty) (d a : GReg) (s : State) : Host.Outcome State Fault Refusal :=
  aluWord c d ty.regs (fun x => x.put ty d (x.val ty a)) s

/-! ### Compares and predicates (R93, R94) -/

def execCmp (c : Ctl) (ty : Ty) (fn : CmpFn) (k : Comb) (d : PReg) (a b : GReg) (s : State) :
    Host.Outcome State Fault Refusal :=
  predWord c d (fun x => x.setCmp d k (fn.holds (x.val ty a) (x.val ty b))) s

def execPand (c : Ctl) (negA negB : Bool) (d a b : PReg) (s : State) : Host.Outcome State Fault Refusal :=
  predWord c d (fun x => x.setP d ((x.pred a != negA) && (x.pred b != negB))) s

def execPor (c : Ctl) (negA negB : Bool) (d a b : PReg) (s : State) : Host.Outcome State Fault Refusal :=
  predWord c d (fun x => x.setP d ((x.pred a != negA) || (x.pred b != negB))) s

def execPxor (c : Ctl) (negA negB : Bool) (d a b : PReg) (s : State) : Host.Outcome State Fault Refusal :=
  predWord c d (fun x => x.setP d ((x.pred a != negA) != (x.pred b != negB))) s

def execPtog (c : Ctl) (d : GReg) (s : State) : Host.Outcome State Fault Refusal :=
  aluWord c d 1 (fun x => x.setG d (BitVec.ofNat 32 x.predWord)) s

/-- A masked lane with MZ makes the predicates its own g[b] selects false (R94). -/
def execGtop (c : Ctl) (a b : GReg) (s : State) : Host.Outcome State Fault Refusal :=
  inBundle s (wordOfStrand c (fun x => x.selectPreds 0 (x.reg b)) (fun x => x.selectPreds (x.reg a) (x.reg b)))

/-! ### Immediate forms (R95, R96) -/

def execAddImm (c : Ctl) (d a : GReg) (imm : Word) (s : State) : Host.Outcome State Fault Refusal :=
  wordOp1 c d a (· + imm) s

def execSubImm (c : Ctl) (d a : GReg) (imm : Word) (s : State) : Host.Outcome State Fault Refusal :=
  wordOp1 c d a (· - imm) s

def execMulImm (c : Ctl) (d a : GReg) (imm : Word) (s : State) : Host.Outcome State Fault Refusal :=
  wordOp1 c d a (· * imm) s

def execAndImm (c : Ctl) (d a : GReg) (imm : Word) (s : State) : Host.Outcome State Fault Refusal :=
  wordOp1 c d a (· &&& imm) s

def execOrImm (c : Ctl) (d a : GReg) (imm : Word) (s : State) : Host.Outcome State Fault Refusal :=
  wordOp1 c d a (· ||| imm) s

def execXorImm (c : Ctl) (d a : GReg) (imm : Word) (s : State) : Host.Outcome State Fault Refusal :=
  wordOp1 c d a (· ^^^ imm) s

def execShlImm (c : Ctl) (d a : GReg) (imm : Word) (s : State) : Host.Outcome State Fault Refusal :=
  wordOp1 c d a (fun x => BitVec.ofNat 32 (shlVal 32 x.toNat imm.toNat)) s

def execShrImm (c : Ctl) (d a : GReg) (imm : Word) (s : State) : Host.Outcome State Fault Refusal :=
  wordOp1 c d a (fun x => BitVec.ofNat 32 (shrVal 32 x.toNat imm.toNat)) s

def execSarImm (c : Ctl) (d a : GReg) (imm : Word) (s : State) : Host.Outcome State Fault Refusal :=
  wordOp1 c d a (fun x => BitVec.ofInt 32 (sarVal 32 x.toInt imm.toNat)) s

def execMovi (c : Ctl) (d : GReg) (imm : Word) (s : State) : Host.Outcome State Fault Refusal :=
  aluWord c d 1 (fun x => x.setG d imm) s

def execMovh (c : Ctl) (d a : GReg) (imm : BitVec 16) (s : State) : Host.Outcome State Fault Refusal :=
  wordOp1 c d a (fun x => imm ++ x.extractLsb' 0 16) s

end Sys2Proof.Machine
end

