-- ==== Sys2Proof/Machine/IssueEvents.lean ====
section
/-! DEFINITION. The issue slot of a core and the fetch of a clause (R22, R23, R25, R59, R101, R150). -/

namespace Sys2Proof.Machine

/-! ### The PC table (R22) -/

/-- The order of the table: PC, then age. -/
def Strand.tableLe (x y : Strand) : Bool :=
  decide (x.pc.toNat < y.pc.toNat) || (decide (x.pc = y.pc) && decide (x.age ≤ y.age))

def insertTable (x : Strand) : List Strand → List Strand
  | [] => [x]
  | y :: r => if x.tableLe y then x :: y :: r else y :: insertTable x r

def sortTable : List Strand → List Strand
  | [] => []
  | x :: r => insertTable x (sortTable r)

/-- A READY strand whose team may issue: its gang is not being saved (R31) and its launch is not being stopped (R268). -/
def State.mayIssue (s : State) (x : Strand) : Bool :=
  x.state == .ready && (s.team? x.tid).elim false (fun t =>
    !t.saving && t.carve.isNone && (s.launch? t.seq).elim true (fun l => match l.state with | .dying _ => false | _ => true))

/-! ### Home groups (R150) -/

/-- Whether a strand stands at a clause whose ENG has the XLN bit. -/
def State.atXln (s : State) (core : Nat) (x : Strand) : Bool :=
  match x.cls with
  | some k => k.eng.getLsbD 2
  | none =>
    match s.fetchWord (coreUnit core) x.pc with
    | .ok w => headerOk w && w.getLsbD 60
    | .error _ => false

/-- Whether two strands are of one home group. -/
def State.sameHome (s : State) (x y : Strand) : Bool :=
  x.tid == y.tid && (s.team? x.tid).elim false (fun t =>
    t.kind != .gang || x.strandId / t.kernel.width == y.strandId / t.kernel.width)

/-- Where a strand stands: at its bundle's next slot while it issues. -/
def State.pcNow (s : State) (x : Strand) : DWord :=
  match s.bundles.find? (fun b => b.lanes.contains x.sid) with
  | some b => b.pc
  | none => x.pc

/-- The header of the clause that a strand stands inside. -/
def Strand.clauseAt (x : Strand) : Option DWord := x.cls.map (fun k => x.pc - 8 * BitVec.ofNat 64 (k.idx + 1))

/-- Whether a strand is held on a missing page in the clause that another stands inside: its lane is inactive there from its instruction
on, and the other strands complete the clause (R27; DEDUCED, log 71). -/
def Strand.leftBy (y x : Strand) : Bool :=
  (match y.state with | .faultHeld _ => true | _ => false) && x.clauseAt.isSome && y.clauseAt == x.clauseAt

/-- Whether a strand's home group can be formed at its PC: every live member at or below it is READY there, but for those that a fault
holds earlier in the clause. -/
def State.homeReady (s : State) (x : Strand) : Bool :=
  s.strands.all (fun y => y.state == .ended || !s.sameHome x y || decide (x.pc.toNat < (s.pcNow y).toNat) ||
    (y.state == .ready && y.pc == x.pc) || y.leftBy x)

/-- The entries of a core's table that are eligible, in table order. -/
def State.table (s : State) (core : Nat) : List Strand :=
  sortTable (s.strands.filter (fun x => s.coreOf x.tid == core && s.mayIssue x && (!s.atXln core x || s.homeReady x)))

/-! ### Bundles (R21, R23) -/

/-- Bundle width of a strand's kernel. -/
def State.strandWidth (s : State) (x : Strand) : Nat := (s.team? x.tid).elim 16 (fun t => t.kernel.width)

/-- LANEPOS (R18). -/
def State.laneOf (s : State) (x : Strand) : Nat := x.strandId % s.strandWidth x

/-- Whether a strand can be placed in a bundle with some others of its run. -/
def State.joins (s : State) (core : Nat) (x : Strand) (g : List Strand) : Bool :=
  g.all (fun y => decide (y.cls = x.cls) && s.strandWidth y == s.strandWidth x && s.laneOf y != s.laneOf x &&
    (!s.atXln core x || s.sameHome x y))

/-- Place a strand in the first bundle that has its lane free, or in a new one while there is a pipe. -/
def State.place1 (s : State) (core : Nat) (x : Strand) : Nat → List (List Strand) → List (List Strand)
  | 0, gs => gs
  | _ + 1, [] => [[x]]
  | n + 1, g :: gs => if s.joins core x g then (g ++ [x]) :: gs else g :: State.place1 s core x n gs

def insertLane (s : State) (x : Strand) : List Strand → List Strand
  | [] => [x]
  | y :: r => if s.laneOf x ≤ s.laneOf y then x :: y :: r else y :: insertLane s x r

/-- The strands of a bundle in LANEPOS order. -/
def sortLanes (s : State) : List Strand → List Strand
  | [] => []
  | x :: r => insertLane s x (sortLanes s r)

/-- Pipes of a core that carry no bundle. -/
def State.freePipes (s : State) (core : Nat) : List Nat :=
  (List.range 4).filter (fun p => !s.bundles.any (fun b => b.core == core && b.pipe == p))

/-- The longest-waiting of some strands, the older of two. -/
def longestWaiting : List Strand → Option Strand
  | [] => none
  | x :: r =>
    match longestWaiting r with
    | none => some x
    | some y => if x.since < y.since ∨ (x.since = y.since ∧ x.age < y.age) then some x else some y

/-- The run of an entry: the entries with its PC and launch. -/
def State.runOf (s : State) (tab : List Strand) (x : Strand) : List Strand :=
  tab.filter (fun y => y.pc == x.pc && s.seqOf y.tid == s.seqOf x.tid)

/-- ISSUE_SLOT: the head run, or the run of the longest-waiting strand when the starvation count has reached 64. -/
def execIssueSlot (core : Nat) (s : State) : Host.Outcome State Fault Refusal :=
  let pipes := s.freePipes core
  let tab := s.table core
  match longestWaiting tab, tab with
  | some old, x0 :: _ =>
    if pipes.isEmpty then .next s
    else
      let forced := decide (64 ≤ s.starve.getD core 0)
      let head := (tab.find? (fun x => !x.yielded)).getD x0
      let run := if forced then old :: (s.runOf tab old).filter (fun y => y.sid != old.sid) else s.runOf tab head
      let groups := run.foldl (fun gs x => s.place1 core x pipes.length gs) []
      let taken := groups.flatten.map (·.sid)
      let count (n : Nat) : Nat :=
        if forced || taken.contains old.sid then 0 else if tab.all (fun x => taken.contains x.sid) then n else n + 1
      let new : List Bundle := (groups.zip pipes).filterMap (fun e =>
        match e.1 with
        | [] => none
        | x :: _ => some ⟨core, e.2, s.seqOf x.tid, x.pc, x.cls, false, [], (sortLanes s e.1).map (·.sid), false⟩)
      let s := if forced then s.count (courseOf core) 9 1 else s
      .next { s with
        starve := modAt count core s.starve,
        bundles := s.bundles ++ new,
        strands := s.strands.map (fun x =>
          if taken.contains x.sid then { x with state := .issuing, yielded := false } else x) }
  | _, _ => .next s

/-! ### Clause fetch (R59) -/

/-- Fetch n words, or the lowest address that failed and how. -/
def State.fetchWords (s : State) (unit : Nat) : Nat → DWord → Except (DWord × WalkErr) (List DWord)
  | 0, _ => .ok []
  | n + 1, pc =>
    match s.fetchWord unit pc with
    | .error w => .error (pc, w)
    | .ok v =>
      match State.fetchWords s unit n (pc + 8) with
      | .error e => .error e
      | .ok vs => .ok (v :: vs)

/-- Remove the bundle at a position. -/
def State.dropBundle (s : State) (k : Nat) : State := { s with bundles := s.bundles.eraseIdx k }

/-- A fetch fault against every strand of a bundle, at its PC. -/
def State.fetchFault (s : State) (k : Nat) (b : Bundle) (va : DWord) (e : WalkErr) : State :=
  let s := (s.dropBundle k)
  let at' : State := { s with strands := s.strands.map (fun x =>
    if b.lanes.contains x.sid then { x with pc := b.pc, cls := b.cls, heldVa := va, heldLen := 1 } else x) }
  match e with
  | .access => b.lanes.foldl (fun s sid => s.trap sid b.pc b.cls (.addr 7 accExec va) 0) at'
  | .notPresent => at'.hold b.lanes .fetch accExec va 0

/-- CLAUSE_FETCH: the words of the k-th bundle's clause, or its fault; a PC that no slot has, as an image may restore it, is
MISALIGNED (R59, R383, log 51). -/
def execClauseFetch (k : Nat) (s : State) : Host.Outcome State Fault Refusal :=
  match s.bundles[k]? with
  | none => .next s
  | some b =>
    if b.fetched then .next s
    else if b.pc.extractLsb' 0 3 != 0 then
      .next (b.lanes.foldl (fun s sid => s.trap sid b.pc b.cls (.addr 5 accExec b.pc) 0) (s.dropBundle k))
    else
      let u := coreUnit b.core
      let put (cls : Cls) (pc : DWord) (ws : List DWord) : State :=
        ({ s with bundles := s.bundles.set k { b with cls := some cls, pc := pc, fetched := true, words := ws } } : State).count
          (courseOf b.core) 8 1
      match b.cls with
      | some cl =>
        match s.fetchWords u cl.left b.pc with
        | .error e => .next (s.fetchFault k b e.1 e.2)
        | .ok ws => .next (put cl b.pc ws)
      | none =>
        match s.fetchWord u b.pc with
        | .error e => .next (s.fetchFault k b b.pc e)
        | .ok h =>
          let n := (h.extractLsb' 54 4).toNat + 1
          match s.fetchWords u n (b.pc + 8) with
          | .error e => .next (s.fetchFault k b e.1 e.2)
          | .ok ws =>
            if headerOk h then .next (put ⟨h.extractLsb' 58 6, h.getLsbD 49, n, 0⟩ (b.pc + 8) ws)
            else .next (b.lanes.foldl (fun s sid => s.trap sid b.pc none (.plain 2) 0) (s.dropBundle k))

end Sys2Proof.Machine
end

