-- ==== Sys2Proof/Machine/Traversal.lean ====
section
/-! DEFINITION. Traversal units: the sweep of the TRAV bins, steps over bricks, the stack, and the brick cache (R291, R306 to
R319). -/

namespace Sys2Proof.Machine

/-! ### References and the scene (R306, R307) -/

/-- No reference, and the instance exit marker. -/
def refNone : Nat := 0xFFFFFF
def refExit : Nat := 0xFFFFFE

/-- Bytes of the node at a reference: n bytes from offset off, in pieces of 16. -/
def State.sceneBytes (s : State) (c : Nat) (e : Ext) (ref off : Nat) : Nat → Except LaneFault (State × List Byte)
  | 0 => .ok (s, [])
  | n + 1 =>
    match s.check c (e.root + BitVec.ofNat 64 (4096 * (ref / 64) + 64 * (ref % 64) + off)) 1 accRead (·.read) with
    | .error f => .error f
    | .ok acc =>
      let r := s.dieRead c acc 16
      match State.sceneBytes r.1 c e ref (off + 16) n with
      | .error f => .error f
      | .ok q => .ok (q.1, r.2 ++ q.2)

/-- Whether n bytes from the unit of a reference stay in its brick. -/
def inBrick (ref n : Nat) : Bool := decide (64 * (ref % 64) + n ≤ 4096)

/-! ### The ray in a step -/

/-- A ray's state in a step: its record image, its side block, and the stack words to write. -/
structure Ray where
  img : BitVec 1024
  side : BitVec 512
  puts : List (Nat × Word)
  deriving DecidableEq, Repr

/-- How a step leaves the ray. -/
inductive Fate where
  | more
  /-- it finishes (R317) -/
  | finish
  /-- it ends with an error kind (R312) -/
  | over (kind : Nat)
  /-- it waits for an episode of this shader kind and index -/
  | episode (kind index : Nat)
  deriving DecidableEq, Repr

def Ray.node (r : Ray) : Nat := field r.img 1000 24
def Ray.kind (r : Ray) : Nat := sideField r.side 200 2
def Ray.depth (r : Ray) : Nat := field r.img 896 8
def Ray.inst (r : Ray) : Nat := sideField r.side 176 24
def Ray.leafPos (r : Ray) : Nat := sideField r.side 224 4
def Ray.flag (r : Ray) (k : Nat) : Bool := (field r.img 256 8).testBit k
def Ray.tmin (r : Ray) : FVal := f32v (field r.img 96 32)
def Ray.tmax (r : Ray) : FVal := f32v (field r.img 224 32)

def Ray.setNode (r : Ray) (ref kind : Nat) : Ray := { r with img := setField r.img 1000 24 ref, side := setField r.side 200 2 kind }
def Ray.setLeaf (r : Ray) (n : Nat) : Ray := { r with side := setField r.side 224 4 n }

/-- Nothing is left at NODE. -/
def Ray.done (r : Ray) : Ray := (r.setNode refNone 0).setLeaf 0

/-- Stack entry j of the four in TSTATE: reference and kind. -/
def Ray.entry (r : Ray) (j : Nat) : Nat × Nat := (field r.img (976 - 24 * j) 24, sideField r.side (202 + 2 * j) 2)

def Ray.setEntry (r : Ray) (j : Nat) (v : Nat × Nat) : Ray :=
  { r with img := setField r.img (976 - 24 * j) 24 v.1, side := setField r.side (202 + 2 * j) 2 v.2 }

/-- Most entries of a stack. -/
def Ext.maxDepth (e : Ext) : Nat := min (4 + e.stkEnt) 255

/-- Push; none when the stack is full. The entry that leaves S3 goes to the stack area (R311). -/
def Ray.push (e : Ext) (r : Ray) (v : Nat × Nat) : Option Ray :=
  let d := r.depth
  if d = e.maxDepth then none
  else
    let low := r.entry 3
    let r := (((r.setEntry 3 (r.entry 2)).setEntry 2 (r.entry 1)).setEntry 1 (r.entry 0)).setEntry 0 v
    some { r with
      img := setField r.img 896 8 (d + 1),
      puts := if 4 ≤ d then r.puts ++ [(64 + 4 * (d - 4), BitVec.ofNat 32 (low.1 + low.2 * 2 ^ 24))] else r.puts }

/-- Pop into NODE, given the word that comes back from the stack area. -/
def Ray.pop (r : Ray) (back : Nat × Nat) : Ray :=
  let top := r.entry 0
  let r := (((r.setEntry 0 (r.entry 1)).setEntry 1 (r.entry 2)).setEntry 2 (r.entry 3)).setEntry 3 back
  let r := ({ r with img := setField r.img 896 8 (r.depth - 1) } : Ray).setNode top.1 top.2
  if top.1 = refExit then { r.setNode refNone 0 with side := setField (r.setNode refNone 0).side 176 24 refNone } else r

/-- Bytes as F32 values. -/
def f32s (bs : List Byte) : List FVal := (bytesWords bs).map (fun w => f32v w.toNat)

/-- Values of a byte list at an offset. -/
def f32At (bs : List Byte) (off n : Nat) : List FVal := f32s ((bs.drop off).take (4 * n))

/-- Origin and direction as the record holds them. -/
def Ray.world (r : Ray) : List FVal × List FVal :=
  ([field r.img 0 32, field r.img 32 32, field r.img 64 32].map f32v, [field r.img 128 32, field r.img 160 32, field r.img 192 32].map f32v)

/-- Whether a ray visits nothing (R312). -/
def Ray.void (r : Ray) : Bool :=
  let w := r.world
  (w.1 ++ w.2).any FVal.bad || w.2.all FVal.isZero || r.tmin.isNan || r.tmax.isNan || FVal.cmp r.tmin r.tmax == some .gt

/-- What a ray needs of its instance: flags, shader offset, identifier, and the ray in its space. -/
structure Space where
  o : List FVal
  d : List FVal
  flags : Nat
  shoff : Nat
  inst : Nat

/-- The ray in the space it is in; none when its instance no longer gives a ray. -/
def State.space (s : State) (c : Nat) (e : Ext) (r : Ray) : Except LaneFault (State × Option Space) :=
  let w := r.world
  if r.inst = refNone then .ok (s, some ⟨w.1, w.2, 0, 0, 0xFFFFFFFF⟩)
  else match s.sceneBytes c e r.inst 0 4 with
    | .error f => .error f
    | .ok q =>
      let v := leNat q.2
      .ok (q.1, (objectRay (f32At q.2 0 12) w.1 w.2).map (fun p =>
        ⟨p.1, p.2, v / 2 ^ 464 % 8, v / 2 ^ 448 % 2 ^ 16, v / 2 ^ 416 % 2 ^ 32⟩))

/-! ### A box step (R308, R312) -/

/-- Whether a child of a box node has its exact box met by the segment. -/
def childMet (sp : Space) (r : Ray) (v : Nat) (bs : List Byte) (c : Nat) : Bool :=
  let org := f32At bs 0 3
  let q (k : Nat) : Nat := (bs.getD (16 + 6 * c + k) 0).toNat
  let ex (k : Nat) : Nat := v / 2 ^ (96 + 8 * k) % 256
  let at' (k : Nat) (n : Nat) : Int := fixed149 (axisOf org k) + (n * 2 ^ (ex k + 22) : Nat)
  meetsBox sp.o sp.d r.tmin r.tmax [at' 0 (q 0), at' 1 (q 1), at' 2 (q 2)] [at' 0 (q 3 + 1), at' 1 (q 4 + 1), at' 2 (q 5 + 1)]

/-- Whether a box node is malformed (R307). -/
def badBox (v : Nat) (bs : List Byte) : Bool :=
  (List.range 3).any (fun k => v / 2 ^ (96 + 8 * k) % 256 == 255) || (f32At bs 0 3).any FVal.bad

/-- Push the children met, and those that the unit reports besides. -/
def pushChildren (e : Ext) (sp : Space) (v : Nat) (bs : List Byte) (extra : Byte) (r0 : Ray) : List Nat → Ray → Ray × Fate
  | [], r => (r.setNode refNone 0, .more)
  | c :: cs, r =>
    let kind := v / 2 ^ (704 + 2 * c) % 4
    if kind != 0 && (childMet sp r0 v bs c || extra.getLsbD c) then
      match r.push e (v / 2 ^ (512 + 24 * c) % 2 ^ 24, kind) with
      | none => (r, .over 0xFF02)
      | some r => pushChildren e sp v bs extra r0 cs r
    else pushChildren e sp v bs extra r0 cs r

/-- What a step gives: the machine, the ray, its fate, and how many malformed things it met. -/
structure StepOut where
  s : State
  r : Ray
  fate : Fate
  bad : Nat

/-- A malformed node is empty. -/
def malformed (s : State) (r : Ray) : StepOut := ⟨s, r.done, .more, 1⟩

def State.boxStep (s : State) (c : Nat) (e : Ext) (r : Ray) (extra : Byte) : Except LaneFault StepOut :=
  if !inBrick r.node 128 then .ok (malformed s r)
  else match s.sceneBytes c e r.node 0 8 with
    | .error f => .error f
    | .ok q =>
      let v := leNat q.2
      if badBox v q.2 then .ok (malformed q.1 r)
      else match q.1.space c e r with
        | .error f => .error f
        | .ok (s, none) => .ok ⟨s, r.setNode refNone 0, .more, 0⟩
        | .ok (s, some sp) =>
          let p := pushChildren e sp v q.2 extra r [0, 1, 2, 3, 4, 5, 6, 7] r
          .ok ⟨s, p.1, p.2, 0⟩

/-! ### An instance step (R309, R312) -/

def State.instanceStep (s : State) (c : Nat) (e : Ext) (r : Ray) : Except LaneFault StepOut :=
  if !inBrick r.node 128 || r.inst != refNone then .ok (malformed s r)
  else match s.sceneBytes c e r.node 0 4 with
    | .error f => .error f
    | .ok q =>
      let v := leNat q.2
      let blas := v / 2 ^ 384 % 2 ^ 24
      let w := r.world
      if blas = refNone ∨ blas = refExit then .ok (malformed q.1 r)
      else if field r.img 264 8 &&& (v / 2 ^ 408 % 256) = 0 ∨ (objectRay (f32At q.2 0 12) w.1 w.2).isNone then
        .ok ⟨q.1, r.setNode refNone 0, .more, 0⟩
      else
        let here := r.node
        match r.push e (refExit, 0) with
        | none => .ok ⟨q.1, r, .over 0xFF02, 0⟩
        | some r => .ok ⟨q.1, { r.setNode blas 1 with side := setField (r.setNode blas 1).side 176 24 here }, .more, 0⟩

/-! ### A leaf step (R310, R313 to R317) -/

/-- Size of a primitive entry; none for a reserved kind. -/
def primSize : Nat → Option Nat
  | 0 => some 48
  | 1 => some 48
  | 2 => some 80
  | 3 => some 32
  | _ => none

/-- The test of a primitive that is not custom. -/
def primHit (sp : Space) (r : Ray) (lkind : Nat) (bs : List Byte) : Option Hit :=
  match lkind with
  | 0 =>
    match triangle sp.o sp.d (f32At bs 0 3) (f32At bs 12 3) (f32At bs 24 3) (sp.flags.testBit 2) with
    | none => none
    | some (h, front) =>
      let cull := !sp.flags.testBit 1 && (if front then r.flag 4 else r.flag 3)
      if cull then none else some h
  | 1 =>
    let fl := leNat ((bs.drop 32).take 4)
    (capsuleHit sp.o sp.d (f32At bs 0 3) (f32At bs 16 3) (axisOf (f32At bs 12 1) 0) (axisOf (f32At bs 28 1) 0) (fl.testBit 0)
      (fl.testBit 1) r.tmin r.tmax).map (fun h => ⟨h.1, h.2, 0, 3⟩)
  | _ =>
    let fl := leNat ((bs.drop 64).take 4)
    (curveHit sp.o sp.d [f32At bs 0 3, f32At bs 16 3, f32At bs 32 3, f32At bs 48 3]
      [axisOf (f32At bs 12 1) 0, axisOf (f32At bs 28 1) 0, axisOf (f32At bs 44 1) 0, axisOf (f32At bs 60 1) 0] (fl.testBit 0)
      (fl.testBit 1) r.tmin r.tmax).map (fun h => ⟨h.1, h.2, 0, 4⟩)

/-- Whether the segment meets a custom primitive's box; a NaN bound is not stated (DESIGN CHOICE, log 6). -/
def State.customMet (s : State) (sp : Space) (r : Ray) (bs : List Byte) : State × Bool :=
  let lo := f32At bs 0 3
  let hi := f32At bs 12 3
  if (lo ++ hi).any FVal.isNan then let q := s.free; (q.2, q.1.getLsbD 0)
  else if lo.any (fun v => v.isInf && !v.isNeg) || hi.any (fun v => v.isInf && v.isNeg) then (s, false)
  else (s, meetsBox sp.o sp.d r.tmin r.tmax (lo.map boundI) (hi.map boundI))

/-- Commit a hit (R313). -/
def Ray.commit (r : Ray) (h : Hit) (prim inst sh : Nat) : Ray :=
  let b := setField r.side 0 32 h.u
  let b := setField b 320 32 h.v
  let b := setField b 32 64 prim
  let b := setField b 96 32 inst
  let b := setField b 144 16 h.kind
  let b := setField b 160 16 sh
  { r with img := setField r.img 224 32 h.t, side := b }

/-- Write a candidate to the A fields. -/
def Ray.candidate (r : Ray) (h : Hit) (prim inst sh : Nat) : Ray :=
  let b := setField r.side 480 32 h.t
  let b := setField b 256 32 h.u
  let b := setField b 288 32 h.v
  let b := setField b 352 64 prim
  let b := setField b 416 32 inst
  let b := setField b 448 16 h.kind
  { r with side := setField b 464 16 sh }

/-- A leaf header's fields and the space in which it is tested. -/
structure Leaf where
  lkind : Nat
  size : Nat
  count : Nat
  isOpaque : Bool
  hoff : Nat
  geom : Nat
  base : Nat
  sp : Space

/-- One primitive: the machine, the ray and its fate. -/
def State.primStep (s : State) (e : Ext) (vis : Bool) (lf : Leaf) (i : Nat) (bs : List Byte) (r : Ray) : State × Ray × Fate :=
  let prim := lf.geom * 2 ^ 32 + (lf.base + i) % 2 ^ 32
  let sh := (field r.img 272 16 + lf.sp.shoff + lf.hoff) % 2 ^ 16
  if lf.lkind = 3 then
    if vis || (e.shader 3 sh).isNone then (s, r, .more)
    else
      let q := s.customMet lf.sp r bs
      if q.2 then (q.1, r.candidate ⟨0, 0, 0, 0x7F⟩ prim lf.sp.inst sh, .episode 3 sh) else (q.1, r, .more)
  else
    match primHit lf.sp r lf.lkind bs with
    | none => (s, r, .more)
    | some h =>
      if !closer r.img r.side h.t lf.sp.inst prim then (s, r, .more)
      else if vis || r.flag 0 || lf.sp.flags.testBit 0 || lf.isOpaque || (e.shader 2 sh).isNone then
        (s, r.commit h prim lf.sp.inst sh, if r.flag 1 then .finish else .more)
      else (s, r.candidate h prim lf.sp.inst sh, .episode 2 sh)

/-- Test primitives from LEAFPOS, at most n of them; LEAFPOS passes each one tested. -/
def State.primSteps (s : State) (c : Nat) (e : Ext) (vis : Bool) (lf : Leaf) : Nat → Ray → Except LaneFault StepOut
  | 0, r => .ok ⟨s, r, .more, 0⟩
  | n + 1, r =>
    let i := r.leafPos
    match s.sceneBytes c e r.node (16 + lf.size * i) (lf.size / 16) with
    | .error f => .error f
    | .ok q =>
      let p := q.1.primStep e vis lf i q.2 r
      let r := p.2.1
      let past := lf.count ≤ i + 1
      let r := if past then r.done else r.setLeaf (i + 1)
      if p.2.2 = .more then (if past then .ok ⟨p.1, r, .more, 0⟩ else State.primSteps p.1 c e vis lf n r)
      else .ok ⟨p.1, r, p.2.2, 0⟩

def State.leafStep (s : State) (c : Nat) (e : Ext) (vis : Bool) (r : Ray) : Except LaneFault StepOut :=
  match s.sceneBytes c e r.node 0 1 with
  | .error f => .error f
  | .ok q =>
    let v := leNat q.2
    let count := v / 16 % 16 + 1
    match primSize (v % 16) with
    | none => .ok (malformed q.1 r)
    | some size =>
      if !inBrick r.node (16 + size * count) || decide (count ≤ r.leafPos) then .ok (malformed q.1 r)
      else match q.1.space c e r with
        | .error f => .error f
        | .ok (s, none) => .ok ⟨s, r.done, .more, 0⟩
        | .ok (s, some sp) =>
          s.primSteps c e vis ⟨v % 16, size, count, v.testBit 8, v / 2 ^ 16 % 2 ^ 16, v / 2 ^ 64 % 2 ^ 32, v / 2 ^ 96, sp⟩
            (if v % 16 = 2 then 1 else 4) r

/-! ### A step (R312) -/

/-- A word of the stack area of a slot. -/
def State.stackWord (s : State) (l : Launch) (e : Ext) (c idx off : Nat) : Except LaneFault (State × Nat) :=
  match s.checkStack c (sideAddr l e c idx + BitVec.ofNat 64 off) 4 with
  | .error f => .error f
  | .ok a => let r := s.dieRead c a 4; .ok (r.1, leNat r.2)

/-- The step of a ray, nothing written yet. -/
def State.rayStep (s : State) (l : Launch) (e : Ext) (c : Nat) (rec : Rec) (side : BitVec 512) (extra : Byte) :
    Except LaneFault StepOut :=
  let r : Ray := ⟨rec.image, side, []⟩
  if r.void then .ok ⟨s, { r with side := setField side 144 16 0 }, .finish, 0⟩
  else if r.node = refNone then
    if r.depth = 0 then .ok ⟨s, r, .finish, 0⟩
    else if r.depth ≤ 4 then .ok ⟨s, r.pop (refNone, 0), .more, 0⟩
    else match s.stackWord l e c rec.idx (64 + 4 * (r.depth - 5)) with
      | .error f => .error f
      | .ok q => .ok ⟨q.1, r.pop (q.2 % 2 ^ 24, q.2 / 2 ^ 24 % 4), .more, 0⟩
  else match r.kind with
    | 1 => s.boxStep c e r extra
    | 2 => s.leafStep c e rec.vis.isSome r
    | 3 => s.instanceStep c e r
    | _ => .ok (malformed s r)

/-- Check the words a step writes; none when all can be written. -/
def State.stackFault (s : State) (l : Launch) (e : Ext) (c idx : Nat) (puts : List (Nat × Word)) : Option LaneFault :=
  let bad (off n : Nat) : Option LaneFault :=
    match s.checkStack c (sideAddr l e c idx + BitVec.ofNat 64 off) n with
    | .error f => some f
    | .ok _ => none
  match bad 0 64 with
  | some f => some f
  | none => puts.findSome? (fun p => bad p.1 4)

/-- Write what a step changed: the record, its side block and its stack words. -/
def State.putRay (s : State) (l : Launch) (e : Ext) (c idx : Nat) (r : Ray) : State :=
  let s := s.modRec c l.seq idx (fun x => { x with image := r.img })
  let s := s.putSide c l.seq idx r.side
  r.puts.foldl (fun s p =>
    match s.checkStack c (sideAddr l e c idx + BitVec.ofNat 64 p.1) 4 with
    | .ok a => s.dieWrite c a (leBytes 4 p.2.toNat)
    | .error _ => s) s

/-! ### Events -/

/-- The value of a TRAV bin in the sweep. -/
def Key.sweep : Key → Option Nat
  | .trav cell cls => some (cell * 64 + cls)
  | _ => none

/-- The records of a bin that can be handed over: a held one waits for its RESUME. -/
def State.handable (s : State) (c : Nat) (b : Bin) : List Nat :=
  if b.key.sweep.isSome && (s.launch? b.seq).elim false (fun l => l.state == .admitted && !l.saving && !l.spilled) then
    (b.recs.map (·.1)).filter (fun i => (s.rec? c b.seq i).elim false (fun r => r.state == .binned))
  else []

/-- The distance of a bin from the last current one in the sweep. -/
def sweepFrom (last : Option Nat) (v : Nat) : Nat :=
  match last with
  | none => v
  | some l => (v + 262144 - l - 1) % 262144

/-- How far a bin is in the sweep. Bins of several launches may share a value: they are taken in launch order, each once in a
sweep (R291, log 20). -/
def Course.ahead (x : Course) (b : Bin) : Nat :=
  let v := b.key.sweep.getD 0
  if x.lastCur = some v ∧ x.lastSeq < b.seq then 0 else 1 + sweepFrom x.lastCur v

/-- The next bin of the sweep. -/
def State.nextBin (s : State) (c : Nat) : Option Bin :=
  let x := s.course c
  (x.bins.filter (fun b => !(s.handable c b).isEmpty)).foldl (fun (best : Option Bin) b =>
    match best with
    | none => some b
    | some q => if x.ahead b < x.ahead q ∨ (x.ahead b = x.ahead q ∧ b.seq < q.seq) then some b else some q) none

/-- Make a bin current if none is, or if the current one has nothing more to give; its prefetch is triggered. -/
def State.chooseBin (s : State) (c : Nat) : State :=
  let x := s.course c
  let live := (x.curBin.bind (fun i => x.bins.find? (fun b => b.idx == i))).elim false (fun b =>
    decide (x.served < 4096) && !(s.handable c b).isEmpty)
  if live then s
  else match s.nextBin c with
    | none => s.modCourse c (fun x => { x with curBin := none })
    | some b =>
      (s.modCourse c (fun x => { x with curBin := some b.idx, served := 0, lastCur := b.key.sweep, lastSeq := b.seq })).trigger c b

/-- TRAVERSAL_HANDOVER: an idle unit takes the next record of the current bin. -/
def execTraversalHandover (course unit : Nat) (s : State) : Host.Outcome State Fault Refusal :=
  if decide (8 ≤ unit) || (s.course course).trav.any (fun t => t.1 == unit) then .next s
  else
    let s' := s.chooseBin course
    let x := s'.course course
    match x.curBin.bind (fun i => x.bins.find? (fun b => b.idx == i)) with
    | none => .next s'
    | some b =>
      match s'.handable course b with
      | [] => .next s'
      | i :: _ =>
        let t := (s'.modRec course b.seq i (fun r => { r with state := .traversing })).modCourse course (fun x =>
          { x with trav := x.trav ++ [(unit, b.seq, i)], served := x.served + 1 })
        .next (t.unbin course b.seq [i])

/-- The ray leaves its unit. -/
def State.leaveUnit (s : State) (c unit : Nat) : State :=
  s.modCourse c (fun x => { x with trav := x.trav.filter (fun t => t.1 != unit) })

/-- The ray ends with an error kind (R312), which is kept beside its record and shown as CKIND of its side block wherever that is
read; the stack area itself does not come to hold it (DESIGN CHOICE, log 65). -/
def State.rayError (s : State) (c seq idx kind : Nat) : State :=
  ((s.modRec c seq idx (fun r => { r with err := kind })).finishRay c seq idx 0).grants

/-- A failed access of a step: the ray ends, or goes back to its bin held on a record that names page and slot. -/
def State.rayFault (s : State) (l : Launch) (e : Ext) (c : Nat) (r : Rec) : LaneFault → State
  | .trap _ => s.rayError c l.seq r.idx 0xFF01
  | .page va acc =>
    let cause := s.nextId
    let s := s.formFault .brick acc va l.seq 0 0 0xFFFFFFFF#32 (BitVec.ofNat 32 (r.idx + c * 65536)) 0
    (s.modRec c l.seq r.idx (fun x => { x with state := .held cause })).join c l.seq r.idx (travKey e r.image)

/-- TRAVERSAL_STEP: a unit makes one step of its ray; `extra` are child boxes that it reports besides those it must. -/
def execTraversalStep (course unit : Nat) (extra : Byte) (s : State) : Host.Outcome State Fault Refusal :=
  match (s.course course).trav.find? (fun t => t.1 == unit) with
  | none => .next s
  | some (_, seq, idx) =>
    match s.launch? seq, s.extOf seq, s.rec? course seq idx with
    | some l, some e, some r =>
      if l.state ≠ .admitted ∨ l.saving then .next s
      else
        let s := s.count course 13 1
        match (s.getSide course seq idx).bind (fun q => q.1.rayStep l e course r q.2 extra) with
        | .error f => .next ((s.leaveUnit course unit).rayFault l e course r f)
        | .ok o =>
          match s.stackFault l e course idx o.r.puts with
          | some f => .next ((s.leaveUnit course unit).rayFault l e course r f)
          | none =>
            let t := (o.s.count course 3 o.bad).putRay l e course idx o.r
            match o.fate with
            | .more => .next t
            | .finish => .next (((t.leaveUnit course unit).finishRay course seq idx o.r.side).grants)
            | .over k => .next ((t.leaveUnit course unit).rayError course seq idx k)
            | .episode k i => .next (((t.leaveUnit course unit).shade course seq idx k i).grants)
    | _, _, _ => .next (s.leaveUnit course unit)

/-- BRICK_FETCH_COMPLETE: a requested brick is held; the partition keeps as many as it has room for. -/
def execBrickFetchComplete (course brick : Nat) (s : State) : Host.Outcome State Fault Refusal :=
  if (s.course course).brickReq.contains brick then
    let s := s.modCourse course (fun x => { x with brickReq := x.brickReq.filter (· != brick) })
    let room := 4096 * s.brickPart - ((s.courses.map (fun x => x.bricks.length)).sum - (s.course course).bricks.length)
    let s := s.modCourse course (fun x => { x with bricks := (x.bricks ++ [brick]).drop (x.bricks.length + 1 - room) })
    .next (s.count course 14 1)
  else .next s

end Sys2Proof.Machine
end

