-- ==== Sys2Proof/Machine/Dispatch.lean ====
section
/-! DEFINITION. The dispatch of `exec`: one arm for each constructor of `Instr`, in the order of the opcode table. -/

namespace Sys2Proof.Machine

def exec (i : Instr) (s : State) : Host.Outcome State Fault Refusal :=
  match i with
  | .bra c off => Sys2Proof.Machine.execBra c off s
  | .brx c a => Sys2Proof.Machine.execBrx c a s
  | .call c d off => Sys2Proof.Machine.execCall c d off s
  | .callx c d a => Sys2Proof.Machine.execCallx c d a s
  | .ret c a => Sys2Proof.Machine.execRet c a s
  | .exit c => Sys2Proof.Machine.execExit c s
  | .yield c off => Sys2Proof.Machine.execYield c off s
  | .mwait c w sc d a off => Sys2Proof.Machine.execMwait c w sc d a off s
  | .nop c => Sys2Proof.Machine.execNop c s
  | .launch c d a off => Sys2Proof.Machine.execLaunch c d a off s
  | .qstatQ c d a => Sys2Proof.Machine.execQstatQ c d a s
  | .qstatLast c d a => Sys2Proof.Machine.execQstatLast c d a s
  | .qstatSeq c d a => Sys2Proof.Machine.execQstatSeq c d a s
  | .trap c code => Sys2Proof.Machine.execTrap c code s
  | .brk c code => Sys2Proof.Machine.execBrk c code s
  | .eret c => Sys2Proof.Machine.execEret c s
  | .mfc c d r => Sys2Proof.Machine.execMfc c d r s
  | .mtc c r a => Sys2Proof.Machine.execMtc c r a s
  | .add c ty sat d a b => Sys2Proof.Machine.execAdd c ty sat d a b s
  | .sub c ty sat d a b => Sys2Proof.Machine.execSub c ty sat d a b s
  | .mul c ty d a b => Sys2Proof.Machine.execMul c ty d a b s
  | .mulh c ty d a b => Sys2Proof.Machine.execMulh c ty d a b s
  | .mad c ty d a b cc => Sys2Proof.Machine.execMad c ty d a b cc s
  | .madl c ty d a b cc => Sys2Proof.Machine.execMadl c ty d a b cc s
  | .div c ty d a b => Sys2Proof.Machine.execDiv c ty d a b s
  | .rem c ty d a b => Sys2Proof.Machine.execRem c ty d a b s
  | .min c ty d a b => Sys2Proof.Machine.execMin c ty d a b s
  | .max c ty d a b => Sys2Proof.Machine.execMax c ty d a b s
  | .abs c ty sat d a => Sys2Proof.Machine.execAbs c ty sat d a s
  | .and c d a b => Sys2Proof.Machine.execAnd c d a b s
  | .or c d a b => Sys2Proof.Machine.execOr c d a b s
  | .xor c d a b => Sys2Proof.Machine.execXor c d a b s
  | .andn c d a b => Sys2Proof.Machine.execAndn c d a b s
  | .not c d a => Sys2Proof.Machine.execNot c d a s
  | .shl c ty d a b => Sys2Proof.Machine.execShl c ty d a b s
  | .shr c ty d a b => Sys2Proof.Machine.execShr c ty d a b s
  | .sar c ty d a b => Sys2Proof.Machine.execSar c ty d a b s
  | .rot c right d a b => Sys2Proof.Machine.execRot c right d a b s
  | .catsh c left d a b cc => Sys2Proof.Machine.execCatsh c left d a b cc s
  | .popc c d a => Sys2Proof.Machine.execPopc c d a s
  | .clz c d a => Sys2Proof.Machine.execClz c d a s
  | .ctz c d a => Sys2Proof.Machine.execCtz c d a s
  | .brev c d a => Sys2Proof.Machine.execBrev c d a s
  | .fext c ty d a b => Sys2Proof.Machine.execFext c ty d a b s
  | .fins c d a b cc => Sys2Proof.Machine.execFins c d a b cc s
  | .bsel c d a b => Sys2Proof.Machine.execBsel c d a b s
  | .lea c ty d a b sh => Sys2Proof.Machine.execLea c ty d a b sh s
  | .sel c ty d a b q inv => Sys2Proof.Machine.execSel c ty d a b q inv s
  | .mov c ty d a => Sys2Proof.Machine.execMov c ty d a s
  | .cmp c ty fn k d a b => Sys2Proof.Machine.execCmp c ty fn k d a b s
  | .pand c negA negB d a b => Sys2Proof.Machine.execPand c negA negB d a b s
  | .por c negA negB d a b => Sys2Proof.Machine.execPor c negA negB d a b s
  | .pxor c negA negB d a b => Sys2Proof.Machine.execPxor c negA negB d a b s
  | .ptog c d => Sys2Proof.Machine.execPtog c d s
  | .gtop c a b => Sys2Proof.Machine.execGtop c a b s
  | .addImm c d a imm => Sys2Proof.Machine.execAddImm c d a imm s
  | .subImm c d a imm => Sys2Proof.Machine.execSubImm c d a imm s
  | .mulImm c d a imm => Sys2Proof.Machine.execMulImm c d a imm s
  | .andImm c d a imm => Sys2Proof.Machine.execAndImm c d a imm s
  | .orImm c d a imm => Sys2Proof.Machine.execOrImm c d a imm s
  | .xorImm c d a imm => Sys2Proof.Machine.execXorImm c d a imm s
  | .shlImm c d a imm => Sys2Proof.Machine.execShlImm c d a imm s
  | .shrImm c d a imm => Sys2Proof.Machine.execShrImm c d a imm s
  | .sarImm c d a imm => Sys2Proof.Machine.execSarImm c d a imm s
  | .movi c d imm => Sys2Proof.Machine.execMovi c d imm s
  | .movh c d a imm => Sys2Proof.Machine.execMovh c d a imm s
  | .fadd c rnd sat m d a b => Sys2Proof.Machine.execFadd c rnd sat m d a b s
  | .fsub c rnd sat m d a b => Sys2Proof.Machine.execFsub c rnd sat m d a b s
  | .fmul c rnd sat m d a b => Sys2Proof.Machine.execFmul c rnd sat m d a b s
  | .ffma c rnd sat m d a b cc => Sys2Proof.Machine.execFfma c rnd sat m d a b cc s
  | .fmin c m d a b => Sys2Proof.Machine.execFmin c m d a b s
  | .fmax c m d a b => Sys2Proof.Machine.execFmax c m d a b s
  | .fcmp c m fn k d a b => Sys2Proof.Machine.execFcmp c m fn k d a b s
  | .fclass c ty mask d a => Sys2Proof.Machine.execFclass c ty mask d a s
  | .fscale c ty rnd m d a b => Sys2Proof.Machine.execFscale c ty rnd m d a b s
  | .frnd c ty rnd m d a => Sys2Proof.Machine.execFrnd c ty rnd m d a s
  | .ffrac c ty m d a => Sys2Proof.Machine.execFfrac c ty m d a s
  | .frcp c m d a => Sys2Proof.Machine.execFrcp c m d a s
  | .frsq c m d a => Sys2Proof.Machine.execFrsq c m d a s
  | .fsqrt c rnd m d a => Sys2Proof.Machine.execFsqrt c rnd m d a s
  | .fexp2 c m d a => Sys2Proof.Machine.execFexp2 c m d a s
  | .flog2 c m d a => Sys2Proof.Machine.execFlog2 c m d a s
  | .fsin c m d a => Sys2Proof.Machine.execFsin c m d a s
  | .fcos c m d a => Sys2Proof.Machine.execFcos c m d a s
  | .fdiv c rnd m d a b => Sys2Proof.Machine.execFdiv c rnd m d a b s
  | .dadd c rnd sat m d a b => Sys2Proof.Machine.execDadd c rnd sat m d a b s
  | .dsub c rnd sat m d a b => Sys2Proof.Machine.execDsub c rnd sat m d a b s
  | .dmul c rnd sat m d a b => Sys2Proof.Machine.execDmul c rnd sat m d a b s
  | .dfma c rnd sat m d a b cc => Sys2Proof.Machine.execDfma c rnd sat m d a b cc s
  | .dmin c m d a b => Sys2Proof.Machine.execDmin c m d a b s
  | .dmax c m d a b => Sys2Proof.Machine.execDmax c m d a b s
  | .dcmp c m fn k d a b => Sys2Proof.Machine.execDcmp c m fn k d a b s
  | .hadd2 c ty rnd sat m d a b => Sys2Proof.Machine.execHadd2 c ty rnd sat m d a b s
  | .hmul2 c ty rnd sat m d a b => Sys2Proof.Machine.execHmul2 c ty rnd sat m d a b s
  | .hfma2 c ty rnd sat m d a b cc => Sys2Proof.Machine.execHfma2 c ty rnd sat m d a b cc s
  | .hmin2 c ty m d a b => Sys2Proof.Machine.execHmin2 c ty m d a b s
  | .hmax2 c ty m d a b => Sys2Proof.Machine.execHmax2 c ty m d a b s
  | .cvt c dst src rnd sat d a => Sys2Proof.Machine.execCvt c dst src rnd sat d a s
  | .cvtpk c ty rnd sat d a => Sys2Proof.Machine.execCvtpk c ty rnd sat d a s
  | .cvtx c ty rnd sat d a b fw => Sys2Proof.Machine.execCvtx c ty rnd sat d a b fw s
  | .amaxrd c d => Sys2Proof.Machine.execAmaxrd c d s
  | .amaxclr c d => Sys2Proof.Machine.execAmaxclr c d s
  | .rngseed c a b => Sys2Proof.Machine.execRngseed c a b s
  | .rngnext c ty d => Sys2Proof.Machine.execRngnext c ty d s
  | .nzcnt c ty d a => Sys2Proof.Machine.execNzcnt c ty d a s
  | .nzmask c ty d a => Sys2Proof.Machine.execNzmask c ty d a s
  | .mfs c d r => Sys2Proof.Machine.execMfs c d r s
  | .mts c r a => Sys2Proof.Machine.execMts c r a s
  | .movs c dir => Sys2Proof.Machine.execMovs c dir s
  | .ksetCount c k a => Sys2Proof.Machine.execKsetCount c k a s
  | .ksetMask c k a b => Sys2Proof.Machine.execKsetMask c k a b s
  | .ksetFree c k => Sys2Proof.Machine.execKsetFree c k s
  | .ksignAbstain c k => Sys2Proof.Machine.execKsignAbstain c k s
  | .ksignStat c d k => Sys2Proof.Machine.execKsignStat c d k s
  | .xlaneSel c ty d a sl => Sys2Proof.Machine.execXlaneSel c ty d a sl s
  | .xlaneShift c ty d a sl => Sys2Proof.Machine.execXlaneShift c ty d a sl s
  | .xlaneRot c ty d a sl => Sys2Proof.Machine.execXlaneRot c ty d a sl s
  | .xlaneMirr c ty d a sl => Sys2Proof.Machine.execXlaneMirr c ty d a sl s
  | .shfx c d a b lg => Sys2Proof.Machine.execShfx c d a b lg s
  | .vote c op neg a => Sys2Proof.Machine.execVote c op neg a s
  | .laneMatch c ty all d a q => Sys2Proof.Machine.execLaneMatch c ty all d a q s
  | .conflict c ty d a q => Sys2Proof.Machine.execConflict c ty d a q s
  | .compact c d a q inv => Sys2Proof.Machine.execCompact c d a q inv s
  | .expand c d a q inv => Sys2Proof.Machine.execExpand c d a q inv s
  | .breduce c ty rnd sat fn sg d a => Sys2Proof.Machine.execBreduce c ty rnd sat fn sg d a s
  | .bscan c ty rnd sat fn sg excl d a => Sys2Proof.Machine.execBscan c ty rnd sat fn sg excl d a s
  | .bcast c ty d a lane => Sys2Proof.Machine.execBcast c ty d a lane s
  | .mergek c ty rnd sat dz sg d a q inv => Sys2Proof.Machine.execMergek c ty rnd sat dz sg d a q inv s
  | .ld c w sc o d a off => Sys2Proof.Machine.execLd c w sc o d a off s
  | .st c w sc o d a off => Sys2Proof.Machine.execSt c w sc o d a off s
  | .lds c w swz d a off => Sys2Proof.Machine.execLds c w swz d a off s
  | .sts c w swz d a off => Sys2Proof.Machine.execSts c w swz d a off s
  | .gather c w sc o d a off => Sys2Proof.Machine.execGather c w sc o d a off s
  | .scatter c w sc o d a off => Sys2Proof.Machine.execScatter c w sc o d a off s
  | .pref c sc a off => Sys2Proof.Machine.execPref c sc a off s
  | .lda c w d a off => Sys2Proof.Machine.execLda c w d a off s
  | .atom c w sc o op signed acqrel d a cc off => Sys2Proof.Machine.execAtom c w sc o op signed acqrel d a cc off s
  | .red c sc o ty op d a off => Sys2Proof.Machine.execRed c sc o ty op d a off s
  | .fence c sc o => Sys2Proof.Machine.execFence c sc o s
  | .syncg c sc => Sys2Proof.Machine.execSyncg c sc s
  | .keyget c d a off => Sys2Proof.Machine.execKeyget c d a off s
  | .keypass c d a off => Sys2Proof.Machine.execKeypass c d a off s
  | .keydrop c a off => Sys2Proof.Machine.execKeydrop c a off s
  | .cwb c sc d a off => Sys2Proof.Machine.execCwb c sc d a off s
  | .cinv c sc d a off => Sys2Proof.Machine.execCinv c sc d a off s
  | .cdisc c d a off => Sys2Proof.Machine.execCdisc c d a off s
  | .carve c d a l1u scu => Sys2Proof.Machine.execCarve c d a l1u scu s
  | .cpstat c d a off => Sys2Proof.Machine.execCpstat c d a off s
  | .linit c d a off => Sys2Proof.Machine.execLinit c d a off s
  | .arrive c d a off => Sys2Proof.Machine.execArrive c d a off s
  | .arwait c a off => Sys2Proof.Machine.execArwait c a off s
  | .lwait c d a off => Sys2Proof.Machine.execLwait c d a off s
  | .lexp c d a off => Sys2Proof.Machine.execLexp c d a off s
  | .ltry c d a off => Sys2Proof.Machine.execLtry c d a off s
  | .mma c k t a b cc sa sb => Sys2Proof.Machine.execMma c k t a b cc sa sb s
  | .mmaSp c k t a b cc sa sb md => Sys2Proof.Machine.execMmaSp c k t a b cc sa sb md s
  | .mmaCx c k t a b cc sa sb => Sys2Proof.Machine.execMmaCx c k t a b cc sa sb s
  | .tclr c bind t a b => Sys2Proof.Machine.execTclr c bind t a b s
  | .wmrd c t d => Sys2Proof.Machine.execWmrd c t d s
  | .twait c t a => Sys2Proof.Machine.execTwait c t a s
  | .obst c o a b => Sys2Proof.Machine.execObst c o a b s
  | .neval c ty f16out outc inc d a b => Sys2Proof.Machine.execNeval c ty f16out outc inc d a b s
  | .nhandleBind c d a => Sys2Proof.Machine.execNhandleBind c d a s
  | .nhandleRevoke c d a => Sys2Proof.Machine.execNhandleRevoke c d a s
  | .trace c d a b => Sys2Proof.Machine.execTrace c d a b s
  | .traceE c d a b => Sys2Proof.Machine.execTraceE c d a b s
  | .traceVis c d a b => Sys2Proof.Machine.execTraceVis c d a b s
  | .spawn c d a b => Sys2Proof.Machine.execSpawn c d a b s
  | .spawnE c d a b => Sys2Proof.Machine.execSpawnE c d a b s
  | .post c d a b => Sys2Proof.Machine.execPost c d a b s
  | .postE c d a b => Sys2Proof.Machine.execPostE c d a b s
  | .retire c => Sys2Proof.Machine.execRetire c s
  | .rld c w d off => Sys2Proof.Machine.execRld c w d off s
  | .rst c w d off => Sys2Proof.Machine.execRst c w d off s
  | .hitattr c d => Sys2Proof.Machine.execHitattr c d s
  | .accept c fin => Sys2Proof.Machine.execAccept c fin s
  | .ignore c => Sys2Proof.Machine.execIgnore c s
  | .report c d a b kind => Sys2Proof.Machine.execReport c d a b kind s
  | .issueSlot core => Sys2Proof.Machine.execIssueSlot core s
  | .clauseFetch k => Sys2Proof.Machine.execClauseFetch k s
  | .loadSectorReturn id sector fromL1 => Sys2Proof.Machine.execLoadSectorReturn id sector fromL1 s
  | .sfuResult id => Sys2Proof.Machine.execSfuResult id s
  | .divResult id => Sys2Proof.Machine.execDivResult id s
  | .storeAccept id => Sys2Proof.Machine.execStoreAccept id s
  | .storeHomePerform id => Sys2Proof.Machine.execStoreHomePerform id s
  | .redHomeApply id => Sys2Proof.Machine.execRedHomeApply id s
  | .atomHomePerform id => Sys2Proof.Machine.execAtomHomePerform id s
  | .deltaMerge course word => Sys2Proof.Machine.execDeltaMerge course word s
  | .dieCacheEviction line => Sys2Proof.Machine.execDieCacheEviction line s
  | .windowWriteback entry => Sys2Proof.Machine.execWindowWriteback entry s
  | .prefFill id => Sys2Proof.Machine.execPrefFill id s
  | .keyRecall id => Sys2Proof.Machine.execKeyRecall id s
  | .keypassComplete id => Sys2Proof.Machine.execKeypassComplete id s
  | .keydropComplete id => Sys2Proof.Machine.execKeydropComplete id s
  | .cacheOpPerform id => Sys2Proof.Machine.execCacheOpPerform id s
  | .syncgComplete seq gang => Sys2Proof.Machine.execSyncgComplete seq gang s
  | .monitorReadReturn id => Sys2Proof.Machine.execMonitorReadReturn id s
  | .monitorWriteWake sid => Sys2Proof.Machine.execMonitorWriteWake sid s
  | .monitorTimeout sid => Sys2Proof.Machine.execMonitorTimeout sid s
  | .monitorOtherWake sid => Sys2Proof.Machine.execMonitorOtherWake sid s
  | .mmaRoundEnqueue course => Sys2Proof.Machine.execMmaRoundEnqueue course s
  | .mmaRoundStart course => Sys2Proof.Machine.execMmaRoundStart course s
  | .mmaRowApply course => Sys2Proof.Machine.execMmaRowApply course s
  | .mmaOperandReadDone course => Sys2Proof.Machine.execMmaOperandReadDone course s
  | .tclrApply id => Sys2Proof.Machine.execTclrApply id s
  | .obstComplete id => Sys2Proof.Machine.execObstComplete id s
  | .nevalRequestArrival id => Sys2Proof.Machine.execNevalRequestArrival id s
  | .nevalEntryTimeout course entry => Sys2Proof.Machine.execNevalEntryTimeout course entry s
  | .nevalTileStart course => Sys2Proof.Machine.execNevalTileStart course s
  | .nevalResultWrite id => Sys2Proof.Machine.execNevalResultWrite id s
  | .nhandleRevokeComplete id => Sys2Proof.Machine.execNhandleRevokeComplete id s
  | .ringPublication id => Sys2Proof.Machine.execRingPublication id s
  | .copyEntryBegin team ring => Sys2Proof.Machine.execCopyEntryBegin team ring s
  | .copyEntryComplete team ring => Sys2Proof.Machine.execCopyEntryComplete team ring s
  | .bindingStore id => Sys2Proof.Machine.execBindingStore id s
  | .windowUnbindComplete entry => Sys2Proof.Machine.execWindowUnbindComplete entry s
  | .pageWalkComplete course va => Sys2Proof.Machine.execPageWalkComplete course va s
  | .doorbellSubmit m => Sys2Proof.Machine.execDoorbellSubmit m s
  | .doorbellEnable m => Sys2Proof.Machine.execDoorbellEnable m s
  | .doorbellDisable m => Sys2Proof.Machine.execDoorbellDisable m s
  | .doorbellAbort m => Sys2Proof.Machine.execDoorbellAbort m s
  | .abortComplete seq => Sys2Proof.Machine.execAbortComplete seq s
  | .commandAccept queue => Sys2Proof.Machine.execCommandAccept queue s
  | .admissionTurn => Sys2Proof.Machine.execAdmissionTurn s
  | .gangSave seq gang => Sys2Proof.Machine.execGangSave seq gang s
  | .gangResume seq gang => Sys2Proof.Machine.execGangResume seq gang s
  | .teamCarveoutRelease tid => Sys2Proof.Machine.execTeamCarveoutRelease tid s
  | .launchRetire seq => Sys2Proof.Machine.execLaunchRetire seq s
  | .entryRecordCreate seq => Sys2Proof.Machine.execEntryRecordCreate seq s
  | .waveTimeout course bin => Sys2Proof.Machine.execWaveTimeout course bin s
  | .wavePlace course => Sys2Proof.Machine.execWavePlace course s
  | .stalledTeamSave course => Sys2Proof.Machine.execStalledTeamSave course s
  | .traversalHandover course unit => Sys2Proof.Machine.execTraversalHandover course unit s
  | .traversalStep course unit extra => Sys2Proof.Machine.execTraversalStep course unit extra s
  | .brickFetchComplete course brick => Sys2Proof.Machine.execBrickFetchComplete course brick s
  | .faultRecordPost => Sys2Proof.Machine.execFaultRecordPost s
  | .faultAnswerRetry frid => Sys2Proof.Machine.execFaultAnswerRetry frid s
  | .faultAnswerSkip frid => Sys2Proof.Machine.execFaultAnswerSkip frid s
  | .faultAnswerTrap frid => Sys2Proof.Machine.execFaultAnswerTrap frid s
  | .faultRecordFree frid => Sys2Proof.Machine.execFaultRecordFree frid s
  | .faultRecordRestore frid => Sys2Proof.Machine.execFaultRecordRestore frid s
  | .machineCheck src => Sys2Proof.Machine.execMachineCheck src s
  | .avgerLinkLoss => Sys2Proof.Machine.execAvgerLinkLoss s
  | .rdmaWrite qpn rkey va data => Sys2Proof.Machine.execRdmaWrite qpn rkey va data s
  | .rdmaRead qpn rkey va len => Sys2Proof.Machine.execRdmaRead qpn rkey va len s
  | .compareSwap qpn rkey va cmp new => Sys2Proof.Machine.execCompareSwap qpn rkey va cmp new s
  | .fetchAdd qpn rkey va v => Sys2Proof.Machine.execFetchAdd qpn rkey va v s
  | .unsupportedPacket qpn => Sys2Proof.Machine.execUnsupportedPacket qpn s
  | .hello m => Sys2Proof.Machine.execHello m s
  | .settroot m => Sys2Proof.Machine.execSettroot m s
  | .shootdown m => Sys2Proof.Machine.execShootdown m s
  | .setpset m => Sys2Proof.Machine.execSetpset m s
  | .setbrick m => Sys2Proof.Machine.execSetbrick m s
  | .setreg m => Sys2Proof.Machine.execSetreg m s
  | .setregion m => Sys2Proof.Machine.execSetregion m s
  | .stream m => Sys2Proof.Machine.execStream m s
  | .attest m => Sys2Proof.Machine.execAttest m s
  | .readlife m => Sys2Proof.Machine.execReadlife m s
  | .fwload m => Sys2Proof.Machine.execFwload m s
  | .courseFence m => Sys2Proof.Machine.execCourseFence m s
  | .reinstate m => Sys2Proof.Machine.execReinstate m s
  | .retrainChannel m => Sys2Proof.Machine.execRetrainChannel m s
  | .retrainLink m => Sys2Proof.Machine.execRetrainLink m s
  | .qpset m => Sys2Proof.Machine.execQpset m s
  | .provision m => Sys2Proof.Machine.execProvision m s
  | .deviceReset => Sys2Proof.Machine.execDeviceReset s
  | .portLinkUp => Sys2Proof.Machine.execPortLinkUp s
  | .bootMessageRepeat => Sys2Proof.Machine.execBootMessageRepeat s
  | .streamTrigger id => Sys2Proof.Machine.execStreamTrigger id s
  | .streamFrameStart engine => Sys2Proof.Machine.execStreamFrameStart engine s
  | .streamFrameDone engine => Sys2Proof.Machine.execStreamFrameDone engine s
  | .counterSnapshot => Sys2Proof.Machine.execCounterSnapshot s
  | .lifeRecordUpdate => Sys2Proof.Machine.execLifeRecordUpdate s
  | .thermalThrottle degrees => Sys2Proof.Machine.execThermalThrottle degrees s
  | .thermalPoweroff degrees => Sys2Proof.Machine.execThermalPoweroff degrees s
  | .ethernetLaneRetrain lane => Sys2Proof.Machine.execEthernetLaneRetrain lane s
  | .powerLoss => Sys2Proof.Machine.execPowerLoss s

end Sys2Proof.Machine
end

