-- ==== Sys2Proof/Machine/Issue.lean ====
section
/-! DEFINITION. Issue of one word of a bundle: decoding, the fates of encodings in their order (R61, R62), counters at
their limit (R52), register-file errors (R379); and a machine made to fetch a given word next. -/

namespace Sys2Proof.Machine

/-- Bring the k-th issuing bundle to the head. -/
def State.toHead (s : State) (k : Nat) : State :=
  match s.bundles[k]? with
  | some b => { s with bundles := b :: s.bundles.eraseIdx k }
  | none => s

/-- Lanes of the head bundle leave it at the current slot, some of them with a trap. -/
def State.faultLanes (s : State) (b : Bundle) (f : Strand → Option Trap) : State × Bundle :=
  b.lanes.foldl (fun (r : State × Bundle) sid =>
    match r.1.strand? sid with
    | none => r
    | some x =>
      match f x with
      | none => r
      | some t => (r.1.trap sid b.pc b.cls t 0, r.2.without sid)) (s, b)

/-- A fault that depends on the clause alone: every strand of the bundle takes it (R61). -/
def State.faultAll (s : State) (b : Bundle) (fault : Nat) : State :=
  let r := s.faultLanes b (fun _ => some (.plain fault))
  r.1.setHead r.2

/-- Whether a word breaks its clause: a class not in ENG, or a transfer that disagrees with TERM (R36, R38). Of an instruction of two
slots that ends a clause with TERM = 1, the leading word takes the fault (DEDUCED, log 54). -/
def clauseFault (k : Cls) (slots : Nat) (m : Info) : Bool :=
  !k.eng.getLsbD m.eng.bit || (if k.left = slots then k.term != m.transfer else m.transfer)

/-- Registers a word reads at issue, one by one. -/
def readRegs (m : Info) : List GReg := m.reads.flatMap (fun e => (List.range e.2).map (gAt e.1))

/-- How many of the registers a word reads are uncorrectable in a strand (R379). -/
def Strand.badReads (x : Strand) (m : Info) : Nat := ((readRegs m).filter (fun r => x.poison.getLsbD r.1)).length

/-- R379 before the word acts: an active, unmasked lane that reads an uncorrectable register faults; in the other
lanes each such read is counted in LATENTRF. All of them are events of the course's register file (R370), counted once for a word. -/
def State.readErrors (s : State) (b : Bundle) (m : Info) : State × Bundle :=
  let bad (p : Strand → Bool) : Nat := b.lanes.foldl (fun n sid =>
    match s.strand? sid with
    | some x => if p x then n + x.badReads m else n
    | none => n) 0
  if bad (fun _ => true) = 0 then (s, b)
  else
    let s := if b.counted then s
      else (s.count (courseOf b.core) 5 (bad (fun x => !(x.active m.c && x.unmasked m.c)))).countBad (44 + courseOf b.core) (bad (fun _ => true))
    s.faultLanes { b with counted := true } (fun x =>
      if x.active m.c && x.unmasked m.c && x.badReads m != 0 then some (.plain 13) else none)

/-- Which counters of a lane stand at 255 and are raised by the word's kind (R52). -/
def fullFor (m : Info) (x : Strand) : BitVec 4 :=
  if x.active m.c && x.unmasked m.c && x.badReads m == 0 then x.full m.ctrs else 0

/-- The machine as a word would leave it if no counter stood in its way. -/
def State.trial (s : State) (b : Bundle) (i : Instr) : State :=
  let zeroed : State := { s with strands := s.strands.map (fun x =>
    if b.lanes.contains x.sid then { x with ld := 0, st := 0, mx := 0, cp := 0 } else x) }
  if b.lanes.isEmpty then s
  else match exec i (zeroed.setHead b) with
    | .next t => t
    | _ => s

/-- The keyring that an MMA word signs. -/
def signed? : Instr → Option KReg
  | .mma _ k _ _ _ _ _ _ => some k
  | .mmaSp _ k _ _ _ _ _ _ _ => some k
  | .mmaCx _ k _ _ _ _ _ _ => some k
  | _ => none

/-- Whether a word of a counter-raising kind raises none in a lane: a cache word with no word named (R223), an MMA whose signature is
retried, once the lanes below it have signed (R142, R232). -/
def State.idle (s : State) (b : Bundle) (x : Strand) (i : Instr) : Bool :=
  match i with
  | .cwb _ _ d _ _ => x.reg d == 0
  | .cinv _ _ d _ _ => x.reg d == 0
  | .cdisc _ d _ _ => x.reg d == 0
  | i =>
    match signed? i with
    | none => false
    | some k =>
      ((s.trial { b with lanes := b.lanes.takeWhile (· != x.sid) } i).team? x.tid).elim false (fun t => (t.keyring k).retries x.strandId)

/-- Whether the word faults in a lane, which then raises nothing (R175). -/
def State.laneFaults (s : State) (b : Bundle) (i : Instr) (x : Strand) : Bool :=
  (signed? i).isNone && ((s.trial b i).strand? x.sid).elim true (fun y => match y.state with
    | .faultHeld _ => true
    | .ended => true
    | _ => y.inTrap && !x.inTrap)

/-- The counters that the word would raise above 255 in a lane (R52). -/
def State.overFor (s : State) (b : Bundle) (i : Instr) (m : Info) (x : Strand) : BitVec 4 :=
  if fullFor m x = 0 ∨ s.idle b x i ∨ s.laneFaults b i x then 0 else fullFor m x

/-- Whether the word would raise a counter of a lane above 255 (R52). -/
def State.counterFull (s : State) (b : Bundle) (i : Instr) (m : Info) : Bool :=
  b.lanes.any (fun sid =>
    match s.strand? sid with
    | some x => fullFor m x != 0 && s.overFor b i m x != 0
    | none => false)

/-- Issue a well-formed word after the checks of R62: REGISTER-RANGE, R52 and R379, then its meaning. -/
def State.issueInstr (s : State) (b : Bundle) (i : Instr) (m : Info) : Host.Outcome State Fault Refusal :=
  let r := s.faultLanes b (fun x =>
    match s.team? x.tid with
    | some t => if m.fits t.kernel.regs then none else some (.plain 4)
    | none => none)
  if r.2.lanes.isEmpty then .next (r.1.setHead r.2)
  else if r.1.counterFull r.2 i m then .next (r.1.stopBefore r.2 (r.1.overFor r.2 i m))
  else
    let q := r.1.readErrors r.2 m
    if q.2.lanes.isEmpty then .next (q.1.setHead q.2) else exec i (q.1.setHead q.2)

/-- Issue the next word of the head bundle, once its clause is fetched (R59, R61, R62). -/
def State.issueHead (s : State) : Host.Outcome State Fault Refusal :=
  match s.bundles with
  | [] => .next s
  | b :: _ =>
    match b.cls, b.words with
    | some k, w :: ws =>
      match decode w ws.head? with
      | .error .illegalOpcode => .next (s.faultAll b 1)
      | .error _ => .next (s.faultAll b 2)
      | .ok d =>
        match Instr.info d.instr with
        | none => .next s
        | some m => if clauseFault k d.slots m then .next (s.faultAll b 3) else s.issueInstr b d.instr m
    | _, _ => .next s

/-! ### A word placed for the next step -/

/-- A kernel of one strand at W = 16 with every register, all of it the model's stand-in for a load. -/
def loadedKernel : Kernel := ⟨0, 0, 16, 0, 0, 256, 1, 4, 64, 1, 0, 0, 0, 64⟩

/-- The slots that hold the word: its companion too when it takes one. -/
def slotsFor (x y : DWord) : List DWord :=
  match decode x (some y) with
  | .ok r => if r.slots = 1 then [x] else [x, y]
  | .error _ => [x, y]

/-- Whether the word is a control transfer. -/
def transfers (x y : DWord) : Bool :=
  match decode x (some y) with
  | .ok r => (Instr.info r.instr).elim false (·.transfer)
  | .error _ => false

/-- One team of one strand, in a bundle on core 0 whose fetched clause holds these words, and the turn that issues the
first of them. -/
def State.placeWords (s : State) (x y : DWord) : State :=
  let tid := s.nextId
  let sid := s.nextId + 1
  let ws := slotsFor x y
  let k : Cls := ⟨63, transfers x y, ws.length, 0⟩
  let st : Strand := { Strand.fresh sid tid 0 s.now 0x1008 0 with state := .issuing, cls := some k }
  let t := Team.fresh tid 0 0 0 .gang loadedKernel 0 0 1
  let b : Bundle := ⟨0, 0, 0, 0x1008, some k, true, ws, [sid], false⟩
  { s with
    plan := [⟨0, .word 0, [], BitVec.allOnes 64⟩],
    strands := s.strands ++ [st],
    teams := s.teams ++ [t],
    bundles := b :: s.bundles,
    nextId := s.nextId + 2 }

end Sys2Proof.Machine
end

