-- ==== Sys2Proof/Machine/Step.lean ====
section
/-! DEFINITION. The step: one turn of the machine, in which one issuing bundle issues one word, one event happens, or the device
acts on its own account. -/

namespace Sys2Proof.Machine

/-- The turn that comes: the plan's first, else a free one (DESIGN CHOICE, log 5). -/
def State.turn (s : State) : Turn :=
  match s.plan with
  | t :: _ => t
  | [] => Config.freeTurn s.turns

/-! ### The order of a cycle (R140, R293, R298, R361, R378; DESIGN CHOICE, log 47) -/

/-- The engine of a ring's next entry to begin, and of its oldest begun entry. -/
def State.beginEngine (s : State) (team ring : Nat) : Nat := (s.ring? team ring).elim 0 (fun r => r.covering.eng)
def State.doneEngine (s : State) (team ring : Nat) : Nat :=
  ((s.ring? team ring).bind (fun r => r.begun.head?)).elim 0 (fun b => b.par.eng)

/-- The instruction at the k-th bundle's next slot. -/
def State.nextInstr (s : State) (k : Nat) : Option Instr :=
  (s.bundles[k]?).bind (fun b =>
    match b.words with
    | w :: ws => (decode w ws.head?).toOption.map (·.instr)
    | [] => none)

/-- The slots of the record pool that a word needs of a strand: course, launch and part. -/
def State.slotNeed (s : State) (x : Strand) : Instr → Option (Nat × Nat × Option Nat)
  | .spawn _ _ _ _ => some (s.teamCourse x.tid, s.seqOf x.tid, none)
  | .spawnE _ _ _ _ => some (s.teamCourse x.tid, s.seqOf x.tid, none)
  | .traceVis _ _ _ _ => some (s.teamCourse x.tid, s.seqOf x.tid, s.partOf x.tid)
  | .post _ _ a b => (s.launch? (s.seqOf x.tid)).map (fun l =>
      (l.nthCourse (homeHash (x.pair a)), l.seq, some ((x.reg b).toNat % 65536)))
  | .postE _ _ a b => (s.launch? (s.seqOf x.tid)).map (fun l =>
      (l.nthCourse (homeHash (x.pair a)), l.seq, some ((x.reg b).toNat % 65536)))
  | _ => none

/-- Free slots of a part of a launch's pool quota on a course. -/
def State.slotsFree (s : State) (c seq : Nat) (ch : Option Nat) : Nat :=
  if s.slotFree c seq ch then (s.extOf seq).elim 0 (fun e => e.part ch) - s.charged c seq ch else 0

/-- Whether a word of an .E form frees the record of each lane that has got its slot. -/
def endsLanes : Instr → Bool
  | .spawnE _ _ _ _ => true
  | .postE _ _ _ _ => true
  | _ => false

/-- The place of a word among the words of its cycle: a word that needs slots of the record pool comes after those that may free
one, an .E form that finds its slot before a form that frees none, and a word that lacks a slot last (R298, R305). -/
def State.wordPlace (s : State) (k : Nat) : Nat :=
  match s.nextInstr k, s.bundles[k]? with
  | some i, some b =>
    let needs := (b.lanes.filterMap s.strand?).filterMap (fun x => s.slotNeed x i)
    let least (n : Nat × Nat × Option Nat) : Nat := if endsLanes i then 1 else needs.count n
    if needs.isEmpty then 0
    else (if needs.any (fun n => decide (s.slotsFree n.1 n.2.1 n.2.2 < least n)) then 3 else 1) + (if endsLanes i then 0 else 1)
  | _, _ => 0

/-- The place of a move in its cycle: engine 0, engine 1, other events, the words by pipe, requests that reach the gather table,
what has waited long enough, saves, starts of the matrix engine, and the placing of waves. -/
def State.rankOf (s : State) : Move → Nat
  | .word k => 3 + 4 * s.wordPlace k + (s.bundles[k]?).elim 0 (·.pipe)
  | .device _ => 2
  | .send _ _ => 2
  | .event i =>
    match i with
    | .copyEntryBegin t r => min 1 (s.beginEngine t r)
    | .copyEntryComplete t r => min 1 (s.doneEngine t r)
    | .nevalRequestArrival _ => 23
    | .nevalEntryTimeout _ _ => 24
    | .waveTimeout _ _ => 24
    | .gangSave _ _ => 25
    | .stalledTeamSave _ => 25
    | .nevalTileStart _ => 26
    | .mmaRoundStart _ => 26
    | .wavePlace _ => 27
    | _ => 2

/-- Whether a word reads a shared register that a word of this cycle has written: it returns the value from before that write, and
the model lets it come in the next cycle (R140). -/
def State.readsLate (s : State) : Move → Bool
  | .word k =>
    match s.nextInstr k, s.bundles[k]? with
    | some (.movs _ (.read _ _)), some b =>
      b.lanes.any (fun sid => ((s.strand? sid).bind (fun x => s.team? x.tid)).elim false (fun t => t.sregTime == some s.now))
    | _, _ => false
  | _ => false

/-- The cycles that pass before the turn's move: one at least when its place in the cycle has gone by. -/
def State.cyclesOf (s : State) (t : Turn) : Nat :=
  if t.cycles = 0 ∧ (s.rankOf t.move < s.rank ∨ s.readsLate t.move = true) then 1 else t.cycles

/-- The machine with that turn taken, its cycles passed and what is due done. -/
def State.afterTurn (s : State) : State :=
  let t := s.turn
  let s' : State := { s with timebase := s.timebase + BitVec.ofNat 64 (s.cyclesOf t), rank := s.rankOf t.move, afresh := t.afresh,
                             words := t.words }
  (match s.plan with
  | _ :: r => { s' with plan := r }
  | [] => { s' with turns := s.turns + 1 }).settle

/-- One step. With the package off, nothing but the return of power, a device reset, can come (R399). -/
def step (s : State) : Host.Outcome State Fault Refusal :=
  match s.turn.move with
  | .word k => if s.powered then (s.afterTurn.toHead k).issueHead else .fault .poweredOff
  | .event i =>
    if !s.powered && i != .deviceReset then .fault .poweredOff
    else if (Instr.info i).isSome then .next s.afterTurn else exec i s.afterTurn
  | .device d => if s.powered then .next (s.afterTurn.deviceMove d) else .fault .poweredOff
  | .send q bs => if s.powered then s.afterTurn.receive q bs else .fault .poweredOff

/-- The machine with an instruction's words where the next step fetches them: a loaded one-strand program. -/
def State.withFetchWord (s : State) (nbits w : Nat) : State :=
  let p := tableWords nbits w
  s.placeWords p.1 (p.2.getD 0)

end Sys2Proof.Machine
end

