-- ==== Sys2Proof/Safety.lean ====
section
/-! DEFINITION. What a safe step is, and the terms the claims use: what a word does to the strands of its bundle, apart
from where they go next, and what it leaves alone. -/

namespace Sys2Proof

/-- A step that the model carries out. -/
def StepOk (s : Machine.State) : Prop := ∃ s', Machine.step s = .next s'

namespace Machine

/-! ### What a word does, apart from where its strands go next -/

/-- A strand without its place: its PC, clause state, strand state and the cycle in which it became READY. -/
def Strand.content (x : Strand) : Strand := { x with pc := 0, cls := none, state := .issuing, since := 0 }

/-- What the strand of a name holds, apart from its place. -/
def State.contents (s : State) (sid : Nat) : Option Strand := (s.strand? sid).map Strand.content

/-- Everything but the strands and the bundles: memory, caches, teams, courses, flights, tables and the rest. -/
def State.outside (s : State) : State := { s with strands := [], bundles := [] }

/-- Two machines that differ at most in where strands stand and in the bundles that issue. -/
def Agree (t u : State) : Prop := t.outside = u.outside ∧ ∀ sid, t.contents sid = u.contents sid

/-- The machine with a word done in every lane of a bundle: inactive lanes keep everything (R40), masked lanes are
zeroed by `z` when the word says so and kept otherwise (R50), the others do `f`. -/
def State.lanesDo (s : State) (b : Bundle) (c : Ctl) (z f : Strand → Strand) : State :=
  { s with strands := s.strands.map (fun x => if b.lanes.contains x.sid then laneStep c z f x else x) }

/-- Operations put in flight one after another, each with its team. -/
def State.flyAll (s : State) (ops : List (Nat × FlightOp)) : State := ops.foldl (fun u e => u.fly e.1 e.2) s

/-- Word `i` completes whenever a bundle issues it and `pre` holds. Its effect, apart from the place of the bundle's
strands, is `f` in each participating lane and `z` in each masked lane it zeroes; nothing else of the machine changes. -/
def Sets (i : Instr) (c : Ctl) (z : Strand → Strand) (f : State → Bundle → Strand → Strand)
    (pre : State → Bundle → Prop := fun _ _ => True) : Prop :=
  ∀ (s : State) (b : Bundle) (r : List Bundle), s.bundles = b :: r → pre s b →
    ∃ t, exec i s = .next t ∧ Agree t (s.lanesDo b c z (f s b))

/-- Word `i` completes whenever a bundle issues it and `pre` holds. In each participating lane it does `f` and puts the
operations `ops` in flight, in LANEPOS order; a masked lane it zeroes does `z`; nothing else of the machine changes. -/
def Flies (i : Instr) (c : Ctl) (z : Strand → Strand) (f : State → Bundle → Strand → Strand)
    (ops : State → Bundle → Strand → List FlightOp) (pre : State → Bundle → Prop := fun _ _ => True) : Prop :=
  ∀ (s : State) (b : Bundle) (r : List Bundle), s.bundles = b :: r → pre s b →
    ∃ t, exec i s = .next t ∧
      Agree t ((s.lanesDo b c z (f s b)).flyAll ((s.taking c b).flatMap (fun x => (ops s b x).map (fun o => (x.tid, o)))))

/-- A bundle of one strand `x`, which participates in the word, issues. -/
structure Alone (s : State) (b : Bundle) (c : Ctl) (x : Strand) : Prop where
  head : s.bundles.head? = some b
  lane : b.lanes = [x.sid]
  here : s.strand? x.sid = some x
  active : x.active c = true
  unmasked : x.unmasked c = true

/-- Every participating lane's access of a word's address passes the checks of R167. -/
def AccessOk (c : Ctl) (a : GReg) (off : Off) (bytes : Nat) (kind : BitVec 3) (ok : Page → Bool) (s : State) (b : Bundle) :
    Prop :=
  ∀ x ∈ s.taking c b, ∃ acc, s.check (coreUnit b.core) (x.ea a off) bytes kind ok = .ok acc

end Machine

end Sys2Proof
end

