-- ==== Sys2Proof/Certificates/Slice0/Obligations.lean ====
section
/-! DEFINITION. The statements for the provers. Each docstring names the rules of the spec it rests on; a statement of several
parts is the conjunction of claims defined before it. -/

open Sys2Proof Sys2Proof.Machine

/-! ### Integer words (file 05) -/

/-- R88: what the integer arithmetic words write, in machine arithmetic, for
every type each accepts; they complete in every bundle and change nothing else (R40, R50). -/
def Sys2Proof.Machine.ArithmeticWords : Prop :=
  ∀ (c : Ctl) (d a b cc : GReg),
    (∀ ty ∈ [Ty.i32, Ty.n32],
      Sets (.add c ty false d a b) c (·.zeroSpan d 1) (fun _ _ x => x.setG d (x.reg a + x.reg b)) ∧
      Sets (.sub c ty false d a b) c (·.zeroSpan d 1) (fun _ _ x => x.setG d (x.reg a - x.reg b)) ∧
      Sets (.mul c ty d a b) c (·.zeroSpan d 1) (fun _ _ x => x.setG d (x.reg a * x.reg b)) ∧
      Sets (.mad c ty d a b cc) c (·.zeroSpan d 1) (fun _ _ x => x.setG d (x.reg a * x.reg b + x.reg cc))) ∧
    (∀ ty ∈ [Ty.i64, Ty.n64],
      Sets (.add c ty false d a b) c (·.zeroSpan d 2) (fun _ _ x => x.setPair d (x.pair a + x.pair b)) ∧
      Sets (.sub c ty false d a b) c (·.zeroSpan d 2) (fun _ _ x => x.setPair d (x.pair a - x.pair b))) ∧
    Sets (.add c .i32 true d a b) c (·.zeroSpan d 1) (fun _ _ x =>
      x.setG d (BitVec.ofInt 32 (max (-2147483648) (min 2147483647 ((x.reg a).toInt + (x.reg b).toInt))))) ∧
    Sets (.sub c .i32 true d a b) c (·.zeroSpan d 1) (fun _ _ x =>
      x.setG d (BitVec.ofInt 32 (max (-2147483648) (min 2147483647 ((x.reg a).toInt - (x.reg b).toInt))))) ∧
    Sets (.add c .n32 true d a b) c (·.zeroSpan d 1) (fun _ _ x =>
      x.setG d (BitVec.ofNat 32 (min 4294967295 ((x.reg a).toNat + (x.reg b).toNat)))) ∧
    Sets (.sub c .n32 true d a b) c (·.zeroSpan d 1) (fun _ _ x =>
      x.setG d (BitVec.ofNat 32 ((x.reg a).toNat - (x.reg b).toNat))) ∧
    Sets (.mulh c .i32 d a b) c (·.zeroSpan d 1) (fun _ _ x =>
      x.setG d (((x.reg a).signExtend 64 * (x.reg b).signExtend 64).extractLsb' 32 32)) ∧
    Sets (.mulh c .n32 d a b) c (·.zeroSpan d 1) (fun _ _ x =>
      x.setG d (((x.reg a).zeroExtend 64 * (x.reg b).zeroExtend 64).extractLsb' 32 32)) ∧
    Sets (.madl c .i32 d a b cc) c (·.zeroSpan d 2) (fun _ _ x =>
      x.setPair d ((x.reg a).signExtend 64 * (x.reg b).signExtend 64 + x.pair cc)) ∧
    Sets (.madl c .n32 d a b cc) c (·.zeroSpan d 2) (fun _ _ x =>
      x.setPair d ((x.reg a).zeroExtend 64 * (x.reg b).zeroExtend 64 + x.pair cc)) ∧
    Sets (.min c .i32 d a b) c (·.zeroSpan d 1) (fun _ _ x =>
      x.setG d (if (x.reg a).sle (x.reg b) then x.reg a else x.reg b)) ∧
    Sets (.min c .n32 d a b) c (·.zeroSpan d 1) (fun _ _ x =>
      x.setG d (if (x.reg a).ule (x.reg b) then x.reg a else x.reg b)) ∧
    Sets (.min c .i64 d a b) c (·.zeroSpan d 2) (fun _ _ x =>
      x.setPair d (if (x.pair a).sle (x.pair b) then x.pair a else x.pair b)) ∧
    Sets (.min c .n64 d a b) c (·.zeroSpan d 2) (fun _ _ x =>
      x.setPair d (if (x.pair a).ule (x.pair b) then x.pair a else x.pair b)) ∧
    Sets (.max c .i32 d a b) c (·.zeroSpan d 1) (fun _ _ x =>
      x.setG d (if (x.reg a).sle (x.reg b) then x.reg b else x.reg a)) ∧
    Sets (.max c .n32 d a b) c (·.zeroSpan d 1) (fun _ _ x =>
      x.setG d (if (x.reg a).ule (x.reg b) then x.reg b else x.reg a)) ∧
    Sets (.max c .i64 d a b) c (·.zeroSpan d 2) (fun _ _ x =>
      x.setPair d (if (x.pair a).sle (x.pair b) then x.pair b else x.pair a)) ∧
    Sets (.max c .n64 d a b) c (·.zeroSpan d 2) (fun _ _ x =>
      x.setPair d (if (x.pair a).ule (x.pair b) then x.pair b else x.pair a)) ∧
    Sets (.abs c .i32 false d a) c (·.zeroSpan d 1) (fun _ _ x => x.setG d (x.reg a).abs) ∧
    Sets (.abs c .i64 false d a) c (·.zeroSpan d 2) (fun _ _ x => x.setPair d (x.pair a).abs) ∧
    Sets (.abs c .i32 true d a) c (·.zeroSpan d 1) (fun _ _ x =>
      x.setG d (if x.reg a = 0x80000000#32 then 0x7FFFFFFF#32 else (x.reg a).abs)) ∧
    Sets (.abs c .i64 true d a) c (·.zeroSpan d 2) (fun _ _ x =>
      x.setPair d (if x.pair a = 0x8000000000000000#64 then 0x7FFFFFFFFFFFFFFF#64 else (x.pair a).abs))

/-- R88: the logic words and the bit counts of Table 5.4. -/
def Sys2Proof.Machine.LogicWords : Prop :=
  ∀ (c : Ctl) (d a b : GReg),
    Sets (.and c d a b) c (·.zeroSpan d 1) (fun _ _ x => x.setG d (x.reg a &&& x.reg b)) ∧
    Sets (.or c d a b) c (·.zeroSpan d 1) (fun _ _ x => x.setG d (x.reg a ||| x.reg b)) ∧
    Sets (.xor c d a b) c (·.zeroSpan d 1) (fun _ _ x => x.setG d (x.reg a ^^^ x.reg b)) ∧
    Sets (.andn c d a b) c (·.zeroSpan d 1) (fun _ _ x => x.setG d (x.reg a &&& ~~~x.reg b)) ∧
    Sets (.not c d a) c (·.zeroSpan d 1) (fun _ _ x => x.setG d (~~~x.reg a)) ∧
    Sets (.popc c d a) c (·.zeroSpan d 1) (fun _ _ x => x.setG d (x.reg a).cpop) ∧
    Sets (.clz c d a) c (·.zeroSpan d 1) (fun _ _ x => x.setG d (x.reg a).clz) ∧
    Sets (.ctz c d a) c (·.zeroSpan d 1) (fun _ _ x => x.setG d (x.reg a).ctz) ∧
    Sets (.brev c d a) c (·.zeroSpan d 1) (fun _ _ x => x.setG d (x.reg a).reverse)

/-- R88: the integer arithmetic and logic words of Table 5.4. -/
def Obligations.IntegerArithmeticWords : Prop := ArithmeticWords ∧ LogicWords

/-- R90: shifts, rotation and the concatenation shift, in machine arithmetic. A shift by the width or more gives 0, or
copies of the sign. -/
def Sys2Proof.Machine.ShiftWords : Prop :=
  ∀ (c : Ctl) (d a b cc : GReg),
    Sets (.shl c .n32 d a b) c (·.zeroSpan d 1) (fun _ _ x => x.setG d (x.reg a <<< (x.reg b).toNat)) ∧
    Sets (.shl c .n64 d a b) c (·.zeroSpan d 2) (fun _ _ x => x.setPair d (x.pair a <<< (x.reg b).toNat)) ∧
    Sets (.shr c .n32 d a b) c (·.zeroSpan d 1) (fun _ _ x => x.setG d (x.reg a >>> (x.reg b).toNat)) ∧
    Sets (.shr c .n64 d a b) c (·.zeroSpan d 2) (fun _ _ x => x.setPair d (x.pair a >>> (x.reg b).toNat)) ∧
    Sets (.sar c .i32 d a b) c (·.zeroSpan d 1) (fun _ _ x => x.setG d ((x.reg a).sshiftRight (x.reg b).toNat)) ∧
    Sets (.sar c .i64 d a b) c (·.zeroSpan d 2) (fun _ _ x => x.setPair d ((x.pair a).sshiftRight (x.reg b).toNat)) ∧
    Sets (.rot c false d a b) c (·.zeroSpan d 1) (fun _ _ x => x.setG d ((x.reg a).rotateLeft ((x.reg b).toNat % 32))) ∧
    Sets (.rot c true d a b) c (·.zeroSpan d 1) (fun _ _ x => x.setG d ((x.reg a).rotateRight ((x.reg b).toNat % 32))) ∧
    Sets (.catsh c true d a b cc) c (·.zeroSpan d 1) (fun _ _ x =>
      x.setG d (((x.reg b ++ x.reg a) <<< ((x.reg cc).toNat % 64)).extractLsb' 32 32)) ∧
    Sets (.catsh c false d a b cc) c (·.zeroSpan d 1) (fun _ _ x =>
      x.setG d (((x.reg b ++ x.reg a) >>> ((x.reg cc).toNat % 64)).extractLsb' 0 32))

/-- The bits `hi` to `lo` of a word, as a number. -/
def Sys2Proof.Machine.fieldTop (b : Word) : Nat := min (b.toNat % 32 + b.toNat / 32 % 32) 31

/-- R91, R92: bit fields, byte selection, address formation, selection and moves. The field a descriptor names runs
from its LSB to the lesser of LSB + WM1 and 31. -/
def Sys2Proof.Machine.FieldSelectAndMoveWords : Prop :=
  ∀ (c : Ctl) (d a b cc : GReg) (sh : Fin 8) (q : PReg) (inv : Bool),
    Sets (.fext c .n32 d a b) c (·.zeroSpan d 1) (fun _ _ x =>
      let lsb := (x.reg b).toNat % 32
      x.setG d (BitVec.ofNat 32 ((x.reg a).toNat / 2 ^ lsb % 2 ^ (fieldTop (x.reg b) - lsb + 1)))) ∧
    Sets (.fext c .i32 d a b) c (·.zeroSpan d 1) (fun _ _ x =>
      let lsb := (x.reg b).toNat % 32
      let top := fieldTop (x.reg b)
      let f := (x.reg a).toNat / 2 ^ lsb % 2 ^ (top - lsb + 1)
      x.setG d (if (x.reg a).getLsbD top then BitVec.ofInt 32 (f - 2 ^ (top - lsb + 1)) else BitVec.ofNat 32 f)) ∧
    (∃ v : Strand → Word,
      Sets (.fins c d a b cc) c (·.zeroSpan d 1) (fun _ _ x => x.setG d (v x)) ∧
      ∀ x (k : Nat), k < 32 →
        (v x).getLsbD k = if (x.reg b).toNat % 32 ≤ k ∧ k ≤ fieldTop (x.reg b)
          then (x.reg a).getLsbD (k - (x.reg b).toNat % 32) else (x.reg cc).getLsbD k) ∧
    (∃ v : Strand → Word,
      Sets (.bsel c d a b) c (·.zeroSpan d 1) (fun _ _ x => x.setG d (v x)) ∧
      ∀ x (k : Nat), k < 4 →
        let sel := (x.reg b).extractLsb' (8 * k) 8
        let y := (x.pair a).extractLsb' (8 * (sel.toNat % 8)) 8
        (v x).extractLsb' (8 * k) 8 =
          if sel.toNat / 8 % 4 = 0 then y
          else if sel.toNat / 8 % 4 = 1 then 0
          else if sel.toNat / 8 % 4 = 2 then (if y.msb then 0xFF#8 else 0)
          else y.reverse) ∧
    Sets (.lea c .i32 d a b sh) c (·.zeroSpan d 2) (fun _ _ x =>
      x.setPair d (x.pair a + (x.reg b).signExtend 64 <<< sh.val)) ∧
    Sets (.lea c .n32 d a b sh) c (·.zeroSpan d 2) (fun _ _ x =>
      x.setPair d (x.pair a + (x.reg b).zeroExtend 64 <<< sh.val)) ∧
    Sets (.sel c .n32 d a b q inv) c (·.zeroSpan d 1) (fun _ _ x =>
      x.setG d (if x.pred q ^^ inv then x.reg a else x.reg b)) ∧
    Sets (.sel c .n64 d a b q inv) c (·.zeroSpan d 2) (fun _ _ x =>
      x.setPair d (if x.pred q ^^ inv then x.pair a else x.pair b)) ∧
    Sets (.mov c .n32 d a) c (·.zeroSpan d 1) (fun _ _ x => x.setG d (x.reg a)) ∧
    Sets (.mov c .n64 d a) c (·.zeroSpan d 2) (fun _ _ x => x.setPair d (x.pair a))

/-- R90 to R92: the shift, rotate, field, select and move words. -/
def Obligations.ShiftFieldAndMoveWords : Prop := ShiftWords ∧ FieldSelectAndMoveWords

/-- R95, R96: the immediate forms on N32 patterns, MOVI and MOVH; NOP changes nothing (R105). -/
def Sys2Proof.Machine.ImmediateWords : Prop :=
  ∀ (c : Ctl) (d a : GReg) (imm : Word) (h : BitVec 16),
    Sets (.addImm c d a imm) c (·.zeroSpan d 1) (fun _ _ x => x.setG d (x.reg a + imm)) ∧
    Sets (.subImm c d a imm) c (·.zeroSpan d 1) (fun _ _ x => x.setG d (x.reg a - imm)) ∧
    Sets (.mulImm c d a imm) c (·.zeroSpan d 1) (fun _ _ x => x.setG d (x.reg a * imm)) ∧
    Sets (.andImm c d a imm) c (·.zeroSpan d 1) (fun _ _ x => x.setG d (x.reg a &&& imm)) ∧
    Sets (.orImm c d a imm) c (·.zeroSpan d 1) (fun _ _ x => x.setG d (x.reg a ||| imm)) ∧
    Sets (.xorImm c d a imm) c (·.zeroSpan d 1) (fun _ _ x => x.setG d (x.reg a ^^^ imm)) ∧
    Sets (.shlImm c d a imm) c (·.zeroSpan d 1) (fun _ _ x => x.setG d (x.reg a <<< imm.toNat)) ∧
    Sets (.shrImm c d a imm) c (·.zeroSpan d 1) (fun _ _ x => x.setG d (x.reg a >>> imm.toNat)) ∧
    Sets (.sarImm c d a imm) c (·.zeroSpan d 1) (fun _ _ x => x.setG d ((x.reg a).sshiftRight imm.toNat)) ∧
    Sets (.movi c d imm) c (·.zeroSpan d 1) (fun _ _ x => x.setG d imm) ∧
    Sets (.movh c d a h) c (·.zeroSpan d 1) (fun _ _ x => x.setG d (h ++ (x.reg a).extractLsb' 0 16)) ∧
    Sets (.nop c) c id (fun _ _ x => x)

/-- The value a compare writes: the outcome combined with a predicate read before the write (R93). -/
def Sys2Proof.Machine.combined (x : Strand) (k : Comb) (v : Bool) : Bool :=
  match k with
  | .none => v
  | .and q => v && x.pred q
  | .or q => v || x.pred q
  | .xor q => v ^^ x.pred q

/-- R93, R94: integer compares for every accepted type, predicate logic, and the transfers between predicates and
registers. A write to p15 is discarded (R85). -/
def Sys2Proof.Machine.CompareAndPredicateWords : Prop :=
  ∀ (c : Ctl) (k : Comb) (d q r : PReg) (na nb : Bool) (g a b : GReg),
    (∀ ty ∈ [Ty.i32, Ty.n32, Ty.i64, Ty.n64],
      Sets (.cmp c ty .eq k d a b) c (·.setP d false) (fun _ _ x => x.setP d (combined x k (x.val ty a == x.val ty b))) ∧
      Sets (.cmp c ty .ne k d a b) c (·.setP d false) (fun _ _ x => x.setP d (combined x k (x.val ty a != x.val ty b))) ∧
      Sets (.cmp c ty .lt k d a b) c (·.setP d false)
        (fun _ _ x => x.setP d (combined x k (decide (x.val ty a < x.val ty b)))) ∧
      Sets (.cmp c ty .le k d a b) c (·.setP d false)
        (fun _ _ x => x.setP d (combined x k (decide (x.val ty a ≤ x.val ty b)))) ∧
      Sets (.cmp c ty .gt k d a b) c (·.setP d false)
        (fun _ _ x => x.setP d (combined x k (decide (x.val ty b < x.val ty a)))) ∧
      Sets (.cmp c ty .ge k d a b) c (·.setP d false)
        (fun _ _ x => x.setP d (combined x k (decide (x.val ty b ≤ x.val ty a))))) ∧
    Sets (.pand c na nb d q r) c (·.setP d false) (fun _ _ x => x.setP d ((x.pred q ^^ na) && (x.pred r ^^ nb))) ∧
    Sets (.por c na nb d q r) c (·.setP d false) (fun _ _ x => x.setP d ((x.pred q ^^ na) || (x.pred r ^^ nb))) ∧
    Sets (.pxor c na nb d q r) c (·.setP d false) (fun _ _ x => x.setP d ((x.pred q ^^ na) ^^ (x.pred r ^^ nb))) ∧
    (∃ v : Strand → Word, Sets (.ptog c g) c (·.zeroSpan g 1) (fun _ _ x => x.setG g (v x)) ∧
      ∀ x (j : Nat), (v x).getLsbD j = if h : j < 16 then x.pred ⟨j, h⟩ else false) ∧
    (∃ f z : Strand → Strand, Sets (.gtop c a b) c z (fun _ _ => f) ∧
      ∀ (x : Strand) (j : PReg),
        (f x).pred j = (if j ≠ 15 ∧ (x.reg b).getLsbD j.val then (x.reg a).getLsbD j.val else x.pred j) ∧
        (z x).pred j = (if j ≠ 15 ∧ (x.reg b).getLsbD j.val then false else x.pred j) ∧
        ({ f x with p := x.p } : Strand) = x ∧ ({ z x with p := x.p } : Strand) = x)

/-- R91 to R96: the immediate forms, the compares and the predicate words. -/
def Obligations.ImmediateAndCompareWords : Prop := ImmediateWords ∧ CompareAndPredicateWords

/-! ### Floating-point words (file 06) -/

/-- Operand k of a source of a floating word as an exact value, ABS then NEG applied (R124). -/
def Sys2Proof.Machine.srcVa (x : Strand) (ty : Ty) (m : Mods) (a : GReg) (k : Nat) : FVal := fval ty (x.srcA ty m a k)
def Sys2Proof.Machine.srcVb (x : Strand) (ty : Ty) (m : Mods) (b : GReg) (k : Nat) : FVal := fval ty (x.srcB ty m b k)

/-- R124 to R126: sums, differences, products and fused products of F32, F64, F16 and BF16 pairs: each element is the
exact result rounded once in the word's mode, clamped by SAT, with the generator advanced by stochastic rounding. -/
def Obligations.FloatArithmeticWords : Prop :=
  ∀ (c : Ctl) (rnd : Rnd) (sat : Bool) (m : Mods) (d a b cc : GReg),
    Sets (.fadd c rnd sat m d a b) c (·.zeroSpan d 1) (fun _ _ x =>
      x.arith .f32 (c.rnd rnd) sat d (fun k => FVal.add (c.rnd rnd) (srcVa x .f32 m a k) (srcVb x .f32 m b k))) ∧
    Sets (.fsub c rnd sat m d a b) c (·.zeroSpan d 1) (fun _ _ x =>
      x.arith .f32 (c.rnd rnd) sat d (fun k => FVal.add (c.rnd rnd) (srcVa x .f32 m a k) (srcVb x .f32 m b k).neg)) ∧
    Sets (.fmul c rnd sat m d a b) c (·.zeroSpan d 1) (fun _ _ x =>
      x.arith .f32 (c.rnd rnd) sat d (fun k => FVal.mul (srcVa x .f32 m a k) (srcVb x .f32 m b k))) ∧
    Sets (.ffma c rnd sat m d a b cc) c (·.zeroSpan d 1) (fun _ _ x =>
      x.arith .f32 (c.rnd rnd) sat d (fun k =>
        FVal.add (c.rnd rnd) (FVal.mul (srcVa x .f32 m a k) (srcVb x .f32 m b k)) (fval .f32 (elem .f32 (x.pat .f32 cc) k)))) ∧
    Sets (.dadd c rnd sat m d a b) c (·.zeroSpan d 2) (fun _ _ x =>
      x.arith .f64 (c.rnd rnd) sat d (fun k => FVal.add (c.rnd rnd) (srcVa x .f64 m a k) (srcVb x .f64 m b k))) ∧
    Sets (.dsub c rnd sat m d a b) c (·.zeroSpan d 2) (fun _ _ x =>
      x.arith .f64 (c.rnd rnd) sat d (fun k => FVal.add (c.rnd rnd) (srcVa x .f64 m a k) (srcVb x .f64 m b k).neg)) ∧
    Sets (.dmul c rnd sat m d a b) c (·.zeroSpan d 2) (fun _ _ x =>
      x.arith .f64 (c.rnd rnd) sat d (fun k => FVal.mul (srcVa x .f64 m a k) (srcVb x .f64 m b k))) ∧
    Sets (.dfma c rnd sat m d a b cc) c (·.zeroSpan d 2) (fun _ _ x =>
      x.arith .f64 (c.rnd rnd) sat d (fun k =>
        FVal.add (c.rnd rnd) (FVal.mul (srcVa x .f64 m a k) (srcVb x .f64 m b k)) (fval .f64 (elem .f64 (x.pat .f64 cc) k)))) ∧
    (∀ ty ∈ [Ty.f16, Ty.bf16],
      Sets (.hadd2 c ty rnd sat m d a b) c (·.zeroSpan d 1) (fun _ _ x =>
        x.arith ty (c.rnd rnd) sat d (fun k => FVal.add (c.rnd rnd) (srcVa x ty m a k) (srcVb x ty m b k))) ∧
      Sets (.hmul2 c ty rnd sat m d a b) c (·.zeroSpan d 1) (fun _ _ x =>
        x.arith ty (c.rnd rnd) sat d (fun k => FVal.mul (srcVa x ty m a k) (srcVb x ty m b k))) ∧
      Sets (.hfma2 c ty rnd sat m d a b cc) c (·.zeroSpan d 1) (fun _ _ x =>
        x.arith ty (c.rnd rnd) sat d (fun k =>
          FVal.add (c.rnd rnd) (FVal.mul (srcVa x ty m a k) (srcVb x ty m b k)) (fval ty (elem ty (x.pat ty cc) k)))))

/-- Exponent and mantissa bits of the formats of R127 to R130 (Table 6.1), and their canonical NaN (R107). -/
def Sys2Proof.Machine.expBits (ty : Ty) : Nat := if ty = .f64 then 11 else if ty = .f16 then 5 else 8
def Sys2Proof.Machine.manBits (ty : Ty) : Nat := if ty = .f64 then 52 else if ty = .f32 then 23 else if ty = .f16 then 10 else 7
def Sys2Proof.Machine.canonicalNan (ty : Ty) : Nat :=
  if ty = .f64 then 0x7FF8000000000000 else if ty = .f32 then 0x7FC00000 else if ty = .f16 then 0x7E00 else 0x7FC0

/-- R127: the lesser or greater of two patterns. -0 lies below +0; of one NaN the other operand is returned, of two the canonical NaN. -/
def Sys2Proof.Machine.extremum (x : Strand) (ty : Ty) (m : Mods) (greater : Bool) (a b : GReg) (k : Nat) : Nat :=
  let pa := x.srcA ty m a k
  let pb := x.srcB ty m b k
  let below : Bool := (fval ty pa).cmp (fval ty pb) == some .lt ||
    ((fval ty pa).cmp (fval ty pb) == some .eq && decide (2 ^ (expBits ty + manBits ty) ≤ pa))
  if (fval ty pa).isNan && (fval ty pb).isNan then canonicalNan ty
  else if (fval ty pa).isNan then pb
  else if (fval ty pb).isNan then pa
  else if below = greater then pb else pa

/-- Table 6.6: what an FN code says of the order of two values, none when either is NaN. -/
def Sys2Proof.Machine.compares (fn : FCmpFn) (o : Option Ordering) : Bool :=
  match fn with
  | .eq => o == some .eq
  | .ne => o != some .eq
  | .lt => o == some .lt
  | .le => o == some .lt || o == some .eq
  | .gt => o == some .gt
  | .ge => o == some .gt || o == some .eq
  | .num => o.isSome
  | .nan => o.isNone

/-- R129: the class of a pattern, from its sign, exponent and mantissa fields. -/
def Sys2Proof.Machine.classOf (ty : Ty) (p : Nat) : Nat :=
  let e := p / 2 ^ manBits ty % 2 ^ expBits ty
  let f := p % 2 ^ manBits ty
  let neg := p.testBit (expBits ty + manBits ty)
  if e = 2 ^ expBits ty - 1 then
    (if f ≠ 0 then (if f.testBit (manBits ty - 1) then 9 else 8) else if neg then 0 else 7)
  else if e = 0 then (if f = 0 then (if neg then 3 else 4) else if neg then 2 else 5)
  else if neg then 1 else 6

/-- R127, R128: minima and maxima, and ordered and unordered compares, of F32, F64 and F16 or BF16 pairs. -/
def Obligations.FloatExtremaAndCompares : Prop :=
  ∀ (c : Ctl) (m : Mods) (fn : FCmpFn) (k : Comb) (p : PReg) (d a b : GReg),
    Sets (.fmin c m d a b) c (·.zeroSpan d 1) (fun _ _ x => x.setG d (BitVec.ofNat 32 (extremum x .f32 m false a b 0))) ∧
    Sets (.fmax c m d a b) c (·.zeroSpan d 1) (fun _ _ x => x.setG d (BitVec.ofNat 32 (extremum x .f32 m true a b 0))) ∧
    Sets (.dmin c m d a b) c (·.zeroSpan d 2) (fun _ _ x => x.setPair d (BitVec.ofNat 64 (extremum x .f64 m false a b 0))) ∧
    Sets (.dmax c m d a b) c (·.zeroSpan d 2) (fun _ _ x => x.setPair d (BitVec.ofNat 64 (extremum x .f64 m true a b 0))) ∧
    (∀ ty ∈ [Ty.f16, Ty.bf16],
      Sets (.hmin2 c ty m d a b) c (·.zeroSpan d 1) (fun _ _ x =>
        x.setG d (BitVec.ofNat 32 (extremum x ty m false a b 0 + 65536 * extremum x ty m false a b 1))) ∧
      Sets (.hmax2 c ty m d a b) c (·.zeroSpan d 1) (fun _ _ x =>
        x.setG d (BitVec.ofNat 32 (extremum x ty m true a b 0 + 65536 * extremum x ty m true a b 1)))) ∧
    Sets (.fcmp c m fn k p a b) c (·.setP p false) (fun _ _ x =>
      x.setP p (combined x k (compares fn ((srcVa x .f32 m a 0).cmp (srcVb x .f32 m b 0))))) ∧
    Sets (.dcmp c m fn k p a b) c (·.setP p false) (fun _ _ x =>
      x.setP p (combined x k (compares fn ((srcVa x .f64 m a 0).cmp (srcVb x .f64 m b 0)))))

/-- R129, R130: classification, scaling by a power of two, rounding to an integer, and the fraction, of F32 and F64. -/
def Obligations.FloatShapeWords : Prop :=
  ∀ (c : Ctl) (rnd : Rnd) (m : Mods) (p : PReg) (mask : BitVec 10) (d a b : GReg), ∀ ty ∈ [Ty.f32, Ty.f64],
    Sets (.fclass c ty mask p a) c (·.setP p false) (fun _ _ x => x.setP p (mask.getLsbD (classOf ty (x.pat ty a)))) ∧
    Sets (.fscale c ty rnd m d a b) c (·.zeroSpan d ty.regs) (fun _ _ x =>
      x.arith ty (c.rnd rnd) false d (fun j => scaleVal (srcVa x ty m a j) (x.reg b).toInt)) ∧
    Sets (.frnd c ty rnd m d a) c (·.zeroSpan d ty.regs) (fun _ _ x =>
      x.arith ty .rn false d (fun j => toGrid (c.rnd rnd) (srcVa x ty m a j))) ∧
    Sets (.ffrac c ty m d a) c (·.zeroSpan d ty.regs) (fun _ _ x =>
      x.putElems ty d [match srcVa x ty m a 0 with
        | .nan => canonicalNan ty
        | .inf _ => canonicalNan ty
        | .zero _ => 0
        | .fin s n q =>
          let one := (2 ^ (expBits ty - 1) - 1) * 2 ^ manBits ty
          let r := (packVal (fmtOf ty) .rn (ofSigned .rn (signed s n % q) q) 0).1
          if r = one then one - 1 else r])

/-- R132 to R137, R113, R122: conversions and packing with their MAXABS and generator effects, reads of MAXABS, the
generator's seed and draw, and counts of nonzero elements. That CVT from E8M0 leaves MAXABS and that FTZ keeps
the scale of CVTX are the model's choices (log 56). -/
def Obligations.ConvertAndRandomWords : Prop :=
  ∀ (c : Ctl) (rnd : Rnd) (sat : Bool) (dst src ty : Ty) (d a b : GReg) (fw : Option GReg),
    Sets (.cvt c dst src rnd sat d a) c (·.zeroSpan d dst.regs) (fun _ _ x =>
      let v := srcVal src (elem src (x.pat src a) 0)
      let r := cvtPat dst src (c.rnd rnd) sat v x.rng
      ({ x with rng := r.2, maxabs := if src.isFloat then maxabsStep x.maxabs src v else x.maxabs } : Strand).put dst d r.1) ∧
    Sets (.cvtpk c ty rnd sat d a) c (·.zeroSpan d 1) (fun _ _ x =>
      x.packInto ty (c.rnd rnd) sat d false (fun k => fval .f32 (x.spanElem a k))) ∧
    (∃ f : Strand → Strand, Sets (.cvtx c ty rnd sat d a b fw) c (·.zeroSpan d 1) (fun _ _ => f) ∧
      ∀ x, (f x).reg d = (x.packInto ty (c.rnd rnd) sat d (ftzOf x fw) (fun k =>
          FVal.mul (fval .f32 (if ftzOf x fw then Fmt.f32.flush (x.spanElem a k) else x.spanElem a k))
            (fval .f32 (x.reg b).toNat))).reg d ∧
        (f x).maxabs = (List.range ty.packCount).foldl (fun m k => maxabsStep m .f32 (fval .f32 (x.spanElem a k))) x.maxabs ∧
        (∀ g, g ≠ d → (f x).reg g = x.reg g) ∧ (f x).p = x.p) ∧
    Sets (.amaxrd c d) c (·.zeroSpan d 1) (fun _ _ x => x.setG d x.maxabs) ∧
    Sets (.amaxclr c d) c (·.zeroSpan d 1) (fun _ _ x => ({ x with maxabs := 0 } : Strand).setG d x.maxabs) ∧
    Sets (.rngseed c a b) c id (fun _ _ x => { x with rng := seedExpand (x.pair a) (x.reg b) }) ∧
    Sets (.rngnext c .n32 d) c (·.zeroSpan d 1) (fun _ _ x =>
      ({ x with rng := (draw x.rng).2 } : Strand).setG d (draw x.rng).1.lo) ∧
    Sets (.rngnext c .n64 d) c (·.zeroSpan d 2) (fun _ _ x =>
      ({ x with rng := (draw x.rng).2 } : Strand).setPair d (draw x.rng).1) ∧
    Sets (.nzcnt c ty d a) c (·.zeroSpan d 1) (fun _ _ x =>
      x.setG d (BitVec.ofNat 32 (nonzeroElems ty (x.reg a)).length)) ∧
    Sets (.nzmask c ty d a) c (·.zeroSpan d 1) (fun _ _ x =>
      x.setG d (BitVec.ofNat 32 ((nonzeroElems ty (x.reg a)).map (fun k => 2 ^ k)).sum))

/-- LD raised in each participating lane. -/
def Sys2Proof.Machine.raisesLd (x : Strand) : Strand := x.raise .ld

/-- LD raised in a lane, whose registers of a span are now destinations in flight. -/
def Sys2Proof.Machine.awaits (d : GReg) (n : Nat) (x : Strand) : Strand := raisesLd (x.expects d n)

/-- R89, R131: DIV, REM and the special functions raise LD in each participating lane and leave one result in flight for
it, which DIV_RESULT or SFU_RESULT returns. FSQRT and FDIV are rounded once; the values of the others
are the model's, free within the bounds of Table 6.7 (log 9). -/
def Sys2Proof.Machine.LongLatencyWordsIssue : Prop :=
  ∀ (c : Ctl) (rnd : Rnd) (m : Mods) (d a b : GReg),
    let z : Strand → Strand := (·.zeroSpan d 1)
    let sfu (f : Strand → Word) : State → Bundle → Strand → List FlightOp := fun _ _ x => [.result .sfu x.sid (spanWords d [f x]) none]
    let src (x : Strand) : Word := BitVec.ofNat 32 (x.srcA .f32 m a 0)
    (∀ ty ∈ [Ty.i32, Ty.n32],
      Flies (.div c ty d a b) c z (fun _ _ => awaits d 1) (fun _ _ x => [.result .div x.sid (spanWords d [BitVec.ofInt 32
        (if x.val ty b = 0 then -1 else if ty = .i32 ∧ x.reg a = 0x80000000#32 ∧ x.reg b = 0xFFFFFFFF#32 then -2147483648
          else (x.val ty a).tdiv (x.val ty b))]) none]) ∧
      Flies (.rem c ty d a b) c z (fun _ _ => awaits d 1) (fun _ _ x => [.result .div x.sid (spanWords d [BitVec.ofInt 32
        (if x.val ty b = 0 then x.val ty a else if ty = .i32 ∧ x.reg a = 0x80000000#32 ∧ x.reg b = 0xFFFFFFFF#32 then 0
          else x.val ty a - x.val ty b * (x.val ty a).tdiv (x.val ty b))]) none])) ∧
    Flies (.frcp c m d a) c z (fun _ _ => awaits d 1) (sfu (fun x => frcpVal (src x) (srcVa x .f32 m a 0))) ∧
    Flies (.frsq c m d a) c z (fun _ _ => awaits d 1) (sfu (fun x => frsqVal (src x) (srcVa x .f32 m a 0))) ∧
    Flies (.fsqrt c rnd m d a) c z (fun _ _ => awaits d 1) (sfu (fun x => fsqrtVal (c.rnd rnd) (srcVa x .f32 m a 0))) ∧
    Flies (.fexp2 c m d a) c z (fun _ _ => awaits d 1) (sfu (fun x => fexp2Val (src x) (srcVa x .f32 m a 0))) ∧
    Flies (.flog2 c m d a) c z (fun _ _ => awaits d 1) (sfu (fun x => flog2Val (src x) (srcVa x .f32 m a 0))) ∧
    Flies (.fsin c m d a) c z (fun _ _ => awaits d 1) (sfu (fun x => fsinVal (src x) (srcVa x .f32 m a 0))) ∧
    Flies (.fcos c m d a) c z (fun _ _ => awaits d 1) (sfu (fun x => fcosVal (src x) (srcVa x .f32 m a 0))) ∧
    Flies (.fdiv c rnd m d a b) c z (fun _ _ => awaits d 1) (sfu (fun x =>
      BitVec.ofNat 32 (packVal .f32 (c.rnd rnd) ((srcVa x .f32 m a 0).div (srcVb x .f32 m b 0)) 0).1))

/-- A strand with words that an operation in flight brings. -/
def Sys2Proof.Machine.brings (x : Strand) (ws : List (GReg × Word)) : Strand := ws.foldl (fun y e => { y.setG e.1 e.2 with wrote := y.wrote }) x

/-- No fence waits. -/
def Sys2Proof.Machine.Fenceless (s : State) : Prop := ∀ f ∈ s.flights, ∀ sid sc o, f.op ≠ .fence sid sc o

/-- R89, R131, R58: when a result in flight returns, in registers that the program has not written meanwhile and that no earlier result of
its strand still has to write, its registers take it, LD falls by one, and the operation is no longer in flight; other registers,
predicates, other strands and everything else stay as they were. A load's words may also come one by one (log 18); here all come. -/
def Sys2Proof.Machine.ResultsReturn : Prop :=
  ∀ (s : State) (id : Nat) (f : Flight) (sid : Nat) (ws : List (GReg × Word)) (x : Strand), s.flight? id = some f →
    Fenceless s → s.strand? sid = some x → x.races ws = false → ws ≠ [] → ws.length ≤ 4 → (∀ e ∈ ws, s.destWaits f sid e.1 1 = false) →
    let ok (i : Instr) : Prop := ∃ t, exec i s = .next t ∧ t.outside = (s.dropFlight id).outside ∧
      ∀ j, t.contents j = (s.contents j).map (fun y => if j = sid then (brings y ws).setCtr .ld (y.ld - 1) else y)
    (f.op = .result .div sid ws none → ok (.divResult id)) ∧
    (f.op = .result .sfu sid ws none → ok (.sfuResult id)) ∧
    (∀ sector l1, f.op = .result .load sid ws none → (∀ k < ws.length, s.words.getLsbD k = true) → ok (.loadSectorReturn id sector l1))

/-- R51, R57, R126 to R135: the long-latency words at issue, and the return of their results. -/
def Obligations.LongLatencyWords : Prop := LongLatencyWordsIssue ∧ ResultsReturn

/-! ### Special and shared registers, keyrings (file 07) -/

/-- Table 5.2: what a special register reads as, for strand `x` of team `tm`. -/
def Sys2Proof.Machine.specialValue (s : State) (x : Strand) (tm : Team) : SpReg → Word
  | .strandid => BitVec.ofNat 32 x.strandId
  | .teamid => BitVec.ofNat 32 tm.teamId
  | .gangid => BitVec.ofNat 32 tm.gangId
  | .lanepos => BitVec.ofNat 32 (x.strandId % tm.kernel.width)
  | .width => BitVec.ofNat 32 tm.kernel.width
  | .launchid => BitVec.ofNat 32 tm.seq
  | .coreid => BitVec.ofNat 32 tm.core
  | .courseid => BitVec.ofNat 32 (tm.core / 8)
  | .dieid => BitVec.ofNat 32 s.dieId
  | .maxabs => x.maxabs
  | .rng0 => x.rng.extractLsb' 0 32
  | .rng1 => x.rng.extractLsb' 32 32
  | .rng2 => x.rng.extractLsb' 64 32
  | .rng3 => x.rng.extractLsb' 96 32
  | .ctrs => BitVec.ofNat 32 (x.ld + 2 ^ 8 * x.st + 2 ^ 16 * x.mx + 2 ^ 24 * x.cp)
  | .clklo => s.timebase.extractLsb' 0 32
  | .clkhi => x.clkhi

/-- R82 to R84, R144 to R146, R388: MFS and MFC read every special and control register, with CLKLO latching CLKHI; MTS and MTC
write the writable ones and nothing else; MOVS reads a shared register of the strand's team. -/
def Sys2Proof.Machine.SpecialRegisterWords : Prop :=
  ∀ (c : Ctl) (d a : GReg) (r : SReg) (cr : CReg),
    (∀ sp : SpReg, Sets (.mfs c d sp) c (·.zeroSpan d 1)
      (fun s _ x => match s.team? x.tid with
        | none => x
        | some tm =>
          ({ x with clkhi := if sp = .clklo then s.timebase.extractLsb' 32 32 else x.clkhi } : Strand).setG d
            (specialValue s x tm sp))) ∧
    Sets (.mts c .maxabs a) c id (fun _ _ x => { x with maxabs := x.reg a }) ∧
    Sets (.mts c .rng0 a) c id (fun _ _ x => { x with rng := x.rng.extractLsb' 32 96 ++ x.reg a }) ∧
    Sets (.mts c .rng1 a) c id (fun _ _ x =>
      { x with rng := (x.rng.extractLsb' 64 64 ++ x.reg a) ++ x.rng.extractLsb' 0 32 }) ∧
    Sets (.mts c .rng2 a) c id (fun _ _ x =>
      { x with rng := (x.rng.extractLsb' 96 32 ++ x.reg a) ++ x.rng.extractLsb' 0 64 }) ∧
    Sets (.mts c .rng3 a) c id (fun _ _ x => { x with rng := x.reg a ++ x.rng.extractLsb' 0 96 }) ∧
    Sets (.movs c (.read d r)) c (·.zeroSpan d 1) (fun s _ x => x.setG d ((s.team? x.tid).elim 0 (fun t => t.sregs.get r))) ∧
    Sets (.mfc c d cr) c (·.zeroSpan d 1) (fun _ _ x => x.setG d (match cr with
      | .tveclo => x.tvec.extractLsb' 0 32
      | .tvechi => x.tvec.extractLsb' 32 32
      | .epclo => x.epc.extractLsb' 0 32
      | .epchi => x.epc.extractLsb' 32 32
      | .ecause => x.ecause
      | .evalo => x.eva.extractLsb' 0 32
      | .evahi => x.eva.extractLsb' 32 32
      | .eclause => x.eclause
      | .edifflo => x.ediff.extractLsb' 0 32
      | .ediffhi => x.ediff.extractLsb' 32 32
      | .efrid => x.efrid)) ∧
    Sets (.mtc c .tveclo a) c id (fun _ _ x => { x with tvec := x.tvec.extractLsb' 32 32 ++ x.reg a }) ∧
    Sets (.mtc c .tvechi a) c id (fun _ _ x => { x with tvec := x.reg a ++ x.tvec.extractLsb' 0 32 }) ∧
    Sets (.mtc c .epclo a) c id (fun _ _ x => { x with epc := x.epc.extractLsb' 32 32 ++ x.reg a }) ∧
    Sets (.mtc c .epchi a) c id (fun _ _ x => { x with epc := x.reg a ++ x.epc.extractLsb' 0 32 }) ∧
    Sets (.mtc c .eclause a) c id (fun _ _ x =>
      { x with eclause := (x.eclause.extractLsb' 31 1 ++ (x.reg a).extractLsb' 15 16) ++ 0#15 })

/-- R140, R146: a write by MOVS leaves in each team's shared register the value of the participating lane of that team
with the highest LANEPOS, and changes nothing else but the model's note of the cycle of that write (log 47). -/
def Sys2Proof.Machine.SharedRegisterWrite : Prop :=
  ∀ (c : Ctl) (r : SReg) (a : GReg) (s : State) (b : Bundle) (bs : List Bundle), s.bundles = b :: bs →
    ∃ t, exec (.movs c (.write r a)) s = .next t ∧
      (∀ tid, t.team? tid = (s.team? tid).map (fun tm =>
        match ((s.taking c b).filter (fun x => x.tid == tid)).getLast? with
        | some x => { tm with sregs := tm.sregs.set r.val (x.reg a), sregTime := some s.now }
        | none => tm)) ∧
      (∀ sid, t.contents sid = s.contents sid) ∧
      { t.outside with teams := [] } = { s.outside with teams := [] }

/-- R84, R145 to R147: special registers and the shared registers of a team. -/
def Obligations.SpecialAndSharedRegisters : Prop := SpecialRegisterWords ∧ SharedRegisterWrite

/-- A keyring's new configuration in an open machine: SOLO, COUNT of n, or the members of a mask (R141, R147). -/
def Sys2Proof.Machine.soloRing : Keyring := ⟨.solo, 1, 0, 0, 0, []⟩
def Sys2Proof.Machine.countRing (n : Word) : Keyring := if 1 ≤ n.toNat ∧ n.toNat ≤ 64 then ⟨.count, n.toNat, 0, 0, 0, []⟩ else soloRing
def Sys2Proof.Machine.maskRing (m : DWord) (base : Word) : Keyring :=
  if m = 0 then soloRing else ⟨.mask, m.cpop.toNat, base.toNat / 64 % 16 * 64, m, 0, []⟩

/-- R141, R147: KSET gives a keyring of the strand's team its new configuration when no round is open, keeps the round
number, and changes nothing when the configuration stands already; while a round is open it waits at the word. -/
def Sys2Proof.Machine.KeyringConfiguration : Prop :=
  ∀ (c : Ctl) (k : KReg) (a g : GReg) (s : State) (b : Bundle) (x : Strand) (tm : Team),
    Alone s b c x → s.team? x.tid = some tm →
    let old := tm.keyrings.get k
    let sets (i : Instr) (new : Keyring) : Prop := ∃ t, exec i s = .next t ∧
      let same := old.mode = new.mode ∧ old.expect = new.expect ∧ old.base = new.base ∧ old.members = new.members
      (same → Agree t s) ∧
      (¬same → old.slots = [] →
        Agree t (s.modTeam x.tid (fun tm => tm.setKeyring k { new with round := old.round }))) ∧
      (¬same → old.slots ≠ [] → Agree t s ∧
        t.strand? x.sid = some { x with pc := b.pc, cls := b.cls, state := .ready, since := s.now })
    sets (.ksetCount c k a) (countRing (x.reg a)) ∧
    sets (.ksetMask c k a g) (maskRing (x.pair a) (x.reg g)) ∧
    sets (.ksetFree c k) soloRing

/-- R142, R143, R148: KSIGN.STAT writes the status word; KSIGN.ABSTAIN that does not complete a round of a COUNT keyring takes the
next slot as an abstention and goes on; a strand that holds a slot of the open round waits at the word. -/
def Sys2Proof.Machine.KeyringSignatures : Prop :=
  (∀ (c : Ctl) (d : GReg) (k : KReg), Sets (.ksignStat c d k) c id
    (fun s _ x => match s.team? x.tid with
      | none => x
      | some tm => x.setG d (tm.keyrings.get k).status)) ∧
  ∀ (c : Ctl) (k : KReg) (s : State) (b : Bundle) (x : Strand) (tm : Team),
    Alone s b c x → s.team? x.tid = some tm → (tm.keyrings.get k).mode = .count →
    let old := tm.keyrings.get k
    ∃ t, exec (.ksignAbstain c k) s = .next t ∧
      (old.slots.any (fun g => g.strandId == x.strandId) = true →
        Agree t s ∧ t.strand? x.sid = some { x with pc := b.pc, cls := b.cls, state := .ready, since := s.now }) ∧
      (old.slots.any (fun g => g.strandId == x.strandId) = false → old.slots.length + 1 < old.expect →
        Agree t (s.modTeam x.tid (fun tm => tm.setKeyring k
          { old with slots := old.slots ++ [⟨old.slots.length, x.sid, x.strandId, none, b.pc, b.cls, c.slots⟩] })))

/-- R148 to R150, R236: KSET and KSIGN. -/
def Obligations.Keyrings : Prop := KeyringConfiguration ∧ KeyringSignatures

/-! ### Cross-lane words (file 07) -/

/-- R149, R152, R153, R158: XLANE, SHFX and BCAST take their values from the participating lanes; a source lane outside the
bundle width, or one that does not participate, leaves the lane its own value (SHFX: 0). -/
def Sys2Proof.Machine.LaneExchangeWords : Prop :=
  ∀ (c : Ctl) (ty : Ty) (sl : LaneSel) (d a b : GReg) (lg : Fin 4) (l : Option (BitVec 6)), ty ∈ [Ty.n32, Ty.n64] →
    let z : Strand → Strand := (·.zeroSpan d ty.regs)
    let val (x : Strand) : Nat := if ty = .n64 then (x.pair a).toNat else (x.reg a).toNat
    let put (x : Strand) (v : Nat) : Strand :=
      if ty = .n64 then x.setPair d (BitVec.ofNat 64 v) else x.setG d (BitVec.ofNat 32 v)
    let sel (x : Strand) : Nat := match sl with
      | .reg g => (x.reg g).toNat
      | .imm v => v.toNat
    let take (s : State) (bu : Bundle) (x : Strand) (j : Int) : Strand :=
      put x (val (((if 0 ≤ j ∧ j < s.widthOf bu then laneOf (s.participants c bu) j.toNat else none)).getD x))
    Sets (.xlaneSel c ty d a sl) c z (fun s bu x => take s bu x (sel x)) ∧
    Sets (.xlaneShift c ty d a sl) c z
      (fun s bu x => take s bu x ((x.strandId % s.widthOf bu : Nat) + (BitVec.ofNat 7 (sel x)).toInt)) ∧
    Sets (.xlaneRot c ty d a sl) c z
      (fun s bu x => take s bu x ((x.strandId % s.widthOf bu + sel x) % s.widthOf bu : Nat)) ∧
    Sets (.xlaneMirr c ty d a sl) c z
      (fun s bu x => take s bu x
        ((x.strandId % s.widthOf bu) ^^^ (2 ^ min (sel x % 8) (Nat.log2 (s.widthOf bu)) - 1) : Nat)) ∧
    Sets (.bcast c ty d a l) c z (fun s bu x => take s bu x (match l with
      | none => (((s.participants c bu).head?).elim 0 (fun e => e.1) : Nat)
      | some v => (v.toNat : Nat))) ∧
    Sets (.shfx c d a b lg) c (·.zeroSpan d 1) (fun s bu x =>
      x.setG d (if (x.reg b).toNat < s.widthOf bu * 2 ^ lg.val
        then (laneOf (s.participants c bu) ((x.reg b).toNat / 2 ^ lg.val)).elim 0
          (fun y => y.reg (gAt a ((x.reg b).toNat % 2 ^ lg.val))) else 0))

/-- R154 to R156: VOTE, MATCH and CONFLICT over the participating lanes. -/
def Sys2Proof.Machine.LaneAgreementWords : Prop :=
  ∀ (c : Ctl) (ty : Ty) (neg all : Bool) (p q : PReg) (d a : GReg), ty ∈ [Ty.n32, Ty.n64] →
    let holds (x : Strand) : Bool := x.pred q ^^ neg
    let zp : Strand → Strand := (·.setP p false)
    let zd (x : Strand) : Strand := (x.zeroSpan d 2).setP q false
    Sets (.vote c (.all p) neg q) c zp (fun s b x => x.setP p ((s.participants c b).all (fun e => holds e.2))) ∧
    Sets (.vote c (.any p) neg q) c zp (fun s b x => x.setP p ((s.participants c b).any (fun e => holds e.2))) ∧
    Sets (.vote c (.uni p) neg q) c zp (fun s b x =>
      x.setP p ((s.participants c b).all (fun e => holds e.2) || (s.participants c b).all (fun e => !holds e.2))) ∧
    Sets (.vote c (.ballot d) neg q) c (·.zeroSpan d 2) (fun s b x => x.setPair d (laneMask (s.participants c b) holds)) ∧
    Sets (.laneMatch c ty all d a q) c zd (fun s b x =>
      let P := s.participants c b
      let eq := P.all (fun e => P.all (fun h => e.2.pat ty a == h.2.pat ty a))
      (x.setPair d (if all then (if eq then laneMask P (fun _ => true) else 0)
        else laneMask P (fun y => y.pat ty a == x.pat ty a))).setP q eq) ∧
    Sets (.conflict c ty d a q) c zd (fun s b x =>
      let m := laneMask ((s.participants c b).filter (fun e => decide (e.1 < x.strandId % s.widthOf b)))
        (fun y => y.pat ty a == x.pat ty a)
      (x.setPair d m).setP q (m == 0))

/-- R151 to R156: exchanges among lanes, votes, matches and packing. -/
def Obligations.LaneExchange : Prop := LaneExchangeWords ∧ LaneAgreementWords

/-- R107: a word that an F32 form writes, every NaN as the canonical one. -/
def Sys2Proof.Machine.nanCanonical (ty : Ty) (v : Word) : Word :=
  if ty = .f32 ∧ v.extractLsb' 23 8 = 0xFF#8 ∧ v.extractLsb' 0 23 ≠ 0 then 0x7FC00000#32 else v

/-- R157 to R159: COMPACT and EXPAND move values between the selected lanes and the first ones; BREDUCE and BSCAN fold
the lane's segment in ascending lane order; MERGEK merges two sorted lists of keys and values. -/
def Obligations.LaneCombiningWords : Prop :=
  ∀ (c : Ctl) (ty : Ty) (rnd : Rnd) (sat dz inv excl : Bool) (fn : RedFn) (sg : Seg) (mg : Option GReg) (q : PReg) (d a : GReg),
    let z : Strand → Strand := (·.zeroSpan d 1)
    let chosen (s : State) (b : Bundle) : Lanes := (s.participants c b).filter (fun e => e.2.pred q != inv)
    Sets (.compact c d a q inv) c z (fun s b x =>
      x.setG d (((chosen s b)[laneIndex (s.participants c b) x]?).elim 0 (fun e => e.2.reg a))) ∧
    Sets (.expand c d a q inv) c z (fun s b x =>
      x.setG d (if x.pred q != inv
        then ((s.participants c b)[laneIndex (chosen s b) x]?).elim 0 (fun e => e.2.reg a) else 0)) ∧
    Sets (.breduce c ty rnd sat fn sg d a) c z (fun s b x =>
      x.setG d (nanCanonical ty (foldLanes (redStep ty (c.rnd rnd) sat fn) (redIdentity ty fn) a (Seg.of (s.participants c b) x sg)))) ∧
    Sets (.bscan c ty rnd sat fn sg excl d a) c z (fun s b x =>
      let seg := Seg.of (s.participants c b) x sg
      x.setG d (nanCanonical ty (foldLanes (redStep ty (c.rnd rnd) sat fn) (redIdentity ty fn) a
        (seg.take (if excl then laneIndex seg x else laneIndex seg x + 1))))) ∧
    Sets (.mergek c ty rnd sat dz mg d a q inv) c (·.zeroSpan d 4) (fun s b x =>
      let G := match mg with
        | none => s.participants c b
        | some g => (s.participants c b).filter (fun e => e.2.reg g == x.reg g)
      let pairs (L : Lanes) : List (Word × Word) := L.map (fun e => (e.2.reg a, e.2.reg (gAt a 1)))
      let merged := mergeLoop (redStep ty (c.rnd rnd) sat .add) (G.length + 1)
        (pairs (G.filter (fun e => e.2.pred q == inv))) (pairs (G.filter (fun e => e.2.pred q != inv))) []
      let out := if dz then merged.filter (fun e => !zeroWord ty e.val) else merged
      let n := BitVec.ofNat 32 out.length
      x.setSpan d (match out[laneIndex G x]? with
        | some e => [e.key, nanCanonical ty e.val, n, e.fl]
        | none => [0xFFFFFFFF, 0, n, 0]))

/-! ### Memory words (files 08 to 10, 16) -/

/-- LD and ST raised together, ST alone. -/
def Sys2Proof.Machine.awaitsLdSt (d : GReg) (n : Nat) (x : Strand) : Strand := (awaits d n x).raise .st
def Sys2Proof.Machine.raisesSt (x : Strand) : Strand := x.raise .st

/-- The operation a lane's checked access makes; a lane whose access fails makes none. -/
def Sys2Proof.Machine.onAccess (s : State) (b : Bundle) (x : Strand) (a : GReg) (off : Off) (bytes : Nat) (kind : BitVec 3)
    (ok : Page → Bool) (op : Acc → FlightOp) : List FlightOp :=
  match s.check (coreUnit b.core) (x.ea a off) bytes kind ok with
  | .ok acc => [op acc]
  | .error _ => []

/-- R176, R197 to R199, R254: LD, LDA, ATOM and RED whose participating lanes all pass the checks of R167 raise their
counters and put one access of each lane in flight, with the page of the check; registers and memory keep
their values until the access returns or is performed. -/
def Sys2Proof.Machine.GlobalAccessWords : Prop :=
  ∀ (c : Ctl) (w : Width) (sc : Scope) (o : Order) (aop : AtomOp) (signed acqrel : Bool) (ty : RType) (rop : ROp)
    (d a cc : GReg) (off : Off),
    Flies (.ld c w sc o d a off) c (·.zeroSpan d w.regs) (fun _ _ => awaits d w.regs)
      (fun s b x => onAccess s b x a off w.bytes accRead (·.read)
        (fun acc => .load [x.sid] [⟨x.sid, d, w, acc, none⟩] sc o false [] .ld))
      (AccessOk c a off w.bytes accRead (·.read)) ∧
    Flies (.lda c w d a off) c (·.zeroSpan d w.regs) (fun _ _ => awaits d w.regs)
      (fun s b x => onAccess s b x a off w.bytes accRead (·.read)
        (fun acc => .load [x.sid] [⟨x.sid, d, w, acc, none⟩] .course .plain false [] .lda))
      (AccessOk c a off w.bytes accRead (·.read)) ∧
    Flies (.atom c w sc o aop signed acqrel d a cc off) c (·.zeroSpan d w.regs) (fun _ _ => awaitsLdSt d w.regs)
      (fun s b x => onAccess s b x a off w.bytes (accRead ||| accWrite) (fun p => p.read && p.write)
        (fun acc => .atom x.sid acc w aop signed (x.operand w cc) (x.operand w (gAt cc w.regs)) sc o acqrel d s.nextId))
      (AccessOk c a off w.bytes (accRead ||| accWrite) (fun p => p.read && p.write)) ∧
    Flies (.red c sc o ty rop d a off) c id (fun _ _ => raisesSt)
      (fun s b x => onAccess s b x a off (redBytes ty) accWrite (fun p => p.write && p.redOk)
        (fun acc => .red x.sid acc ty rop (if ty = .i64 then x.pair d else (x.reg d).setWidth 64) sc o s.nextId))
      (AccessOk c a off (redBytes ty) accWrite (fun p => p.write && p.redOk))

/-- R177, R330, R354, R396: ST whose participating lanes pass the checks, and of which none would publish with its CP counter
at 255, raises ST (and CP for a publication) and puts the store of each lane in flight: a ring publication, a binding
store or a stream trigger where its address and form make it one, else a store of the low bytes of its data span. -/
def Sys2Proof.Machine.StoreWord : Prop :=
  ∀ (c : Ctl) (w : Width) (sc : Scope) (o : Order) (d a : GReg) (off : Off),
    Flies (.st c w sc o d a off) c id
      (fun s b x => match s.check (coreUnit b.core) (x.ea a off) w.bytes accWrite (·.write) with
        | .ok acc => (FlightOp.storeCtrs (s.storeOp x w sc o d acc)).foldl Strand.raise x
        | .error _ => x)
      (fun s b x => onAccess s b x a off w.bytes accWrite (·.write) (s.storeOp x w sc o d))
      (fun s b => AccessOk c a off w.bytes accWrite (·.write) s b ∧
        ∀ x ∈ s.strands, x.sid ∈ b.lanes → s.cpFull c b w sc o a off x = 0) ∧
    (∀ (s : State) (x : Strand) (acc : Acc), (w ≠ .n32 ∨ o ≠ .rel ∨ sc = .team) →
      s.storeOp x w sc o d acc = .store [x.sid] acc (bytesAt acc.pa ((wordsBytes (x.span d w.regs)).take w.bytes)) sc o none)

/-- The last of some lanes that writes a byte of its own line with a store of width w, and what it writes (R179). -/
def Sys2Proof.Machine.lastWrite (w : Width) (d : GReg) (at' : Strand → Option Acc) (xs : List Strand) (p line : Nat) : Option Byte :=
  (xs.filterMap (fun y => match at' y with
    | some q => if q.pa / 128 = line then ((bytesAt q.pa (y.storeBytes w d)).find? (fun e => e.1 == p)).map (·.2) else none
    | none => none)).getLast?

/-- R178, R179: GATHER makes one operation of all its lanes, so that each line is read once. SCATTER puts in flight one store for each
line that its lanes touch, which carries every lane of the line and, of bytes that several lanes write, those of the highest LANEPOS;
each of its lanes raises ST. -/
def Obligations.GatherAndScatterWords : Prop :=
  ∀ (c : Ctl) (w : Width) (sc : Scope) (o : Order) (d a : GReg) (off : Off),
    (∀ (s : State) (b : Bundle) (bs : List Bundle) (x : Strand) (xs : List Strand), s.bundles = b :: bs →
      s.taking c b = x :: xs → AccessOk c a off w.bytes accRead (·.read) s b →
      ∃ t, exec (.gather c w sc o d a off) s = .next t ∧
        Agree t ((s.lanesDo b c (·.zeroSpan d w.regs) (awaits d w.regs)).fly x.tid
          (.load ((x :: xs).map Strand.sid) ((x :: xs).filterMap (fun y =>
            match s.check (coreUnit b.core) (y.ea a off) w.bytes accRead (·.read) with
            | .ok acc => some ⟨y.sid, d, w, acc, none⟩
            | .error _ => none)) sc o false [] .gather))) ∧
    (∀ (s : State) (b : Bundle) (bs : List Bundle), s.bundles = b :: bs → AccessOk c a off w.bytes accWrite (·.write) s b →
      let at' (y : Strand) : Option Acc := (s.check (coreUnit b.core) (y.ea a off) w.bytes accWrite (·.write)).toOption
      ∃ t, exec (.scatter c w sc o d a off) s = .next t ∧
        (∀ sid, t.contents sid = (s.lanesDo b c id raisesSt).contents sid) ∧
        { t.outside with flights := s.flights, nextId := s.nextId } = s.outside ∧
        t.flights.take s.flights.length = s.flights ∧
        let new := t.flights.drop s.flights.length
        (∀ f ∈ new, ∃ x ∈ s.taking c b, ∃ acc sids q data, at' x = some acc ∧
          f.op = .store sids q data sc o (some s.nextId) ∧ q.pa = acc.pa / 128 * 128) ∧
        new.Pairwise (fun f g => ∀ sids sids' q q' data data', f.op = .store sids q data sc o (some s.nextId) →
          g.op = .store sids' q' data' sc o (some s.nextId) → q.pa ≠ q'.pa) ∧
        ∀ x ∈ s.taking c b, ∀ acc, at' x = some acc → ∃ f ∈ new, ∃ sids q data,
          f.op = .store sids q data sc o (some s.nextId) ∧ q.pa = acc.pa / 128 * 128 ∧ x.sid ∈ sids ∧
          ∀ p, (data.find? (fun e => e.1 == p)).map (·.2) = lastWrite w d at' (s.taking c b) p (acc.pa / 128))

/-- Scratchpad access of a lane: the address after the swizzle, aligned and within the team's scratchpad (R46, R168). -/
def Sys2Proof.Machine.scratchOk (s : State) (x : Strand) (swz : Fin 8) (a : GReg) (off : Off) (bytes : Nat) : Prop :=
  (swizzle swz (x.sea a off)).toNat % bytes = 0 ∧
  ∃ tm, s.team? x.tid = some tm ∧ (swizzle swz (x.sea a off)).toNat + bytes ≤ 4096 * tm.scu

/-- R168, R176, R177: LDS reads the team's scratchpad at issue and returns the value, extended by its width, under LD; STS
writes the low bytes of its data span to the scratchpad at issue and raises ST. A strand whose window accesses are outstanding waits. -/
def Sys2Proof.Machine.ScratchpadWords : Prop :=
  ∀ (c : Ctl) (w : Width) (swz : Fin 8) (d a : GReg) (off : Off),
    Flies (.lds c w swz d a off) c (·.zeroSpan d w.regs) (fun _ _ => awaits d w.regs)
      (fun s _ x => [.result .load x.sid (spanWords d
        (w.extend (leNat (readN (s.scratchGet x.tid) (swizzle swz (x.sea a off)).toNat w.bytes)))) none])
      (fun s b => ∀ x ∈ s.taking c b, s.scratchWaits x = false ∧ scratchOk s x swz a off w.bytes) ∧
    (∀ (s : State) (b : Bundle) (x : Strand), Alone s b c x → s.scratchWaits x = false → scratchOk s x swz a off w.bytes →
      ∃ t, exec (.sts c w swz d a off) s = .next t ∧
        Agree t (((s.scratchPut x.tid (swizzle swz (x.sea a off)).toNat (x.storeBytes w d)).modStrand x.sid raisesSt).fly
          x.tid (.scratchStore x.sid)))

/-- R166 to R180, R193, R199: LD, LDA, ATOM, RED, ST, LDS and STS. -/
def Obligations.LoadsStoresAndAtomicsIssue : Prop := GlobalAccessWords ∧ StoreWord ∧ ScratchpadWords

/-- R180, R196, R203, R204: PREF never faults and fetches only what a lane may read of a cacheable page that no other
team holds the key of; FENCE raises no counter and is settled when its conditions hold; SYNCG leaves a gang's strand in
LATCH at the following slot with its registers unchanged. -/
def Sys2Proof.Machine.PrefetchFenceBarrierWords : Prop :=
  ∀ (c : Ctl) (sc : Scope) (o : Order) (a : GReg) (off : Off),
    Flies (.pref c sc a off) c id (fun _ _ x => x)
      (fun s b x => match s.check (coreUnit b.core) (x.ea a off) 1 accRead (fun p => p.read && decide (p.home ≤ 1)) with
        | .error _ => []
        | .ok acc => match s.keyAt acc.pa with
          | some k => if k.holder = x.tid then [.pref sc acc] else []
          | none => [.pref sc acc]) ∧
    (∀ (s : State) (b : Bundle) (x : Strand), Alone s b c x →
      (∃ t, exec (.fence c sc o) s = .next t ∧ Agree t (s.fly x.tid (.fence x.sid sc o)).settleFences) ∧
      (s.isGang x.tid = true → ∃ t, exec (.syncg c sc) s = .next t ∧ Agree t s ∧
        (t.strand? x.sid).map Strand.state = some (.barrier sc) ∧
        (t.strand? x.sid).map Strand.pc = some (b.pc + 8)))

/-- Every participating lane belongs to a gang's team and passes the checks of a key word (R215, R218). -/
def Sys2Proof.Machine.keysOk (c : Ctl) (a : GReg) (off : Off) (s : State) (b : Bundle) : Prop :=
  (∀ x ∈ s.taking c b, s.isGang x.tid = true) ∧ AccessOk c a off 1 accWrite (fun p => p.write && p.keyed) s b

/-- R219 to R222: KEYGET and KEYDROP put their operation in flight under LD and under ST. KEYPASS of a key the team does not hold, or that
is already passing to another team, returns status 1 with the holder; a pass to a TEAMID the gang does not have returns status 3;
otherwise, when the release of the pass finds nothing to do, the pass is in progress until KEYPASS_COMPLETE. -/
def Sys2Proof.Machine.KeyWords : Prop :=
  ∀ (c : Ctl) (d a : GReg) (off : Off),
    Flies (.keyget c d a off) c (·.zeroSpan d 1) (fun _ _ => awaits d 1)
      (fun s b x => onAccess s b x a off 1 accWrite (fun p => p.write && p.keyed) (fun acc => .keyget x.sid acc d s.nextId))
      (keysOk c a off) ∧
    Flies (.keydrop c a off) c id (fun _ _ => raisesSt)
      (fun s b x => onAccess s b x a off 1 accWrite (fun p => p.write && p.keyed) (fun acc => .keydrop x.sid acc s.nextId))
      (keysOk c a off) ∧
    (∀ (s : State) (b : Bundle) (x : Strand) (acc : Acc), Alone s b c x → s.keyBusy x = false → s.isGang x.tid = true →
      s.check (coreUnit b.core) (x.ea a off) 1 accWrite (fun p => p.write && p.keyed) = .ok acc →
      ∃ t, exec (.keypass c d a off) s = .next t ∧
        let back (status holder : Nat) : Prop :=
          Agree t ((s.modStrand x.sid (awaits d 1)).fly x.tid (.result .load x.sid (spanWords d [keyStatus holder status]) none))
        let calm : Prop := s.accepted (s.teamCourse x.tid) = [] ∧ (s.course (s.teamCourse x.tid)).running = none ∧
          (s.course (s.teamCourse x.tid)).deltas = [] ∧ (s.course (s.teamCourse x.tid)).dirty = []
        (s.key? acc.va = none → back 1 0xFFFF) ∧
        ∀ k, s.key? acc.va = some k →
          (∀ p, k.passing = some p → ¬(p = x.tid ∧ k.holder = x.tid) → back 1 (s.holderName x.tid p)) ∧
          (k.passing = none → k.holder ≠ x.tid → back 1 (s.holderName x.tid k.holder)) ∧
          (k.passing = none → k.holder = x.tid → s.gangTeam x.tid (x.reg d).toNat = none → back 3 0xFFFF) ∧
          (∀ m, k.passing = none → k.holder = x.tid → s.gangTeam x.tid (x.reg d).toNat = some m → calm →
            (∀ e ∈ t.keys, e.block = k.block → e.passing = some m) ∧
            (∃ f ∈ t.flights, f.op = .keypass x.sid acc d (x.reg d) ∧ f.acc.isSome) ∧
            (t.strand? x.sid).map Strand.ld = some (min 255 (x.ld + 1))))

/-- R223, R224, R343: CWB, CINV and CDISC put their operation in flight under ST, and do nothing with an empty mask; CPSTAT of a
ring header of the strand's own team reads the ring when its result returns; QSTAT reads its queue or launch when it returns. -/
def Sys2Proof.Machine.CacheControlAndStatusWords : Prop :=
  ∀ (c : Ctl) (sc : Scope) (d a : GReg) (off : Off),
    let some_ (x : Strand) : Strand := if x.reg d = 0 then x else raisesSt x
    let op (kind : BitVec 3) (ok : Page → Bool) (what : Fin 3) (sc : Scope) : State → Bundle → Strand → List FlightOp :=
      fun s b x => if x.reg d = 0 then [] else onAccess s b x a off 1 kind ok
        (fun acc => .cacheOp x.sid acc what sc (x.reg d) s.nextId)
    Flies (.cwb c sc d a off) c id (fun _ _ => some_) (op 0 (fun _ => true) 0 sc) (AccessOk c a off 1 0 (fun _ => true)) ∧
    Flies (.cinv c sc d a off) c id (fun _ _ => some_) (op 0 (fun _ => true) 1 sc) (AccessOk c a off 1 0 (fun _ => true)) ∧
    Flies (.cdisc c d a off) c id (fun _ _ => some_) (op accWrite (·.write) 2 .course) (AccessOk c a off 1 accWrite (·.write)) ∧
    Flies (.cpstat c d a off) c (·.zeroSpan d 1) (fun _ _ => awaits d 1)
      (fun s b x => match s.check (coreUnit b.core) (x.ea a off) 1 accRead (·.read) with
        | .ok acc => (s.ringHeader x.tid acc).toList.map (fun base => .cpstat x.sid d base)
        | .error _ => [])
      (fun s b => ∀ x ∈ s.taking c b, ∃ acc, s.check (coreUnit b.core) (x.ea a off) 1 accRead (·.read) = .ok acc ∧
        acc.va.toNat % 32 = 0 ∧ (s.ringHeader x.tid acc).isSome) ∧
    Flies (.qstatQ c d a) c id (fun _ _ => awaits d 1) (fun _ _ x => [.qstat x.sid d 0 (x.reg a)]) (fun _ _ => c.mask = none) ∧
    Flies (.qstatLast c d a) c id (fun _ _ => awaits d 1) (fun _ _ x => [.qstat x.sid d 1 (x.reg a)]) (fun _ _ => c.mask = none) ∧
    Flies (.qstatSeq c d a) c id (fun _ _ => awaits d 1) (fun _ _ x => [.qstat x.sid d 2 (x.reg a)]) (fun _ _ => c.mask = none)

/-- R181, R194, R204, R207 to R222: PREF, FENCE, SYNCG, keys, cache control, CPSTAT and QSTAT. -/
def Obligations.KeysFencesAndCacheWordsIssue : Prop := PrefetchFenceBarrierWords ∧ KeyWords ∧ CacheControlAndStatusWords

/-! ### Control transfers, MONITOR, traps (files 05, 19) -/

/-- Where a strand that reaches the header at `pc` stands: READY, or PARKED on those counters of the header's WAIT that are
not zero (R53, R98). -/
def Sys2Proof.Machine.Stands (s : State) (core : Nat) (x : Strand) (pc : DWord) (y : Strand) : Prop :=
  y.pc = pc ∧ y.cls = none ∧
    y.state = if x.nonzero (s.waitMask core pc) = 0 then .ready else .parked (x.nonzero (s.waitMask core pc))

/-- Word `i` completes whenever `pre` holds: each participating lane becomes `f` of itself and stands at `target`; every other strand
keeps its registers, and nothing else changes. -/
def Sys2Proof.Machine.Transfers (i : Instr) (c : Ctl) (f : Bundle → Strand → Strand) (target : Bundle → Strand → DWord)
    (pre : State → Bundle → Prop) : Prop :=
  ∀ (s : State) (b : Bundle) (bs : List Bundle), s.bundles = b :: bs → pre s b →
    ∃ t, exec i s = .next t ∧ t.outside = s.outside ∧
      (∀ x ∈ s.taking c b, ∃ y, t.strand? x.sid = some y ∧ y.content = (f b x).content ∧
        Stands s b.core x (target b x) y) ∧
      (∀ sid, (∀ x ∈ s.taking c b, x.sid ≠ sid) → t.contents sid = s.contents sid)

/-- The registers of a trap entry (R373): EPC and ECLAUSE for the resume point, ECAUSE, EVA and EDIFF of the fault, EFRID 0, and
the PC at the handler with INTRAP set; the strand's general registers, predicates and the rest stay. -/
def Sys2Proof.Machine.EntersTrap (s : State) (core : Nat) (x : Strand) (epc : DWord) (cls : Option Cls) (cause : Word) (eva ediff : DWord)
    (y : Strand) : Prop :=
  y.epc = epc ∧ y.ecause = cause ∧ y.eva = eva ∧ y.ediff = ediff ∧ y.efrid = 0 ∧
  y.eclause = (match cls with
    | none => 0x80000000#32
    | some k => 3#2 ++ k.eng ++ BitVec.ofBool k.term ++ BitVec.ofNat 4 (k.left - 1) ++ BitVec.ofNat 4 k.idx ++ 0#15) ∧
  Stands s core x x.tvec y ∧
  ({ y with epc := x.epc, ecause := x.ecause, eva := x.eva, ediff := x.ediff, efrid := x.efrid, eclause := x.eclause } :
    Strand).content = x.content

/-- R47, R55, R97 to R99, R101: BRA, CALL and YIELD go to the holding header plus 8 times OFF24; BRX, CALLX and RET to the pair's
value when it is a multiple of 8, and when it is not they raise MISALIGNED at their own slot, with no register written; CALL and
CALLX leave the following clause's address in the pair d; YIELD sets the yield mark. -/
def Obligations.ControlTransferWords : Prop :=
  ∀ (c : Ctl) (d a : GReg) (off : Off),
    let near (b : Bundle) : DWord := b.header + 8 * off.signExtend 64
    let always : State → Bundle → Prop := fun _ _ => True
    let aligned : State → Bundle → Prop := fun s b => ∀ x ∈ s.taking c b, (x.pair a).toNat % 8 = 0
    Transfers (.bra c off) c (fun _ x => x) (fun b _ => near b) always ∧
    Transfers (.yield c off) c (fun _ x => { x with yielded := true }) (fun b _ => near b) always ∧
    Transfers (.call c d off) c (fun b x => x.setPair d b.following) (fun b _ => near b) always ∧
    Transfers (.brx c a) c (fun _ x => x) (fun _ x => x.pair a) aligned ∧
    Transfers (.ret c a) c (fun _ x => x) (fun _ x => x.pair a) aligned ∧
    Transfers (.callx c d a) c (fun b x => x.setPair d b.following) (fun _ x => x.pair a) aligned ∧
    ∀ i ∈ [Instr.brx c a, Instr.ret c a, Instr.callx c d a], ∀ (s : State) (b : Bundle) (x : Strand) (tm : Team),
      Alone s b c x → s.team? x.tid = some tm → x.trapsTo = true → (x.pair a).toNat % 8 ≠ 0 →
      ∃ t y, exec i s = .next t ∧ t.outside = s.outside ∧ t.strand? x.sid = some y ∧
        EntersTrap s tm.core x b.pc b.cls (1024 + 5) (x.pair a) 0 y

/-- R102, R103: MWAIT leaves the strand in MONITOR on its span with its read in flight; the read's return arms the monitor or,
on a different value, ends the wait at the following clause; a visible write, the end of 65,536 cycles, and any other cause end it too. -/
def Obligations.MonitorWaitAndWake : Prop :=
  (∀ (c : Ctl) (w : Width) (sc : Scope) (d a : GReg) (off : Off) (s : State) (b : Bundle) (x : Strand) (acc : Acc),
    Alone s b c x → s.check (coreUnit b.core) (x.ea a off) w.bytes accRead (·.read) = .ok acc →
    ∃ t, exec (.mwait c w sc d a off) s = .next t ∧ Agree t (s.fly x.tid (.monitorRead x.sid)) ∧
      (t.strand? x.sid).map Strand.pc = some b.following ∧
      (t.strand? x.sid).map Strand.state = some (.monitor ⟨x.ea a off, w, sc,
        if w = .n64 then x.pair d else (x.reg d).setWidth 64, acc, false, 65536, 0, false⟩)) ∧
  (∀ (s : State) (id sid : Nat) (f : Flight) (x : Strand) (m : Monitor), s.flight? id = some f → f.op = .monitorRead sid →
    s.strand? sid = some x → x.state = .monitor m → s.waits f sid m.acc.pa m.width.bytes = false →
    let v := leNat (s.readScope (courseOf f.core) f.tid sid m.scope m.acc m.width.bytes false).2
    ∃ t, exec (.monitorReadReturn id) s = .next t ∧
      (v = m.cmp.toNat → (t.strand? sid).map Strand.state =
        some (.monitor { m with armed := true, since := s.now, written := false })) ∧
      (v ≠ m.cmp.toNat → ∃ y, t.strand? sid = some y ∧ (y.state = .ready ∨ ∃ k, y.state = .parked k))) ∧
  (∀ (s : State) (sid : Nat) (x : Strand) (m : Monitor), s.strand? sid = some x → x.state = .monitor m → m.armed = true →
    let ends (i : Instr) : Prop := exec i s = .next (s.modStrand sid (fun y => y.wake s (s.coreOf y.tid)))
    (m.written = true → ends (.monitorWriteWake sid)) ∧
    (m.remaining ≤ s.now - m.since → ends (.monitorTimeout sid)) ∧
    ends (.monitorOtherWake sid))

/-- R373, R385 to R387: TRAP and BRK of a strand with a handler, outside a trap, enter it with their code: TRAP with EPC at the
slot after it, BRK with EPC at its own slot; nothing else changes. -/
def Sys2Proof.Machine.SoftwareTraps : Prop :=
  ∀ (c : Ctl) (code : BitVec 16) (s : State) (b : Bundle) (x : Strand) (tm : Team), Alone s b c x → s.team? x.tid = some tm →
    x.trapsTo = true →
    (∃ t y, exec (.trap c code) s = .next t ∧ t.outside = s.outside ∧ t.strand? x.sid = some y ∧
      EntersTrap s tm.core x (b.pc + 8) (b.clsAfter 1) (code ++ 11#16) 0 0 y) ∧
    (∃ t y, exec (.brk c code) s = .next t ∧ t.outside = s.outside ∧ t.strand? x.sid = some y ∧
      EntersTrap s tm.core x b.pc b.cls (code ++ 12#16) 0 0 y)

/-- R387: ERET inside a trap clears INTRAP and returns the strand to EPC: into the clause ECLAUSE describes when INCL is 1, else
to the header at EPC; outside a trap it raises ILLEGAL-CLAUSE. -/
def Sys2Proof.Machine.ReturnFromTrap : Prop :=
  ∀ (c : Ctl) (s : State) (b : Bundle) (x : Strand) (tm : Team), Alone s b c x → s.team? x.tid = some tm →
    (x.eclause.getLsbD 31 = true → x.epc.toNat % 8 = 0 → ∃ t y, exec (.eret c) s = .next t ∧ t.outside = s.outside ∧
      t.strand? x.sid = some y ∧ y.eclause = x.eclause &&& 0x7FFFFFFF#32 ∧
      ({ y with eclause := x.eclause } : Strand).content = x.content ∧
      (x.eclause.getLsbD 30 = true → y.pc = x.epc ∧ y.state = .ready ∧
        y.cls = some ⟨x.eclause.extractLsb' 24 6, x.eclause.getLsbD 23, (x.eclause.extractLsb' 19 4).toNat + 1,
          (x.eclause.extractLsb' 15 4).toNat⟩) ∧
      (x.eclause.getLsbD 30 = false → Stands s tm.core x x.epc y)) ∧
    (x.eclause.getLsbD 31 = false → x.tvec ≠ 0 → ∃ t y, exec (.eret c) s = .next t ∧ t.outside = s.outside ∧
      t.strand? x.sid = some y ∧ EntersTrap s tm.core x b.pc b.cls 3 0 0 y)

/-- R373, R385 to R387: TRAP, BRK and ERET. -/
def Obligations.TrapsAndReturn : Prop := SoftwareTraps ∧ ReturnFromTrap

/-- R373, R374: the trap path of one strand. With a handler and outside a trap it enters the handler; otherwise the strand ends and
its launch, if accepted or admitted, is to be recorded FAULTED with CAUSE 10. -/
def Sys2Proof.Machine.TrapPath : Prop :=
  ∀ (s : State) (sid : Nat) (x : Strand) (tm : Team) (epc : DWord) (cls : Option Cls) (tr : Trap),
    s.strand? sid = some x → s.team? x.tid = some tm →
    ((x.eclause.getLsbD 31 = false ∧ x.tvec ≠ 0) → ∃ y, (s.trap sid epc cls tr 0).strand? sid = some y ∧
      EntersTrap s tm.core x epc cls tr.cause tr.eva tr.ediff y ∧ (s.trap sid epc cls tr 0).outside = s.outside) ∧
    (¬(x.eclause.getLsbD 31 = false ∧ x.tvec ≠ 0) →
      ((s.trap sid epc cls tr 0).strand? sid).map Strand.state = some .ended ∧
      ∀ l, s.launch? tm.seq = some l → (l.state = .accepted ∨ l.state = .admitted) →
        ((s.trap sid epc cls tr 0).launch? tm.seq).map Launch.state = some (.dying 10))

/-- R167, R371, R376: a load whose address fails a check. A non-canonical address, a page that forbids the read and a reserved one
raise ACCESS and a misaligned one MISALIGNED, with the address in EVA; a page that is not present holds the strand at
its slot under a new cause of a fault record, with no register written, and a walk of that page in flight is over. -/
def Sys2Proof.Machine.LoadAddressFaults : Prop :=
  ∀ (c : Ctl) (w : Width) (sc : Scope) (o : Order) (d a : GReg) (off : Off) (s : State) (b : Bundle) (x : Strand) (tm : Team),
    Alone s b c x → s.team? x.tid = some tm →
    let ea := x.ea a off
    let traps (fault : Word) : Prop := x.trapsTo = true →
      ∃ t y, exec (.ld c w sc o d a off) s = .next t ∧ t.outside = s.outside ∧ t.strand? x.sid = some y ∧
        EntersTrap s tm.core x b.pc b.cls fault ea 0 y
    (canonical ea = false → traps (256 + 7)) ∧
    (canonical ea = true → ea.toNat % w.bytes ≠ 0 → traps (256 + 5)) ∧
    (canonical ea = true → ea.toNat % w.bytes = 0 →
      (∀ p, s.translate (coreUnit b.core) ea = .ok p → (p.read = false ∨ s.reserved (p.addr ea) = true) → traps (256 + 7)) ∧
      (s.translate (coreUnit b.core) ea = .error .access → traps (256 + 7)) ∧
      (s.translate (coreUnit b.core) ea = .error .notPresent →
        ∃ t, exec (.ld c w sc o d a off) s = .next t ∧ t.contents x.sid = some { x with heldVa := ea, heldLen := c.slots }.content ∧
          (t.strand? x.sid).map Strand.state = some (.faultHeld s.nextId) ∧
          (t.strand? x.sid).map Strand.pc = some b.pc ∧
          t.faults = s.faults ++ [⟨s.nextId, none, .data, 1, ea, tm.seq, BitVec.ofNat 32 tm.gangId,
            BitVec.ofNat 32 tm.teamId, BitVec.ofNat 32 x.strandId, 0, 1, none, false⟩] ∧
          t.misses = s.misses.filter (fun m => !m.serves (ea.toNat / 65536)) ∧
          { t.outside with faults := s.faults, nextId := s.nextId, misses := s.misses } = s.outside))

/-- R167, R371 to R376: the trap path, and the address faults of a load. -/
def Obligations.FaultsOfOneStrand : Prop := TrapPath ∧ LoadAddressFaults

/-! ### Latches (files 08, 18) -/

/-- R359, Table 18.2: a latch written to its 16 bytes reads back as it was, for every value its fields can hold. -/
def Sys2Proof.Machine.LatchImage : Prop :=
  ∀ (l : Latch) (m : Bytes) (a : Nat), l.l1u < 256 → l.scu < 256 → l.expa < 2048 → l.penda < 2048 → l.expb < 2 ^ 32 →
    l.pendb < 2 ^ 32 → Memory.wf m = true → latchAt (memPutL a (latchBytes l) m) a = l

/-- A latch address of a lane's team: a multiple of 16 within the latch area (R366). -/
def Sys2Proof.Machine.LatchHere (s : State) (x : Strand) (ea : Nat) (l : Latch) : Prop :=
  ∃ tm, s.team? x.tid = some tm ∧ ea % 16 = 0 ∧ tm.kernel.latBase ≤ ea ∧ ea < tm.kernel.latBase + 16 * tm.kernel.latches ∧
    l = latchAt tm.scratch ea

/-- R359 to R367, R181, R182: the latch words and CARVE of a strand whose earlier accesses do not hold it back. LINIT sets counts of at
most 1,024 and keeps PHASE; ARRIVE and ARWAIT arrive once, ARRIVE returning PHASE, and release what the strand wrote; ARWAIT, LWAIT and
CARVE wait at the following slot until PHASE changes; LEXP adds expected bytes; LTRY reads PHASE. A completion that is observed is an
acquire: the team's L1 is emptied (R206, R362); that LTRY empties it whatever PHASE it finds is the model's choice (log 50). -/
def Sys2Proof.Machine.LatchWords : Prop :=
  ∀ (c : Ctl) (p : PReg) (d a : GReg) (off : Off) (l1u scu : Byte) (s : State) (b : Bundle) (x : Strand) (l : Latch),
    Alone s b c x → s.arrivalWaits x = false →
    let ea := (x.sea a off).toNat
    let waits (t : State) (at_ : Nat) (tok : Bool) (carve : Option GReg) : Prop :=
      (t.strand? x.sid).map Strand.state = some (.latch at_ tok carve) ∧ (t.strand? x.sid).map Strand.pc = some (b.pc + 8)
    (LatchHere s x ea l →
      ((x.reg d).toNat ≤ 1024 → ∃ t, exec (.linit c d a off) s = .next t ∧
        Agree t (s.scratchPut x.tid ea (latchBytes ⟨0, 0, false, false, l.phase, (x.reg d).toNat, (x.reg d).toNat,
          (x.reg (gAt d 1)).toNat, (x.reg (gAt d 1)).toNat⟩))) ∧
      (∀ l', l.arrive none = some l' → ∃ t, exec (.arrive c d a off) s = .next t ∧
        Agree t (((s.arriving x).putLatch x.tid ea l' none).modStrand x.sid (fun y => y.setG d (if l.phase then 1 else 0)))) ∧
      (∀ l', l.arrive none = some l' → ∃ t, exec (.arwait c a off) s = .next t ∧
        (l'.complete = true → Agree t (((s.arriving x).putLatch x.tid ea l' none).emptyL1 x.tid)) ∧
        (l'.complete = false → Agree t ((s.arriving x).putLatch x.tid ea l' none) ∧ waits t ea l.phase none)) ∧
      (∃ t, exec (.lwait c d a off) s = .next t ∧
        ((x.reg d).getLsbD 0 ≠ l.phase → Agree t (s.emptyL1 x.tid)) ∧
        ((x.reg d).getLsbD 0 = l.phase → Agree t s ∧ waits t ea l.phase none)) ∧
      (l.pendb + (x.reg d).toNat < 2 ^ 32 → ∃ t, exec (.lexp c d a off) s = .next t ∧
        Agree t (s.scratchPut x.tid ea (latchBytes { l with pendb := l.pendb + (x.reg d).toNat }))) ∧
      (∃ t, exec (.ltry c p a off) s = .next t ∧ Agree t ((s.modStrand x.sid (fun y => y.setP p l.phase)).emptyL1 x.tid))) ∧
    (LatchHere s x (x.reg a).toNat l →
      ∀ l', l.arrive (some (scu.toNat, l1u.toNat)) = some l' → ∃ t, exec (.carve c d a l1u scu) s = .next t ∧
        (l'.complete = true → Agree t (((s.arriving x).putLatch x.tid (x.reg a).toNat l' (some (x.sid, d))).emptyL1 x.tid)) ∧
        (l'.complete = false → Agree t ((s.arriving x).putLatch x.tid (x.reg a).toNat l' (some (x.sid, d))) ∧
          waits t (x.reg a).toNat l.phase (some d)))

/-- R360, R361: what an arrival does to a latch. It overruns when PENDA is 0; otherwise PENDA falls by one and nothing but the
record of CARVE requests changes besides; when both pending counts are then 0 the latch goes to its next phase, with both counts at
their expected values. -/
def Sys2Proof.Machine.LatchArrival : Prop :=
  ∀ (l : Latch) (req : Option (Nat × Nat)),
    (l.penda = 0 → l.arrive req = none) ∧
    (l.penda ≠ 0 → ∃ l', l.arrive req = some l' ∧ l'.penda + 1 = l.penda ∧ l'.pendb = l.pendb ∧ l'.phase = l.phase ∧
      l'.expa = l.expa ∧ l'.expb = l.expb) ∧
    (l.complete = true ↔ l.penda = 0 ∧ l.pendb = 0) ∧
    (l.next.phase = !l.phase ∧ l.next.penda = l.expa ∧ l.next.pendb = l.expb ∧ l.next.expa = l.expa ∧ l.next.expb = l.expb)

/-- R359 to R367: the latch, its words and its arrivals. -/
def Obligations.Latches : Prop := LatchImage ∧ LatchWords ∧ LatchArrival

/-- R40, R50, R62, R102, R103, R127 to R130, R182, R359 to R367, R385 to R387: normal execution of words and events whose results
other statements give. The minima, maxima, compares and shape words complete in every bundle and change nothing but their lanes. MWAIT of a
span that can be read waits in MONITOR; its read returns, and each event that ends an armed wait takes the strand out of it. TRAP and BRK
enter the handler, ERET inside a trap leaves it; a latch word and CARVE with a latch of the team's own complete with no trap. -/
def Obligations.WordsComplete : Prop :=
  (∀ (s : State) (bu : Bundle) (r : List Bundle) (c : Ctl) (rnd : Rnd) (m : Mods) (fn : FCmpFn) (k : Comb) (mask : BitVec 10) (p : PReg)
      (d a b : GReg), s.bundles = bu :: r → ∀ h ∈ [Ty.f16, Ty.bf16], ∀ ty ∈ [Ty.f32, Ty.f64],
    ∀ i ∈ [Instr.fmin c m d a b, .fmax c m d a b, .dmin c m d a b, .dmax c m d a b, .hmin2 c h m d a b, .hmax2 c h m d a b,
        .fcmp c m fn k p a b, .dcmp c m fn k p a b, .fclass c ty mask p a, .fscale c ty rnd m d a b, .frnd c ty rnd m d a,
        .ffrac c ty m d a],
      ∃ t, exec i s = .next t ∧ t.outside = s.outside) ∧
  (∀ (s : State) (bu : Bundle) (c : Ctl) (x : Strand) (tm : Team) (code : BitVec 16), Alone s bu c x → s.team? x.tid = some tm →
    (x.trapsTo = true → ∀ i ∈ [Instr.trap c code, .brk c code], ∃ t y, exec i s = .next t ∧ t.strand? x.sid = some y ∧
      y.pc = x.tvec ∧ y.inTrap = true) ∧
    (x.inTrap = true → x.epc.toNat % 8 = 0 → ∃ t y, exec (.eret c) s = .next t ∧ t.strand? x.sid = some y ∧ y.pc = x.epc ∧
      y.inTrap = false)) ∧
  (∀ (s : State) (bu : Bundle) (c : Ctl) (x : Strand) (w : Width) (sc : Scope) (d a : GReg) (off : Off) (acc : Acc), Alone s bu c x →
    s.check (coreUnit bu.core) (x.ea a off) w.bytes accRead (·.read) = .ok acc →
    ∃ t y m, exec (.mwait c w sc d a off) s = .next t ∧ t.strand? x.sid = some y ∧ y.state = .monitor m ∧ m.acc = acc) ∧
  (∀ (s : State) (id : Nat) (f : Flight) (x : Strand) (m : Monitor), s.strand? x.sid = some x → x.state = .monitor m →
    let leaves (i : Instr) : Prop := ∃ t y, exec i s = .next t ∧ t.strand? x.sid = some y ∧ ∀ m', y.state ≠ .monitor m'
    (s.flight? id = some f → f.op = .monitorRead x.sid → s.waits f x.sid m.acc.pa m.width.bytes = false →
      ∃ t y, exec (.monitorReadReturn id) s = .next t ∧ t.strand? x.sid = some y ∧ t.flight? id = none ∧
        ((∃ m', y.state = .monitor m' ∧ m'.armed = true) ∨ ∀ m', y.state ≠ .monitor m')) ∧
    (m.armed = true → m.written = true → leaves (.monitorWriteWake x.sid)) ∧
    (m.armed = true → m.remaining ≤ s.now - m.since → leaves (.monitorTimeout x.sid)) ∧
    (m.armed = true → leaves (.monitorOtherWake x.sid))) ∧
  (∀ (s : State) (bu : Bundle) (c : Ctl) (x : Strand) (p : PReg) (d a : GReg) (off : Off) (l1u scu : Byte) (l l' : Latch),
    Alone s bu c x → s.arrivalWaits x = false →
    let completes (i : Instr) : Prop := ∃ t y, exec i s = .next t ∧ t.strand? x.sid = some y ∧ y.inTrap = x.inTrap ∧ y.state ≠ .ended
    (LatchHere s x (x.sea a off).toNat l →
      ((x.reg d).toNat ≤ 1024 → completes (.linit c d a off)) ∧
      (l.arrive none = some l' → completes (.arrive c d a off) ∧ completes (.arwait c a off)) ∧
      completes (.lwait c d a off) ∧ (l.pendb + (x.reg d).toNat < 2 ^ 32 → completes (.lexp c d a off)) ∧ completes (.ltry c p a off)) ∧
    (LatchHere s x (x.reg a).toNat l →
      l.arrive (some (scu.toNat, l1u.toNat)) = some l' → completes (.carve c d a l1u scu)))

/-! ### Matrix and neural words (files 11, 12) -/

/-- MX raised. -/
def Sys2Proof.Machine.raisesMx (x : Strand) : Strand := x.raise .mx

/-- R142, R233: an MMA word signs its keyring, raises MX, and leaves its strand waiting for MX after its two slots. A signature that
does not complete a COUNT round takes the next slot and does nothing else; a strand that holds a slot of the open round waits at the word. -/
def Sys2Proof.Machine.MatrixWordsSign : Prop :=
  ∀ (c : Ctl) (k : KReg) (o : MmaOp) (s : State) (b : Bundle) (x : Strand) (tm : Team), Alone s b c x → s.team? x.tid = some tm →
    let old := tm.keyrings.get k
    let signs (i : Instr) (o : MmaOp) : Prop := ∃ t, exec i s = .next t ∧
      let left := s.modStrand x.sid (fun y => (y.raise .mx).leaveAt s b.core (b.pc + 16) (b.cls.map (·.after 2)) 4)
      (old.retries x.strandId = true → Agree t s ∧
        t.strand? x.sid = some { x with pc := b.pc, cls := b.cls, state := .ready, since := s.now }) ∧
      (old.retries x.strandId = false →
        Agree t (left.signKeyring x.tid k ⟨0, x.sid, x.strandId, some o, b.pc, b.cls, c.slots⟩) ∧
        (old.mode = .count → old.slots.length + 1 < old.expect →
          Agree t ((s.modStrand x.sid raisesMx).modTeam x.tid (fun tm => tm.setKeyring k
            { old with slots := old.slots ++ [⟨old.slots.length, x.sid, x.strandId, some o, b.pc, b.cls, c.slots⟩] })) ∧
          ∃ m, (t.strand? x.sid).map Strand.state = some (.parked m) ∧ m &&& 4 = 4))
    signs (.mma c k o.slot o.a o.b o.fw o.sa o.sb) { o with form := 0, md := 0 } ∧
    signs (.mmaSp c k o.slot o.a o.b o.fw o.sa o.sb o.md) { o with form := 1 } ∧
    signs (.mmaCx c k o.slot o.a o.b o.fw o.sa o.sb) { o with form := 2, md := 0 }

/-- R251 to R253: TCLR whose checks pass puts one clear or bind of the slot in flight under MX; WMRD reads BOUND, PEND and WM of the slot; TWAIT
waits under MX for rows that are not final yet; OBST puts 16 bytes into an operand buffer its launch claims, under MX. -/
def Sys2Proof.Machine.TileWords : Prop :=
  ∀ (c : Ctl) (bind : Bool) (slot : Slot) (o : ObReg) (d a g : GReg),
    (∀ (s : State) (b : Bundle) (x : Strand) (acc : Acc), Alone s b c x → s.tclrCheck b.core slot x a = .ok acc →
      ∃ t, exec (.tclr c bind slot a g) s = .next t ∧
        Agree t ((s.modStrand x.sid raisesMx).fly x.tid (.tclr [x.sid] acc bind slot.val (x.pair g)))) ∧
    Sets (.wmrd c slot d) c (·.zeroSpan d 1)
      (fun s b x => match s.tile? (courseOf b.core) (s.seqOf x.tid) slot.val with
        | some e => x.setG d (BitVec.ofNat 32 ((if e.bound then 2 ^ 31 else 0) + e.pend * 256 + e.wm))
        | none => x)
      (fun s b => ∀ x ∈ s.taking c b, (s.tile? (courseOf b.core) (s.seqOf x.tid) slot.val).isSome) ∧
    Flies (.twait c slot a) c id
      (fun s b x => match s.tile? (courseOf b.core) (s.seqOf x.tid) slot.val with
        | some e => if min (x.reg a).toNat 64 ≤ e.wm then x else raisesMx x
        | none => x)
      (fun s b x => match s.tile? (courseOf b.core) (s.seqOf x.tid) slot.val with
        | some e => if min (x.reg a).toNat 64 ≤ e.wm then [] else [.twait x.sid slot.val (min (x.reg a).toNat 64)]
        | none => [])
      (fun s b => ∀ x ∈ s.taking c b, (s.tile? (courseOf b.core) (s.seqOf x.tid) slot.val).isSome) ∧
    Flies (.obst c o a g) c id (fun _ _ => raisesMx)
      (fun _ _ x => [.obst x.sid o (x.reg g).toNat (wordsBytes (x.span a 4))])
      (fun s b => ∀ x ∈ s.taking c b, (x.reg g).toNat % 16 = 0 ∧ (x.reg g).toNat < 16384 ∧
        (s.course (courseOf b.core)).obClaim[o.val]? = some (some (s.seqOf x.tid)))

/-- R233 to R251: the MMA forms, TCLR, WMRD, TWAIT and OBST at issue. -/
def Obligations.MatrixAndTileWords : Prop := MatrixWordsSign ∧ TileWords

/-- R255 to R258, R264: NEVAL with a handle valid for its launch sends a row under MX; NHANDLE.BIND binds the lowest free entry to the record and
returns its handle under LD, or 0 when none is free; NHANDLE.REVOKE frees the entry, or returns 1 for a handle that is not valid. -/
def Sys2Proof.Machine.NeuralWords : Prop :=
  ∀ (c : Ctl) (ty : Ty) (f16out : Bool) (outc inc : Fin 16) (d a g : GReg),
    Flies (.neval c ty f16out outc inc d a g) c (·.zeroSpan d (nevalOut f16out outc)) (fun _ _ x => raisesMx (x.expects d (nevalOut f16out outc)))
      (fun s b x => match s.validHandle (s.seqOf x.tid) (x.reg g) with
        | some h => [.nevalReq ⟨x.sid, x.tid, s.seqOf x.tid, ty, f16out, 4 * (outc.val + 1), 4 * (inc.val + 1), d,
            x.span a (nevalIn ty inc), b.pc, b.cls, c.slots⟩ (x.reg g) h.record]
        | none => [])
      (fun s b => ∀ x ∈ s.taking c b, (s.validHandle (s.seqOf x.tid) (x.reg g)).isSome) ∧
    (∀ (s : State) (b : Bundle) (x : Strand), Alone s b c x →
      (canonical (x.pair a) = true → (x.pair a).toNat % 64 = 0 →
        ∃ t, exec (.nhandleBind c d a) s = .next t ∧
          (∀ h, s.freeHandle = some h → Agree t (((s.setHandle { h with bound := true, launch := s.seqOf x.tid, record := x.pair a }).modStrand
            x.sid (awaits d 1)).fly x.tid (.result .load x.sid (spanWords d [BitVec.ofNat 32 (h.gen * 65536 + h.index)]) none))) ∧
          (s.freeHandle = none → Agree t ((s.modStrand x.sid (awaits d 1)).fly x.tid (.result .load x.sid (spanWords d [0]) none)))) ∧
      (∃ t, exec (.nhandleRevoke c d a) s = .next t ∧
        (∀ h, s.validHandle (s.seqOf x.tid) (x.reg a) = some h →
          Agree t (((s.setHandle h.freed).modStrand x.sid (awaits d 1)).fly x.tid (.revoke x.sid d (x.reg a)))) ∧
        (s.validHandle (s.seqOf x.tid) (x.reg a) = none →
          Agree t ((s.modStrand x.sid (awaits d 1)).fly x.tid (.result .load x.sid (spanWords d [1]) none)))))

/-! ### Queues and record words (files 13 to 15) -/

/-- R79, R80, R270: LAUNCH of a checked command record releases at DIE scope, enqueues its 64 bytes when the queue takes device commands and has
room, and returns the status under LD: 2 for a queue that does not take them, 1 for a full one, else the record's count in bits 31:16. That a
queue which is being aborted gives 2 is the model's choice (log 35). -/
def Sys2Proof.Machine.LaunchWord : Prop :=
  ∀ (c : Ctl) (d a : GReg) (off : Off) (s : State) (b : Bundle) (x : Strand) (acc : Acc), Alone s b c x → s.keyBusy x = false →
    s.check (coreUnit b.core) (x.ea a off) 64 accRead (·.read) = .ok acc →
    let u := (s.drainCourse (courseOf b.core)).beforeRelease (courseOf b.core)
    let bytes := (List.range 64).map (fun i => u.sysByte { acc with va := acc.va + BitVec.ofNat 64 i, pa := acc.pa + i })
    let q := u.queue ((x.reg d).toNat % 64)
    let r := u.enqueueRecord ((x.reg d).toNat % 64) bytes
    ∃ t, exec (.launch c d a off) s = .next t ∧
      Agree t ((r.1.modStrand x.sid (awaits d 1)).fly x.tid (.result .load x.sid (spanWords d [r.2]) none)) ∧
      r.2 = (if q.enabled = false ∨ q.devOk = false ∨ q.aborting = true then 2
        else if (q.produced - q.consumed).toNat = 2 ^ q.caLog2 then 1 else q.produced <<< 16 : Word)

/-- R255 to R264, R281: NEVAL, NHANDLE and LAUNCH at issue. -/
def Obligations.NeuralAndLaunchWords : Prop := NeuralWords ∧ LaunchWord

/-- A strand of a record launch `l` with extension `e`, not of a gang, and the record it owns. -/
def Sys2Proof.Machine.InRecordLaunch (s : State) (x : Strand) (l : Launch) (e : Ext) : Prop :=
  s.launch? (s.seqOf x.tid) = some l ∧ l.ext = some e ∧ s.isGang x.tid = false

def Sys2Proof.Machine.OwnsRecord (s : State) (x : Strand) (l : Launch) (i : Nat) (r : Rec) : Prop :=
  x.owned = some i ∧ s.rec? (s.teamCourse x.tid) l.seq i = some r

/-- The machine after a strand's own record has become the ray its registers describe and has been binned. -/
def Sys2Proof.Machine.traced (s : State) (x : Strand) (l : Launch) (e : Ext) (i : Nat) (r : Rec) (d a b : GReg) : State :=
  let u := s.recordRelease x
  let sample := BitVec.ofNat 64 (field r.image 320 64)
  let img := rayImage (x.span a 8) (x.reg b) sample (x.span d 16)
  let v := (u.modRec (u.teamCourse x.tid) l.seq i (fun r => { r with image := img, side := some sideStart, err := 0 })).putSide
    (u.teamCourse x.tid) l.seq i sideStart
  (v.modStrand x.sid (fun y => { y with owned := none, sample := sample })).arriveRec (u.teamCourse x.tid) l.seq i (travKey e img)

/-- Word `i` of strand `x` turns its machine into `u`, grants what that frees, and goes on; its .E form also ends the strand. -/
def Sys2Proof.Machine.GoesOn (i : Instr) (s u : State) : Prop := ∃ t, exec i s = .next t ∧ Agree t u.grants
def Sys2Proof.Machine.Ends (i : Instr) (s u : State) (x : Strand) : Prop :=
  ∃ t, exec i s = .next t ∧ Agree t (u.endStrand x.sid).grants ∧ (t.strand? x.sid).map Strand.state = some .ended

/-- R286, R297: TRACE turns the strand's own record into the ray of its registers, keeping SAMPLE, bins it at the TRAV key, and leaves
the strand without a record; TRACE.E also ends the strand. -/
def Sys2Proof.Machine.TraceWords : Prop :=
  ∀ (c : Ctl) (d a g : GReg) (s : State) (b : Bundle) (x : Strand) (l : Launch) (e : Ext) (i : Nat) (r : Rec),
    Alone s b c x → s.keyBusy x = false → InRecordLaunch s x l e → OwnsRecord s x l i r →
    GoesOn (.trace c d a g) s (traced s x l e i r d a g) ∧ Ends (.traceE c d a g) s (traced s x l e i r d a g) x

/-- R297 to R299, R302, R324: SPAWN, TRACE.VIS and POST take a free slot of their part for a new record and bin it; with no free slot they
stall the strand with the record captured. SPAWN.E and POST.E end the strand when the record has its slot. -/
def Sys2Proof.Machine.NewRecordWords : Prop :=
  ∀ (c : Ctl) (d a g : GReg) (s : State) (b : Bundle) (x : Strand) (l : Launch) (e : Ext), Alone s b c x → s.keyBusy x = false →
    InRecordLaunch s x l e →
    let u := s.recordRelease x
    let here := u.teamCourse x.tid
    let stalls (i : Instr) (u : State) (image : BitVec 1024) (charge : Option Nat) (course : Nat) (vis : Option Acc) (ends : Bool) : Prop :=
      ∃ t, exec i s = .next t ∧ Agree t { u with nextId := u.nextId + 1 } ∧
        (t.strand? x.sid).map Strand.state = some (.recordStall ⟨image, charge, course, vis, ends, u.nextId⟩) ∧
        (t.strand? x.sid).map Strand.pc = some (b.pc + 8 * BitVec.ofNat 64 c.slots)
    let ray := rayImage (x.span a 8) (x.reg g) (u.sampleOf x) (x.span d 16)
    (u.slotFree here l.seq none = true →
      GoesOn (.spawn c d a g) s (u.newRec here l.seq none ray none true) ∧
      Ends (.spawnE c d a g) s (u.newRec here l.seq none ray none true) x) ∧
    (u.slotFree here l.seq none = false →
      stalls (.spawn c d a g) u ray none here none false ∧ stalls (.spawnE c d a g) u ray none here none true) ∧
    (∀ acc, s.check (coreUnit b.core) (x.pair d) 16 accWrite (·.write) = .ok acc →
      let p := u.freePayload
      let part := p.2.partOf x.tid
      let vis := rayImage (x.span a 8) (x.reg g ||| 0x01000000#32) (p.2.sampleOf x) p.1
      (p.2.slotFree (p.2.teamCourse x.tid) l.seq part = true →
        GoesOn (.traceVis c d a g) s (p.2.newRec (p.2.teamCourse x.tid) l.seq part vis (some acc) true)) ∧
      (p.2.slotFree (p.2.teamCourse x.tid) l.seq part = false →
        stalls (.traceVis c d a g) p.2 vis part (p.2.teamCourse x.tid) (some acc) false)) ∧
    (∀ k tm, let n := (x.reg g).toNat % 65536
      let ent := x.reg (gAt g 1)
      let rd := if tm.kind = .node n then x.rdepth + 1 else 0
      let course := l.nthCourse (homeHash (x.pair a))
      let image := contImage (x.pair a) n rd ent (u.sampleOf x) ((wordsBytes (x.span d 16)).take k.payload)
      s.team? x.tid = some tm → e.nodeKernel n = some k → n < e.nodes.length →
      (ent = 0 ∨ (ent.toNat % 8 = 0 ∧ k.entry ≤ ent.toNat ∧ ent.toNat < k.entry + k.codesize)) →
      (∀ m, tm.kind = .node m → m ≠ n → e.level m < e.level n) → rd ≤ k.depth →
      (u.slotFree course l.seq (some n) = true →
        GoesOn (.post c d a g) s (u.newRec course l.seq (some n) image none false) ∧
        Ends (.postE c d a g) s (u.newRec course l.seq (some n) image none false) x) ∧
      (u.slotFree course l.seq (some n) = false →
        stalls (.post c d a g) u image (some n) course none false ∧ stalls (.postE c d a g) u image (some n) course none true))

/-- R297 to R299: TRACE, TRACE.VIS, SPAWN and POST. -/
def Obligations.NewRecordsAndRays : Prop := TraceWords ∧ NewRecordWords

/-- R100, R300: EXIT ends its strand, frees what it owns and grants the freed slots; RETIRE does the same to a strand of a record launch. -/
def Sys2Proof.Machine.StrandEndWords : Prop :=
  ∀ (c : Ctl) (s : State) (b : Bundle) (x : Strand), Alone s b c x →
    Ends (.exit c) s s x ∧ (∀ l e, InRecordLaunch s x l e → Ends (.retire c) s s x)

/-- R301, R311, R325: RLD returns bytes of the owned record under LD, extended by its width; RST writes bytes of it under ST, never
TSTATE; HITATTR writes the eight words of Table 15.8 for the strand's shader kind. -/
def Sys2Proof.Machine.OwnedRecordWords : Prop :=
  ∀ (c : Ctl) (w : Width) (d : GReg) (off : Fin 128),
    let owned (s : State) (x : Strand) : Prop := ∃ l e i r, InRecordLaunch s x l e ∧ OwnsRecord s x l i r
    let recOf (s : State) (x : Strand) : Option Rec := x.owned.bind (fun i => s.rec? (s.teamCourse x.tid)
      ((s.launch? (s.seqOf x.tid)).elim 0 Launch.seq) i)
    Flies (.rld c w d off) c (·.zeroSpan d w.regs) (fun _ _ => awaits d w.regs)
      (fun s _ x => (recOf s x).toList.map (fun r =>
        .result .load x.sid (spanWords d (w.extend (leNat (((imageBytes r.image).drop off.val).take w.bytes)))) none))
      (fun s b => ∀ x ∈ s.taking c b, owned s x) ∧
    (∀ (s : State) (b : Bundle) (x : Strand) (l : Launch) (e : Ext) (i : Nat) (r : Rec), Alone s b c x → InRecordLaunch s x l e →
      OwnsRecord s x l i r → ∃ t, exec (.rst c w d off) s = .next t ∧
        Agree t (((s.modRec (s.teamCourse x.tid) l.seq i (fun r' => { r' with
            image := storeImage (s.partOf x.tid).isSome r.image off.val (x.storeBytes w d) })).modStrand x.sid raisesSt).fly x.tid
          (.scratchStore x.sid))) ∧
    Sets (.hitattr c d) c (·.zeroSpan d 8)
      (fun s _ x => match recOf s x, s.shaderKind x.tid with
        | some r, some k => x.setSpan d (hitAttr k x.side x.report (BitVec.ofNat 32 (field r.image 224 32)))
        | _, _ => x)
      (fun s b => ∀ x ∈ s.taking c b, owned s x ∧ (s.shaderKind x.tid).isSome)

/-- R325 to R327: ACCEPT of an ANYHIT strand, and of an ISECT strand that has reported, commits the candidate; the ray then ends
when the word or the ray's FLAGS say so, and goes back to traversal otherwise; IGNORE sends it back with nothing committed. The strand keeps
no record. REPORT takes a candidate that is not NaN, is closer and is less than the last one taken, and says so in p[d]. -/
def Sys2Proof.Machine.EpisodeWords : Prop :=
  ∀ (c : Ctl) (fin : Bool) (p : PReg) (a g : GReg) (kind : BitVec 7) (s : State) (b : Bundle) (x : Strand) (l : Launch) (e : Ext)
    (i : Nat) (r : Rec) (k : Nat), Alone s b c x → InRecordLaunch s x l e → OwnsRecord s x l i r → s.shaderKind x.tid = some k →
    let after (img : BitVec 1024) (side : BitVec 512) (ends : Bool) : State :=
      let u := s.recordRelease x
      let v := (u.modRec (u.teamCourse x.tid) l.seq i (fun r => { r with image := img, side := some side })).putSide
        (u.teamCourse x.tid) l.seq i side
      let w := v.modStrand x.sid (fun y => { y with owned := none, sample := BitVec.ofNat 64 (field img 320 64) })
      if ends then w.finishRay (u.teamCourse x.tid) l.seq i side
      else w.arriveRec (u.teamCourse x.tid) l.seq i (travKey e img)
    (s.keyBusy x = false → (k = 2 ∨ k = 3) →
      ((k = 2 ∨ x.report.isSome = true) → GoesOn (.accept c fin) s
        (after (commitA r.image x.side).1 (commitA r.image x.side).2 (fin || r.image.getLsbD 257))) ∧
      ((k = 3 ∧ x.report = none) → GoesOn (.accept c fin) s (after r.image x.side fin)) ∧
      GoesOn (.ignore c) s (after r.image x.side false)) ∧
    (k = 3 →
      let tt := x.reg a
      let take := !(f32v tt.toNat).isNan && closer r.image x.side tt.toNat (sideField x.side 416 32) (sideField x.side 352 64) &&
        x.report.elim true (fun u => FVal.cmp (f32v tt.toNat) (f32v u.toNat) == some .lt)
      ∃ t y, exec (.report c p a g kind) s = .next t ∧ t.outside = s.outside ∧ t.strand? x.sid = some y ∧
        (p ≠ 15 → y.pred p = take) ∧
        (take = true → y.report = some tt ∧ sideField y.side 480 32 = tt.toNat ∧ sideField y.side 256 32 = (x.reg g).toNat ∧
          sideField y.side 288 32 = (x.reg (gAt g 1)).toNat ∧ sideField y.side 448 16 = 0x80 + kind.toNat) ∧
        (take = false → y.report = x.report ∧ y.side = x.side) ∧
        y.g = x.g ∧ y.owned = x.owned)

/-- R100, R285 to R303, R325 to R327: EXIT and RETIRE, the owned record, and the words of an episode. -/
def Obligations.RecordOwners : Prop := StrandEndWords ∧ OwnedRecordWords ∧ EpisodeWords

/-! ### Issue, loads and writes in flight -/

/-- R22, R23, R25: ISSUE_SLOT. With a pipe free and an eligible strand it forms bundles on free pipes from the strands of one PC and one
launch: those of the first strand of the PC table that has not yielded, or, when the starvation count has reached 64, those of
the longest-waiting strand, which is counted and clears the count. Below 64 the count returns to zero when the longest-waiting strand is
served and rises by one when it is passed over. The strands served are ISSUING; nothing else changes. -/
def Sys2Proof.Machine.IssueSlotFormsBundles : Prop :=
  ∀ (s : State) (core : Nat) (x0 old : Strand) (tab : List Strand), s.table core = x0 :: tab → longestWaiting (x0 :: tab) = some old →
    s.freePipes core ≠ [] →
    let lead := if 64 ≤ s.starve.getD core 0 then old else ((x0 :: tab).find? (fun x => !x.yielded)).getD x0
    ∃ t b new, exec (.issueSlot core) s = .next t ∧ t.bundles = s.bundles ++ b :: new ∧
      (∀ k ∈ b :: new, k.core = core ∧ k.pipe ∈ s.freePipes core ∧ k.pc = lead.pc ∧ k.seq = s.seqOf lead.tid ∧ k.fetched = false ∧
        k.lanes ≠ [] ∧ ∀ sid ∈ k.lanes, (∃ x ∈ x0 :: tab, x.sid = sid ∧ x.pc = lead.pc ∧ x.cls = k.cls) ∧
          (t.strand? sid).map Strand.state = some .issuing) ∧
      (64 ≤ s.starve.getD core 0 → old.sid ∈ b.lanes ∧ t.outside = { (s.count (courseOf core) 9 1).outside with starve := t.starve } ∧
        (core < s.starve.length → t.starve.getD core 0 = 0)) ∧
      (s.starve.getD core 0 < 64 → t.outside = { s.outside with starve := t.starve } ∧
        (core < s.starve.length → t.starve.getD core 0 =
          if (b :: new).any (fun k => k.lanes.contains old.sid) then 0 else s.starve.getD core 0 + 1)) ∧
      ∀ j, j ≠ core → t.starve.getD j 0 = s.starve.getD j 0

/-- R59, R61, Table 3.10: CLAUSE_FETCH of a bundle that stands at a header. A well-formed header gives the clause its classes,
TERM and length, and its words; a malformed one sends every strand to the trap path with cause 2. Re-entry inside a clause fetches
the slots that are left. At a PC that is no multiple of 8, which only a restored image gives (log 51), the strands take MISALIGNED. -/
def Sys2Proof.Machine.ClauseFetchReads : Prop :=
  ∀ (s : State) (k : Nat) (b : Bundle), s.bundles[k]? = some b → b.fetched = false →
    let all (t : State) (cls : Option Cls) (tr : Trap) : Prop :=
      t = b.lanes.foldl (fun u sid => u.trap sid b.pc cls tr 0) { s with bundles := s.bundles.eraseIdx k }
    (b.pc.toNat % 8 ≠ 0 → ∃ t, exec (.clauseFetch k) s = .next t ∧ all t b.cls ⟨1029, b.pc, 0⟩) ∧
    (∀ h ws, b.pc.toNat % 8 = 0 → b.cls = none → s.fetchWord (coreUnit b.core) b.pc = .ok h →
      s.fetchWords (coreUnit b.core) ((h.extractLsb' 54 4).toNat + 1) (b.pc + 8) = .ok ws →
      (headerOk h = true → ∃ t, exec (.clauseFetch k) s = .next t ∧ t.strands = s.strands ∧
        t.bundles = s.bundles.set k ⟨b.core, b.pipe, b.seq, b.pc + 8,
          some ⟨h.extractLsb' 58 6, h.getLsbD 49, (h.extractLsb' 54 4).toNat + 1, 0⟩, true, ws, b.lanes, b.counted⟩ ∧
        t.outside = (s.count (courseOf b.core) 8 1).outside) ∧
      (headerOk h = false → ∃ t, exec (.clauseFetch k) s = .next t ∧ all t none ⟨2, 0, 0⟩)) ∧
    (∀ cl ws, b.pc.toNat % 8 = 0 → b.cls = some cl → s.fetchWords (coreUnit b.core) cl.left b.pc = .ok ws →
      ∃ t, exec (.clauseFetch k) s = .next t ∧ t.strands = s.strands ∧
        t.bundles = s.bundles.set k { b with fetched := true, words := ws } ∧ t.outside = (s.count (courseOf b.core) 8 1).outside)

/-- R22 to R25, R59, R61: issue slots and clause fetch. -/
def Obligations.IssueAndFetch : Prop := IssueSlotFormsBundles ∧ ClauseFetchReads

/-- What a lane of a load reads at its place, when no accepted access or delta of its course is still to be brought to it: a bound
window's scratchpad, memory for an UNCACHED page, else the caches. A load of DIE scope or wider reads the die cache home, when nobody
holds the block's key; one of SCOPE 0 to COURSE reads the course's copy where it has one (R161, R166, R170, R173, R216). -/
def Sys2Proof.Machine.ScopeDecidesTheTier : Prop :=
  ∀ (s : State) (c tid sid : Nat) (sc : Scope) (a : Acc) (n : Nat) (fill : Bool),
    let w := wordSpan a.pa n
    let got := (s.readScope c tid sid sc a n fill).2
    let idle : Prop := (∀ f ∈ s.accepted c, f.op.covers w.1 w.2 = false) ∧
      ∀ e ∈ (s.course c).deltas, overlaps w.1 w.2 e.1 (deltaBytes e) = false
    ((∀ f ∈ s.accepted c, f.op.strands.contains sid = true → f.op.covers a.pa n = false) →
      (∀ t o, s.place a = .scratch t o → got = (List.range n).map (fun i => s.scratchGet t (o + i))) ∧
      (s.place a = .memory → got = (List.range n).map (fun i => memGet s.mem (a.pa + i)))) ∧
    (s.place a = .cached → idle →
      (sc.atHome = true → sortedCells s.dieCache = true → sortedCells s.dieClean = true → (∀ i < n, s.keyAt (a.pa + i) = none) → got = (List.range n).map (fun i => s.home (a.pa + i))) ∧
      (sc.atHome = false → got = (List.range n).map (fun i =>
        match cellGet (s.course c).dirty (a.pa + i), cellGet (s.course c).clean (a.pa + i) with
        | some v, _ => v
        | none, some v => v
        | none, none => s.home (a.pa + i))))

/-- R51, R172, R176, R45: LOAD_SECTOR_RETURN of the only lane of a load, when the turn brings all its words. Its bytes, zero- or
sign-extended to its width, go to the destination and LD is lowered; a load of SCOPE 1 to SYS is noted as its strand's latest strong
read (R190). QSTAT and CPSTAT return their status words the same way. -/
def Sys2Proof.Machine.LoadsReturn : Prop :=
  ∀ (s : State) (id : Nat) (f : Flight), s.flight? id = some f → Fenceless s →
    (∀ (l : LaneLoad) (sc : Scope), f.op = .load [l.sid] [l] sc .plain false [] .ld → l.came = none →
      s.waits f l.sid l.acc.pa l.width.bytes = false →
      let r := s.readScope (courseOf f.core) f.tid l.sid sc l.acc l.width.bytes true
      let ws := spanWords l.d (l.width.extend (leNat r.2))
      (∀ e ∈ ws, r.1.destWaits f l.sid e.1 1 = false) → (∀ k < ws.length, s.words.getLsbD k = true) →
      (∀ x, r.1.strand? l.sid = some x → x.races ws = false) →
      ∃ t, exec (.loadSectorReturn id (l.acc.pa / 32) false) s = .next t ∧ t.outside = (r.1.dropFlight id).outside ∧
        ∀ j, t.contents j = (r.1.contents j).map (fun y =>
          if j = l.sid then
            let z := if sc = .plain then y else y.noteStrong id (s.writerOf (courseOf f.core) l.acc.pa l.width.bytes)
            (brings z ws).setCtr .ld (y.ld - 1)
          else y)) ∧
    (∀ sector l1 sid d, s.destWaits f sid d 1 = false → (∀ x, s.strand? sid = some x → x.wrote.getLsbD d.1 = false) →
      let gives (v : Word) : Prop := ∃ t, exec (.loadSectorReturn id sector l1) s = .next t ∧
        t.outside = (s.dropFlight id).outside ∧
        ∀ j, t.contents j = (s.contents j).map (fun y => if j = sid then (brings y [(d, v)]).setCtr .ld (y.ld - 1) else y)
      (∀ fn v, f.op = .qstat sid d fn v → gives (s.qstatWord fn v)) ∧
      (∀ base, f.op = .cpstat sid d base → gives (s.cpstatWord f.tid base)))

/-- R161 to R176: which copy a load reads, and its return. -/
def Obligations.LoadsReadTheirTier : Prop := ScopeDecidesTheTier ∧ LoadsReturn

/-- Physical bytes that belong to no read-only field and to no queue descriptor. -/
def Sys2Proof.Machine.PlainBytes (s : State) (pa : Nat) : Prop :=
  s.roByte pa = false ∧ ¬(s.areas.qt ≤ pa ∧ pa < s.areas.qt + 4096)

/-- The byte that some written bytes leave at an address: the last of them there, else what stood there. -/
def Sys2Proof.Machine.leaves (data : List (Nat × Byte)) (p : Nat) (old : Byte) : Byte :=
  ((data.filter (fun e => e.1 == p)).getLast?.map (·.2)).getD old

/-- No fence waits, no operation but `id` has been accepted, and no stream is configured, whose descriptor would have read-only
fields. -/
def Sys2Proof.Machine.Lonely (s : State) (id : Nat) : Prop :=
  Fenceless s ∧ (∀ g ∈ s.flights, g.id ≠ id → g.acc = none) ∧ ∀ k ∈ s.streams, k.on = false

/-- No course holds a dirty byte, a delta or a running round: a release finds nothing to do in its course. -/
def Sys2Proof.Machine.Drained (s : State) : Prop := ∀ x ∈ s.courses, x.dirty = [] ∧ x.deltas = [] ∧ x.running = none

/-- R51, R177, R216: STORE_ACCEPT. An STS or RST is done; a store to cached bytes lowers ST in its strands and is visible in its
course, as the course's own copy, or, under the team's own key, as dirty bytes, which end it; a store that is not final is
accepted with the next number. The home keeps its bytes. -/
def Obligations.StoreAcceptance : Prop :=
  ∀ (s : State) (id : Nat) (f : Flight), s.flight? id = some f → s.acceptable f = true →
    (∀ sid, f.op = .scratchStore sid → ∃ t, exec (.storeAccept id) s = .next t ∧
      t = ((s.modStrand sid (Strand.lower s.now .st)).dropFlight id).settleFences) ∧
    (∀ sids a data sc o grp, f.op = .store sids a data sc o grp → s.place a = .cached → ¬(o = .rel ∧ sc.atHome = true) →
      (s.course (courseOf f.core)).deltas = [] → courseOf f.core < s.courses.length → (∀ e ∈ data, PlainBytes s e.1) →
      (∀ g ∈ s.accepted (courseOf f.core), g.op.hidden = false ∧ s.uncached g = false) → Fenceless s →
      let own := a.page.keyed && s.ownKey f.tid a.pa
      ∃ t, exec (.storeAccept id) s = .next t ∧
        (∀ sid, t.contents sid = (s.contents sid).map (fun x => if sids.contains sid then { x with st := x.st - 1 } else x)) ∧
        (own = false → (s.course (courseOf f.core)).dirty = [] →
          (t.flight? id).map Flight.acc = some (some s.nextId) ∧ t.dieCache = s.dieCache ∧ t.mem = s.mem ∧
          (∀ p, cellGet (t.course (courseOf f.core)).clean p =
            if data.any (fun e => e.1 == p) then some (leaves data p 0) else cellGet (s.course (courseOf f.core)).clean p)) ∧
        (own = true → (∀ g ∈ s.flights, g.acc = none) → t.flight? id = none ∧ t.dieCache = s.dieCache ∧ t.mem = s.mem ∧
          (∀ p, cellGet (t.course (courseOf f.core)).dirty p =
            if data.any (fun e => e.1 == p) then some (leaves data p 0) else cellGet (s.course (courseOf f.core)).dirty p)))

/-- The canonical form of GDDR and of the die cache, what is newer than GDDR in it and what is not: addresses strictly rising, nothing in GDDR listed that reads as an
unlisted address does. -/
def Sys2Proof.Machine.CanonicalMemory (s : State) : Prop := Memory.wf s.mem = true ∧ sortedCells s.dieCache = true ∧ sortedCells s.dieClean = true

/-- Memory around an access of a scope. The peer's memory, which PAIR and SYS scope reach at its owner, takes what the home reads
there afterwards, of the bytes that `w` names at least; every other byte of memory stays (R184). -/
def Sys2Proof.Machine.MemoryAround (s t : State) (sc : Scope) (w : Nat → Prop) : Prop :=
  ∀ p, if (sc = .pair ∨ sc = .sys) ∧ s.foreign p = true
    then (memGet t.mem p = t.home p ∨ memGet t.mem p = memGet s.mem p) ∧ (w p → memGet t.mem p = t.home p)
    else memGet t.mem p = memGet s.mem p

/-- R198, R201, R211: STORE_HOME_PERFORM, RED_HOME_APPLY and ATOM_HOME_PERFORM of an accepted operation on cached bytes whose block
nobody holds, with nothing else accepted. The home takes the bytes of a store, the reduced value of a RED, the new value of an ATOM of
DIE scope or wider, and every other byte of the home stays; memory stays but for the peer's, as its scope says. An ATOM of TEAM or COURSE scope acts on its course's copy,
which takes the new value, and the write goes on to the home as an accepted store (R184). The operation leaves; an ATOM writes the old
value, is noted as the strand's latest strong read and lowers LD. -/
def Sys2Proof.Machine.WritesReachTheirHome : Prop :=
  ∀ (s : State) (id : Nat) (f : Flight), s.flight? id = some f → s.performable f = true → Lonely s id → Drained s →
    CanonicalMemory s → id < s.nextId → courseOf f.core < s.courses.length →
    (∀ sids a data sc o grp, f.op = .store sids a data sc o grp → sids ≠ [] → s.place a = .cached → s.keyAt a.pa = none →
      (∀ e ∈ data, PlainBytes s e.1) → ∃ t, exec (.storeHomePerform id) s = .next t ∧ t.flight? id = none ∧
        MemoryAround s t sc (fun p => data.any (fun e => e.1 == p) = true) ∧
        (∀ sid, t.contents sid = s.contents sid) ∧ (∀ p, t.home p = leaves data p (s.home p))) ∧
    (∀ sid a ty op v sc o g, f.op = .red sid a ty op v sc o g → s.place a = .cached → s.keyAt a.pa = none →
      (∀ i < redBytes ty, PlainBytes s (a.pa + i)) → ∃ t, exec (.redHomeApply id) s = .next t ∧ t.flight? id = none ∧
        MemoryAround s t sc (fun p => a.pa ≤ p ∧ p < a.pa + redBytes ty) ∧ (∀ j, t.contents j = s.contents j) ∧
        t.homeN a.pa (redBytes ty) = applyRed ty op (s.homeN a.pa (redBytes ty)) v.toNat % 256 ^ redBytes ty ∧
        ∀ p, (p < a.pa ∨ a.pa + redBytes ty ≤ p) → t.home p = s.home p) ∧
    (∀ sid a w op sgn v new sc o ar d g, f.op = .atom sid a w op sgn v new sc o ar d g → s.place a = .cached →
      s.keyAt a.pa = none → (∀ i < w.regs, s.destWaits f sid (gAt d i) 1 = false) → (∀ k < w.regs, s.words.getLsbD k = true) →
      o ≠ .acqRemote → (∀ i < w.bytes, PlainBytes s (a.pa + i)) →
      let c := courseOf f.core
      let old := if sc.atHome then s.homeN a.pa w.bytes else leNat (readN (s.courseByte c) a.pa w.bytes)
      let now := atomNew w op sgn old v.toNat new.toNat
      let ws := spanWords d (plainWords w old)
      (∀ x, s.strand? sid = some x → x.races ws = false) →
      ∃ t, exec (.atomHomePerform id) s = .next t ∧ t.flight? id = none ∧
        MemoryAround s t sc (fun p => a.pa ≤ p ∧ p < a.pa + w.bytes) ∧
        (∀ j, t.contents j = (s.contents j).map (fun x =>
          if j = sid then (brings (x.noteStrong id (s.writerOf c a.pa w.bytes)) ws).setCtr .ld (x.ld - 1) else x)) ∧
        (sc.atHome = true → t.homeN a.pa w.bytes = now % 256 ^ w.bytes) ∧
        (∀ p, (sc.atHome = false ∨ p < a.pa ∨ a.pa + w.bytes ≤ p) → t.home p = s.home p) ∧
        (sc.atHome = false → leNat (readN (t.courseByte c) a.pa w.bytes) = now % 256 ^ w.bytes ∧
          ∃ h ∈ t.flights, h.acc = f.acc ∧ h.op = .store [] a (bytesAt a.pa (leBytes w.bytes now)) .plain .plain none))

/-- Table 9.2: what an ATOM stores, from the old value, its operand and, for CAS, the new one; every operation but FADD. -/
def Sys2Proof.Machine.AtomicOperations : Prop :=
  ∀ (w : Width) (sgn : Bool) (old v new : Nat), old < 256 ^ w.bytes → v < 256 ^ w.bytes →
    let at' (op : AtomOp) : Nat := atomNew w op sgn old v new
    let int (n : Nat) : Int := if sgn then (BitVec.ofNat (8 * w.bytes) n).toInt else n
    at' .exch = v ∧ at' .cas = (if old = v then new else old) ∧ at' .add = (old + v) % 256 ^ w.bytes ∧ at' .and = old &&& v ∧
    at' .or = old ||| v ∧ at' .xor = old ^^^ v ∧ int (at' .min) = min (int old) (int v) ∧ int (at' .max) = max (int old) (int v) ∧
    at' .inc = (if v ≤ old then 0 else old + 1) ∧ at' .dec = (if old = 0 ∨ v < old then v else old - 1)

/-- R186 to R199: writes and atomics at the home of their bytes. -/
def Obligations.AtomicsAndWritesAtHome : Prop := WritesReachTheirHome ∧ AtomicOperations

/-- R216: KEY_RECALL of a store to a block whose key another team holds. The block becomes FREE, the holder's dirty bytes of it go home and
none is left, the bytes stored stand at the home, and no other byte of the home has changed. R201: DELTA_MERGE of a word under the one delta
element of its course leaves the course without it and the home with the reduced value, the block's key is recalled unless a team of the
course holds it, and a word of a tile that is pinned is left alone (R227). -/
def Sys2Proof.Machine.RecallAndMerge : Prop :=
  (∀ (s : State) (id : Nat) (f : Flight) (k : KeyEntry) sids a data sc o grp, s.flight? id = some f → s.performable f = true →
    Lonely s id → CanonicalMemory s → f.op = .store sids a data sc o grp → sids ≠ [] → ¬(o = .rel ∧ sc.atHome = true) →
    s.place a = .cached → s.keyAt a.pa = some k → k.passing = none → k.holder ≠ f.tid → (∀ e ∈ data, PlainBytes s e.1) →
    let h := s.teamCourse k.holder
    (∀ c x, s.courses[c]? = some x → c ≠ h → x.dirty = []) → sortedCells (s.course h).dirty = true →
    (∀ e ∈ (s.course h).dirty, k.pa ≤ e.1 ∧ e.1 < k.pa + 4096) →
    ∃ t, exec (.keyRecall id) s = .next t ∧ t.flight? id = none ∧ t.keys = s.keys.filter (fun e => e.block != k.block) ∧
      MemoryAround s t sc (fun p => data.any (fun e => e.1 == p) = true) ∧ (∀ sid, t.contents sid = s.contents sid) ∧
      (∀ c, (t.course c).dirty = []) ∧ ∀ p, t.home p = leaves data p ((cellGet (s.course h).dirty p).getD (s.home p))) ∧
  (∀ (s : State) (c word : Nat), s.keepsDelta c word = true → exec (.deltaMerge c word) s = .next s) ∧
  (∀ (s : State) (c word pa : Nat) (ty : RType) (op : ROp) (v : DWord) (seqs : List Nat),
    (s.course c).deltas = [(pa, ty, op, v, seqs)] → (∀ x ∈ s.courses, x.dirty = []) → (∀ g ∈ s.flights, g.acc = none) →
    (∀ k ∈ s.streams, k.on = false) → s.keepsDelta c word = false →
    overlaps (word / 4 * 4) 4 pa (redBytes ty) = true → (∀ i < redBytes ty, PlainBytes s (pa + i)) →
    (∀ k, s.keyAt pa = some k → k.passing = none) →
    ∃ t, exec (.deltaMerge c word) s = .next t ∧ (t.course c).deltas = [] ∧ t.mem = s.mem ∧
      (s.keyAt pa = none → t.keys = s.keys) ∧
      (∀ k, s.keyAt pa = some k → t.keys =
        if (s.team? k.holder).isSome ∧ s.teamCourse k.holder = c then s.keys else s.keys.filter (fun e => e.block != k.block)) ∧
      (∀ sid, t.contents sid = s.contents sid) ∧
      t.homeN pa (redBytes ty) = applyRed ty op (s.homeN pa (redBytes ty)) v.toNat % 256 ^ redBytes ty ∧
      ∀ p, (p < pa ∨ pa + redBytes ty ≤ p) → t.home p = s.home p)

/-- R163, R166, R212: DIE_CACHE_EVICTION of a line that no course has pinned, when no course holds dirty bytes or deltas, no window is
bound and the clean copies of the line agree with memory, leaves every byte at its value, now in memory, and no copy of the line in any
cache; a monitor armed through an UNCACHED page sees the write of a line that was newer. A pinned line is not evicted. -/
def Sys2Proof.Machine.EvictionKeepsEveryByte : Prop :=
  ∀ (s : State) (line : Nat),
    (s.pinned line = true → exec (.dieCacheEviction line) s = .next s) ∧
    (s.pinned line = false → s.bindings = [] →
      (∀ x ∈ s.courses, x.dirty = [] ∧ x.deltas = [] ∧ sortedCells x.clean = true) →
      sortedCells s.dieCache = true → sortedCells s.dieClean = true → Memory.wf s.mem = true →
      (∀ i < 128, ∀ v, cellGet s.dieClean (128 * line + i) = some v → v = memGet s.mem (128 * line + i)) →
      ∃ t, exec (.dieCacheEviction line) s = .next t ∧ (∀ p, t.home p = s.home p) ∧ t.flights = s.flights ∧
        t.strands = (if (List.range 128).any (fun i => (cellGet s.dieCache (128 * line + i)).isSome)
          then s.touchMem (128 * line) 128 else s).strands ∧
        ∀ i < 128, memGet t.mem (128 * line + i) = s.home (128 * line + i) ∧ cellGet t.dieCache (128 * line + i) = none ∧
          cellGet t.dieClean (128 * line + i) = none ∧ ∀ c, cellGet (t.course c).clean (128 * line + i) = none)

/-- R165, R213, R220: recalls, merges and evictions keep every byte. -/
def Obligations.RecallAndEviction : Prop := RecallAndMerge ∧ EvictionKeepsEveryByte

/-! ### Keys, cache control, prefetches, windows and the gang barrier -/

/-- R215, R219 to R221: the life of a key. KEYGET of a FREE block takes it, with HOLDER 0xFFFF and STATUS 0, unless 4,096 keys of the die
that owns its memory are held (STATUS 2); of a block another team holds it is refused with STATUS 1 and the holder. KEYPASS_COMPLETE brings
the block's dirty bytes home, gives the key to its target, or to nobody when that team has ended (R217), and the passer STATUS 0.
KEYDROP_COMPLETE of the team's own key brings the course's dirty bytes home and leaves the block FREE; of any other block it changes no key
and lowers ST. -/
def Obligations.KeyLifeCycle : Prop :=
  ∀ (s : State) (id : Nat) (f : Flight) (sid : Nat) (acc : Acc) (d : GReg) (g : Nat), s.flight? id = some f → Fenceless s →
    (∀ x, s.strand? sid = some x → x.wrote.getLsbD d.1 = false) →
    (∀ sector l1, f.op = .keyget sid acc d g → s.destWaits f sid d 1 = false → s.keyBefore f acc.va = false →
      s.unaccepted f sid = false →
      let gives (v : Word) (ks : List KeyEntry) : Prop := ∃ t, exec (.loadSectorReturn id sector l1) s = .next t ∧ t.keys = ks ∧
        t.flight? id = none ∧ ∀ j, t.contents j = (s.contents j).map (fun x =>
          if j = sid then (brings x [(d, v)]).setCtr .ld (x.ld - 1) else x)
      (s.key? acc.va = none → s.keysOf acc.pa < 4096 →
        gives 0xFFFF0000 (s.keys ++ [⟨acc.va.toNat / 4096, acc.pa / 4096 * 4096, f.tid, none⟩])) ∧
      (s.key? acc.va = none → 4096 ≤ s.keysOf acc.pa → gives 0xFFFF0002 s.keys) ∧
      (∀ k, s.key? acc.va = some k → k.passing = none → k.holder = f.tid → gives 0xFFFF0000 s.keys) ∧
      (∀ k, s.key? acc.va = some k → k.passing = none → k.holder ≠ f.tid → gives (keyStatus (s.holderName f.tid k.holder) 1) s.keys)) ∧
    (∀ tgt k to', f.op = .keypass sid acc d tgt → f.acc.isSome = true → s.key? acc.va = some k → k.passing = some to' →
      s.destWaits f sid d 1 = false → CanonicalMemory s → (∀ g ∈ s.flights, g.id ≠ id → g.acc = none) →
      (∀ c x, s.courses[c]? = some x → c ≠ s.teamCourse k.holder → x.dirty = []) →
      let dirty := (s.course (s.teamCourse k.holder)).dirty
      sortedCells dirty = true →
      s.flights.find? (fun g => match g.op with
        | .keypass _ a _ _ => g.acc.isSome && a.va.toNat / 4096 == k.block
        | _ => false) = some f →
      ∃ t, exec (.keypassComplete id) s = .next t ∧
        t.key? acc.va = (if s.lives to' then some { k with holder := to', passing := none } else none) ∧
        (∀ p, k.pa ≤ p → p < k.pa + 4096 → t.home p = (cellGet dirty p).getD (s.home p) ∧
          ∀ c, cellGet (t.course c).dirty p = none) ∧
        (∀ p, (p < k.pa ∨ k.pa + 4096 ≤ p) → t.home p = s.home p) ∧
        t.flight? id = none ∧ ∀ j, t.contents j = (s.contents j).map (fun x =>
          if j = sid then (brings x [(d, 0xFFFF0000)]).setCtr .ld (x.ld - 1) else x)) ∧
    (f.op = .keydrop sid acc g → s.keyBefore f acc.va = false → s.unaccepted f sid = false → s.signed (courseOf f.core) sid = false →
      (s.earlier f sid).any (fun g => g.op.acquires) = false →
      (s.key? acc.va = none ∨ ∃ k, s.key? acc.va = some k ∧ k.holder ≠ f.tid) →
      ∃ t, exec (.keydropComplete id) s = .next t ∧ t.keys = s.keys ∧ t = ((s.modStrand sid (Strand.lower s.now .st)).dropFlight id)) ∧
    (∀ k, f.op = .keydrop sid acc g → s.keyBefore f acc.va = false → s.unaccepted f sid = false →
      s.signed (courseOf f.core) sid = false → (s.earlier f sid).any (fun g => g.op.acquires) = false →
      s.key? acc.va = some k → k.holder = f.tid → k.passing = none →
      ∃ t, exec (.keydropComplete id) s = .next t ∧ t.key? acc.va = none ∧ t.flight? id = none ∧
        (CanonicalMemory s → (∀ g ∈ s.flights, g.acc = none) → (s.course (courseOf f.core)).running = none →
          (s.course (courseOf f.core)).deltas = [] → sortedCells (s.course (courseOf f.core)).dirty = true →
          (∀ c x, s.courses[c]? = some x → c ≠ courseOf f.core → x.dirty = []) →
          (∀ c, (t.course c).dirty = []) ∧ ∀ p, t.home p = (cellGet (s.course (courseOf f.core)).dirty p).getD (s.home p)))

/-- R223, R224, Table 10.4: CACHE_OP_PERFORM on the words of a line that the mask names, with nothing accepted, in a course that holds no
delta, when no other course holds a dirty byte. CWB puts their bytes at the home, and at SYS scope in memory; CINV of COURSE scope brings dirty bytes home and drops the course's copies; CDISC drops the team's own dirty
bytes, so that the home's are read. Each lowers ST and ends; no byte at the home outside the words changes. -/
def Obligations.CacheOperations : Prop :=
  ∀ (s : State) (id : Nat) (f : Flight) (sid : Nat) (acc : Acc) (what : Fin 3) (sc : Scope) (mask : Word) (grp : Nat),
    s.flight? id = some f → Fenceless s → f.op = .cacheOp sid acc what sc mask grp → s.cacheBefore f acc.pa = false →
    s.waits f sid (acc.pa / 128 * 128) 128 = false → acc.page.home < 2 → (∀ g ∈ s.flights, g.acc = none) →
    (∀ k x, s.courses[k]? = some x → k ≠ courseOf f.core → x.dirty = []) →
    (s.course (courseOf f.core)).deltas = [] → courseOf f.core < s.courses.length →
    sortedCells (s.course (courseOf f.core)).dirty = true → sortedCells (s.course (courseOf f.core)).clean = true →
    sortedCells s.dieCache = true → Memory.wf s.mem = true → s.faults = [] →
    let c := courseOf f.core
    let inMask (p : Nat) : Prop := p / 128 = acc.pa / 128 ∧ mask.getLsbD (p % 128 / 4) = true
    ∃ t, exec (.cacheOpPerform id) s = .next t ∧ t.flight? id = none ∧ t.keys = s.keys ∧
      (∀ j, t.contents j = (s.contents j).map (fun x => if j = sid then { x with st := x.st - 1 } else x)) ∧
      (∀ p, ¬inMask p → t.home p = s.home p ∧ memGet t.mem p = memGet s.mem p ∧ cellGet (t.course c).dirty p = cellGet (s.course c).dirty p) ∧
      (∀ p, inMask p →
        (what = 0 → t.home p = (cellGet (s.course c).dirty p).getD (s.home p) ∧ cellGet (t.course c).dirty p = none ∧
          memGet t.mem p = if sc = .sys then (cellGet (s.course c).dirty p).getD (s.home p) else memGet s.mem p) ∧
        (what = 1 → memGet t.mem p = memGet s.mem p ∧
          (sc = .course → t.home p = (cellGet (s.course c).dirty p).getD (s.home p) ∧ cellGet (t.course c).dirty p = none ∧
            cellGet (t.course c).clean p = none) ∧
          (sc ≠ .course → t.home p = s.home p ∧ (t.course c) = s.course c)) ∧
        (what = 2 → memGet t.mem p = memGet s.mem p ∧ cellGet (t.course c).dirty p = none ∧ cellGet (t.course c).clean p = none ∧
          t.home p = if s.ownKey f.tid (p / 4 * 4) then s.home p else (cellGet (s.course c).dirty p).getD (s.home p)))

/-- R180: PREF_FILL ends a prefetch and changes no register and no byte of any home; a prefetch of TEAM or COURSE scope leaves the line's
bytes in the course cache, one of TEAM scope in the team's L1 too. R170: WINDOW_WRITEBACK of a bound window with one backing page leaves its bytes there. Which pages those are is found
by walking the page table, the model's choice (log 14). -/
def Sys2Proof.Machine.PrefetchAndWindowEvents : Prop :=
  (∀ (s : State) (id : Nat) (f : Flight) (sc : Scope) (acc : Acc), s.flight? id = some f → f.op = .pref sc acc →
    s.accepted (courseOf f.core) = [] → (s.course (courseOf f.core)).deltas = [] →
    ∃ t, exec (.prefFill id) s = .next t ∧ t.flight? id = none ∧ t.strands = s.strands ∧ (∀ p, t.home p = s.home p) ∧ t.mem = s.mem ∧
      (∀ c tid sc' a, t.byteAt c tid sc' a = s.byteAt c tid sc' a) ∧
      (sc = .team → s.place acc = .cached → s.keyAt acc.pa = none → ∀ tm, t.team? f.tid = some tm → ∀ i < 128,
        cellGet tm.l1 (acc.pa / 128 * 128 + i) = some (s.courseByte (courseOf f.core) (acc.pa / 128 * 128 + i))) ∧
      (sc = .team ∨ sc = .course → s.place acc = .cached → s.keyAt acc.pa = none → courseOf f.core < s.courses.length → ∀ i < 128,
        (cellGet (t.course (courseOf f.core)).dirty (acc.pa / 128 * 128 + i)).isSome = true ∨
          (cellGet (t.course (courseOf f.core)).clean (acc.pa / 128 * 128 + i)).isSome = true)) ∧
  (∀ (s : State) (entry : Nat) (b : Binding), s.bindings.find? (fun b => b.entry == entry && (s.team? b.tid).isSome) = some b →
    ∃ t, exec (.windowWriteback entry) s = .next t ∧ t.strands = s.strands ∧ t.mem = s.mem ∧ t.bindings = s.bindings ∧
      ∀ pa, s.backingPages entry = [pa] → pa % 4 = 0 →
        (∀ i < 4096 * b.len, t.home (pa + i) = s.scratchGet b.tid (4096 * b.soff + i)) ∧
        (∀ p, (p < pa ∨ pa + 4096 * b.len ≤ p) → t.home p = s.home p))

/-- R203 to R205: SYNCG_COMPLETE when every live strand of the gang stands at its barrier and what they issued before is done. Each goes on
at the following clause, its registers and counters kept; until then the barrier holds every one of them. That open MMA rounds hold it is the model's
choice (log 17). -/
def Sys2Proof.Machine.GangBarrierReleases : Prop :=
  ∀ (s : State) (seq gang : Nat),
    (s.barrierReady seq gang = true → ∃ t, exec (.syncgComplete seq gang) s = .next t ∧
      ∀ x ∈ s.gangStrands seq gang, x.atBarrier = true → s.strand? x.sid = some x → s.flights = [] →
        ∃ y, t.strand? x.sid = some y ∧ y.content = x.content ∧ y.pc = x.pc ∧ (y.state = .ready ∨ ∃ m, y.state = .parked m)) ∧
    (s.barrierReady seq gang = true → (∀ t ∈ s.teams, t.extra = 0) → ∀ x ∈ s.gangStrands seq gang, x.atBarrier = true) ∧
    (s.barrierReady seq gang = false → exec (.syncgComplete seq gang) s = .next s)

/-- R180, R204, R354: prefetch, window and barrier events. -/
def Obligations.PrefetchAndBarrierEvents : Prop := PrefetchAndWindowEvents ∧ GangBarrierReleases

/-! ### The matrix engine and neural evaluation in time -/

/-- The round in a course's engine, by its claim. -/
def Sys2Proof.Machine.tileOf (s : State) (c : Nat) (r : Round) : Option Tile := s.tile? c r.seq r.tslot

/-- R230, R232, R236, R238, R239: a round's way through the engine. With fewer than four rounds queued and no earlier TCLR of its slot
ahead, the oldest waiting round joins the queue. The round at its head takes a free engine, which sets its slot's WM to 0. When its
operands are read, of B in an MMA.CX its 32 rows, the MX of its signers falls, unless both came from registers, whose MX fell before. Each cycle applies the
next rows, 1 for F32 operands and 2 otherwise, with WM the number applied; the last lowers PEND and frees the engine. That
an all-register round lowers MX when it joins the queue, and that the limit of four counts rounds only, are the model's choices (log 38). -/
def Sys2Proof.Machine.RoundsRunInOrder : Prop :=
  ∀ (s : State) (c : Nat) (x : Course), s.courses[c]? = some x →
    (∀ r rs, x.waiting = r :: rs → x.queued < 4 → s.tclrAhead c r = false →
      ∃ t, exec (.mmaRoundEnqueue c) s = .next t ∧ t.mem = s.mem ∧ t.dieCache = s.dieCache ∧
        (t.course c).waiting = rs ∧ (t.course c).queue = x.queue ++ [.round r] ∧ (t.course c).running = x.running ∧
        tileOf t c r = (tileOf s c r).map (fun e => { e with pend := e.pend + 1 }) ∧
        ∀ j, t.contents j = (s.contents j).map (fun y =>
          if r.a.fromRegs && r.b.fromRegs && (r.signers.map (·.2)).contains j then { y with mx := y.mx - 1 } else y)) ∧
    (∀ r q, x.running = none → x.queue = .round r :: q → ∃ t, exec (.mmaRoundStart c) s = .next t ∧ t.strands = s.strands ∧
      t.mem = s.mem ∧ t.dieCache = s.dieCache ∧ (t.course c).queue = q ∧ (t.course c).running = some ⟨r, 0, none⟩ ∧
      tileOf t c r = (tileOf s c r).map (fun e => { e with wm := 0 })) ∧
    (∀ g, x.running = some g → g.ops = none → s.operandsReady g.r = true →
      ∃ t u, exec (.mmaOperandReadDone c) s = .next t ∧ (t.course c).queue = x.queue ∧
        (t.course c).running = some ⟨g.r, g.rows, some ((s.readOperand c g.r.tid 16 64 g.r.a).2, u)⟩ ∧
        u = ((s.readOperand c g.r.tid 16 64 g.r.a).1.readOperand c g.r.tid (if g.r.op.form = 1 then 32 else 16)
          (if g.r.op.form = 2 then 32 else 64) g.r.b).2) ∧
    (∀ g ra rb, x.running = some g → g.ops = none → s.operandsReady g.r = true → g.r.a = .rows ra → g.r.b = .rows rb →
      ∃ t, exec (.mmaOperandReadDone c) s = .next t ∧ t.strands = s.strands ∧ t.mem = s.mem ∧ t.dieCache = s.dieCache) ∧
    (∀ g m n, x.running = some g → g.ops = none → s.operandsReady g.r = true → g.r.a = .ob m → g.r.b = .ob n →
      ∃ t, exec (.mmaOperandReadDone c) s = .next t ∧ t.mem = s.mem ∧ t.dieCache = s.dieCache ∧
        ∀ j, t.contents j = (s.contents j).map (fun y =>
          if (g.r.signers.map (·.2)).contains j then { y with mx := y.mx - 1 } else y)) ∧
    (∀ g ops f e, x.running = some g → g.ops = some ops → FmtWord.read g.r.op.form g.r.fw = some f → tileOf s c g.r = some e →
      g.rows < 64 → (∀ h ∈ s.accepted c, h.op.covers (g.r.tilePa + 256 * g.rows) (256 * f.rate) = false) → ∃ t, exec (.mmaRowApply c) s = .next t ∧
        let n := min 64 (g.rows + if f.a = .f32 then 1 else 2)
        (tileOf t c g.r).map (fun e' => (e'.wm, e'.pend, e'.bound, e'.base)) =
          some (n, if n = 64 then e.pend - 1 else e.pend, e.bound, e.base) ∧
        (t.course c).running = (if n = 64 then none else some ⟨g.r, n, some ops⟩) ∧ (t.course c).queue = x.queue)

/-- R251, R253: TCLR_APPLY of a slot with PEND 0 binds it to its tile, with WM 64 and RNG expanded from the seed and the slot number;
unless BIND, every byte of the tile is then 0 at the home. OBST_COMPLETE writes the operand buffer and lowers MX. -/
def Sys2Proof.Machine.TileAndBufferEvents : Prop :=
  ∀ (s : State) (id : Nat) (f : Flight), s.flight? id = some f → Fenceless s →
    (∀ sids a bind slot seed e, f.op = .tclr sids a bind slot seed → s.tile? (courseOf f.core) f.seq slot = some e → e.pend = 0 →
      s.roundBefore f slot = false → (∀ g ∈ s.flights, id ≤ g.id) → s.accepted (courseOf f.core) = [] →
      (∀ k ∈ s.streams, k.on = false) → a.page.write = true →
      ∃ t, exec (.tclrApply id) s = .next t ∧
        t.tile? (courseOf f.core) f.seq slot =
          some { e with bound := true, base := a.va, pa := a.pa, wm := 64, rng := seedExpand seed (BitVec.ofNat 32 slot) } ∧
        t.flight? id = none ∧ (bind = true → t.dieCache = s.dieCache ∧ t.mem = s.mem) ∧
        (bind = false → (∀ i < 16384, PlainBytes s (a.pa + i)) → ∀ i < 16384, t.home (a.pa + i) = 0)) ∧
    (∀ sid o off data, f.op = .obst sid o off data → s.obstBefore f o off = false → courseOf f.core < s.courses.length →
      ∃ t, exec (.obstComplete id) s = .next t ∧ t.flight? id = none ∧
        (∀ j, t.contents j = (s.contents j).map (fun x => if j = sid then { x with mx := x.mx - 1 } else x)) ∧
        (t.course (courseOf f.core)).obs = modAt (memPutL off data) o.1 (s.course (courseOf f.core)).obs ∧ t.mem = s.mem ∧
        t.dieCache = s.dieCache)

/-- R229 to R251: rounds, tiles and operand buffers. -/
def Obligations.MatrixRounds : Prop := RoundsRunInOrder ∧ TileAndBufferEvents

/-- R259, R260: NEVAL_REQUEST_ARRIVAL puts a row into the gather table entry of its handle or into the lowest free entry, when
its course has accepted nothing that has still to be performed; the entry leaves as a tile at its 64th row, and by NEVAL_ENTRY_TIMEOUT when row 0 has waited 256 cycles. -/
def Sys2Proof.Machine.NeuralRowsGather : Prop :=
  (∀ (s : State) (id : Nat) (f : Flight) (row : NRow) (h : Word) (rec : DWord), s.flight? id = some f → f.op = .nevalReq row h rec →
    (∀ g ∈ s.flights, id ≤ g.id) → courseOf f.core < s.courses.length → (s.course (courseOf f.core)).queue = [] →
    s.accepted (courseOf f.core) = [] →
    let x := s.course (courseOf f.core)
    (∀ e, x.gather.find? (fun e => e.handle == h && decide (e.rows.length < 64)) = some e → e.rows.length < 63 →
      ∃ t, exec (.nevalRequestArrival id) s = .next t ∧ t.flight? id = none ∧ t.strands = s.strands ∧ (t.course (courseOf f.core)).gather =
        x.gather.map (fun g => if g.index = e.index then { e with rows := e.rows ++ [row] } else g)) ∧
    (∀ e, x.gather.find? (fun e => e.handle == h && decide (e.rows.length < 64)) = some e → e.rows.length = 63 →
      ∃ t, exec (.nevalRequestArrival id) s = .next t ∧ t.flight? id = none ∧ t.strands = s.strands ∧
        (t.course (courseOf f.core)).gather = x.gather.filter (fun g => g.index != e.index) ∧
        (t.course (courseOf f.core)).queue = [.tile { e with rows := e.rows ++ [row], formed := some (min s.now (e.since + 256)) }]) ∧
    (∀ i, x.gather.find? (fun e => e.handle == h && decide (e.rows.length < 64)) = none → x.freeEntry = some i →
      ∃ t, exec (.nevalRequestArrival id) s = .next t ∧ t.flight? id = none ∧ t.strands = s.strands ∧
        (t.course (courseOf f.core)).gather = x.gather ++ [⟨i, h, rec, [row], s.now, none⟩])) ∧
  (∀ (s : State) (c i : Nat) (e : NEntry), c < s.courses.length → (s.course c).gather.find? (fun e => e.index == i) = some e →
    e.since + 256 ≤ s.now → (∀ g, .tile g ∈ (s.course c).queue → g.formed ≠ some (e.since + 256)) → ∃ t, exec (.nevalEntryTimeout c i) s = .next t ∧ t.strands = s.strands ∧
      (t.course c).gather = (s.course c).gather.filter (fun g => g.index != i) ∧
      (t.course c).queue = (s.course c).queue ++ [.tile { e with formed := some (e.since + 256) }])

/-- R261, R262, R264: NEVAL_TILE_START takes the tile at the head of a free engine's queue; a tile whose layer record cannot be reached
traps its row with MX lowered, and one that fits puts its row's results in flight, counted with its 63 padding rows. NEVAL_RESULT_WRITE
writes them, when the turn brings them all, and lowers MX; a strand that has ended takes none. NHANDLE_REVOKE_COMPLETE writes status 0 once no row of the handle is left. -/
def Sys2Proof.Machine.NeuralTilesRun : Prop :=
  (∀ (s : State) (c : Nat) (e : NEntry) (r : NRow) (q : List Job), c < s.courses.length → (s.course c).running = none →
    (s.course c).queue = .tile e :: q → e.rows = [r] →
    let u := s.modCourse c (fun x => { x with queue := q })
    (∀ tr, u.tileRead c e.record 64 64 = .error (.trap tr) → ∃ t, exec (.nevalTileStart c) s = .next t ∧ (t.course c).queue = q ∧
      t.mem = s.mem ∧ t = u.trapRow r tr) ∧
    (∀ rec l ws bias v, u.tileRead c e.record 64 64 = .ok rec → Layer.read rec.2 = some l → rec.1.tileData c l = .ok (v, ws, bias) →
      l.fits r = true → c < v.courses.length → ∃ t, exec (.nevalTileStart c) s = .next t ∧
        t.flights = v.flights ++ [⟨v.nextId, r.tid, v.seqOf r.tid, v.coreOf r.tid, none,
          .nevalRes r.sid (spanWords r.d (resultWords r.f16out l.ftz (rowOutputs l r ws bias))) e.handle⟩] ∧ t.strands = v.strands ∧
        (t.course c).counters = modAt (· + 63#64) 12 (modAt (· + 1#64) 11 (v.course c).counters))) ∧
  (∀ (s : State) (id : Nat) (f : Flight) (sid : Nat) (d : GReg) (ws : List (GReg × Word)) (h : Word) (x : Strand),
    s.flight? id = some f → s.strand? sid = some x →
    let ends (i : Instr) (g : Strand → Strand) : Prop := ∃ t, exec i s = .next t ∧ t.outside = (s.dropFlight id).outside ∧
      ∀ j, t.contents j = (s.contents j).map (fun y => if j = sid then g y else y)
    (f.op = .nevalRes sid ws h → x.state = .ended → exec (.nevalResultWrite id) s = .next (s.dropFlight id)) ∧
    (f.op = .nevalRes sid ws h → x.state ≠ .ended → (∀ k < ws.length, s.words.getLsbD k = true) → x.races ws = false →
      ends (.nevalResultWrite id) (fun y => (brings y ws).setCtr .mx (y.mx - 1))) ∧
    (f.op = .revoke sid d h → s.rowsOf h = false → s.destWaits f sid d 1 = false → x.wrote.getLsbD d.1 = false →
      ends (.nhandleRevokeComplete id) (fun y => (brings y [(d, 0)]).setCtr .ld (y.ld - 1))))

/-- R256 to R266: rows gather into tiles, and tiles run. -/
def Obligations.NeuralRounds : Prop := NeuralRowsGather ∧ NeuralTilesRun

/-! ### Copy rings, windows and translations -/

/-- R329, R330: RING_PUBLICATION of the count P. Up to 2^RLOG2 entries beyond CONS are taken: TARGET is P, OVR clears, and CP stays raised
until CONS reaches P, falling at once when it is there; a larger count sets OVR, is counted in RINGOVR of the device and of the course
(Table 18.5), leaves TARGET, and its CP falls; so does any count while the header's RLOG2 is above 11, with ERRCODE 5. -/
def Obligations.RingPublications : Prop :=
  ∀ (s : State) (id : Nat) (f : Flight) (sid : Nat) (acc : Acc) (v : Word) (sc : Scope) (tm : Team) (base : Nat) (r : Ring),
    s.flight? id = some f → f.op = .publish sid acc v sc → f.acc.isSome = true → Lonely s id → s.unacted f sid = false → CanonicalMemory s →
    (s.course (courseOf f.core)).running = none → (s.course (courseOf f.core)).deltas = [] → (s.course (courseOf f.core)).dirty = [] →
    sortedCells tm.scratch = true → s.team? f.tid = some tm → s.ringHeader f.tid acc = some base → s.ring? f.tid base = some r → r.pubs = [] →
    let rlog2 := memGetN tm.scratch (base + 8) 4 % 16
    let homes (t : State) : Prop := (∀ p, t.home p = s.home p) ∧ MemoryAround s t sc (fun p => (cellGet s.dieCache p).isSome = true)
    let refused (err : Nat) : Prop := ∃ t r', exec (.ringPublication id) s = .next t ∧ t.ring? f.tid base = some r' ∧ t.flight? id = none ∧
      r'.target = r.target ∧ r'.ovr = true ∧ r'.cons = r.cons ∧ r'.done = r.done ∧ r'.errCode = err ∧
      t.counters = modAt (· + 1#64) 7 s.counters ∧ (courseOf tm.core < s.courses.length →
        (t.course (courseOf tm.core)).counters = modAt (· + 1#64) 7 (s.course (courseOf tm.core)).counters) ∧ homes t ∧
      ∀ j, t.contents j = (s.contents j).map (fun x => if j = sid then { x with cp := x.cp - 1 } else x)
    (11 < rlog2 → refused 5) ∧
    (rlog2 ≤ 11 → 2 ^ rlog2 < (v - r.cons).toNat → refused r.errCode) ∧
    (rlog2 ≤ 11 → (v - r.cons).toNat ≤ 2 ^ rlog2 → ∃ t r', exec (.ringPublication id) s = .next t ∧ t.ring? f.tid base = some r' ∧
      t.flight? id = none ∧ r'.target = v ∧ r'.ovr = false ∧ r'.cons = r.cons ∧ r'.done = r.done ∧ r'.begun = r.begun ∧
      (v ≠ r.cons → r'.pubs = [(sid, v)]) ∧ homes t ∧
      ∀ j, t.contents j = (s.contents j).map (fun x => if j = sid ∧ v = r.cons then { x with cp := x.cp - 1 } else x))

/-- R330, R336: COPY_ENTRY_BEGIN reads the 32 bytes of the entry at CONS, advances CONS by one and lowers the CP of every publication that
CONS has reached. Among the rings of one engine the turn is the model's choice (log 66): `beginsFirst` names a ring that goes before. -/
def Sys2Proof.Machine.EntriesBeginInOrder : Prop :=
  ∀ (s : State) (team base : Nat) (r : Ring) (tm : Team) (l : Launch), s.ring? team base = some r → s.team? team = some tm →
    s.launch? tm.seq = some l → l.state = .admitted → tm.saving = false → tm.carve = none → r.cons ≠ r.target → s.beginsFirst r = false →
    let par := r.covering
    let a := par.rbase + 32 * (r.cons.toNat % 2 ^ par.rlog2)
    let bits := BitVec.ofNat 256 (leNat (readN (s.scratchGet team) a 32))
    a + 32 ≤ s.scratchSize team → (Entry.ofBits bits).kind ≠ 2 →
    ∃ t r', exec (.copyEntryBegin team base) s = .next t ∧ t.ring? team base = some r' ∧ r'.cons = r.cons + 1 ∧ r'.done = r.done ∧
      r'.target = r.target ∧ r'.begun = r.begun ++ [⟨r.cons.toNat, par, some bits, 0, none, []⟩] ∧
      (∀ p ∈ r'.pubs, p.2 ≠ r'.cons) ∧ t.mem = s.mem ∧ t.dieCache = s.dieCache ∧
      ∀ j, t.contents j = (s.contents j).map (fun x =>
        { x with cp := x.cp - (r.pubs.filter (fun p => p.1 == j && (p.2 == r.cons + 1 || r.cons + 1 == r.target))).length })

/-- R331, R333, R334, R338: COPY_ENTRY_COMPLETE of the oldest begun entry. A LINEAR entry from scratchpad to scratchpad moves its X bytes,
counted in CPBYTES, with DONE one up; an entry that lies beyond the scratchpad ends with STATUS 3 in ERRCODE and its number plus one in
ERRSEQ. New sizes that a CARVE of the team has got are applied once no entry of its rings is begun (R183). -/
def Sys2Proof.Machine.EntriesComplete : Prop :=
  ∀ (s : State) (team base : Nat) (r : Ring) (tm : Team) (b : Begun) (rest : List Begun), s.ring? team base = some r →
    s.team? team = some tm → r.begun = b :: rest →
    (∀ bits, tm.carve = none → b.entry = some bits → b.map = none →
      let e := Entry.ofBits bits
      e.kind = 0 → e.ssp = 1 → e.dsp = 1 → e.stamp = 0 → e.latch = 0xFF → e.x ≠ 0 → e.src + e.x ≤ s.scratchSize team →
      e.dst + e.x ≤ s.scratchSize team → s.scratchSize team < 2 ^ 32 → (e.dst + e.x ≤ base ∨ base + 32 ≤ e.dst) →
      courseOf tm.core < s.courses.length → sortedCells tm.scratch = true →
      ∃ t r', exec (.copyEntryComplete team base) s = .next t ∧ t.ring? team base = some r' ∧ r'.done = r.done + 1 ∧ r'.begun = rest ∧
        r'.cons = r.cons ∧ r'.target = r.target ∧ r'.errCode = r.errCode ∧ r'.errSeq = r.errSeq ∧
        (∀ i < e.x, t.scratchGet team (e.dst + i) = s.scratchGet team (e.src + i)) ∧
        (∀ a, (a < e.dst ∨ e.dst + e.x ≤ a) → (a < base ∨ base + 32 ≤ a) → t.scratchGet team a = s.scratchGet team a) ∧
        (t.course (courseOf tm.core)).counters = modAt (· + BitVec.ofNat 64 e.x) 15 (s.course (courseOf tm.core)).counters ∧
        t.mem = s.mem ∧ t.dieCache = s.dieCache ∧ ∀ j, t.contents j = s.contents j) ∧
    (b.entry = none → rest = [] → (∀ q ∈ s.rings, q.tid = team → q.base ≠ base → q.begun = []) → ∀ scu l1u, tm.carve = some (scu, l1u) →
      ∃ t tm', exec (.copyEntryComplete team base) s = .next t ∧ t.team? team = some tm' ∧ tm'.scu = scu ∧ tm'.l1u = l1u ∧
        tm'.carve = none ∧ tm'.l1 = []) ∧
    (b.entry = none → ∃ t r', exec (.copyEntryComplete team base) s = .next t ∧ t.ring? team base = some r' ∧ r'.done = r.done + 1 ∧
      r'.begun = rest ∧ r'.errCode = 3 ∧ r'.errSeq = BitVec.ofNat 32 (b.k + 1) ∧ ∀ j, t.contents j = s.contents j)

/-- R330 to R349: copy entries begin in order and complete. -/
def Obligations.CopyEntries : Prop := EntriesBeginInOrder ∧ EntriesComplete

/-- R351, R353, R354: windows and translations. BINDING_STORE of VALID, LEN and SOFF on a free entry binds the entry to the storing team, with
STATUS 0 and its core in the entry; WINDOW_UNBIND_COMPLETE, with every entry published to its ring DONE, removes the binding, leaves
its bytes in the backing page and answers STATUS 0; PAGE_WALK_COMPLETE of the only miss puts a successful walk into the requesting unit's TLB
and the walk cache, and ends the miss; a failed walk, or one whose page is reserved, is cached nowhere. A unit that misses on a page
whose walk is in flight gets what that walk finds. -/
def Obligations.WindowsAndWalks : Prop :=
  (∀ (s : State) (id : Nat) (f : Flight) (sid : Nat) (acc : Acc) (v : Word) (sc : Scope) (tm : Team) (e : Nat), s.flight? id = some f →
    f.op = .binding sid acc v sc → f.acc.isSome = true → acc.pa = s.areas.sm + 16 * e → s.bindings = [] → s.keys = [] → s.faults = [] →
    Lonely s id → CanonicalMemory s → s.unacted f sid = false → (s.course (courseOf f.core)).running = none → (s.course (courseOf f.core)).deltas = [] →
    (s.course (courseOf f.core)).dirty = [] → s.place acc = .cached → (∀ i < 16, s.foreign (acc.pa + i) = false) →
    s.team? f.tid = some tm → v.getLsbD 0 = true →
    let soff := (v.extractLsb' 8 7).toNat
    let len := (v.extractLsb' 4 4).toNat + 1
    soff + len ≤ tm.scu →
    ∃ t, exec (.bindingStore id) s = .next t ∧ t.bindings = [⟨e, f.tid, soff, len, v.getLsbD 1, false⟩] ∧ t.flight? id = none ∧
      t.home (s.areas.sm + 16 * e + 5) = 0 ∧ t.home (s.areas.sm + 16 * e + 6) = BitVec.ofNat 8 tm.core ∧
      MemoryAround s t .sys (fun _ => False) ∧
      ∀ j, t.contents j = s.contents j) ∧
  (∀ (s : State) (e : Nat) (b : Binding), s.bindings.find? (fun b => b.entry == e && b.unbinding) = some b → (s.team? b.tid).isSome = true →
    (b.ring = true → ∀ r, s.ring? b.tid (4096 * b.soff) = some r → r.done = r.target) → (∀ g ∈ s.flights, g.acc = none) →
    ∃ t, exec (.windowUnbindComplete e) s = .next t ∧ t.bindings = s.bindings.filter (fun x => x.entry != e) ∧
      t.home (s.areas.sm + 16 * e + 5) = 0 ∧ t.mem = s.mem ∧ (∀ j, t.contents j = s.contents j) ∧
      ∀ pa, s.backingPages e = [pa] → pa % 4 = 0 → ∀ i < 4096 * b.len, pa + i ≠ s.areas.sm + 16 * e + 5 →
        t.home (pa + i) = s.scratchGet b.tid (4096 * b.soff + i)) ∧
  (∀ (s : State) (c : Nat) (va : DWord) (found : Found), c < 64 → s.misses = [⟨va.toNat / 65536, [c], found⟩] → s.missWait = [] →
    s.afresh = [] → (∀ e ∈ s.tlb, e.unit ≠ c) → s.walkCache.length ≤ 4093 →
    (∀ p, found = .page p → s.reserved (p.addr va) = false → ∃ t, exec (.pageWalkComplete c va) s = .next t ∧
      t.tlb = s.tlb ++ [⟨c, va.toNat / 65536, p⟩] ∧ t.misses = [] ∧ t.translate c va = .ok p ∧
      { t with tlb := s.tlb, walkCache := s.walkCache, misses := s.misses } = s) ∧
    (found = .absent ∨ found = .refused ∨ (∃ p, found = .page p ∧ s.reserved (p.addr va) = true) →
      exec (.pageWalkComplete c va) s = .next { s with misses := [] }))

/-! ### Queues, admission and the life of a launch -/

/-- A doorbell that is not dropped whatever its OP (R267): its QP is ready and not QPN 1, a page table root is set, it has its 16 bytes,
and its queue names its QP. -/
def Sys2Proof.Machine.Arrives (s : State) (m : Doorbell) : Prop :=
  m.qpn ≠ 1 ∧ s.qpReady m.qpn = true ∧ s.trootSet = true ∧ 16 ≤ m.len ∧ s.queueQpn m.queue.1 = m.qpn ∧ m.queue.1 < s.queues.length

/-- The read-only fields of a queue's descriptor in memory (Table 13.2). -/
def Sys2Proof.Machine.Shown (t : State) (k : Nat) : Prop :=
  t.homeN (t.areas.qt + 64 * k + 32) 12 = (t.queue k).consumed.toNat + 2 ^ 32 * (t.queue k).lastSeq.toNat + 2 ^ 64 * (t.queue k).produced.toNat ∧
  (t.home (t.areas.qt + 64 * k)).getLsbD 6 = (t.queue k).enabled

/-- R267: SUBMIT of a PRODUCER ahead of the producer count, no further than the queue is long, becomes the producer count; one further
ahead of CONSUMED is dropped, and so is every SUBMIT of a queue that is disabled or fed by device code, each counted in DBERR; one behind
the count, or at it, changes nothing, and so does any that is not dropped between an ABORT and the end of the enablement (DEDUCED, log 35).
Each is acknowledged, dropped or not (log 26). -/
def Sys2Proof.Machine.SubmitDoorbell : Prop :=
  ∀ (s : State) (m : Doorbell), Arrives s m →
    let q := s.queue m.queue.1
    let behind : Prop := (m.producer - q.produced).getLsbD 31 = true
    let tooFar : Prop := 2 ^ q.caLog2 < (m.producer - q.consumed).toNat
    let ahead : Prop := (q.produced - q.consumed).toNat < (m.producer - q.consumed).toNat
    let acked : State := { s with outbox := s.outbox ++ [.ack m.qpn] }
    let dropped : State := { acked with counters := modAt (· + 1#64) 6 s.counters }
    (q.enabled = true → q.devOk = false → q.aborting = false → ¬behind → ¬tooFar → ahead →
      ∃ t, exec (.doorbellSubmit m) s = .next t ∧ t.queue m.queue.1 = { q with produced := m.producer } ∧ Shown t m.queue.1 ∧
        t.outbox = s.outbox ++ [.ack m.qpn] ∧ t.counters = s.counters ∧ t.launches = s.launches) ∧
    (q.enabled = true → q.devOk = false → (behind ∨ (¬tooFar ∧ (q.aborting = true ∨ ¬ahead))) →
      exec (.doorbellSubmit m) s = .next acked) ∧
    ((q.enabled = false ∨ q.devOk = true ∨ (¬behind ∧ tooFar)) → exec (.doorbellSubmit m) s = .next dropped)

/-- R268, R277, Table 13.2: ENABLE latches the descriptor of a disabled queue, with the placement set as it stands, and empties the
ring; DISABLE of an enabled queue with no command to finish clears ENABLED, and with one it waits; ABORT drops what is not accepted, of a
disabled queue too, faults what is not admitted and stops what is. -/
def Sys2Proof.Machine.QueueDoorbells : Prop :=
  ∀ (s : State) (m : Doorbell), Arrives s m →
    let k := m.queue.1
    let q := s.queue k
    let d := s.homeN (s.areas.qt + 64 * k) 32
    (q.enabled = false → (4 ≤ d / 2 ^ 128 % 16 ∧ d / 2 ^ 128 % 16 ≤ 12) → d / 2 ^ 192 % 4096 = 0 →
      canonical (BitVec.ofNat 64 (d / 2 ^ 192)) = true → d / 2 ^ 160 % 2 ^ 24 = m.qpn →
      ∃ t, exec (.doorbellEnable m) s = .next t ∧ Shown t k ∧ t.outbox = s.outbox ++ [.ack m.qpn] ∧
        t.queue k = ⟨0, q.lastSeq, 0, BitVec.ofNat 64 (d / 2 ^ 192), m.qpn, d / 2 ^ 128 % 16, d.testBit 7, true, false, false, d / 8 % 8, d % 8,
          (s.psets.getD (d / 8 % 8) (0, 0)).1, (s.psets.getD (d / 8 % 8) (0, 0)).2⟩) ∧
    (q.enabled = true → (∀ l ∈ s.launches, l.queue ≠ k) → ∃ t, exec (.doorbellDisable m) s = .next t ∧ Shown t k ∧
      (t.queue k).enabled = false ∧ t.launches = s.launches) ∧
    (q.enabled = true → (∃ l ∈ s.launches, l.queue = k ∧ l.state = .admitted) → ∃ t, exec (.doorbellDisable m) s = .next t ∧
      t.queue k = { q with disabling := true } ∧ t.launches = s.launches) ∧
    ((s.launches.map (·.seq)).Nodup → ∃ t, exec (.doorbellAbort m) s = .next t ∧
      (t.queue k).produced = (t.queue k).consumed ∧ (t.queue k).consumed = q.consumed ∧
      ((t.queue k).enabled = true → q.enabled = true ∧ (t.queue k).aborting = true) ∧
      ∀ l ∈ s.launches, (l.queue ≠ k → (t.launch? l.seq).map Launch.state = some l.state) ∧
        (l.queue = k → l.state = .accepted → (t.launch? l.seq).map Launch.state = some .faulted) ∧
        (l.queue = k → l.state = .admitted → (t.launch? l.seq).map Launch.state = some (.dying 9)))

/-- Bytes 0 to 7 of a launch's journal entry: SEQ, queue, STATE and CAUSE (Table 13.6). -/
def Sys2Proof.Machine.Journaled (t : State) (seq queue code cause : Nat) : Prop :=
  t.homeN (t.areas.j + 32 * (seq % 65536)) 8 = seq % 2 ^ 32 + queue * 2 ^ 32 + code * 2 ^ 40 + cause * 2 ^ 56

/-- R80, R271, Table 13.5: a record's CAUSE is the lowest of the cases that it meets: 1 for a malformed record, 2 for a header or
descriptor that is not there or does not pass R80, 3 when its set names no course or it could not be placed on the empty set, 4 for a bad
dependence, 0 for none. -/
def Sys2Proof.Machine.LowestCause : Prop :=
  ∀ (s : State) (q : Queue) (seq : Nat) (cmd : Command),
    let hdr := s.imageHeader cmd.image
    let raw := hdr.bind (fun h => if cmd.kdesc < h.kcount then s.descriptor cmd.image h cmd.kdesc else none)
    let ext := s.extension cmd raw ((hdr.map (fun h => s.kernels cmd.image h)).getD [])
    let malformed : Prop := cmd.opc ≠ 1 ∨ cmd.image.toNat % 65536 ≠ 0 ∨ cmd.ctxAddr.toNat % 65536 ≠ 0 ∨
      (cmd.indirect = true ∧ cmd.gaddr.toNat % 4 ≠ 0) ∨ 16 < cmd.tslots ∨
      (∃ k, raw = some k ∧ ((k.kind = 0 ∧ cmd.extAddr ≠ 0) ∨ ((k.kind = 1 ∨ k.kind = 2) ∧ cmd.extAddr = 0))) ∨
      (cmd.extAddr ≠ 0 ∧ ext = none)
    let passes : Prop := ∃ h k, hdr = some h ∧ raw = some k ∧ k.passes h = true
    let unplaceable : Prop := q.courses = 0 ∨ fitsEmpty q.courses cmd (raw.getD default) = false
    let badDependence : Prop := cmd.depEn = true ∧ (seq ≤ cmd.depSeq ∨ cmd.depSeq = 0)
    let gives (n : Nat) : Prop := (s.judge q seq cmd).1 = n
    (malformed → gives 1) ∧ (¬malformed → ¬passes → gives 2) ∧ (¬malformed → passes → unplaceable → gives 3) ∧
    (¬malformed → passes → ¬unplaceable → badDependence → gives 4) ∧
    (¬malformed → passes → ¬unplaceable → ¬badDependence → gives 0)

/-- R269, R271, R272: COMMAND_ACCEPT of the queue whose turn it is. The record gets the next SEQ; CONSUMED goes up by one and LASTSEQ is the
number; a record with no CAUSE is journaled ACCEPTED, one with a CAUSE is journaled FAULTED with it; one that cannot be read, with CAUSE 1. -/
def Sys2Proof.Machine.CommandAcceptance : Prop :=
  (∀ (s : State) (k : Nat) (bs : List Byte), s.areas = State.reset.areas → s.queues.length = 64 → s.acceptTurn = some k →
    (∀ l ∈ s.launches, l.seq % 65536 = (s.seq + 1) % 65536 → l.state = .completed ∨ l.state = .faulted) →
    s.sysRead ((s.queue k).caBase + BitVec.ofNat 64 (64 * ((s.queue k).consumed.toNat % 2 ^ (s.queue k).caLog2))) 64 = some bs →
    let q := s.queue k
    let j := s.judge q (s.seq + 1) (Command.ofNat (leNat bs))
    ∃ t l, exec (.commandAccept k) s = .next t ∧ t.seq = s.seq + 1 ∧ t.rrAccept = (k + 1) % 64 ∧
      t.launch? (s.seq + 1) = some l ∧ l.cmd = Command.ofNat (leNat bs) ∧ l.queue = k ∧ l.prio = q.prio ∧ l.courses = q.courses ∧
      l.kernel = j.2.1 ∧ l.ext = j.2.2.1 ∧ (t.queue k).consumed = q.consumed + 1 ∧ (t.queue k).lastSeq = BitVec.ofNat 32 (s.seq + 1) ∧
      Shown t k ∧ (∀ sid, t.contents sid = s.contents sid) ∧ t.teams = s.teams ∧
      (j.1 = 0 → l.state = .accepted ∧ Journaled t (s.seq + 1) k 1 0) ∧
      (j.1 ≠ 0 → l.state = .faulted ∧ Journaled t (s.seq + 1) k 4 j.1)) ∧
  ∀ (s : State) (k : Nat), s.areas = State.reset.areas → s.queues.length = 64 → s.acceptTurn = some k →
    (∀ l ∈ s.launches, l.seq % 65536 = (s.seq + 1) % 65536 → l.state = .completed ∨ l.state = .faulted) →
    s.sysRead ((s.queue k).caBase + BitVec.ofNat 64 (64 * ((s.queue k).consumed.toNat % 2 ^ (s.queue k).caLog2))) 64 = none →
    ∃ t l, exec (.commandAccept k) s = .next t ∧ t.seq = s.seq + 1 ∧ t.launch? (s.seq + 1) = some l ∧ l.state = .faulted ∧
      (t.queue k).consumed = (s.queue k).consumed + 1 ∧ Journaled t (s.seq + 1) k 4 1

/-- R268 to R274: doorbells and the acceptance of commands. -/
def Obligations.QueuesAndAcceptance : Prop := SubmitDoorbell ∧ QueueDoorbells ∧ LowestCause ∧ CommandAcceptance

/-- R30, R275, R276: ADMISSION_TURN places for the first launch in the order of the turn that has room: an accepted one becomes ADMITTED with
its first gang placed, or is COMPLETED when it has no gang and its turn has come; an admitted one has its next gang placed. -/
def Obligations.AdmissionPlacesGangs : Prop :=
  ∀ (s : State) (l : Launch) (r : List Launch), s.turnOrder = l :: r → s.launch? l.seq = some l → s.areas = State.reset.areas → l.queue < 64 →
    (∀ n u, l.state = .accepted → l.ext = none → l.count = some (n + 1) → s.placeGang l 0 (s.resumeHolds l.prio) = some u →
      ∃ t m, exec .admissionTurn s = .next t ∧ t.launch? l.seq = some m ∧ m.state = .admitted ∧ m.placed = 1 ∧
        t.teams = u.teams ∧ (∀ sid, t.contents sid = u.contents sid) ∧ t.rrAdmit = (l.queue + 1) % 64 ∧ Journaled t l.seq l.queue 2 0) ∧
    (l.state = .accepted → l.count = some 0 → l.courses &&& ~~~s.resumeHolds l.prio ≠ 0 → l.marked = false → (s.queue l.queue).disabling = false →
      ∃ t m, exec .admissionTurn s = .next t ∧ t.launch? l.seq = some m ∧ m.state = .completed ∧ t.teams = s.teams ∧
        Journaled t l.seq l.queue 3 0) ∧
    (∀ u, l.state = .admitted → s.placeGang l l.placed 0 = some u →
      ∃ t, exec .admissionTurn s = .next t ∧ t.teams = u.teams ∧ t.strands = u.strands ∧
        (t.launch? l.seq).map Launch.placed = some (l.placed + 1))

/-- Nothing is in flight, and no course has a round in its engine, a delta or a dirty byte. -/
def Sys2Proof.Machine.Calm (s : State) : Prop :=
  s.flights = [] ∧ ∀ x ∈ s.courses, x.running = none ∧ x.deltas = [] ∧ x.dirty = []

/-- R20, R28, R217, R268, R274: the ends of teams and launches, of a machine that is calm and holds no key and no window. TEAM_CARVEOUT_RELEASE of a
team whose strands have all ended removes it; LAUNCH_RETIRE of an admitted launch with nothing left records it COMPLETED; ABORT_COMPLETE of
one that is being stopped removes its teams and records it FAULTED with its CAUSE. -/
def Obligations.TeamsAndLaunchesEnd : Prop :=
  ∀ (s : State), Calm s → s.keys = [] → s.bindings = [] → s.rings = [] → s.bundles = [] →
    (∀ tid tm, s.team? tid = some tm → (∀ x ∈ s.strands, x.tid = tid → x.state = .ended) →
      (∀ x ∈ s.courses, ∀ r ∈ x.rounds, r.tid ≠ tid) →
      ∃ t, exec (.teamCarveoutRelease tid) s = .next t ∧ t.teams = s.teams.filter (fun u => u.tid != tid) ∧
        t.strands = s.strands.filter (fun x => x.tid != tid) ∧ t.mem = s.mem ∧ t.dieCache = s.dieCache) ∧
    (∀ seq l, s.launch? seq = some l → l.state = .admitted → s.working l = false → l.marked = false → s.areas = State.reset.areas →
      l.queue < 64 → (s.queue l.queue).disabling = false →
      ∃ t, exec (.launchRetire seq) s = .next t ∧ (t.launch? seq).map Launch.state = some .completed ∧ t.teams = s.teams ∧
        (∀ c, c < 32 → l.courses.getLsbD c = true → t.claimed c seq = false) ∧ Journaled t seq l.queue 3 0) ∧
    (∀ seq l cause, s.launch? seq = some l → l.state = .dying cause → s.rowsRun seq = false → (s.teams.map (·.tid)).Nodup → cause ≠ 0 → cause < 256 → l.marked = false → s.saved = [] →
      s.areas = State.reset.areas → l.queue < 64 → (s.queue l.queue).disabling = false →
      ∃ t, exec (.abortComplete seq) s = .next t ∧ (t.launch? seq).map Launch.state = some .faulted ∧
        t.teams = s.teams.filter (fun u => u.seq != seq) ∧ Journaled t seq l.queue 4 cause)

/-- What a saved-gang list entry names: each team by its slot, its names and its strands (R279). -/
def Sys2Proof.Machine.SavesTeams (w : State) (v : Saved) (ts : List Team) (slots : List Nat) : Prop :=
  v.teams.map (fun y => (y.tid, y.teamId, y.slot)) = (ts.zip slots).map (fun e => (e.1.tid, e.1.teamId, e.2)) ∧
  ∀ y ∈ v.teams, y.strands.map (·.sid) = (w.teamStrands y.tid).map (·.sid)

/-- R31, R246, R279, R294: saving and resuming. GANG_SAVE of a gang chosen for pre-emption whose work has drained, and STALLED_TEAM_SAVE of a team whose
strands are all stalled on records while a wave waits beyond WAVETO, put its teams into the saved list, with the context area written, and take
teams and strands off the die; GANG_RESUME brings a saved gang's teams back on cores with room, under the names they had. The SYNCG arrivals
that the words of the area claim count as they stand there, beyond the strands that wait at the barrier (log 51). -/
def Obligations.GangsAreSavedAndResumed : Prop :=
  (∀ (s : State) (seq gang : Nat) (l : Launch) (ts : List Team), s.launch? seq = some l → l.state = .admitted →
    ts = s.teams.filter (fun t => t.seq == seq && t.saving && (if t.kind = .gang then t.gangId == gang else t.teamId == gang)) →
    (∃ tm ∈ ts, ∃ x ∈ s.strands, x.tid = tm.tid ∧ x.state ≠ .ended) → s.drained seq (ts.map (·.tid)) = true →
    let w := (s.beforeSave (ts.map (·.tid))).settleAll ts
    let us := ts.filterMap (fun t => w.team? t.tid)
    ∀ u slots, w.writeContext l us = some (u, slots) →
    ∃ t v, exec (.gangSave seq gang) s = .next t ∧ t.saved = u.saved ++ [v] ∧ v.seq = seq ∧ v.gangId = gang ∧ v.prio = l.prio ∧
      v.stalled = false ∧ SavesTeams w v us slots ∧ t.mem = u.mem ∧ t.dieCache = u.dieCache ∧ t.dieClean = u.dieClean ∧
      t.teams = u.teams.filter (fun x => !(us.map (·.tid)).contains x.tid) ∧
      t.strands = u.strands.filter (fun x => !(us.map (·.tid)).contains x.tid) ∧ t.keys = u.keys ∧ t.bindings = u.bindings) ∧
  (∀ (s : State) (c : Nat) (w : Wave) (l : Launch) (tm : Team) (e : Ext), (s.course c).waves = [w] → s.extOf w.seq = some e →
    e.waveTo < s.now - w.since → s.stalledTeam c w.seq = some tm → s.launch? w.seq = some l → l.state = .admitted →
    s.drained l.seq [tm.tid] = true →
    let z := (s.beforeSave [tm.tid]).settleAll [tm]
    ∀ um u slots, z.team? tm.tid = some um → z.writeContext l [um] = some (u, slots) →
    ∃ t v, exec (.stalledTeamSave c) s = .next t ∧ t.saved = u.saved ++ [v] ∧ v.seq = l.seq ∧ v.gangId = tm.teamId ∧ v.prio = l.prio ∧
      v.stalled = true ∧ SavesTeams z v [um] slots ∧ t.mem = u.mem ∧ t.dieCache = u.dieCache ∧ t.dieClean = u.dieClean ∧
      t.teams = u.teams.filter (fun x => x.tid != um.tid) ∧ t.strands = u.strands.filter (fun x => x.tid != um.tid) ∧
      t.keys = u.keys ∧ t.bindings = u.bindings) ∧
  (∀ (s : State) (seq gang : Nat) (l : Launch) (v : Saved) (asg : List (SavedTeam × Nat)) (b u : State), s.launch? seq = some l →
    l.spilled = false → s.saved.find? (fun v => v.seq == seq && v.gangId == gang) = some v → l.mayResume v = true →
    v.rounds = [] → v.flights = [] → (∀ st ∈ v.teams, ∀ y ∈ st.strands, y.answer = none ∧ y.granted ≠ some true) →
    let q := s.free
    let k := q.1.toNat % max 1 l.courseList.length
    let gone : State := { q.2 with saved := s.saved.filter (fun w =>
      !(w.seq == v.seq && w.gangId == v.gangId && w.teams.map (·.tid) == v.teams.map (·.tid))) }
    let sync := q.2.savedBarrier l v
    q.2.placeSaved l v (l.courseList.drop k ++ l.courseList.take k) = some asg →
    loadBlocks l ((asg.map (fun p => (p.1.block, courseOf p.2))).eraseDups) gone = some b →
    loadTeams l ((sync.map (·.1)).getD 0) b.nextId asg b = some u → u.bindings = [] → u.rings = [] →
    let here := u.strands.countP (fun x => (v.teams.map (·.tid)).contains x.tid && x.atBarrier)
    ∃ t, exec (.gangResume seq gang) s = .next t ∧ t.saved = u.saved ∧ t.strands = u.strands ∧ t.mem = u.mem ∧
      t.dieCache = u.dieCache ∧ (sync = none → t.teams = u.teams) ∧
      ∀ n lead, sync.map (·.2) = some n →
        u.teams.find? (fun x => (v.teams.map (·.tid)).contains x.tid && x.seq == l.seq && x.teamId == 0) = some lead →
        t.teams = u.teams.map (fun x => if x.tid = lead.tid then { x with extra := (n : Int) - (here : Nat) } else x))

/-! ### Records, waves, traversal and fault records -/

/-- R288, R290, R292, R293, R32: the way of a record. ENTRY_RECORD_CREATE makes entry record n on the next course of the set, charged to the entry node,
with n in SAMPLE and in its payload, and bins it under the node's key; WAVE_TIMEOUT of a bin whose oldest record has waited beyond WAVETO
forms a wave of its first W records; WAVE_PLACE makes a team of the wave on a core with room, a strand for each record, which owns it. -/
def Obligations.RecordsBecomeWaves : Prop :=
  (∀ (s : State) (seq n : Nat) (l : Launch) (e : Ext) (k : Kernel), s.launch? seq = some l → l.state = .admitted → l.ext = some e →
    l.saving = false → l.spilled = false → l.count = some n → l.placed < n → e.nodeKernel l.kernel.nodeIdx = some k → 2 ≤ k.width →
    l.kernel.nodeIdx < 2 ^ 16 →
    let c := l.nthCourse l.placed
    s.slotFree c seq (some l.kernel.nodeIdx) = true → c < s.courses.length → (s.course c).bins = [] → (s.course c).arrivals = [] →
    (s.course c).waves = [] →
    ∃ t img, exec (.entryRecordCreate seq) s = .next t ∧ (t.launch? seq).map Launch.placed = some (l.placed + 1) ∧
      (t.course c).recs = (s.course c).recs ++ [⟨s.freeSlot c seq, seq, some l.kernel.nodeIdx, .binned, img, none, none, 0⟩] ∧
      (t.course c).bins = [⟨0, seq, .node l.kernel.nodeIdx 0, [(s.freeSlot c seq, s.now)], none⟩] ∧
      field img 64 16 = l.kernel.nodeIdx ∧ field img 80 8 = 0 ∧ field img 320 64 = l.placed % 2 ^ 32 ∧
      field img 384 64 = l.placed % 2 ^ 32 ∧ t.strands = s.strands ∧ t.mem = s.mem ∧ t.dieCache = s.dieCache) ∧
  (∀ (s : State) (c i : Nat) (b : Bin) (l : Launch) (e : Ext) (k : Kernel) (r : Nat × Int) (rs : List (Nat × Int)),
    (s.course c).bins = [b] → b.idx = i → (s.course c).arrivals = [] → c < s.courses.length → s.launch? b.seq = some l → l.flows = true →
    l.ext = some e → e.keyKernel b.key = some k → b.recs = r :: rs → b.recs.length < 2 * k.width →
    e.waveTo < s.now - r.2 →
    ∃ t w, exec (.waveTimeout c i) s = .next t ∧ (t.course c).waves = (s.course c).waves ++ [w] ∧ w.seq = b.seq ∧ w.key = b.key ∧
      w.recs = (b.recs.take k.width).map (·.1) ∧ w.times = (b.recs.take k.width).map (·.2) ∧
      (∀ b' ∈ (t.course c).bins, ∀ q ∈ b'.recs, q ∈ b.recs ∧ q.1 ∉ w.recs) ∧
      (∀ q ∈ (t.course c).recs, q.seq = b.seq → q.idx ∈ w.recs → q.state = .owned)) ∧
  (∀ (s : State) (c : Nat) (w : Wave) (l : Launch) (e : Ext) (k : Kernel), (s.course c).waves = [w] → c < s.courses.length →
    s.launch? w.seq = some l → l.ext = some e → e.keyKernel w.key = some k → s.waveCores c w ≠ [] → s.stalledFirst c = false →
    ∃ t tm, exec (.wavePlace c) s = .next t ∧ t.teams = s.teams ++ [tm] ∧ tm.core ∈ s.waveCores c w ∧ tm.seq = l.seq ∧ tm.kernel = k ∧
      tm.teamId = l.waves ∧ (t.course c).waves = [] ∧ (t.launch? w.seq).map Launch.waves = some (l.waves + 1) ∧
      t.strands.length = s.strands.length + w.recs.length ∧ ∀ n < w.recs.length, ∃ x ∈ t.strands, x.tid = tm.tid ∧ x.strandId = n ∧
        x.owned = some (w.recs.getD n 0) ∧ x.state = .ready ∧ x.cls = none)

/-- R291, R312, R318: traversal. TRAVERSAL_HANDOVER gives an idle unit the first record of the current bin that is not held; TRAVERSAL_STEP of a ray
that goes on is counted in NODESTEPS, writes what the step changed and keeps its unit, and one whose side block cannot be reached forms a brick fault;
BRICK_FETCH_COMPLETE holds the requested brick, with no more bricks than the partition has room for, counted. -/
def Sys2Proof.Machine.TraversalEvents : Prop :=
  (∀ (s : State) (c u i : Nat) (b : Bin) (is : List Nat), u < 8 → c < s.courses.length → (∀ q ∈ (s.course c).trav, q.1 ≠ u) →
    (s.course c).bins = [b] → (s.course c).curBin = some b.idx → (s.course c).served < 4096 → (s.course c).arrivals = [] →
    s.handable c b = i :: is →
    ∃ t, exec (.traversalHandover c u) s = .next t ∧ (t.course c).trav = (s.course c).trav ++ [(u, b.seq, i)] ∧
      (t.course c).served = (s.course c).served + 1 ∧ (t.rec? c b.seq i).map Rec.state = some .traversing ∧
      (∀ b' ∈ (t.course c).bins, ∀ q ∈ b'.recs, q.1 ≠ i) ∧ t.strands = s.strands ∧ t.mem = s.mem ∧ t.dieCache = s.dieCache) ∧
  (∀ (s : State) (c u seq idx : Nat) (extra : Byte) (l : Launch) (e : Ext) (r : Rec) (q : State × BitVec 512) (o : StepOut),
    (s.course c).trav.find? (fun t => t.1 == u) = some (u, seq, idx) → s.launch? seq = some l → l.ext = some e → l.state = .admitted →
    l.saving = false → s.rec? c seq idx = some r → (s.count c 13 1).getSide c seq idx = .ok q →
    q.1.rayStep l e c r q.2 extra = .ok o → o.s.stackFault l e c idx o.r.puts = none → o.fate = .more →
    ∃ t, exec (.traversalStep c u extra) s = .next t ∧ t = (o.s.count c 3 o.bad).putRay l e c idx o.r) ∧
  (∀ (s : State) (c u seq idx : Nat) (extra : Byte) (l : Launch) (e : Ext) (r : Rec) (va : DWord) (acc : BitVec 3),
    (s.course c).trav.find? (fun t => t.1 == u) = some (u, seq, idx) → s.launch? seq = some l → l.ext = some e → l.state = .admitted →
    l.saving = false → s.rec? c seq idx = some r → (s.count c 13 1).getSide c seq idx = .error (.page va acc) →
    ∃ t f, exec (.traversalStep c u extra) s = .next t ∧ t.faults = s.faults ++ [f] ∧ f.kind = .brick ∧ f.va = va ∧ f.acc = acc ∧ f.seq = l.seq ∧
      f.aux = BitVec.ofNat 32 (r.idx + c * 65536)) ∧
  (∀ (s : State) (c brick : Nat), c < s.courses.length → (s.course c).brickReq.contains brick = true →
    let room := 4096 * s.brickPart - ((s.courses.map (fun x => x.bricks.length)).sum - (s.course c).bricks.length)
    ∃ t, exec (.brickFetchComplete c brick) s = .next t ∧ (t.course c).brickReq = (s.course c).brickReq.filter (· != brick) ∧
      (t.course c).bricks.length = min room ((s.course c).bricks.length + 1) ∧ (0 < room → brick ∈ (t.course c).bricks) ∧
      (t.course c).counters = modAt (· + 1#64) 14 (s.course c).counters ∧ t.mem = s.mem ∧ t.dieCache = s.dieCache)

/-- R312, R313: what a traversal step does before it reads a node: a void ray finishes; with no current node, it finishes when its
stack is empty, and else takes the top of the stack. -/
def Sys2Proof.Machine.StepWithoutANode : Prop :=
  ∀ (s : State) (l : Launch) (e : Ext) (c : Nat) (r : Rec) (side : BitVec 512) (extra : Byte),
    let ray : Ray := ⟨r.image, side, []⟩
    (ray.void = true → ∃ o, s.rayStep l e c r side extra = .ok o ∧ o.fate = .finish ∧ sideField o.r.side 144 16 = 0) ∧
    (ray.void = false → ray.node = refNone → ray.depth = 0 → ∃ o, s.rayStep l e c r side extra = .ok o ∧ o.fate = .finish ∧ o.r = ray) ∧
    (ray.void = false → ray.node = refNone → 0 < ray.depth → ray.depth ≤ 4 → ∃ o, s.rayStep l e c r side extra = .ok o ∧ o.fate = .more ∧
      o.r.depth = ray.depth - 1)

/-- R304 to R328: traversal steps and what they do without a node. -/
def Obligations.Traversal : Prop := TraversalEvents ∧ StepWithoutANode

/-- R375, R376, Table 19.4: FAULT_RECORD_POST gives the oldest cause without a record the next number, once its slot is FREE, and writes
its 64 bytes. -/
def Sys2Proof.Machine.FaultRecordPosting : Prop :=
  ∀ (s : State) (r : FRec), s.faults.find? (fun r => r.frid.isNone) = some r → s.recordFree (s.frid + 1) = true → r.seq < 2 ^ 32 →
    let k := s.frid + 1
    ∃ t, exec .faultRecordPost s = .next t ∧ t.frid = k ∧ (∃ r' ∈ t.faults, r'.cause = r.cause ∧ r'.frid = some k) ∧
      t.homeN (s.areas.fr + 64 * (k % 4096)) 64 = (if r.kind = .check then 5 else 1) + k % 2 ^ 32 * 2 ^ 32 + r.acc.toNat * 2 ^ 64 +
        (match r.kind with | .data => 0 | .fetch => 1 | .round => 2 | .tile => 3 | .brick => 4 | .check => 5) * 2 ^ 72 +
        min r.held 65535 * 2 ^ 80 + r.aux.toNat * 2 ^ 96 + r.strandId.toNat * 2 ^ 128 + r.teamId.toNat * 2 ^ 160 +
        r.gangId.toNat * 2 ^ 192 + r.seq * 2 ^ 224 + r.va.toNat * 2 ^ 256 ∧
      ∀ sid, t.contents sid = s.contents sid

/-- R377: the answers to a posted record that holds one strand on a data page. RETRY lets it go on at the same slot, SKIP after the slots of the instruction it is held at,
TRAP takes it to its handler with PAGE-FAULT, the strand's own address and the record's number; each frees the record. A NOTICE written 0 is freed, and other bytes written
to a record are put back as posted. -/
def Sys2Proof.Machine.FaultAnswers : Prop :=
  (∀ (s : State) (frid : Nat) (r : FRec) (x : Strand) (tm : Team), s.strands.filter (fun x => x.state == .faultHeld r.cause) = [x] →
    s.strand? x.sid = some x → s.team? x.tid = some tm → r.kind = .data → s.saved = [] → (∀ y ∈ s.courses, y.recs = []) →
    (∀ y ∈ s.strands, ∀ z, y.state ≠ .recordStall z) →
    let frees (t : State) : Prop := t.faults.map (·.cause) = (s.faults.map (·.cause)).filter (· != r.cause) ∧
      t.home (s.areas.fr + 64 * (frid % 4096)) = 0
    let n := x.heldLen
    (s.answered frid 2 = some r → ∃ t y, exec (.faultAnswerRetry frid) s = .next t ∧ frees t ∧ t.strand? x.sid = some y ∧
      y.content = x.content ∧ y.pc = x.pc ∧ y.cls = x.cls ∧ (y.state = .ready ∨ ∃ m, y.state = .parked m)) ∧
    (s.answered frid 3 = some r → ∃ t y, exec (.faultAnswerSkip frid) s = .next t ∧ frees t ∧ t.strand? x.sid = some y ∧
      y.content = x.content ∧ y.pc = x.pc + 8 * BitVec.ofNat 64 n ∧ (y.state = .ready ∨ ∃ m, y.state = .parked m)) ∧
    (s.answered frid 4 = some r → x.trapsTo = true → ∃ t y, exec (.faultAnswerTrap frid) s = .next t ∧ frees t ∧
      t.strand? x.sid = some y ∧ y.pc = x.tvec ∧ y.epc = x.pc ∧ y.ecause = BitVec.ofNat 32 (r.acc.toNat * 256 + 6) ∧ y.eva = x.heldVa ∧
      y.efrid = BitVec.ofNat 32 frid ∧ y.inTrap = true ∧ y.g = x.g)) ∧
  (∀ (s : State) (frid : Nat) (r : FRec), (s.answered frid 0 = some r → ∃ t, exec (.faultRecordFree frid) s = .next t ∧
      t.faults.map (·.cause) = (s.faults.map (·.cause)).filter (· != r.cause) ∧ t.home (s.areas.fr + 64 * (frid % 4096)) = 0) ∧
    (s.faults.find? (fun r => r.frid == some frid && r.restore) = some r → (∀ f ∈ s.flights, f.acc = none) → ∃ t, exec (.faultRecordRestore frid) s = .next t ∧
      t.homeN (s.areas.fr + 64 * (frid % 4096)) 64 = leNat (r.bytes frid) ∧ (∀ e ∈ t.faults, e.cause = r.cause → e.restore = false) ∧
      ∀ sid, t.contents sid = s.contents sid))

/-- R375 to R378: fault records and their answers. -/
def Obligations.FaultRecords : Prop := FaultRecordPosting ∧ FaultAnswers

/-- R380, R394, Table 19.5: MACHINE_CHECK on a delta word discards the course's deltas there and marks the owner of the bound tile slot that covers it, else the launch of the line's
last delta, its latest contributor; on a
dirty KEYED word it leaves the block FREE and marks its holder's launch; on a word of memory it marks the launch that met it, or, when a write-back or an eviction did, every launch with work: then the word takes
some value, and every other byte of memory stays. Which of a delta's launches is charged, and that all with work are, is the model's (log 24).
Each forms a notice with the address. AVGER_LINK_LOSS, with nothing in flight to the peer, leaves the link lost and the peer's addresses reserved. -/
def Obligations.MachineChecksAndLinkLoss : Prop :=
  (∀ (s : State) (c word : Nat) (e : Nat × RType × ROp × DWord × List Nat), (s.course c).deltas = [e] → overlaps e.1 (deltaBytes e) word 4 = true →
    e.1 / 128 = word / 128 → c < s.courses.length →
    let here (t : Tile) : Bool := t.bound && decide (t.pa ≤ word) && decide (word < t.pa + 16384)
    ∃ t f, exec (.machineCheck (.delta c word)) s = .next t ∧ (t.course c).deltas = [] ∧ t.faults = s.faults ++ [f] ∧
      f.kind = .check ∧ f.va = BitVec.ofNat 64 word ∧ t.mem = s.mem ∧ t.dieCache = s.dieCache ∧
      (∀ q l, (s.course c).tiles.find? here = none → e.2.2.2.2.getLast? = some q → s.launch? q = some l →
        (t.launch? q).map Launch.marked = some true) ∧
      ∀ tile seq i l, (s.course c).tiles.find? here = some tile → tile.claim = some (seq, i) → s.launch? seq = some l →
        (t.launch? seq).map Launch.marked = some true) ∧
  (∀ (s : State) (c word : Nat) (k : KeyEntry) (v : Byte), s.keys = [k] → k.pa / 4096 = word / 4096 → k.passing = none →
    s.teamCourse k.holder = c → (s.course c).dirty = [(word, v)] → c < s.courses.length →
    ∃ t f, exec (.machineCheck (.keyed c word)) s = .next t ∧ t.keys = [] ∧ (t.course c).dirty = [] ∧ t.faults = s.faults ++ [f] ∧
      f.kind = .check ∧ f.va = BitVec.ofNat 64 word ∧ ∀ l, s.launch? (s.seqOf k.holder) = some l →
        (t.launch? (s.seqOf k.holder)).map Launch.marked = some true) ∧
  (∀ (s : State) (seq word : Nat), CanonicalMemory s → (seq ≠ 0 → ∀ f ∈ s.flights, f.seq ≠ seq) →
    ∃ t f, exec (.machineCheck (.memory seq word)) s = .next t ∧ t.faults = s.faults ++ [f] ∧ f.kind = .check ∧
    f.va = BitVec.ofNat 64 word ∧ t.launches = s.launches.map (fun l =>
      if (if seq = 0 then l.live else l.seq == seq) = true then { l with marked := true } else l) ∧
    (∀ p, (seq ≠ 0 ∨ p / 4 ≠ word / 4) → t.home p = s.home p ∧ memGet t.mem p = memGet s.mem p)) ∧
  (∀ (s : State), s.link = .up → (∀ f ∈ s.flights, s.toPeer f = false) → ∃ t f, exec .avgerLinkLoss s = .next t ∧ t.link = .lost ∧
    t.faults = s.faults ++ [f] ∧ f.kind = .check ∧ t.flights = s.flights ∧ t.strands = s.strands ∧
    ∀ pa, pa / 2 ^ 51 ≠ s.dieId → t.reserved pa = true)

/-! ### The host, management and the device -/

/-- R208, R389, R390, R393: host operations on a ready QP, inside a registration whose permissions they have, on one plain cached byte range whose blocks
nobody holds, with nothing accepted in flight. RDMA WRITE leaves its bytes at the home and is acknowledged, READ answers the bytes, COMPARE_SWAP and FETCH_ADD answer the old doubleword
and store the new one. One that no registration covers is answered with a NAK of a remote access error; on a QP that is not ready each is answered
with another NAK, as an unsupported packet is; nothing else changes. -/
def Obligations.HostOperations : Prop :=
  ∀ (s : State) (qpn : Nat) (rkey : Word) (va : DWord) (r : Reg),
    (s.qpReady qpn = true → CanonicalMemory s → s.keys = [] → r.read = true → r.write = true → (∀ f ∈ s.flights, f.acc = none) → (∀ x ∈ s.courses, x.dirty = []) →
      (∀ k ∈ s.streams, k.on = false) →
      (∀ (data : List Byte) (as : List Acc), s.registered rkey va data.length = some r → s.hostAccs va accWrite (·.write) data.length = some as →
        (∀ k < data.length, ∃ a, as[k]? = some a ∧ a.pa = (as.headD default).pa + k ∧ s.place a = .cached ∧ PlainBytes s a.pa) →
        ∃ t, exec (.rdmaWrite qpn rkey va data) s = .next t ∧ t.outbox = s.outbox ++ [.ack qpn] ∧
          MemoryAround s t .sys (fun p => (as.headD default).pa ≤ p ∧ p < (as.headD default).pa + data.length) ∧
          (∀ k < data.length, t.home ((as.headD default).pa + k) = data.getD k 0) ∧
          (∀ p, (p < (as.headD default).pa ∨ (as.headD default).pa + data.length ≤ p) → t.home p = s.home p) ∧
          ∀ j, t.contents j = s.contents j) ∧
      (∀ (n : Nat) (as : List Acc), s.registered rkey va n = some r → s.hostAccs va accRead (·.read) n = some as →
        ∃ t, exec (.rdmaRead qpn rkey va n) s = .next t ∧ t = { s with outbox := s.outbox ++ [.readResp qpn (as.map s.sysByte)] }) ∧
      (∀ (a : Acc), s.registered rkey va 8 = some r →
        s.check unitCourse va 8 (accRead ||| accWrite) (fun p => p.read && p.write) = .ok a → a.page.home = 0 →
        (∀ k < 8, PlainBytes s (a.pa + k)) →
        let old : DWord := BitVec.ofNat 64 (s.homeN a.pa 8)
        (∀ v : DWord, ∃ t, exec (.fetchAdd qpn rkey va v) s = .next t ∧ t.outbox = s.outbox ++ [.atomResp qpn old] ∧
          t.homeN a.pa 8 = (old + v).toNat ∧ ∀ p, (p < a.pa ∨ a.pa + 8 ≤ p) → t.home p = s.home p) ∧
        (∀ cmp new : DWord, ∃ t, exec (.compareSwap qpn rkey va cmp new) s = .next t ∧ t.outbox = s.outbox ++ [.atomResp qpn old] ∧
          t.homeN a.pa 8 = (if old = cmp then new else old).toNat ∧ ∀ p, (p < a.pa ∨ a.pa + 8 ≤ p) → t.home p = s.home p))) ∧
    (∃ t, exec (.unsupportedPacket qpn) s = .next t ∧ t = { s with outbox := s.outbox ++ [.nak qpn .invalid] }) ∧
    (s.qpReady qpn = true → ∀ (data : List Byte) (n : Nat) (v w : DWord),
      (s.registered rkey va data.length = none → exec (.rdmaWrite qpn rkey va data) s =
        .next { s with outbox := s.outbox ++ [.nak qpn .access] }) ∧
      (s.registered rkey va n = none → exec (.rdmaRead qpn rkey va n) s = .next { s with outbox := s.outbox ++ [.nak qpn .access] }) ∧
      (s.registered rkey va 8 = none → ∀ i ∈ [Instr.compareSwap qpn rkey va v w, .fetchAdd qpn rkey va v],
        exec i s = .next { s with outbox := s.outbox ++ [.nak qpn .access] })) ∧
    (s.qpReady qpn = false → ∀ (data : List Byte) (n : Nat) (v w : DWord) (i : Instr),
      i ∈ [.rdmaWrite qpn rkey va data, .rdmaRead qpn rkey va n, .compareSwap qpn rkey va v w, .fetchAdd qpn rkey va v] →
      exec i s = .next { s with outbox := s.outbox ++ [.nak qpn .invalid] })

/-- QPN 1 is up and no management command is unfinished. -/
def Sys2Proof.Machine.Ready (s : State) (m : MgmtMsg) : Prop := s.fw.linkUp = true ∧ s.commands = [] ∧ 64 ≤ m.len

/-- The machine after a completed management command: what it changed, no command pending, the boot message over, and its answer. -/
def Sys2Proof.Machine.State.answering (s : State) (op sub status : Nat) (m : MgmtMsg) (bs : List Byte) : State :=
  let h : BitVec 128 := BitVec.ofNat 128 (op + sub * 2 ^ 8 + status * 2 ^ 16 + m.tag.toNat * 2 ^ 32 + bs.length * 2 ^ 96)
  { s with commands := [], outbox := s.outbox ++ [.answer 1 h bs], fw := { s.fw with booting := false } }

/-- R319, R345, R390, R391, Tables 20.5 and 20.6: management commands that set a table of the die, their operands in range: SETTROOT of an aligned table in GDDR-7
with no launch live or saved (that cached translations and walks in flight go with the old root is the model's choice, log 31), SETPSET, SETREG and SETREGION, QPSET, PROVISION, STREAM of an idle engine, SETBRICK of a partition that holds no brick.
Each sets its table, answers STATUS 0 and changes nothing else. -/
def Sys2Proof.Machine.TableCommands : Prop :=
  ∀ (s : State) (m : MgmtMsg), Ready s m →
    let sets (i : Instr) (op sub : Nat) (u : State) : Prop := exec i s = .next (u.answering op sub 0 m [])
    let i := m.arg0.toNat
    (i % 32768 = 0 → i % 2 ^ 51 < 0x3000000000 → i / 2 ^ 51 = s.dieId → (∀ l ∈ s.launches, l.live = false) → s.saved = [] →
      sets (.settroot m) 2 0 { s with troot := i, trootSet := true, tlb := [], walkCache := [], misses := [] }) ∧
    sets (.setpset m) 4 0 { s with psets := s.psets.set (i % 8) (m.arg1.setWidth 32, m.arg2.setWidth 4) } ∧
    (i ≤ 6 → (∀ x ∈ s.courses, x.bricks = []) → sets (.setbrick m) 5 0 { s with brickPart := i }) ∧
    (i < 256 → m.arg3.getLsbD 34 = true → sets (.setreg m) 6 0 { s with regs := (
      s.regs.filter (fun r => r.index != i) ++ [⟨i, m.arg1, m.arg2, m.arg3.setWidth 32, m.arg3.getLsbD 32, m.arg3.getLsbD 33⟩]) }) ∧
    (i < 256 → m.arg3.getLsbD 34 = false → sets (.setreg m) 6 0 { s with regs := s.regs.filter (fun r => r.index != i) }) ∧
    (i < 256 → m.arg1.getLsbD 63 = true → sets (.setregion m) 6 1 { s with regions := (
      s.regions.filter (fun r => r.index != i) ++ [⟨i, m.arg1.toNat % 2 ^ 24, m.arg2, m.arg3.setWidth 32, m.arg4⟩]) }) ∧
    (i < 256 → m.arg1.getLsbD 63 = false → sets (.setregion m) 6 1 { s with regions := s.regions.filter (fun r => r.index != i) }) ∧
    (∀ k, i < 4 → s.streams[i]? = some k → k.busy = none → k.pending = none → sets (.stream m) 7 0 { s with streams := (
      modAt (fun k => { k with desc := m.arg1, dest := m.arg3 ++ m.arg2, arg4 := m.arg4, arg5 := m.arg5, on := true, next := none }) i s.streams) }) ∧
    (2 ≤ i % 1024 → m.arg0.getLsbD 63 = false → m.arg4.toNat / 2 ^ 24 % 4 ≠ 3 → sets (.qpset m) 13 0 { s with qps := (
      s.qps.filter (fun p => p.qpn != i % 1024) ++ [⟨i % 1024, [m.arg0, m.arg1, m.arg2, m.arg3, m.arg4, m.arg5]⟩]) }) ∧
    (2 ≤ i % 1024 → m.arg0.getLsbD 63 = true → sets (.qpset m) 13 0 { s with qps := s.qps.filter (fun p => p.qpn != i % 1024) }) ∧
    (m.arg4.toNat / 2 ^ 24 % 4 ≠ 3 → sets (.provision m) 14 0
      { s with fw := { s.fw with provision := [m.arg0, m.arg1, m.arg2, m.arg3, m.arg4, m.arg5] } })

/-- R352, R370, R391, R393, R397 to R399: management commands that report or serve. HELLO answers the base block, READLIFE the life record, ATTEST its report and
signature; FWLOAD takes an image that is accepted, and refuses another with STATUS 1; FENCE of a course with no work and REINSTATE set and clear its fence, the latter counted; RETRAIN counts;
SHOOTDOWN, of a calm machine with nothing waiting on the range, drops the translations of the range and answers. -/
def Obligations.ServiceCommands : Prop :=
  ∀ (s : State) (m : MgmtMsg), Ready s m →
    let answers (i : Instr) (op sub : Nat) (u : State) (bs : List Byte) : Prop := exec i s = .next (u.answering op sub 0 m bs)
    let c := m.arg0.toNat
    answers (.hello m) 1 0 s (leBytes 64 (s.areas.qt + s.areas.j * 2 ^ 64 + s.areas.sm * 2 ^ 128 + s.areas.fr * 2 ^ 192 + s.areas.cnt * 2 ^ 256 +
      (Config.firmwareVersion s.fw.image).toNat * 2 ^ 320 + s.dieId * 2 ^ 352 + s.troot * 2 ^ 360)) ∧
    answers (.readlife m) 9 0 s s.life.bytes ∧
    (128 ≤ m.len → answers (.attest m) 8 0 s (s.report m.nonce ++ Config.attestSignature (sha3_512 (s.report m.nonce)))) ∧
    (∀ bs, s.sysRead m.arg0 m.arg1.toNat = some bs → exec (.fwload m) s = .next (
      if s.fw.accepts bs = true then State.answering { s with fw := { s.fw with image := bs } } 10 0 0 m [] else s.answering 10 0 1 m [])) ∧
    (c < 32 → c < s.courses.length → s.launches = [] → (∀ tm ∈ s.teams, courseOf tm.core ≠ c) → ∃ t, exec (.courseFence m) s = .next t ∧
      (t.course c).fenced = true ∧ t.outbox = (s.answering 11 0 0 m []).outbox ∧ ∀ k, k ≠ c → t.course k = s.course k) ∧
    (c < 32 → c < s.courses.length → (s.course c).fenced = true → ∃ t, exec (.reinstate m) s = .next t ∧ (t.course c).fenced = false ∧
      t.life.fences = modAt (fun v => min (2 ^ 32 - 1) (v + 1)) c s.life.fences ∧ t.outbox = (s.answering 11 1 0 m []).outbox) ∧
    (c < 4 → answers (.retrainChannel m) 12 0
      { s with life := { s.life with channels := modAt (fun v => min (2 ^ 32 - 1) (v + 1)) c s.life.channels } } []) ∧
    (s.link = .up → ∃ t, exec (.retrainLink m) s = .next t ∧
      t.life.retrains = modAt (fun v => min (2 ^ 32 - 1) (v + 1)) 0 s.life.retrains ∧ t.outbox = (s.answering 12 1 0 m []).outbox) ∧
    (Calm s → (∀ x ∈ s.courses, x.rounds = [] ∧ x.recs = []) → (∀ x ∈ s.strands, ∀ a z, x.state ≠ .monitor a ∧ x.state ≠ .recordStall z) →
      ∃ t, exec (.shootdown m) s = .next t ∧ t.outbox = (s.answering 3 0 0 m []).outbox ∧ t.strands = s.strands ∧ t.mem = s.mem ∧
        t.dieCache = s.dieCache ∧ t.dieClean = s.dieClean ∧ (∀ e ∈ t.tlb, e ∈ s.tlb ∧ (e.page.large = false →
          overlaps (65536 * e.vpage) 65536 m.arg0.toNat m.arg1.toNat = false)) ∧
        ∀ e ∈ s.tlb, e.page.large = false → overlaps (65536 * e.vpage) 65536 m.arg0.toNat m.arg1.toNat = false → e ∈ t.tlb)

/-- R391, R392: what no management command does: before QPN 1 is up each is refused with a NAK, a message shorter than its command is answered
STATUS 2 with nothing changed, and so is one that names no command. A command that finds another unfinished waits behind it. -/
def Sys2Proof.Machine.ManagementRefusals : Prop :=
  ∀ (s : State) (m : MgmtMsg),
    (s.fw.linkUp = false → ∀ i, i ∈ ([.hello m, .settroot m, .shootdown m, .setpset m, .setbrick m, .setreg m, .setregion m, .stream m, .attest m,
        .readlife m, .fwload m, .courseFence m, .reinstate m, .retrainChannel m, .retrainLink m, .qpset m, .provision m] : List Instr) →
      exec i s = .next { s with outbox := s.outbox ++ [.nak 1 .invalid] }) ∧
    (s.fw.linkUp = true → s.commands = [] → m.len < 64 → ∀ i op sub, (i, op, sub) ∈ ([(.hello m, 1, 0), (.settroot m, 2, 0), (.shootdown m, 3, 0),
        (.setpset m, 4, 0), (.setbrick m, 5, 0), (.setreg m, 6, 0), (.setregion m, 6, 1), (.stream m, 7, 0), (.attest m, 8, 0), (.readlife m, 9, 0),
        (.fwload m, 10, 0), (.courseFence m, 11, 0), (.reinstate m, 11, 1), (.retrainChannel m, 12, 0), (.retrainLink m, 12, 1), (.qpset m, 13, 0),
        (.provision m, 14, 0)] : List (Instr × Nat × Nat)) → exec i s = .next (s.answering op sub 2 m []) ∧
      ∀ cmd r, cmd ≠ (op, sub, m) → exec i { s with commands := cmd :: r } = .next { s with
        fw := { s.fw with booting := false },
        commands := if (op, sub, m) ∈ r then cmd :: r else cmd :: r ++ [(op, sub, m)] }) ∧
    (s.fw.linkUp = true → s.commands = [] → ∀ op sub : Byte, (op.toNat, sub.toNat) ∉ knownCommands →
      s.deviceMove (.unknownCommand op sub m) = s.answering op.toNat sub.toNat 2 m [])

/-- R391, R392, Tables 20.2 and 20.5: the bytes of a SEND (Table 13.3). On queue pair 1 the OP and the SUB in bytes 0 and 1 name the command, TAG stands in bytes
4 to 7, ARGk in the eight bytes from 8 + 8k and the nonce from byte 64 on; on another the bits 9:8 name the doorbell, whose QUEUE is in byte
0 and whose PRODUCER is in bytes 4 to 7. -/
def Sys2Proof.Machine.MessagesInBytes : Prop :=
  ∀ (s : State) (bs : List Byte),
    let at' (a n : Nat) : Nat := leNat ((bs.drop a).take n)
    let arg (k : Nat) : DWord := BitVec.ofNat 64 (at' (8 + 8 * k) 8)
    let m : MgmtMsg := { tag := BitVec.ofNat 32 (at' 4 4), len := bs.length, arg0 := arg 0, arg1 := arg 1, arg2 := arg 2, arg3 := arg 3,
                         arg4 := arg 4, arg5 := arg 5, arg6 := arg 6, nonce := (bs.drop 64).take 64 }
    (∀ i op sub, (i, op, sub) ∈ ([(.hello m, 1, 0), (.settroot m, 2, 0), (.shootdown m, 3, 0), (.setpset m, 4, 0), (.setbrick m, 5, 0),
        (.setreg m, 6, 0), (.setregion m, 6, 1), (.stream m, 7, 0), (.attest m, 8, 0), (.readlife m, 9, 0), (.fwload m, 10, 0),
        (.courseFence m, 11, 0), (.reinstate m, 11, 1), (.retrainChannel m, 12, 0), (.retrainLink m, 12, 1), (.qpset m, 13, 0),
        (.provision m, 14, 0)] : List (Instr × Byte × Byte)) → bs.getD 0 0 = op → bs.getD 1 0 = sub → s.receive 1 bs = exec i s) ∧
    ((∀ op sub : Nat, (op, sub) ∈ knownCommands → ((bs.getD 0 0).toNat, (bs.getD 1 0).toNat) ≠ (op, sub)) →
      s.receive 1 bs = .next (s.deviceMove (.unknownCommand (bs.getD 0 0) (bs.getD 1 0) m))) ∧
    ∀ q (d : Doorbell), q ≠ 1 → d.qpn = q → d.len = bs.length → d.queue.1 = at' 0 1 % 64 → d.producer = BitVec.ofNat 32 (at' 4 4) →
      s.receive q bs = exec (match at' 1 1 % 4 with
        | 0 => .doorbellSubmit d
        | 1 => .doorbellEnable d
        | 2 => .doorbellDisable d
        | _ => .doorbellAbort d) s

/-- R391, R392, Tables 20.1 and 20.2: management commands of the tables, refusals, and messages in their bytes. -/
def Obligations.ManagementCommands : Prop := TableCommands ∧ ManagementRefusals ∧ MessagesInBytes

/-- R370, R393, R394, R399: device reset, power and temperature. DEVICE_RESET gives the registers named here their reset values and keeps flash; POWER_LOSS, and
THERMAL_POWEROFF at 115 degrees, leave the package off; THERMAL_THROTTLE above 105 lowers the clock one step; PORT_LINK_UP with firmware that the boot ROM
accepts brings QPN 1 up with the boot message, which repeats until a command comes; ETHERNET_LANE_RETRAIN is counted in its lane. -/
def Sys2Proof.Machine.ResetAndPower : Prop :=
  ∀ (s : State),
    (∃ t, exec .deviceReset s = .next t ∧ t.powered = true ∧ t.strands = [] ∧ t.teams = [] ∧ t.bundles = [] ∧ t.flights = [] ∧
      t.courses = List.replicate 32 Course.reset ∧ t.queues = List.replicate 64 Queue.reset ∧ t.launches = [] ∧ t.seq = 0 ∧ t.timebase = 0 ∧
      t.counters = List.replicate 32 0 ∧ t.trootSet = false ∧ t.qps = [] ∧ t.faults = [] ∧ t.psets = State.reset.psets ∧
      t.areas = State.reset.areas ∧ t.fw.image = s.fw.image ∧ t.fw.provision = s.fw.provision ∧ t.fw.peer = s.fw.provision ∧
      t.fw.linkUp = false ∧ t.dieId = s.dieId ∧ t.link ≠ .lost) ∧
    (∃ t, exec .powerLoss s = .next t ∧ t.powered = false ∧ t.mem = [] ∧ t.fw.provision = s.fw.provision) ∧
    (∀ d, (115 ≤ d → ∃ t, exec (.thermalPoweroff d) s = .next t ∧ t.powered = false ∧ t.mem = []) ∧
      (105 < d → exec (.thermalThrottle d) s = .next { s with throttle := s.throttle + 1 }) ∧
      (d ≤ 105 → exec (.thermalThrottle d) s = .next s)) ∧
    (s.fw.linkUp = false → ∃ t, exec .portLinkUp s = .next t ∧ t.fw.linkUp = s.fw.accepts s.fw.image ∧
      (s.fw.accepts s.fw.image = true → t.fw.booting = true ∧ t.outbox = s.outbox ++ [s.bootMessage]) ∧
      (s.fw.accepts s.fw.image = false → t = s)) ∧
    (s.fw.linkUp = true → s.fw.booting = true → exec .bootMessageRepeat s = .next { s with outbox := s.outbox ++ [s.bootMessage] }) ∧
    (∀ lane, lane < 8 → ∃ t, exec (.ethernetLaneRetrain lane) s = .next t ∧
      t.life.retrains = modAt (fun v => min (2 ^ 32 - 1) (v + 1)) (lane + 1) s.life.retrains)

/-- R163, R207, R211, R216, R340, R350, R351, R370, R379: what the device, the peer die and errors of storage do in turns of their own (log 48). A miss starts a walk of its
page, joins the walk that is in flight, or waits for a full miss table; a core's TLB takes a page from its course's; the TLBs and the walk cache
drop an entry; a course's cache drops a line that is not pinned, and its bytes are at the home; the peer reads and writes memory at its home;
an error is counted, or spoils a register; the host refuses an entry's payload or stamp. -/
def Sys2Proof.Machine.DeviceMoves : Prop :=
  ∀ (s : State),
    (∀ unit va, let v := va.toNat / 65536
      canonical va = true → s.tlbHit unit v = none → s.missWait = [] →
        ((∀ m ∈ s.misses, m.vpage ≠ v) → s.misses.length < 4096 → s.deviceMove (.pageMiss unit va) =
          { s with misses := s.misses ++ [⟨v, [unit], Found.of (s.walk (BitVec.ofNat 64 (65536 * v)))⟩] }) ∧
        ((∀ m ∈ s.misses, m.vpage ≠ v) → 4096 ≤ s.misses.length → s.deviceMove (.pageMiss unit va) = { s with missWait := [(unit, v)] }) ∧
        ((∃ m ∈ s.misses, m.vpage = v) → (∀ m ∈ s.misses, m.vpage = v → unit ∉ m.units) → s.deviceMove (.pageMiss unit va) =
          { s with misses := s.misses.map (fun m => if m.vpage = v then { m with units := m.units ++ [unit] } else m) })) ∧
    (∀ core va e, s.tlb.find? (fun e => e.unit == courseOf core && e.holds (va.toNat / 65536)) = some e →
      { e with unit := coreUnit core } ∈ (s.deviceMove (.coreFill core va)).tlb ∧ { s.deviceMove (.coreFill core va) with tlb := s.tlb } = s) ∧
    (∀ k, (∀ e ∈ (s.deviceMove (.tlbReplace k)).tlb, e ∈ s.tlb) ∧ { s.deviceMove (.tlbReplace k) with tlb := s.tlb } = s ∧
      (∀ e ∈ (s.deviceMove (.walkReplace k)).walkCache, e ∈ s.walkCache) ∧ { s.deviceMove (.walkReplace k) with walkCache := s.walkCache } = s) ∧
    (∀ c line, let t := s.deviceMove (.courseEviction c line)
      (((s.course c).valid.contains line = false ∨ (s.course c).pins.contains line = true) → t = s) ∧
      ((s.course c).valid.contains line = true → (s.course c).pins.contains line = false → CanonicalMemory s → (∀ f ∈ s.flights, f.acc = none) →
        (∀ k x, s.courses[k]? = some x → k ≠ c → x.dirty = []) → (s.course c).deltas = [] → c < s.courses.length →
        sortedCells (s.course c).dirty = true → sortedCells (s.course c).clean = true →
        t.keys = s.keys ∧ t.mem = s.mem ∧ (∀ j, t.contents j = s.contents j) ∧
        (∀ p, p / 128 = line → t.home p = (cellGet (s.course c).dirty p).getD (s.home p) ∧ cellGet (t.course c).dirty p = none ∧
          cellGet (t.course c).clean p = none) ∧
        ∀ p, p / 128 ≠ line → t.home p = s.home p ∧ cellGet (t.course c).dirty p = cellGet (s.course c).dirty p)) ∧
    (∀ pa n, s.fromPeer pa n = true → let t := s.deviceMove (.peerRead pa n)
      (∀ p, t.home p = s.home p) ∧ t.mem = s.mem ∧ t.keys = s.keys ∧ t.strands = s.strands ∧
        ∀ i < n, t.peerLines.contains ((pa + i) / 128) = true) ∧
    (∀ pa data release, s.keys = [] → (∀ f ∈ s.flights, f.acc = none) → (∀ x ∈ s.courses, x.dirty = []) → CanonicalMemory s →
      (∀ p v, cellGet s.dieClean p = some v → v = memGet s.mem p) → (∀ i < data.length, PlainBytes s (pa + i)) → (∀ i < data.length, s.foreign (pa + i) = s.foreign pa) →
      (s.fromPeer pa data.length = true ∨ (s.link = .up ∧ s.foreign pa = true ∧ s.reserved pa = false ∧
        s.reserved (pa + data.length - 1) = false ∧ data ≠ [])) →
      let t := s.deviceMove (.peerWrite pa data release)
      (∀ i < data.length, t.home (pa + i) = data.getD i 0) ∧ (∀ p, (p < pa ∨ pa + data.length ≤ p) → t.home p = s.home p) ∧
        ∀ j, t.contents j = s.contents j) ∧
    (∀ item, s.deviceMove (.corrected item) = { s with life := { s.life with
      corrected := modAt (fun v => min (2 ^ 32 - 1) (v + 1)) item s.life.corrected } }) ∧
    (∀ sid (g : GReg) x, s.strand? sid = some x →
      (s.deviceMove (.registerError sid g)).strand? sid = some { x with poison := x.poison ||| (1#256 <<< g.1) }) ∧
    (∀ team ring stamp r b bs, s.ring? team ring = some r → r.begun = b :: bs →
      ((s.deviceMove (.hostRefusal team ring stamp)).ring? team ring).map Ring.begun =
        some ({ b with refused := if stamp then 2 else 1 } :: bs))

/-- R370, R393, R394, R399: device reset, power and temperature, and the moves of the device. -/
def Obligations.DeviceEvents : Prop := ResetAndPower ∧ DeviceMoves

/-- R369, R370, R395, R396: counters, the life record and the stream engines. COUNTER_SNAPSHOT in a new interval writes every group of counters to its 256
bytes; LIFE_RECORD_UPDATE adds the whole seconds since the last one; STREAM_TRIGGER gives every engine that has the descriptor a trigger at the current time; STREAM_FRAME_START takes
it, with FRAME, and ERR 2 for a malformed descriptor; STREAM_FRAME_DONE ends the frame, writes ERR and DONE of the descriptor, and sends an encoded one. -/
def Obligations.CountersAndStreams : Prop :=
  (∀ (s : State), s.snaps < s.now / 1048576 → s.courses.length = 32 → s.counters.length = 32 → (∀ x ∈ s.courses, x.counters.length = 32) →
    ∃ t, exec .counterSnapshot s = .next t ∧ t.snaps = s.now / 1048576 ∧ (∀ j < 32, t.homeN (s.areas.cnt + 8 * j) 8 = (s.counters.getD j 0).toNat) ∧
      (∀ c < 32, ∀ j < 32, t.homeN (s.areas.cnt + 256 * (c + 1) + 8 * j) 8 = ((s.course c).counters.getD j 0).toNat) ∧
      t.counters = s.counters ∧ ∀ sid, t.contents sid = s.contents sid) ∧
  (∀ (s : State), ∃ t, exec .lifeRecordUpdate s = .next t ∧ t.life.powered = s.life.powered + (s.now - s.life.since) / 2700000000 ∧
    t.life.uncorrected = s.life.uncorrected ∧ t.strands = s.strands) ∧
  (∀ (s : State) (id sid : Nat) (engs : BitVec 4) (f : Flight) (acc : Acc) (v : Word) (sc : Scope), s.flight? id = some f →
    f.op = .trigger sid engs acc v sc → f.acc.isSome = true → s.flights = [f] → s.unacted f sid = false →
    ∃ t, exec (.streamTrigger id) s = .next t ∧ t.flight? id = none ∧ ∀ e, t.streams[e]? =
      (s.streams[e]?).map (fun k => if engs.getLsbD e then { k with pending := some s.timebase } else k)) ∧
  (∀ (s : State) (eng : Nat) (k : Stream) (at' : DWord) (bs : List Byte), s.streams[eng]? = some k → k.pending = some at' → k.busy = none → k.next = none →
    s.sysRead k.desc 64 = some bs →
    let frame : Word := BitVec.ofNat 32 (leNat bs / 2 ^ 448)
    let took (data : Option (List Byte)) (err : Word) : Prop := ∃ t, exec (.streamFrameStart eng) s = .next t ∧
      t = { s with streams := s.streams.set eng { k with pending := none, busy := some (frame, at', data, err) } }
    ((FrameDesc.ofNat (leNat bs)).malformed = true → took none 2) ∧
    ((FrameDesc.ofNat (leNat bs)).malformed = false → s.compose (k.arg4.getLsbD 17) (FrameDesc.ofNat (leNat bs)) = none → took none 1) ∧
    (∀ px, (FrameDesc.ofNat (leNat bs)).malformed = false → s.compose (k.arg4.getLsbD 17) (FrameDesc.ofNat (leNat bs)) = some px → ∃ data, took (some data) 0)) ∧
  (∀ (s : State) (eng : Nat) (k : Stream) (frame err : Word) (at' : DWord) (data : Option (List Byte)), s.streams[eng]? = some k →
    k.busy = some (frame, at', data, err) → ∃ t, exec (.streamFrameDone eng) s = .next t ∧
      t.streams = s.streams.set eng { k with busy := none } ∧ t.outbox = s.outbox ++ (match data with
        | some bs => [.rtp eng k.dest (k.arg4.toNat % 65536) (BitVec.ofNat 64 (at'.toNat / 30000)) bs]
        | none => []) ∧
      ∀ ae ad, s.check unitCourse (k.desc + 4) 4 accWrite (·.write) = .ok ae →
        (s.putDesc (k.desc + 4) err).check unitCourse (k.desc + 60) 4 accWrite (·.write) = .ok ad →
        s.place ae = .cached → s.place ad = .cached → s.keys = [] → (∀ f ∈ s.flights, f.acc = none) → (∀ x ∈ s.courses, x.dirty = []) →
        (ae.pa + 4 ≤ ad.pa ∨ ad.pa + 4 ≤ ae.pa) →
        t.homeN ae.pa 4 = err.toNat ∧ t.homeN ad.pa 4 = frame.toNat ∧
        ∀ p, (p < ae.pa ∨ ae.pa + 4 ≤ p) → (p < ad.pa ∨ ad.pa + 4 ≤ p) → t.home p = s.home p)

/-! ### Steps, faults of an encoding, clauses, encodings, memory and reset -/

/-- R22, R27, R62: a step is the turn that comes. Its cycles pass, one at least when its place in the cycle has gone by (log 47), and what
is due is done; then an event is carried out, the device moves, the bytes of a SEND arrive, or a word that decodes, agrees with its clause and names registers the
kernel has, in lanes that hold no uncorrectable register it reads and no full counter it raises, is executed on its bundle. A turn of the
plan is used up; without a plan the turns are the model's own (log 5). Powered off, only a device reset comes. -/
def Obligations.StepRunsTheTurn : Prop :=
  (∀ s : State,
    let passed : State := { s with timebase := s.timebase + BitVec.ofNat 64 (s.cyclesOf s.turn), rank := s.rankOf s.turn.move,
                                   afresh := s.turn.afresh, words := s.turn.words }
    (∀ t r, s.plan = t :: r → s.turn = t ∧ s.afterTurn = { passed with plan := r }.settle) ∧
    (s.plan = [] → s.turn = Config.freeTurn s.turns ∧ s.afterTurn = { passed with turns := s.turns + 1 }.settle) ∧
    (s.rank ≤ s.rankOf s.turn.move → s.readsLate s.turn.move = false → s.cyclesOf s.turn = s.turn.cycles) ∧
    (s.rankOf s.turn.move < s.rank → s.cyclesOf s.turn = max 1 s.turn.cycles)) ∧
  (∀ (s : State) (i : Instr), s.turn.move = .event i → Instr.info i = none → (s.powered = true ∨ i = .deviceReset) →
    step s = exec i s.afterTurn) ∧
  (∀ (s : State) (k : Nat) (b : Bundle) (cl : Cls) (w : DWord) (ws : List DWord) (d : Decoded) (m : Info),
    let u := s.afterTurn
    s.turn.move = .word k → s.powered = true → u.bundles[k]? = some b → b.cls = some cl → b.words = w :: ws →
    decode w ws.head? = .ok d → Instr.info d.instr = some m → clauseFault cl d.slots m = false → b.lanes ≠ [] →
    (∀ sid ∈ b.lanes, ∀ x, u.strand? sid = some x → fullFor m x = 0 ∧ x.badReads m = 0 ∧
      ∀ tm, u.team? x.tid = some tm → m.fits tm.kernel.regs = true) →
    step s = exec d.instr { u with bundles := b :: u.bundles.eraseIdx k }) ∧
  (∀ (s : State) (q : Nat) (bs : List Byte), s.turn.move = .send q bs → s.powered = true → step s = s.afterTurn.receive q bs) ∧
  (∀ (s : State) (d : DeviceMove), s.turn.move = .device d → s.powered = true → step s = .next (s.afterTurn.deviceMove d)) ∧
  (∀ s : State, s.powered = false → s.turn.move ≠ .event .deviceReset → step s = .fault .poweredOff)

/-- R61, R62, Table 3.10: the faults of an encoding, in their order: ILLEGAL-OPCODE, ILLEGAL-ENCODING, ILLEGAL-CLAUSE, REGISTER-RANGE. The
strand of the bundle, whether or not its lane is active, enters its handler at the word, which has no effect. -/
def Obligations.IssueFaults : Prop :=
  ∀ (s : State) (b : Bundle) (bs : List Bundle) (x : Strand) (tm : Team) (cl : Cls) (w : DWord) (ws : List DWord),
    s.bundles = b :: bs → b.lanes = [x.sid] → s.strand? x.sid = some x → s.team? x.tid = some tm → x.trapsTo = true →
    b.cls = some cl → b.words = w :: ws →
    let traps (cause : Word) : Prop := ∃ t y, s.issueHead = .next t ∧ t.outside = s.outside ∧ t.bundles = bs ∧
      t.strand? x.sid = some y ∧ EntersTrap s tm.core x b.pc b.cls cause 0 0 y
    (decode w ws.head? = .error .illegalOpcode → traps 1) ∧
    (∀ e, decode w ws.head? = .error e → e ≠ .illegalOpcode → traps 2) ∧
    (∀ d m, decode w ws.head? = .ok d → Instr.info d.instr = some m →
      (clauseFault cl d.slots m = true → traps 3) ∧
      (clauseFault cl d.slots m = false → m.fits tm.kernel.regs = false → traps 4))

/-- R51, R52: a word that would raise a counter of an active lane above 255 is not issued: every strand of the bundle returns to the PC
table at that word, those whose counter stands at 255 parked until it is at most 254, the others READY. A lane in which the word faults,
or does nothing (R223, R232), raises none. That only those park is the model's choice (log 16). -/
def Sys2Proof.Machine.CounterLimit : Prop :=
  (∀ (s : State) (b : Bundle) (bs : List Bundle) (cl : Cls) (w : DWord) (ws : List DWord) (d : Decoded) (m : Info),
    s.bundles = b :: bs → b.cls = some cl → b.words = w :: ws → decode w ws.head? = .ok d → Instr.info d.instr = some m →
    clauseFault cl d.slots m = false →
    (∀ sid ∈ b.lanes, ∀ x tm, s.strand? sid = some x → s.team? x.tid = some tm → m.fits tm.kernel.regs = true) →
    (∃ sid ∈ b.lanes, ∃ x, s.strand? sid = some x ∧ s.overFor b d.instr m x ≠ 0) →
    ∃ t, s.issueHead = .next t ∧ t.outside = s.outside ∧ t.bundles = bs ∧
      ∀ x, s.strand? x.sid = some x → x.sid ∈ b.lanes →
        t.strand? x.sid = some { x with pc := b.pc, cls := b.cls, since := s.now, state := if s.overFor b d.instr m x = 0 then .ready else .parkedFull (s.overFor b d.instr m x) }) ∧
  (∀ (s : State) (b : Bundle) (i : Instr) (m : Info) (x : Strand), s.overFor b i m x =
    if (x.active m.c && x.unmasked m.c && x.badReads m == 0) && !s.idle b x i && !s.laneFaults b i x then x.full m.ctrs else 0) ∧
  (∀ (x : Strand) (now : Nat) (k : Ctr) (full : BitVec 4), x.state = .parkedFull full →
    ((x.lower now k).state = .ready ↔ ∀ j : Ctr, full &&& j.bit ≠ 0 → (x.setCtr k (x.ctr k - 1)).ctr j ≤ 254))

/-- R53 to R55, R46 of the clause: after a word that raises no counter and is not the last of its clause the bundle goes on to the next slot;
with SW the strands return READY at that slot, under the clause state that is left; at the end of the clause each strand reaches
the following header. After an LD with SW the strand waits until its loads have returned. -/
def Sys2Proof.Machine.ClauseAdvance : Prop :=
  (∀ (s : State) (b : Bundle) (bs : List Bundle) (cl : Cls) (c : Ctl), s.bundles = b :: bs → b.cls = some cl → c.mask = none → b.lanes ≠ [] →
    (c.sw = false → 1 < cl.left → exec (.nop c) s = .next { s with bundles := { b with pc := b.pc + 8, cls := some ⟨cl.eng, cl.term, cl.left - 1, cl.idx + 1⟩, words := b.words.drop 1 } :: bs }) ∧
    (c.sw = true → 1 < cl.left → ∃ t, exec (.nop c) s = .next t ∧ t.outside = s.outside ∧ t.bundles = bs ∧
      ∀ x, s.strand? x.sid = some x → x.sid ∈ b.lanes →
        t.strand? x.sid = some { x with pc := b.pc + 8, cls := some ⟨cl.eng, cl.term, cl.left - 1, cl.idx + 1⟩, since := s.now, state := .ready }) ∧
    (cl.left = 1 → ∃ t, exec (.nop c) s = .next t ∧ t.outside = s.outside ∧ t.bundles = bs ∧
      ∀ x, s.strand? x.sid = some x → x.sid ∈ b.lanes → ∃ y, t.strand? x.sid = some y ∧ y.content = x.content ∧
        Stands s b.core x (b.pc + 8) y)) ∧
  (∀ (s : State) (b : Bundle) (c : Ctl) (x : Strand) (cl : Cls) (w : Width) (sc : Scope) (o : Order) (d a : GReg) (off : Off) (acc : Acc),
    Alone s b c x → b.cls = some cl → c.sw = true → c.mask = none → 1 < cl.left →
    s.check (coreUnit b.core) (x.ea a off) w.bytes accRead (·.read) = .ok acc →
    ∃ t, exec (.ld c w sc o d a off) s = .next t ∧ (t.strand? x.sid).map Strand.state = some (.parked 1) ∧
      (t.strand? x.sid).map Strand.pc = some (b.pc + 8))

/-- R51 to R55: counters at their limit, and the way through a clause. -/
def Obligations.CountersAndClauses : Prop := CounterLimit ∧ ClauseAdvance

/-- R39 to R50, Table 4.1: decoding the words of a well-formed instruction gives it back, with every operand, and the number of its slots,
whatever slot follows a word that has no companion. -/
def Obligations.EncodingRoundTrip : Prop :=
  ∀ i : Instr, i.wf = true → (Instr.info i).isSome = true →
    (∃ w, encode i = [w] ∧ ∀ next : Option DWord, (∀ x, next = some x → isComp x = false) → decode w next = .ok ⟨i, 1⟩) ∨
    (∃ w x, encode i = [w, x] ∧ decode w (some x) = .ok ⟨i, 2⟩)

/-- R37, R49, R61: only the words of a well-formed instruction decode. A companion word where a leading word must stand, an OP
that is not assigned and a required companion word that is missing are refused. -/
def Obligations.OnlyEncodingsDecode : Prop :=
  (∀ (w : DWord) (next : Option DWord) (d : Decoded), decode w next = .ok d → d.instr.wf = true ∧
    ((d.slots = 1 ∧ encode d.instr = [w]) ∨ (d.slots = 2 ∧ ∃ x, next = some x ∧ encode d.instr = [w, x]))) ∧
  (∀ (w : DWord) (next : Option DWord), isComp w = true → decode w next = .error .strayCompanion) ∧
  (∀ (w : DWord) (next : Option DWord), isComp w = false → compRule (w.extractLsb' 53 10) = none → decode w next = .error .illegalOpcode) ∧
  (∀ (w : DWord) (next : Option DWord), isComp w = false → compRule (w.extractLsb' 53 10) = some .required →
    (∀ x, next = some x → isComp x = false) → decode w next = .error .missingCompanion)

/-- Words the spec writes out with the instruction they stand for (files 03 to 11). -/
def Obligations.SpecWordsDecode : Prop :=
  let c : Ctl := ⟨false, 15, false, none, none⟩
  let m : Ctl := ⟨false, 15, false, some ⟨15, false, false⟩, none⟩
  decode 0x081E_0405_0608_0000#64 none = .ok ⟨.add c .n32 false 4 5 6, 1⟩ ∧
  decode 0xB01E_0814_8000_0040#64 none = .ok ⟨.ld { c with sw := true } .n32 .plain .plain 8 20 0x40, 1⟩ ∧
  decode 0x0024_0000_00FF_FFF0#64 none = .ok ⟨.bra { c with pred := 2 } 0xFFFFF0, 1⟩ ∧
  decode 0x0FDE_0200_0001_0000#64 none = .ok ⟨.movi c 2 0x10000, 1⟩ ∧
  decode 0x187E_0604_0548_0000#64 (some 0x7FFE_0700_0000_0000#64) = .ok ⟨.ffma m .rn false Mods.none 6 4 5 7, 2⟩ ∧
  decode 0x00DE_0000_0000_0000#64 none = .ok ⟨.exit c, 1⟩ ∧
  decode 0x007E_1E00_0000_0005#64 none = .ok ⟨.call c 30 5, 1⟩ ∧
  decode 0x0E5E_0A0A_0000_0003#64 none = .ok ⟨.mulImm c 10 10 3, 1⟩ ∧
  decode 0x205E_0C10_146D_0009#64 none = .ok ⟨.cvtx c .f8e4 .sr false 12 16 20 none, 1⟩ ∧
  decode 0x295E_0C0D_0448_0020#64 none = .ok ⟨.breduce c .f32 .rn false .add (.key 4) 12 13, 1⟩ ∧
  decode 0x325E_0506_0000_0308#64 none = .ok ⟨.carve c 5 6 3 8, 1⟩ ∧
  decode 0x311E_0402_8C00_0008#64 (some 0x7FFE_0600_0000_0001#64) = .ok ⟨.atom m .n32 .die .plain .cas false false 4 2 6 8, 2⟩ ∧
  decode 0x313E_0702_8800_0010#64 (some 0x7FFE_0000_0000_0000#64) = .ok ⟨.red m .course .plain .f32 .add 7 2 0x10, 2⟩ ∧
  decode 0x31BE_0502_0000_0000#64 none = .ok ⟨.keypass c 5 2 0, 1⟩ ∧
  decode 0x381E_0140_0100_0022#64 (some 0x7FFE_0800_0000_0000#64) = .ok ⟨.mma m 1 2 (.reg 64) (.ob 1) 8 0 0, 2⟩ ∧
  decode 0x38DE_0108_0C00_0000#64 none = .ok ⟨.obst c 1 8 12, 1⟩ ∧
  decode 0x30FE_2814_C800_0100#64 none = .ok ⟨.lda c .n128 40 20 0x100, 1⟩

/-- Every step from a machine whose memory and die cache are canonical leaves them so: no word and no event corrupts them (the form is
the model's, the bytes are those of files 08 to 10). -/
def Obligations.MemoryStaysCanonical : Prop := ∀ s t : State, CanonicalMemory s → step s = .next t → CanonicalMemory t

/-- The read of a byte after writes, in memory of the canonical form: the byte written there, else what was there before;
and a write keeps the form. -/
def Obligations.MemoryReadAfterWrite : Prop :=
  ∀ (m : Bytes) (a : Nat) (bs : List Byte), Memory.wf m = true →
    Memory.wf (memPutL a bs m) = true ∧
    (∀ i, (h : i < bs.length) → memGet (memPutL a bs m) (a + i) = bs[i]) ∧
    (∀ x, x < a ∨ a + bs.length ≤ x → memGet (memPutL a bs m) x = memGet m x)

/-- R84, R25, R274, R368, R375, Tables 13.2 and 18.1: what reset leaves where the spec says it. That memory lists nothing (log 1) and that no key
is held (log 2) are the model's choices. The timebase, the starvation counts, the
counters of the die and of every course, SEQ and FRID are 0, so that the first launch is 1 and the first fault record 1; the queues are
disabled with the values of Table 13.2; no strand, team, flight, launch, fault record, key or binding exists. -/
def Obligations.ResetState : Prop :=
  State.reset.timebase = 0 ∧ State.reset.starve = List.replicate 256 0 ∧ State.reset.counters = List.replicate 32 0 ∧
  State.reset.courses.length = 32 ∧ (∀ x ∈ State.reset.courses, x.counters = List.replicate 32 0) ∧
  State.reset.seq = 0 ∧ State.reset.frid = 0 ∧ State.reset.queues = List.replicate 64 ⟨0, 0, 0, 0, 0, 4, false, false, false, false, 0, 0, 0, 0⟩ ∧
  State.reset.strands = [] ∧ State.reset.teams = [] ∧ State.reset.bundles = [] ∧ State.reset.flights = [] ∧ State.reset.launches = [] ∧
  State.reset.faults = [] ∧ State.reset.keys = [] ∧ State.reset.bindings = [] ∧ CanonicalMemory State.reset
end

