-- ==== Sys2Proof/Laws/Encoding.lean ====
section
/-! SUPPORT. Laws of the field layouts and codes: reading back what was laid out. -/

namespace Sys2Proof

/-! ### Layouts -/

theorem Lead.ofWord_toWord (f : Lead) : Lead.ofWord f.toWord = f := by
  obtain ⟨sw, op, pred, pneg, d, a, b, low⟩ := f
  simp only [Lead.ofWord, Lead.toWord, Lead.mk.injEq]
  refine ⟨?_, ?_, ?_, ?_, ?_, ?_, ?_, ?_⟩ <;>
    first
    | (apply BitVec.eq_of_getLsbD_eq; intro i hi
       simp only [BitVec.getLsbD_extractLsb', BitVec.getLsbD_append, BitVec.getLsbD_ofBool]
       simp (disch := omega) only [hi, decide_true, Bool.true_and, if_pos, if_neg]
       congr 1 <;> omega)
    | (simp only [BitVec.getLsbD_append, BitVec.getLsbD_ofBool]
       simp (disch := omega) only [if_pos, if_neg]
       simp)

theorem V3.ofBits_toBits (v : V3) : V3.ofBits v.toBits = v := by
  obtain ⟨ty, rnd, sat, na, nb, aa, ab, fn, aux⟩ := v
  simp only [V3.ofBits, V3.toBits, V3.mk.injEq]
  refine ⟨?_, ?_, ?_, ?_, ?_, ?_, ?_, ?_, ?_⟩ <;>
    first
    | (apply BitVec.eq_of_getLsbD_eq; intro i hi
       simp only [BitVec.getLsbD_extractLsb', BitVec.getLsbD_append, BitVec.getLsbD_ofBool]
       simp (disch := omega) only [hi, decide_true, Bool.true_and, if_pos, if_neg]
       congr 1 <;> omega)
    | (simp only [BitVec.getLsbD_append, BitVec.getLsbD_ofBool]
       simp (disch := omega) only [if_pos, if_neg]
       simp)

theorem MB.ofBits_toBits (m : MB) : MB.ofBits m.toBits = m := by
  obtain ⟨w, s, o⟩ := m
  simp only [MB.ofBits, MB.toBits, MB.mk.injEq]
  refine ⟨?_, ?_, ?_⟩ <;>
    (apply BitVec.eq_of_getLsbD_eq; intro i hi
     simp only [BitVec.getLsbD_extractLsb', BitVec.getLsbD_append]
     simp (disch := omega) only [hi, decide_true, Bool.true_and, if_pos, if_neg]
     congr 1 <;> omega)

theorem Comp.ofWord_toWord (x : Comp) : Comp.ofWord x.toWord = x := by
  obtain ⟨p, n, c, r, z, u⟩ := x
  simp only [Comp.ofWord, Comp.toWord, Comp.mk.injEq]
  refine ⟨?_, ?_, ?_, ?_, ?_, ?_⟩ <;>
    first
    | (apply BitVec.eq_of_getLsbD_eq; intro i hi
       simp only [BitVec.getLsbD_extractLsb', BitVec.getLsbD_append, BitVec.getLsbD_ofBool]
       simp (disch := omega) only [hi, decide_true, Bool.true_and, if_pos, if_neg]
       congr 1 <;> omega)
    | (simp only [BitVec.getLsbD_append, BitVec.getLsbD_ofBool]
       simp (disch := omega) only [if_pos, if_neg]
       simp)

theorem Lead.toWord_op (f : Lead) : f.toWord.extractLsb' 53 10 = f.op := congrArg Lead.op (Lead.ofWord_toWord f)

theorem isComp_comp (x : Comp) : isComp x.toWord = true := by
  have h : x.toWord.extractLsb' 53 10 = compOp := by
    apply BitVec.eq_of_getLsbD_eq; intro i hi
    simp only [Comp.toWord, BitVec.getLsbD_extractLsb', BitVec.getLsbD_append, BitVec.getLsbD_ofBool]
    simp (disch := omega) only [hi, decide_true, Bool.true_and, if_pos, if_neg]
    congr 1 <;> omega
  simp [isComp, h]

theorem isComp_lead (f : Lead) : isComp f.toWord = (f.op == compOp) := by rw [isComp, Lead.toWord_op]

/-! ### Candidates of words laid out -/

/-- The candidate of the parts of a word: the first family that takes them. -/
def candOf (p : Parts) : Option Instr :=
  candCtl p <|> candInt p <|> candFloat p <|> candXln p <|> candMem p <|> candMxnRec p

/-- The parts read from a word without a companion are the ones laid out. -/
theorem candidate_lead (f : Lead) : candidate f.toWord none =
    candOf ⟨⟨f.sw, pOf4 f.pred, f.pneg, none, none⟩, f, V3.ofBits f.low, MB.ofBits f.b, 0, 0⟩ := by
  simp [candidate, Lead.ofWord_toWord, ctlOf, candOf]

/-- The parts read from a word and its companion are the ones laid out. -/
theorem candidate_comp (f : Lead) (x : Comp) (r : Option Rnd) (h : xrndOf x.xrnd = some r) :
    candidate f.toWord (some x.toWord) =
      candOf ⟨⟨f.sw, pOf4 f.pred, f.pneg, some ⟨pOf4 x.pred, x.neg, x.mz⟩, r⟩, f, V3.ofBits f.low, MB.ofBits f.b, x.c,
        x.xaux⟩ := by
  simp [candidate, Lead.ofWord_toWord, Comp.ofWord_toWord, ctlOf, candOf, h]

/-! ### Codes -/

theorem gOf_gBits (r : GReg) : gOf (gBits r) = r := rfl
theorem pOf4_pBits4 (r : PReg) : pOf4 (pBits4 r) = r := rfl
theorem pOf_pBits (r : Fin 16) : pOf (pBits r) = r := by revert r; decide
theorem sOf_sBits (r : SReg) : sOf (sBits r) = r := by revert r; decide
theorem obOf_obBits (r : ObReg) : obOf (obBits r) = r := by revert r; decide
theorem Ty.ofCode_code (t : Ty) : Ty.ofCode t.code = some t := by cases t <;> rfl
theorem Rnd.ofCode_code (r : Rnd) : Rnd.ofCode r.code = some r := by cases r <;> rfl
theorem xrndOf_code (r : Option Rnd) : xrndOf (xrndCode r) = some r := by rcases r with _ | r <;> [rfl; (cases r <;> rfl)]
theorem Width.ofCode_code (w : Width) : Width.ofCode w.code = some w := by cases w <;> rfl
theorem Scope.ofCode_code (s : Scope) : Scope.ofCode s.code = some s := by cases s <;> rfl
theorem Order.ofCode_code (o : Order) : Order.ofCode o.code = o := by cases o <;> rfl
theorem CmpFn.ofCode_code (f : CmpFn) : CmpFn.ofCode f.code = some f := by cases f <;> rfl
theorem FCmpFn.ofCode_code (f : FCmpFn) : FCmpFn.ofCode f.code = f := by cases f <;> rfl
theorem RedFn.ofCode_code (f : RedFn) : RedFn.ofCode f.code = some f := by cases f <;> rfl
theorem AtomOp.ofCode_code (o : AtomOp) : AtomOp.ofCode o.code = some o := by cases o <;> rfl
theorem RType.ofCode_code (t : RType) : RType.ofCode t.code = some t := by cases t <;> rfl
theorem ROp.ofCode_code (o : ROp) : ROp.ofCode o.code = some o := by cases o <;> rfl
theorem SpReg.ofCode_code (r : SpReg) : SpReg.ofCode r.code = some r := by cases r <;> rfl
theorem CReg.ofCode_code (r : CReg) : CReg.ofCode r.code = some r := by cases r <;> rfl
theorem Comb.ofCode_code (k : Comb) : Comb.ofCode k.code = some k := by
  cases k with
  | none => rfl
  | and q => revert q; decide
  | or q => revert q; decide
  | xor q => revert q; decide

end Sys2Proof
end

