-- ==== Sys2Proof/Laws/Issue.lean ====
section
/-! SUPPORT. Laws of the checks before a word acts: when they change nothing, and that an address check looks only at tables. -/

namespace Sys2Proof.Machine

/-- A check that faults no lane changes nothing. -/
theorem State.faultLanes_none (s : State) (b : Bundle) (f : Strand → Option Trap)
    (h : ∀ sid ∈ b.lanes, ∀ x, s.strand? sid = some x → f x = none) : s.faultLanes b f = (s, b) := by
  unfold State.faultLanes
  generalize hl : b.lanes = l at h
  clear hl
  induction l with
  | nil => rfl
  | cons sid l ih =>
    rw [List.foldl_cons]
    cases hx : s.strand? sid with
    | none => exact ih fun k hk => h k (List.mem_cons_of_mem _ hk)
    | some x =>
      simp only [h sid List.mem_cons_self x hx]
      exact ih fun k hk => h k (List.mem_cons_of_mem _ hk)

/-- Putting the issuing bundle back as it was changes nothing. -/
theorem State.setHead_self (s : State) (b : Bundle) (r : List Bundle) (h : s.bundles = b :: r) (hl : b.lanes ≠ []) :
    s.setHead b = s := by
  have e : b.lanes.isEmpty = false := by simpa using hl
  simp [State.setHead, h, e]
  rw [← h]

theorem foldl_fixed {α β : Type} (f : β → α → β) (k : β) : ∀ l : List α, (∀ a ∈ l, f k a = k) → l.foldl f k = k
  | [], _ => rfl
  | a :: l, h => by
    rw [List.foldl_cons, h a List.mem_cons_self]
    exact foldl_fixed f k l fun b hb => h b (List.mem_cons_of_mem _ hb)

/-- No lane reads an uncorrectable register: R379 changes nothing. -/
theorem State.readErrors_clean (s : State) (b : Bundle) (m : Info)
    (h : ∀ sid ∈ b.lanes, ∀ x, s.strand? sid = some x → x.badReads m = 0) : s.readErrors b m = (s, b) := by
  have e : b.lanes.foldl (fun n sid => match s.strand? sid with
      | some x => if (fun _ : Strand => true) x then n + x.badReads m else n
      | none => n) 0 = 0 := foldl_fixed _ 0 b.lanes fun sid hs => by
    cases hx : s.strand? sid with
    | none => rfl
    | some x => simp [h sid hs x hx]
  exact if_pos e

/-- No lane has a full counter that the word raises: R52 stops nothing. -/
theorem State.counterFull_false (s : State) (b : Bundle) (i : Instr) (m : Info)
    (h : ∀ sid ∈ b.lanes, ∀ x, s.strand? sid = some x → fullFor m x = 0) : s.counterFull b i m = false := by
  rw [State.counterFull, List.any_eq_false]
  intro sid hs
  cases hx : s.strand? sid with
  | none => simp
  | some x => simp [h sid hs x hx]

/-- Whatever only changes strands, bundles and flights leaves every address check as it was. -/
theorem State.check_strands (s : State) (xs : List Strand) (bs : List Bundle) (fs : List Flight) (c : Nat) (ea : DWord) (n : Nat)
    (k : BitVec 3) (ok : Page → Bool) :
    ({ s with strands := xs, bundles := bs, flights := fs } : State).check c ea n k ok = s.check c ea n k ok := rfl

theorem Strand.setSpan_sid : ∀ (vs : List Word) (x : Strand) (d : GReg), (x.setSpan d vs).sid = x.sid
  | [], _, _ => rfl
  | _ :: vs, _, _ => (Strand.setSpan_sid vs _ _).trans rfl

theorem Strand.zeroSpan_sid (d : GReg) (n : Nat) (x : Strand) : (x.zeroSpan d n).sid = x.sid := Strand.setSpan_sid _ _ _

end Sys2Proof.Machine
end

