-- ==== Sys2Proof/Laws/Memory.lean ====
section
/-! SUPPORT. Laws of the sparse bytes: what a read after a write answers, and that every operation keeps the canonical form. -/

namespace Sys2Proof.Machine

/-! ### Sorted lists of cells -/

/-- Every listed address is at or above a bound. -/
def cellsFrom (b : Nat) : Bytes → Prop
  | [] => True
  | (x, _) :: m => b ≤ x ∧ cellsFrom (x + 1) m

theorem cellsFrom_mono {b c : Nat} (h : c ≤ b) : ∀ {m : Bytes}, cellsFrom b m → cellsFrom c m
  | [], _ => trivial
  | _ :: _, ⟨h1, h2⟩ => ⟨Nat.le_trans h h1, h2⟩

theorem sortedCells_cons (x : Nat) (v : Byte) (m : Bytes) :
    sortedCells ((x, v) :: m) = true ↔ cellsFrom (x + 1) m ∧ sortedCells m = true := by
  cases m with
  | nil => simp [sortedCells, cellsFrom]
  | cons e m =>
    obtain ⟨y, w⟩ := e
    suffices sortedCells ((y, w) :: m) = true → cellsFrom (y + 1) m by
      simp only [sortedCells, cellsFrom, Bool.and_eq_true, decide_eq_true_eq]
      exact ⟨fun h => ⟨⟨h.1, this h.2⟩, h.2⟩, fun h => ⟨h.1.1, h.2⟩⟩
    induction m generalizing y w with
    | nil => exact fun _ => trivial
    | cons e m ih =>
      obtain ⟨z, u⟩ := e
      simp only [sortedCells, cellsFrom, Bool.and_eq_true, decide_eq_true_eq]
      exact fun h => ⟨h.1, ih z u h.2⟩

theorem cellGet_of_lt {b a : Nat} (h : a < b) : ∀ {m : Bytes}, cellsFrom b m → cellGet m a = none
  | [], _ => rfl
  | (x, v) :: m, ⟨h1, _⟩ => by
    have e : ¬ x = a := by omega
    have l : a < x := by omega
    simp [cellGet, e, l]

theorem cellsFrom_cellPut {b a : Nat} {v : Byte} (h : b ≤ a) : ∀ {m : Bytes}, cellsFrom b m → cellsFrom b (cellPut a v m)
  | [], _ => ⟨h, trivial⟩
  | (x, w) :: m, ⟨h1, h2⟩ => by
    unfold cellPut
    split
    · exact ⟨h, by omega, h2⟩
    · split
      · rename_i e; exact ⟨h, e ▸ h2⟩
      · exact ⟨h1, cellsFrom_cellPut (by omega) h2⟩

theorem cellsFrom_cellErase {b a : Nat} : ∀ {m : Bytes}, cellsFrom b m → cellsFrom b (cellErase a m)
  | [], _ => trivial
  | (x, w) :: m, ⟨h1, h2⟩ => by
    unfold cellErase
    split
    · exact cellsFrom_mono (by omega) h2
    · split
      · exact ⟨h1, h2⟩
      · exact ⟨h1, cellsFrom_cellErase h2⟩

/-- Listing a byte keeps the addresses rising. -/
theorem sorted_cellPut (a : Nat) (v : Byte) : ∀ {m : Bytes}, sortedCells m = true → sortedCells (cellPut a v m) = true
  | [], _ => rfl
  | (x, w) :: m, h => by
    have hm := (sortedCells_cons x w m).1 h
    unfold cellPut
    split
    · exact (sortedCells_cons _ _ _).2 ⟨⟨by omega, hm.1⟩, h⟩
    · split
      · rename_i e; exact (sortedCells_cons _ _ _).2 ⟨e ▸ hm.1, hm.2⟩
      · exact (sortedCells_cons _ _ _).2 ⟨cellsFrom_cellPut (by omega) hm.1, sorted_cellPut a v hm.2⟩

/-- Dropping a byte keeps the addresses rising. -/
theorem sorted_cellErase (a : Nat) : ∀ {m : Bytes}, sortedCells m = true → sortedCells (cellErase a m) = true
  | [], _ => rfl
  | (x, w) :: m, h => by
    have hm := (sortedCells_cons x w m).1 h
    unfold cellErase
    split
    · exact hm.2
    · split
      · exact h
      · exact (sortedCells_cons _ _ _).2 ⟨cellsFrom_cellErase hm.1, sorted_cellErase a hm.2⟩

/-! ### Read after write -/

theorem cellGet_cellPut_same (a : Nat) (v : Byte) : ∀ m : Bytes, cellGet (cellPut a v m) a = some v
  | [] => by simp [cellPut, cellGet]
  | (x, w) :: m => by
    unfold cellPut
    split
    · simp [cellGet]
    · split
      · simp [cellGet]
      · rename_i h1 h2; simp [cellGet, h1, h2, cellGet_cellPut_same a v m]

theorem cellGet_cellPut_other {a p : Nat} (h : p ≠ a) (v : Byte) : ∀ m : Bytes, cellGet (cellPut a v m) p = cellGet m p
  | [] => by simp [cellPut, cellGet, Ne.symm h]
  | (x, w) :: m => by
    unfold cellPut
    split
    · rename_i l
      simp only [cellGet, Ne.symm h, if_false]
      by_cases q : p < a
      · have e : ¬ x = p := by omega
        have l' : p < x := by omega
        simp [q, e, l']
      · simp [q]
    · split
      · rename_i e; subst e
        simp [cellGet, Ne.symm h]
      · simp only [cellGet]
        split
        · rfl
        · split
          · rfl
          · exact cellGet_cellPut_other h v m

theorem cellGet_cellErase_same (a : Nat) : ∀ {m : Bytes}, sortedCells m = true → cellGet (cellErase a m) a = none
  | [], _ => rfl
  | (x, w) :: m, h => by
    have hm := (sortedCells_cons x w m).1 h
    unfold cellErase
    split
    · rename_i e; exact cellGet_of_lt (by omega) hm.1
    · split
      · rename_i e l; simp [cellGet, e, l]
      · rename_i e l; simp [cellGet, e, l, cellGet_cellErase_same a hm.2]

theorem cellGet_cellErase_other {a p : Nat} (h : p ≠ a) : ∀ {m : Bytes}, sortedCells m = true →
    cellGet (cellErase a m) p = cellGet m p
  | [], _ => rfl
  | (x, w) :: m, hs => by
    have hm := (sortedCells_cons x w m).1 hs
    unfold cellErase
    split
    · rename_i e; subst e
      simp only [cellGet, Ne.symm h, if_false]
      split
      · exact cellGet_of_lt (by omega) hm.1
      · rfl
    · split
      · rfl
      · simp only [cellGet]
        split
        · rfl
        · split
          · rfl
          · exact cellGet_cellErase_other h hm.2

/-! ### Memory -/

theorem Memory.wf_iff (m : Bytes) : Memory.wf m = true ↔ sortedCells m = true ∧ ∀ c ∈ m, c.2 ≠ memDefault c.1 := by
  simp [Memory.wf]

theorem mem_cellPut {a : Nat} {v : Byte} {c : Host.Cell} : ∀ {m : Bytes}, c ∈ cellPut a v m → c = (a, v) ∨ c ∈ m
  | [], h => by simpa [cellPut] using h
  | (x, w) :: m, h => by
    unfold cellPut at h
    split at h
    · simpa using h
    · split at h
      · rcases List.mem_cons.1 h with h | h
        · exact .inl h
        · exact .inr (List.mem_cons_of_mem _ h)
      · rcases List.mem_cons.1 h with h | h
        · exact .inr (h ▸ List.mem_cons_self)
        · exact (mem_cellPut h).imp_right (List.mem_cons_of_mem _)

theorem mem_cellErase {a : Nat} {c : Host.Cell} : ∀ {m : Bytes}, c ∈ cellErase a m → c ∈ m
  | [], h => h
  | (x, w) :: m, h => by
    unfold cellErase at h
    split at h
    · exact List.mem_cons_of_mem _ h
    · split at h
      · exact h
      · rcases List.mem_cons.1 h with h | h
        · exact h ▸ List.mem_cons_self
        · exact List.mem_cons_of_mem _ (mem_cellErase h)

/-- Storing a byte keeps the canonical form. -/
theorem wf_memPut (a : Nat) (v : Byte) {m : Bytes} (h : Memory.wf m = true) : Memory.wf (memPut a v m) = true := by
  rw [Memory.wf_iff] at h ⊢
  unfold memPut
  split
  · exact ⟨sorted_cellErase a h.1, fun c hc => h.2 c (mem_cellErase hc)⟩
  · rename_i e
    exact ⟨sorted_cellPut a v h.1, fun c hc => (mem_cellPut hc).elim (fun q => q ▸ e) (h.2 c)⟩

/-- Storing bytes keeps the canonical form. -/
theorem wf_memPutL (a : Nat) : ∀ (vs : List Byte) {m : Bytes}, Memory.wf m = true → Memory.wf (memPutL a vs m) = true
  | [], _, h => h
  | v :: vs, _, h => wf_memPutL (a + 1) vs (wf_memPut a v h)

theorem wf_reset : Memory.wf State.reset.mem = true := rfl

/-- A byte reads as it was stored. -/
theorem memGet_memPut_same (a : Nat) (v : Byte) {m : Bytes} (h : sortedCells m = true) : memGet (memPut a v m) a = v := by
  unfold memPut memGet
  split
  · rename_i e; simp [cellGet_cellErase_same a h, e]
  · simp [cellGet_cellPut_same]

/-- Every other byte reads as before. -/
theorem memGet_memPut_other {a p : Nat} (hp : p ≠ a) (v : Byte) {m : Bytes} (h : sortedCells m = true) :
    memGet (memPut a v m) p = memGet m p := by
  unfold memPut memGet
  split
  · rw [cellGet_cellErase_other hp h]
  · rw [cellGet_cellPut_other hp]

/-- Listing bytes one after another keeps the addresses rising. -/
theorem sorted_cellPutL (a : Nat) : ∀ (vs : List Byte) {m : Bytes}, sortedCells m = true → sortedCells (cellPutL a vs m) = true
  | [], _, h => h
  | v :: vs, _, h => sorted_cellPutL (a + 1) vs (sorted_cellPut a v h)

/-- Dropping bytes one after another keeps the addresses rising. -/
theorem sorted_cellEraseN (a : Nat) : ∀ (n : Nat) {m : Bytes}, sortedCells m = true → sortedCells (cellEraseN a n m) = true
  | 0, _, h => h
  | n + 1, _, h => sorted_cellEraseN (a + 1) n (sorted_cellErase a h)

/-- Outside the bytes listed nothing is read differently. -/
theorem cellGet_cellPutL_other {a p : Nat} : ∀ (vs : List Byte) (m : Bytes), p < a ∨ a + vs.length ≤ p →
    cellGet (cellPutL a vs m) p = cellGet m p
  | [], _, _ => rfl
  | v :: vs, m, h => by
    simp only [List.length_cons] at h
    rw [cellPutL, cellGet_cellPutL_other vs _ (by omega), cellGet_cellPut_other (by omega)]

/-- Each byte listed reads as it was listed. -/
theorem cellGet_cellPutL {a : Nat} : ∀ (vs : List Byte) (m : Bytes) (i : Nat) (h : i < vs.length),
    cellGet (cellPutL a vs m) (a + i) = some vs[i]
  | v :: vs, m, 0, _ => by
    rw [cellPutL, cellGet_cellPutL_other vs _ (by omega)]; simp [cellGet_cellPut_same]
  | v :: vs, m, i + 1, h => by
    have q := cellGet_cellPutL (a := a + 1) vs (cellPut a v m) i (by simpa using h)
    rw [cellPutL, show a + (i + 1) = a + 1 + i by omega, q]; rfl

end Sys2Proof.Machine
end

