-- ==== Sys2Proof/Laws/State.lean ====
section
/-! SUPPORT. One lemma per field per update of the machine and of a strand: what the update leaves alone. -/

namespace Sys2Proof.Machine

/-! ### modStrand -/

@[simp] theorem State.modStrand_plan (s : State) (sid : Nat) (f : Strand → Strand) : (s.modStrand sid f).plan = s.plan := rfl
@[simp] theorem State.modStrand_turns (s : State) (sid : Nat) (f : Strand → Strand) : (s.modStrand sid f).turns = s.turns := rfl
@[simp] theorem State.modStrand_fresh (s : State) (sid : Nat) (f : Strand → Strand) : (s.modStrand sid f).fresh = s.fresh := rfl
@[simp] theorem State.modStrand_nextId (s : State) (sid : Nat) (f : Strand → Strand) : (s.modStrand sid f).nextId = s.nextId := rfl
@[simp] theorem State.modStrand_timebase (s : State) (sid : Nat) (f : Strand → Strand) : (s.modStrand sid f).timebase = s.timebase := rfl
@[simp] theorem State.modStrand_teams (s : State) (sid : Nat) (f : Strand → Strand) : (s.modStrand sid f).teams = s.teams := rfl
@[simp] theorem State.modStrand_bundles (s : State) (sid : Nat) (f : Strand → Strand) : (s.modStrand sid f).bundles = s.bundles := rfl
@[simp] theorem State.modStrand_flights (s : State) (sid : Nat) (f : Strand → Strand) : (s.modStrand sid f).flights = s.flights := rfl
@[simp] theorem State.modStrand_starve (s : State) (sid : Nat) (f : Strand → Strand) : (s.modStrand sid f).starve = s.starve := rfl
@[simp] theorem State.modStrand_courses (s : State) (sid : Nat) (f : Strand → Strand) : (s.modStrand sid f).courses = s.courses := rfl
@[simp] theorem State.modStrand_mem (s : State) (sid : Nat) (f : Strand → Strand) : (s.modStrand sid f).mem = s.mem := rfl
@[simp] theorem State.modStrand_dieCache (s : State) (sid : Nat) (f : Strand → Strand) : (s.modStrand sid f).dieCache = s.dieCache := rfl
@[simp] theorem State.modStrand_rank (s : State) (sid : Nat) (f : Strand → Strand) : (s.modStrand sid f).rank = s.rank := rfl
@[simp] theorem State.modStrand_dieClean (s : State) (sid : Nat) (f : Strand → Strand) : (s.modStrand sid f).dieClean = s.dieClean := rfl
@[simp] theorem State.modStrand_peerLines (s : State) (sid : Nat) (f : Strand → Strand) : (s.modStrand sid f).peerLines = s.peerLines := rfl
@[simp] theorem State.modStrand_writers (s : State) (sid : Nat) (f : Strand → Strand) : (s.modStrand sid f).writers = s.writers := rfl
@[simp] theorem State.modStrand_walkCache (s : State) (sid : Nat) (f : Strand → Strand) : (s.modStrand sid f).walkCache = s.walkCache := rfl
@[simp] theorem State.modStrand_misses (s : State) (sid : Nat) (f : Strand → Strand) : (s.modStrand sid f).misses = s.misses := rfl
@[simp] theorem State.modStrand_missWait (s : State) (sid : Nat) (f : Strand → Strand) : (s.modStrand sid f).missWait = s.missWait := rfl
@[simp] theorem State.modStrand_afresh (s : State) (sid : Nat) (f : Strand → Strand) : (s.modStrand sid f).afresh = s.afresh := rfl
@[simp] theorem State.modStrand_words (s : State) (sid : Nat) (f : Strand → Strand) : (s.modStrand sid f).words = s.words := rfl
@[simp] theorem State.modStrand_brickPart (s : State) (sid : Nat) (f : Strand → Strand) : (s.modStrand sid f).brickPart = s.brickPart := rfl
@[simp] theorem State.modStrand_troot (s : State) (sid : Nat) (f : Strand → Strand) : (s.modStrand sid f).troot = s.troot := rfl
@[simp] theorem State.modStrand_trootSet (s : State) (sid : Nat) (f : Strand → Strand) : (s.modStrand sid f).trootSet = s.trootSet := rfl
@[simp] theorem State.modStrand_tlb (s : State) (sid : Nat) (f : Strand → Strand) : (s.modStrand sid f).tlb = s.tlb := rfl
@[simp] theorem State.modStrand_keys (s : State) (sid : Nat) (f : Strand → Strand) : (s.modStrand sid f).keys = s.keys := rfl
@[simp] theorem State.modStrand_handles (s : State) (sid : Nat) (f : Strand → Strand) : (s.modStrand sid f).handles = s.handles := rfl
@[simp] theorem State.modStrand_bindings (s : State) (sid : Nat) (f : Strand → Strand) : (s.modStrand sid f).bindings = s.bindings := rfl
@[simp] theorem State.modStrand_rings (s : State) (sid : Nat) (f : Strand → Strand) : (s.modStrand sid f).rings = s.rings := rfl
@[simp] theorem State.modStrand_queues (s : State) (sid : Nat) (f : Strand → Strand) : (s.modStrand sid f).queues = s.queues := rfl
@[simp] theorem State.modStrand_seq (s : State) (sid : Nat) (f : Strand → Strand) : (s.modStrand sid f).seq = s.seq := rfl
@[simp] theorem State.modStrand_rrAccept (s : State) (sid : Nat) (f : Strand → Strand) : (s.modStrand sid f).rrAccept = s.rrAccept := rfl
@[simp] theorem State.modStrand_rrAdmit (s : State) (sid : Nat) (f : Strand → Strand) : (s.modStrand sid f).rrAdmit = s.rrAdmit := rfl
@[simp] theorem State.modStrand_turnOf (s : State) (sid : Nat) (f : Strand → Strand) : (s.modStrand sid f).turnOf = s.turnOf := rfl
@[simp] theorem State.modStrand_launches (s : State) (sid : Nat) (f : Strand → Strand) : (s.modStrand sid f).launches = s.launches := rfl
@[simp] theorem State.modStrand_saved (s : State) (sid : Nat) (f : Strand → Strand) : (s.modStrand sid f).saved = s.saved := rfl
@[simp] theorem State.modStrand_psets (s : State) (sid : Nat) (f : Strand → Strand) : (s.modStrand sid f).psets = s.psets := rfl
@[simp] theorem State.modStrand_faults (s : State) (sid : Nat) (f : Strand → Strand) : (s.modStrand sid f).faults = s.faults := rfl
@[simp] theorem State.modStrand_frid (s : State) (sid : Nat) (f : Strand → Strand) : (s.modStrand sid f).frid = s.frid := rfl
@[simp] theorem State.modStrand_counters (s : State) (sid : Nat) (f : Strand → Strand) : (s.modStrand sid f).counters = s.counters := rfl
@[simp] theorem State.modStrand_areas (s : State) (sid : Nat) (f : Strand → Strand) : (s.modStrand sid f).areas = s.areas := rfl
@[simp] theorem State.modStrand_dieId (s : State) (sid : Nat) (f : Strand → Strand) : (s.modStrand sid f).dieId = s.dieId := rfl
@[simp] theorem State.modStrand_link (s : State) (sid : Nat) (f : Strand → Strand) : (s.modStrand sid f).link = s.link := rfl
@[simp] theorem State.modStrand_qps (s : State) (sid : Nat) (f : Strand → Strand) : (s.modStrand sid f).qps = s.qps := rfl
@[simp] theorem State.modStrand_regs (s : State) (sid : Nat) (f : Strand → Strand) : (s.modStrand sid f).regs = s.regs := rfl
@[simp] theorem State.modStrand_regions (s : State) (sid : Nat) (f : Strand → Strand) : (s.modStrand sid f).regions = s.regions := rfl
@[simp] theorem State.modStrand_streams (s : State) (sid : Nat) (f : Strand → Strand) : (s.modStrand sid f).streams = s.streams := rfl
@[simp] theorem State.modStrand_outbox (s : State) (sid : Nat) (f : Strand → Strand) : (s.modStrand sid f).outbox = s.outbox := rfl
@[simp] theorem State.modStrand_fw (s : State) (sid : Nat) (f : Strand → Strand) : (s.modStrand sid f).fw = s.fw := rfl
@[simp] theorem State.modStrand_commands (s : State) (sid : Nat) (f : Strand → Strand) : (s.modStrand sid f).commands = s.commands := rfl
@[simp] theorem State.modStrand_life (s : State) (sid : Nat) (f : Strand → Strand) : (s.modStrand sid f).life = s.life := rfl
@[simp] theorem State.modStrand_throttle (s : State) (sid : Nat) (f : Strand → Strand) : (s.modStrand sid f).throttle = s.throttle := rfl
@[simp] theorem State.modStrand_snaps (s : State) (sid : Nat) (f : Strand → Strand) : (s.modStrand sid f).snaps = s.snaps := rfl
@[simp] theorem State.modStrand_powered (s : State) (sid : Nat) (f : Strand → Strand) : (s.modStrand sid f).powered = s.powered := rfl

/-! ### modTeam -/

@[simp] theorem State.modTeam_plan (s : State) (tid : Nat) (f : Team → Team) : (s.modTeam tid f).plan = s.plan := rfl
@[simp] theorem State.modTeam_turns (s : State) (tid : Nat) (f : Team → Team) : (s.modTeam tid f).turns = s.turns := rfl
@[simp] theorem State.modTeam_fresh (s : State) (tid : Nat) (f : Team → Team) : (s.modTeam tid f).fresh = s.fresh := rfl
@[simp] theorem State.modTeam_nextId (s : State) (tid : Nat) (f : Team → Team) : (s.modTeam tid f).nextId = s.nextId := rfl
@[simp] theorem State.modTeam_timebase (s : State) (tid : Nat) (f : Team → Team) : (s.modTeam tid f).timebase = s.timebase := rfl
@[simp] theorem State.modTeam_strands (s : State) (tid : Nat) (f : Team → Team) : (s.modTeam tid f).strands = s.strands := rfl
@[simp] theorem State.modTeam_bundles (s : State) (tid : Nat) (f : Team → Team) : (s.modTeam tid f).bundles = s.bundles := rfl
@[simp] theorem State.modTeam_flights (s : State) (tid : Nat) (f : Team → Team) : (s.modTeam tid f).flights = s.flights := rfl
@[simp] theorem State.modTeam_starve (s : State) (tid : Nat) (f : Team → Team) : (s.modTeam tid f).starve = s.starve := rfl
@[simp] theorem State.modTeam_courses (s : State) (tid : Nat) (f : Team → Team) : (s.modTeam tid f).courses = s.courses := rfl
@[simp] theorem State.modTeam_mem (s : State) (tid : Nat) (f : Team → Team) : (s.modTeam tid f).mem = s.mem := rfl
@[simp] theorem State.modTeam_dieCache (s : State) (tid : Nat) (f : Team → Team) : (s.modTeam tid f).dieCache = s.dieCache := rfl
@[simp] theorem State.modTeam_rank (s : State) (tid : Nat) (f : Team → Team) : (s.modTeam tid f).rank = s.rank := rfl
@[simp] theorem State.modTeam_dieClean (s : State) (tid : Nat) (f : Team → Team) : (s.modTeam tid f).dieClean = s.dieClean := rfl
@[simp] theorem State.modTeam_peerLines (s : State) (tid : Nat) (f : Team → Team) : (s.modTeam tid f).peerLines = s.peerLines := rfl
@[simp] theorem State.modTeam_writers (s : State) (tid : Nat) (f : Team → Team) : (s.modTeam tid f).writers = s.writers := rfl
@[simp] theorem State.modTeam_walkCache (s : State) (tid : Nat) (f : Team → Team) : (s.modTeam tid f).walkCache = s.walkCache := rfl
@[simp] theorem State.modTeam_misses (s : State) (tid : Nat) (f : Team → Team) : (s.modTeam tid f).misses = s.misses := rfl
@[simp] theorem State.modTeam_missWait (s : State) (tid : Nat) (f : Team → Team) : (s.modTeam tid f).missWait = s.missWait := rfl
@[simp] theorem State.modTeam_afresh (s : State) (tid : Nat) (f : Team → Team) : (s.modTeam tid f).afresh = s.afresh := rfl
@[simp] theorem State.modTeam_words (s : State) (tid : Nat) (f : Team → Team) : (s.modTeam tid f).words = s.words := rfl
@[simp] theorem State.modTeam_brickPart (s : State) (tid : Nat) (f : Team → Team) : (s.modTeam tid f).brickPart = s.brickPart := rfl
@[simp] theorem State.modTeam_troot (s : State) (tid : Nat) (f : Team → Team) : (s.modTeam tid f).troot = s.troot := rfl
@[simp] theorem State.modTeam_trootSet (s : State) (tid : Nat) (f : Team → Team) : (s.modTeam tid f).trootSet = s.trootSet := rfl
@[simp] theorem State.modTeam_tlb (s : State) (tid : Nat) (f : Team → Team) : (s.modTeam tid f).tlb = s.tlb := rfl
@[simp] theorem State.modTeam_keys (s : State) (tid : Nat) (f : Team → Team) : (s.modTeam tid f).keys = s.keys := rfl
@[simp] theorem State.modTeam_handles (s : State) (tid : Nat) (f : Team → Team) : (s.modTeam tid f).handles = s.handles := rfl
@[simp] theorem State.modTeam_bindings (s : State) (tid : Nat) (f : Team → Team) : (s.modTeam tid f).bindings = s.bindings := rfl
@[simp] theorem State.modTeam_rings (s : State) (tid : Nat) (f : Team → Team) : (s.modTeam tid f).rings = s.rings := rfl
@[simp] theorem State.modTeam_queues (s : State) (tid : Nat) (f : Team → Team) : (s.modTeam tid f).queues = s.queues := rfl
@[simp] theorem State.modTeam_seq (s : State) (tid : Nat) (f : Team → Team) : (s.modTeam tid f).seq = s.seq := rfl
@[simp] theorem State.modTeam_rrAccept (s : State) (tid : Nat) (f : Team → Team) : (s.modTeam tid f).rrAccept = s.rrAccept := rfl
@[simp] theorem State.modTeam_rrAdmit (s : State) (tid : Nat) (f : Team → Team) : (s.modTeam tid f).rrAdmit = s.rrAdmit := rfl
@[simp] theorem State.modTeam_turnOf (s : State) (tid : Nat) (f : Team → Team) : (s.modTeam tid f).turnOf = s.turnOf := rfl
@[simp] theorem State.modTeam_launches (s : State) (tid : Nat) (f : Team → Team) : (s.modTeam tid f).launches = s.launches := rfl
@[simp] theorem State.modTeam_saved (s : State) (tid : Nat) (f : Team → Team) : (s.modTeam tid f).saved = s.saved := rfl
@[simp] theorem State.modTeam_psets (s : State) (tid : Nat) (f : Team → Team) : (s.modTeam tid f).psets = s.psets := rfl
@[simp] theorem State.modTeam_faults (s : State) (tid : Nat) (f : Team → Team) : (s.modTeam tid f).faults = s.faults := rfl
@[simp] theorem State.modTeam_frid (s : State) (tid : Nat) (f : Team → Team) : (s.modTeam tid f).frid = s.frid := rfl
@[simp] theorem State.modTeam_counters (s : State) (tid : Nat) (f : Team → Team) : (s.modTeam tid f).counters = s.counters := rfl
@[simp] theorem State.modTeam_areas (s : State) (tid : Nat) (f : Team → Team) : (s.modTeam tid f).areas = s.areas := rfl
@[simp] theorem State.modTeam_dieId (s : State) (tid : Nat) (f : Team → Team) : (s.modTeam tid f).dieId = s.dieId := rfl
@[simp] theorem State.modTeam_link (s : State) (tid : Nat) (f : Team → Team) : (s.modTeam tid f).link = s.link := rfl
@[simp] theorem State.modTeam_qps (s : State) (tid : Nat) (f : Team → Team) : (s.modTeam tid f).qps = s.qps := rfl
@[simp] theorem State.modTeam_regs (s : State) (tid : Nat) (f : Team → Team) : (s.modTeam tid f).regs = s.regs := rfl
@[simp] theorem State.modTeam_regions (s : State) (tid : Nat) (f : Team → Team) : (s.modTeam tid f).regions = s.regions := rfl
@[simp] theorem State.modTeam_streams (s : State) (tid : Nat) (f : Team → Team) : (s.modTeam tid f).streams = s.streams := rfl
@[simp] theorem State.modTeam_outbox (s : State) (tid : Nat) (f : Team → Team) : (s.modTeam tid f).outbox = s.outbox := rfl
@[simp] theorem State.modTeam_fw (s : State) (tid : Nat) (f : Team → Team) : (s.modTeam tid f).fw = s.fw := rfl
@[simp] theorem State.modTeam_commands (s : State) (tid : Nat) (f : Team → Team) : (s.modTeam tid f).commands = s.commands := rfl
@[simp] theorem State.modTeam_life (s : State) (tid : Nat) (f : Team → Team) : (s.modTeam tid f).life = s.life := rfl
@[simp] theorem State.modTeam_throttle (s : State) (tid : Nat) (f : Team → Team) : (s.modTeam tid f).throttle = s.throttle := rfl
@[simp] theorem State.modTeam_snaps (s : State) (tid : Nat) (f : Team → Team) : (s.modTeam tid f).snaps = s.snaps := rfl
@[simp] theorem State.modTeam_powered (s : State) (tid : Nat) (f : Team → Team) : (s.modTeam tid f).powered = s.powered := rfl

/-! ### modLaunch -/

@[simp] theorem State.modLaunch_plan (s : State) (seq : Nat) (f : Launch → Launch) : (s.modLaunch seq f).plan = s.plan := rfl
@[simp] theorem State.modLaunch_turns (s : State) (seq : Nat) (f : Launch → Launch) : (s.modLaunch seq f).turns = s.turns := rfl
@[simp] theorem State.modLaunch_fresh (s : State) (seq : Nat) (f : Launch → Launch) : (s.modLaunch seq f).fresh = s.fresh := rfl
@[simp] theorem State.modLaunch_nextId (s : State) (seq : Nat) (f : Launch → Launch) : (s.modLaunch seq f).nextId = s.nextId := rfl
@[simp] theorem State.modLaunch_timebase (s : State) (seq : Nat) (f : Launch → Launch) : (s.modLaunch seq f).timebase = s.timebase := rfl
@[simp] theorem State.modLaunch_strands (s : State) (seq : Nat) (f : Launch → Launch) : (s.modLaunch seq f).strands = s.strands := rfl
@[simp] theorem State.modLaunch_teams (s : State) (seq : Nat) (f : Launch → Launch) : (s.modLaunch seq f).teams = s.teams := rfl
@[simp] theorem State.modLaunch_bundles (s : State) (seq : Nat) (f : Launch → Launch) : (s.modLaunch seq f).bundles = s.bundles := rfl
@[simp] theorem State.modLaunch_flights (s : State) (seq : Nat) (f : Launch → Launch) : (s.modLaunch seq f).flights = s.flights := rfl
@[simp] theorem State.modLaunch_starve (s : State) (seq : Nat) (f : Launch → Launch) : (s.modLaunch seq f).starve = s.starve := rfl
@[simp] theorem State.modLaunch_courses (s : State) (seq : Nat) (f : Launch → Launch) : (s.modLaunch seq f).courses = s.courses := rfl
@[simp] theorem State.modLaunch_mem (s : State) (seq : Nat) (f : Launch → Launch) : (s.modLaunch seq f).mem = s.mem := rfl
@[simp] theorem State.modLaunch_dieCache (s : State) (seq : Nat) (f : Launch → Launch) : (s.modLaunch seq f).dieCache = s.dieCache := rfl
@[simp] theorem State.modLaunch_rank (s : State) (seq : Nat) (f : Launch → Launch) : (s.modLaunch seq f).rank = s.rank := rfl
@[simp] theorem State.modLaunch_dieClean (s : State) (seq : Nat) (f : Launch → Launch) : (s.modLaunch seq f).dieClean = s.dieClean := rfl
@[simp] theorem State.modLaunch_peerLines (s : State) (seq : Nat) (f : Launch → Launch) : (s.modLaunch seq f).peerLines = s.peerLines := rfl
@[simp] theorem State.modLaunch_writers (s : State) (seq : Nat) (f : Launch → Launch) : (s.modLaunch seq f).writers = s.writers := rfl
@[simp] theorem State.modLaunch_walkCache (s : State) (seq : Nat) (f : Launch → Launch) : (s.modLaunch seq f).walkCache = s.walkCache := rfl
@[simp] theorem State.modLaunch_misses (s : State) (seq : Nat) (f : Launch → Launch) : (s.modLaunch seq f).misses = s.misses := rfl
@[simp] theorem State.modLaunch_missWait (s : State) (seq : Nat) (f : Launch → Launch) : (s.modLaunch seq f).missWait = s.missWait := rfl
@[simp] theorem State.modLaunch_afresh (s : State) (seq : Nat) (f : Launch → Launch) : (s.modLaunch seq f).afresh = s.afresh := rfl
@[simp] theorem State.modLaunch_words (s : State) (seq : Nat) (f : Launch → Launch) : (s.modLaunch seq f).words = s.words := rfl
@[simp] theorem State.modLaunch_brickPart (s : State) (seq : Nat) (f : Launch → Launch) : (s.modLaunch seq f).brickPart = s.brickPart := rfl
@[simp] theorem State.modLaunch_troot (s : State) (seq : Nat) (f : Launch → Launch) : (s.modLaunch seq f).troot = s.troot := rfl
@[simp] theorem State.modLaunch_trootSet (s : State) (seq : Nat) (f : Launch → Launch) : (s.modLaunch seq f).trootSet = s.trootSet := rfl
@[simp] theorem State.modLaunch_tlb (s : State) (seq : Nat) (f : Launch → Launch) : (s.modLaunch seq f).tlb = s.tlb := rfl
@[simp] theorem State.modLaunch_keys (s : State) (seq : Nat) (f : Launch → Launch) : (s.modLaunch seq f).keys = s.keys := rfl
@[simp] theorem State.modLaunch_handles (s : State) (seq : Nat) (f : Launch → Launch) : (s.modLaunch seq f).handles = s.handles := rfl
@[simp] theorem State.modLaunch_bindings (s : State) (seq : Nat) (f : Launch → Launch) : (s.modLaunch seq f).bindings = s.bindings := rfl
@[simp] theorem State.modLaunch_rings (s : State) (seq : Nat) (f : Launch → Launch) : (s.modLaunch seq f).rings = s.rings := rfl
@[simp] theorem State.modLaunch_queues (s : State) (seq : Nat) (f : Launch → Launch) : (s.modLaunch seq f).queues = s.queues := rfl
@[simp] theorem State.modLaunch_seq (s : State) (seq : Nat) (f : Launch → Launch) : (s.modLaunch seq f).seq = s.seq := rfl
@[simp] theorem State.modLaunch_rrAccept (s : State) (seq : Nat) (f : Launch → Launch) : (s.modLaunch seq f).rrAccept = s.rrAccept := rfl
@[simp] theorem State.modLaunch_rrAdmit (s : State) (seq : Nat) (f : Launch → Launch) : (s.modLaunch seq f).rrAdmit = s.rrAdmit := rfl
@[simp] theorem State.modLaunch_turnOf (s : State) (seq : Nat) (f : Launch → Launch) : (s.modLaunch seq f).turnOf = s.turnOf := rfl
@[simp] theorem State.modLaunch_saved (s : State) (seq : Nat) (f : Launch → Launch) : (s.modLaunch seq f).saved = s.saved := rfl
@[simp] theorem State.modLaunch_psets (s : State) (seq : Nat) (f : Launch → Launch) : (s.modLaunch seq f).psets = s.psets := rfl
@[simp] theorem State.modLaunch_faults (s : State) (seq : Nat) (f : Launch → Launch) : (s.modLaunch seq f).faults = s.faults := rfl
@[simp] theorem State.modLaunch_frid (s : State) (seq : Nat) (f : Launch → Launch) : (s.modLaunch seq f).frid = s.frid := rfl
@[simp] theorem State.modLaunch_counters (s : State) (seq : Nat) (f : Launch → Launch) : (s.modLaunch seq f).counters = s.counters := rfl
@[simp] theorem State.modLaunch_areas (s : State) (seq : Nat) (f : Launch → Launch) : (s.modLaunch seq f).areas = s.areas := rfl
@[simp] theorem State.modLaunch_dieId (s : State) (seq : Nat) (f : Launch → Launch) : (s.modLaunch seq f).dieId = s.dieId := rfl
@[simp] theorem State.modLaunch_link (s : State) (seq : Nat) (f : Launch → Launch) : (s.modLaunch seq f).link = s.link := rfl
@[simp] theorem State.modLaunch_qps (s : State) (seq : Nat) (f : Launch → Launch) : (s.modLaunch seq f).qps = s.qps := rfl
@[simp] theorem State.modLaunch_regs (s : State) (seq : Nat) (f : Launch → Launch) : (s.modLaunch seq f).regs = s.regs := rfl
@[simp] theorem State.modLaunch_regions (s : State) (seq : Nat) (f : Launch → Launch) : (s.modLaunch seq f).regions = s.regions := rfl
@[simp] theorem State.modLaunch_streams (s : State) (seq : Nat) (f : Launch → Launch) : (s.modLaunch seq f).streams = s.streams := rfl
@[simp] theorem State.modLaunch_outbox (s : State) (seq : Nat) (f : Launch → Launch) : (s.modLaunch seq f).outbox = s.outbox := rfl
@[simp] theorem State.modLaunch_fw (s : State) (seq : Nat) (f : Launch → Launch) : (s.modLaunch seq f).fw = s.fw := rfl
@[simp] theorem State.modLaunch_commands (s : State) (seq : Nat) (f : Launch → Launch) : (s.modLaunch seq f).commands = s.commands := rfl
@[simp] theorem State.modLaunch_life (s : State) (seq : Nat) (f : Launch → Launch) : (s.modLaunch seq f).life = s.life := rfl
@[simp] theorem State.modLaunch_throttle (s : State) (seq : Nat) (f : Launch → Launch) : (s.modLaunch seq f).throttle = s.throttle := rfl
@[simp] theorem State.modLaunch_snaps (s : State) (seq : Nat) (f : Launch → Launch) : (s.modLaunch seq f).snaps = s.snaps := rfl
@[simp] theorem State.modLaunch_powered (s : State) (seq : Nat) (f : Launch → Launch) : (s.modLaunch seq f).powered = s.powered := rfl

/-! ### modFlight -/

@[simp] theorem State.modFlight_plan (s : State) (id : Nat) (f : Flight → Flight) : (s.modFlight id f).plan = s.plan := rfl
@[simp] theorem State.modFlight_turns (s : State) (id : Nat) (f : Flight → Flight) : (s.modFlight id f).turns = s.turns := rfl
@[simp] theorem State.modFlight_fresh (s : State) (id : Nat) (f : Flight → Flight) : (s.modFlight id f).fresh = s.fresh := rfl
@[simp] theorem State.modFlight_nextId (s : State) (id : Nat) (f : Flight → Flight) : (s.modFlight id f).nextId = s.nextId := rfl
@[simp] theorem State.modFlight_timebase (s : State) (id : Nat) (f : Flight → Flight) : (s.modFlight id f).timebase = s.timebase := rfl
@[simp] theorem State.modFlight_strands (s : State) (id : Nat) (f : Flight → Flight) : (s.modFlight id f).strands = s.strands := rfl
@[simp] theorem State.modFlight_teams (s : State) (id : Nat) (f : Flight → Flight) : (s.modFlight id f).teams = s.teams := rfl
@[simp] theorem State.modFlight_bundles (s : State) (id : Nat) (f : Flight → Flight) : (s.modFlight id f).bundles = s.bundles := rfl
@[simp] theorem State.modFlight_starve (s : State) (id : Nat) (f : Flight → Flight) : (s.modFlight id f).starve = s.starve := rfl
@[simp] theorem State.modFlight_courses (s : State) (id : Nat) (f : Flight → Flight) : (s.modFlight id f).courses = s.courses := rfl
@[simp] theorem State.modFlight_mem (s : State) (id : Nat) (f : Flight → Flight) : (s.modFlight id f).mem = s.mem := rfl
@[simp] theorem State.modFlight_dieCache (s : State) (id : Nat) (f : Flight → Flight) : (s.modFlight id f).dieCache = s.dieCache := rfl
@[simp] theorem State.modFlight_rank (s : State) (id : Nat) (f : Flight → Flight) : (s.modFlight id f).rank = s.rank := rfl
@[simp] theorem State.modFlight_dieClean (s : State) (id : Nat) (f : Flight → Flight) : (s.modFlight id f).dieClean = s.dieClean := rfl
@[simp] theorem State.modFlight_peerLines (s : State) (id : Nat) (f : Flight → Flight) : (s.modFlight id f).peerLines = s.peerLines := rfl
@[simp] theorem State.modFlight_writers (s : State) (id : Nat) (f : Flight → Flight) : (s.modFlight id f).writers = s.writers := rfl
@[simp] theorem State.modFlight_walkCache (s : State) (id : Nat) (f : Flight → Flight) : (s.modFlight id f).walkCache = s.walkCache := rfl
@[simp] theorem State.modFlight_misses (s : State) (id : Nat) (f : Flight → Flight) : (s.modFlight id f).misses = s.misses := rfl
@[simp] theorem State.modFlight_missWait (s : State) (id : Nat) (f : Flight → Flight) : (s.modFlight id f).missWait = s.missWait := rfl
@[simp] theorem State.modFlight_afresh (s : State) (id : Nat) (f : Flight → Flight) : (s.modFlight id f).afresh = s.afresh := rfl
@[simp] theorem State.modFlight_words (s : State) (id : Nat) (f : Flight → Flight) : (s.modFlight id f).words = s.words := rfl
@[simp] theorem State.modFlight_brickPart (s : State) (id : Nat) (f : Flight → Flight) : (s.modFlight id f).brickPart = s.brickPart := rfl
@[simp] theorem State.modFlight_troot (s : State) (id : Nat) (f : Flight → Flight) : (s.modFlight id f).troot = s.troot := rfl
@[simp] theorem State.modFlight_trootSet (s : State) (id : Nat) (f : Flight → Flight) : (s.modFlight id f).trootSet = s.trootSet := rfl
@[simp] theorem State.modFlight_tlb (s : State) (id : Nat) (f : Flight → Flight) : (s.modFlight id f).tlb = s.tlb := rfl
@[simp] theorem State.modFlight_keys (s : State) (id : Nat) (f : Flight → Flight) : (s.modFlight id f).keys = s.keys := rfl
@[simp] theorem State.modFlight_handles (s : State) (id : Nat) (f : Flight → Flight) : (s.modFlight id f).handles = s.handles := rfl
@[simp] theorem State.modFlight_bindings (s : State) (id : Nat) (f : Flight → Flight) : (s.modFlight id f).bindings = s.bindings := rfl
@[simp] theorem State.modFlight_rings (s : State) (id : Nat) (f : Flight → Flight) : (s.modFlight id f).rings = s.rings := rfl
@[simp] theorem State.modFlight_queues (s : State) (id : Nat) (f : Flight → Flight) : (s.modFlight id f).queues = s.queues := rfl
@[simp] theorem State.modFlight_seq (s : State) (id : Nat) (f : Flight → Flight) : (s.modFlight id f).seq = s.seq := rfl
@[simp] theorem State.modFlight_rrAccept (s : State) (id : Nat) (f : Flight → Flight) : (s.modFlight id f).rrAccept = s.rrAccept := rfl
@[simp] theorem State.modFlight_rrAdmit (s : State) (id : Nat) (f : Flight → Flight) : (s.modFlight id f).rrAdmit = s.rrAdmit := rfl
@[simp] theorem State.modFlight_turnOf (s : State) (id : Nat) (f : Flight → Flight) : (s.modFlight id f).turnOf = s.turnOf := rfl
@[simp] theorem State.modFlight_launches (s : State) (id : Nat) (f : Flight → Flight) : (s.modFlight id f).launches = s.launches := rfl
@[simp] theorem State.modFlight_saved (s : State) (id : Nat) (f : Flight → Flight) : (s.modFlight id f).saved = s.saved := rfl
@[simp] theorem State.modFlight_psets (s : State) (id : Nat) (f : Flight → Flight) : (s.modFlight id f).psets = s.psets := rfl
@[simp] theorem State.modFlight_faults (s : State) (id : Nat) (f : Flight → Flight) : (s.modFlight id f).faults = s.faults := rfl
@[simp] theorem State.modFlight_frid (s : State) (id : Nat) (f : Flight → Flight) : (s.modFlight id f).frid = s.frid := rfl
@[simp] theorem State.modFlight_counters (s : State) (id : Nat) (f : Flight → Flight) : (s.modFlight id f).counters = s.counters := rfl
@[simp] theorem State.modFlight_areas (s : State) (id : Nat) (f : Flight → Flight) : (s.modFlight id f).areas = s.areas := rfl
@[simp] theorem State.modFlight_dieId (s : State) (id : Nat) (f : Flight → Flight) : (s.modFlight id f).dieId = s.dieId := rfl
@[simp] theorem State.modFlight_link (s : State) (id : Nat) (f : Flight → Flight) : (s.modFlight id f).link = s.link := rfl
@[simp] theorem State.modFlight_qps (s : State) (id : Nat) (f : Flight → Flight) : (s.modFlight id f).qps = s.qps := rfl
@[simp] theorem State.modFlight_regs (s : State) (id : Nat) (f : Flight → Flight) : (s.modFlight id f).regs = s.regs := rfl
@[simp] theorem State.modFlight_regions (s : State) (id : Nat) (f : Flight → Flight) : (s.modFlight id f).regions = s.regions := rfl
@[simp] theorem State.modFlight_streams (s : State) (id : Nat) (f : Flight → Flight) : (s.modFlight id f).streams = s.streams := rfl
@[simp] theorem State.modFlight_outbox (s : State) (id : Nat) (f : Flight → Flight) : (s.modFlight id f).outbox = s.outbox := rfl
@[simp] theorem State.modFlight_fw (s : State) (id : Nat) (f : Flight → Flight) : (s.modFlight id f).fw = s.fw := rfl
@[simp] theorem State.modFlight_commands (s : State) (id : Nat) (f : Flight → Flight) : (s.modFlight id f).commands = s.commands := rfl
@[simp] theorem State.modFlight_life (s : State) (id : Nat) (f : Flight → Flight) : (s.modFlight id f).life = s.life := rfl
@[simp] theorem State.modFlight_throttle (s : State) (id : Nat) (f : Flight → Flight) : (s.modFlight id f).throttle = s.throttle := rfl
@[simp] theorem State.modFlight_snaps (s : State) (id : Nat) (f : Flight → Flight) : (s.modFlight id f).snaps = s.snaps := rfl
@[simp] theorem State.modFlight_powered (s : State) (id : Nat) (f : Flight → Flight) : (s.modFlight id f).powered = s.powered := rfl

/-! ### dropFlight -/

@[simp] theorem State.dropFlight_plan (s : State) (id : Nat) : (s.dropFlight id).plan = s.plan := rfl
@[simp] theorem State.dropFlight_turns (s : State) (id : Nat) : (s.dropFlight id).turns = s.turns := rfl
@[simp] theorem State.dropFlight_fresh (s : State) (id : Nat) : (s.dropFlight id).fresh = s.fresh := rfl
@[simp] theorem State.dropFlight_nextId (s : State) (id : Nat) : (s.dropFlight id).nextId = s.nextId := rfl
@[simp] theorem State.dropFlight_timebase (s : State) (id : Nat) : (s.dropFlight id).timebase = s.timebase := rfl
@[simp] theorem State.dropFlight_strands (s : State) (id : Nat) : (s.dropFlight id).strands = s.strands := rfl
@[simp] theorem State.dropFlight_teams (s : State) (id : Nat) : (s.dropFlight id).teams = s.teams := rfl
@[simp] theorem State.dropFlight_bundles (s : State) (id : Nat) : (s.dropFlight id).bundles = s.bundles := rfl
@[simp] theorem State.dropFlight_starve (s : State) (id : Nat) : (s.dropFlight id).starve = s.starve := rfl
@[simp] theorem State.dropFlight_courses (s : State) (id : Nat) : (s.dropFlight id).courses = s.courses := rfl
@[simp] theorem State.dropFlight_mem (s : State) (id : Nat) : (s.dropFlight id).mem = s.mem := rfl
@[simp] theorem State.dropFlight_dieCache (s : State) (id : Nat) : (s.dropFlight id).dieCache = s.dieCache := rfl
@[simp] theorem State.dropFlight_rank (s : State) (id : Nat) : (s.dropFlight id).rank = s.rank := rfl
@[simp] theorem State.dropFlight_dieClean (s : State) (id : Nat) : (s.dropFlight id).dieClean = s.dieClean := rfl
@[simp] theorem State.dropFlight_peerLines (s : State) (id : Nat) : (s.dropFlight id).peerLines = s.peerLines := rfl
@[simp] theorem State.dropFlight_writers (s : State) (id : Nat) : (s.dropFlight id).writers = s.writers := rfl
@[simp] theorem State.dropFlight_walkCache (s : State) (id : Nat) : (s.dropFlight id).walkCache = s.walkCache := rfl
@[simp] theorem State.dropFlight_misses (s : State) (id : Nat) : (s.dropFlight id).misses = s.misses := rfl
@[simp] theorem State.dropFlight_missWait (s : State) (id : Nat) : (s.dropFlight id).missWait = s.missWait := rfl
@[simp] theorem State.dropFlight_afresh (s : State) (id : Nat) : (s.dropFlight id).afresh = s.afresh := rfl
@[simp] theorem State.dropFlight_words (s : State) (id : Nat) : (s.dropFlight id).words = s.words := rfl
@[simp] theorem State.dropFlight_brickPart (s : State) (id : Nat) : (s.dropFlight id).brickPart = s.brickPart := rfl
@[simp] theorem State.dropFlight_troot (s : State) (id : Nat) : (s.dropFlight id).troot = s.troot := rfl
@[simp] theorem State.dropFlight_trootSet (s : State) (id : Nat) : (s.dropFlight id).trootSet = s.trootSet := rfl
@[simp] theorem State.dropFlight_tlb (s : State) (id : Nat) : (s.dropFlight id).tlb = s.tlb := rfl
@[simp] theorem State.dropFlight_keys (s : State) (id : Nat) : (s.dropFlight id).keys = s.keys := rfl
@[simp] theorem State.dropFlight_handles (s : State) (id : Nat) : (s.dropFlight id).handles = s.handles := rfl
@[simp] theorem State.dropFlight_bindings (s : State) (id : Nat) : (s.dropFlight id).bindings = s.bindings := rfl
@[simp] theorem State.dropFlight_rings (s : State) (id : Nat) : (s.dropFlight id).rings = s.rings := rfl
@[simp] theorem State.dropFlight_queues (s : State) (id : Nat) : (s.dropFlight id).queues = s.queues := rfl
@[simp] theorem State.dropFlight_seq (s : State) (id : Nat) : (s.dropFlight id).seq = s.seq := rfl
@[simp] theorem State.dropFlight_rrAccept (s : State) (id : Nat) : (s.dropFlight id).rrAccept = s.rrAccept := rfl
@[simp] theorem State.dropFlight_rrAdmit (s : State) (id : Nat) : (s.dropFlight id).rrAdmit = s.rrAdmit := rfl
@[simp] theorem State.dropFlight_turnOf (s : State) (id : Nat) : (s.dropFlight id).turnOf = s.turnOf := rfl
@[simp] theorem State.dropFlight_launches (s : State) (id : Nat) : (s.dropFlight id).launches = s.launches := rfl
@[simp] theorem State.dropFlight_saved (s : State) (id : Nat) : (s.dropFlight id).saved = s.saved := rfl
@[simp] theorem State.dropFlight_psets (s : State) (id : Nat) : (s.dropFlight id).psets = s.psets := rfl
@[simp] theorem State.dropFlight_faults (s : State) (id : Nat) : (s.dropFlight id).faults = s.faults := rfl
@[simp] theorem State.dropFlight_frid (s : State) (id : Nat) : (s.dropFlight id).frid = s.frid := rfl
@[simp] theorem State.dropFlight_counters (s : State) (id : Nat) : (s.dropFlight id).counters = s.counters := rfl
@[simp] theorem State.dropFlight_areas (s : State) (id : Nat) : (s.dropFlight id).areas = s.areas := rfl
@[simp] theorem State.dropFlight_dieId (s : State) (id : Nat) : (s.dropFlight id).dieId = s.dieId := rfl
@[simp] theorem State.dropFlight_link (s : State) (id : Nat) : (s.dropFlight id).link = s.link := rfl
@[simp] theorem State.dropFlight_qps (s : State) (id : Nat) : (s.dropFlight id).qps = s.qps := rfl
@[simp] theorem State.dropFlight_regs (s : State) (id : Nat) : (s.dropFlight id).regs = s.regs := rfl
@[simp] theorem State.dropFlight_regions (s : State) (id : Nat) : (s.dropFlight id).regions = s.regions := rfl
@[simp] theorem State.dropFlight_streams (s : State) (id : Nat) : (s.dropFlight id).streams = s.streams := rfl
@[simp] theorem State.dropFlight_outbox (s : State) (id : Nat) : (s.dropFlight id).outbox = s.outbox := rfl
@[simp] theorem State.dropFlight_fw (s : State) (id : Nat) : (s.dropFlight id).fw = s.fw := rfl
@[simp] theorem State.dropFlight_commands (s : State) (id : Nat) : (s.dropFlight id).commands = s.commands := rfl
@[simp] theorem State.dropFlight_life (s : State) (id : Nat) : (s.dropFlight id).life = s.life := rfl
@[simp] theorem State.dropFlight_throttle (s : State) (id : Nat) : (s.dropFlight id).throttle = s.throttle := rfl
@[simp] theorem State.dropFlight_snaps (s : State) (id : Nat) : (s.dropFlight id).snaps = s.snaps := rfl
@[simp] theorem State.dropFlight_powered (s : State) (id : Nat) : (s.dropFlight id).powered = s.powered := rfl

/-! ### modCourse -/

@[simp] theorem State.modCourse_plan (s : State) (c : Nat) (f : Course → Course) : (s.modCourse c f).plan = s.plan := rfl
@[simp] theorem State.modCourse_turns (s : State) (c : Nat) (f : Course → Course) : (s.modCourse c f).turns = s.turns := rfl
@[simp] theorem State.modCourse_fresh (s : State) (c : Nat) (f : Course → Course) : (s.modCourse c f).fresh = s.fresh := rfl
@[simp] theorem State.modCourse_nextId (s : State) (c : Nat) (f : Course → Course) : (s.modCourse c f).nextId = s.nextId := rfl
@[simp] theorem State.modCourse_timebase (s : State) (c : Nat) (f : Course → Course) : (s.modCourse c f).timebase = s.timebase := rfl
@[simp] theorem State.modCourse_strands (s : State) (c : Nat) (f : Course → Course) : (s.modCourse c f).strands = s.strands := rfl
@[simp] theorem State.modCourse_teams (s : State) (c : Nat) (f : Course → Course) : (s.modCourse c f).teams = s.teams := rfl
@[simp] theorem State.modCourse_bundles (s : State) (c : Nat) (f : Course → Course) : (s.modCourse c f).bundles = s.bundles := rfl
@[simp] theorem State.modCourse_flights (s : State) (c : Nat) (f : Course → Course) : (s.modCourse c f).flights = s.flights := rfl
@[simp] theorem State.modCourse_starve (s : State) (c : Nat) (f : Course → Course) : (s.modCourse c f).starve = s.starve := rfl
@[simp] theorem State.modCourse_mem (s : State) (c : Nat) (f : Course → Course) : (s.modCourse c f).mem = s.mem := rfl
@[simp] theorem State.modCourse_dieCache (s : State) (c : Nat) (f : Course → Course) : (s.modCourse c f).dieCache = s.dieCache := rfl
@[simp] theorem State.modCourse_rank (s : State) (c : Nat) (f : Course → Course) : (s.modCourse c f).rank = s.rank := rfl
@[simp] theorem State.modCourse_dieClean (s : State) (c : Nat) (f : Course → Course) : (s.modCourse c f).dieClean = s.dieClean := rfl
@[simp] theorem State.modCourse_peerLines (s : State) (c : Nat) (f : Course → Course) : (s.modCourse c f).peerLines = s.peerLines := rfl
@[simp] theorem State.modCourse_writers (s : State) (c : Nat) (f : Course → Course) : (s.modCourse c f).writers = s.writers := rfl
@[simp] theorem State.modCourse_walkCache (s : State) (c : Nat) (f : Course → Course) : (s.modCourse c f).walkCache = s.walkCache := rfl
@[simp] theorem State.modCourse_misses (s : State) (c : Nat) (f : Course → Course) : (s.modCourse c f).misses = s.misses := rfl
@[simp] theorem State.modCourse_missWait (s : State) (c : Nat) (f : Course → Course) : (s.modCourse c f).missWait = s.missWait := rfl
@[simp] theorem State.modCourse_afresh (s : State) (c : Nat) (f : Course → Course) : (s.modCourse c f).afresh = s.afresh := rfl
@[simp] theorem State.modCourse_words (s : State) (c : Nat) (f : Course → Course) : (s.modCourse c f).words = s.words := rfl
@[simp] theorem State.modCourse_brickPart (s : State) (c : Nat) (f : Course → Course) : (s.modCourse c f).brickPart = s.brickPart := rfl
@[simp] theorem State.modCourse_troot (s : State) (c : Nat) (f : Course → Course) : (s.modCourse c f).troot = s.troot := rfl
@[simp] theorem State.modCourse_trootSet (s : State) (c : Nat) (f : Course → Course) : (s.modCourse c f).trootSet = s.trootSet := rfl
@[simp] theorem State.modCourse_tlb (s : State) (c : Nat) (f : Course → Course) : (s.modCourse c f).tlb = s.tlb := rfl
@[simp] theorem State.modCourse_keys (s : State) (c : Nat) (f : Course → Course) : (s.modCourse c f).keys = s.keys := rfl
@[simp] theorem State.modCourse_handles (s : State) (c : Nat) (f : Course → Course) : (s.modCourse c f).handles = s.handles := rfl
@[simp] theorem State.modCourse_bindings (s : State) (c : Nat) (f : Course → Course) : (s.modCourse c f).bindings = s.bindings := rfl
@[simp] theorem State.modCourse_rings (s : State) (c : Nat) (f : Course → Course) : (s.modCourse c f).rings = s.rings := rfl
@[simp] theorem State.modCourse_queues (s : State) (c : Nat) (f : Course → Course) : (s.modCourse c f).queues = s.queues := rfl
@[simp] theorem State.modCourse_seq (s : State) (c : Nat) (f : Course → Course) : (s.modCourse c f).seq = s.seq := rfl
@[simp] theorem State.modCourse_rrAccept (s : State) (c : Nat) (f : Course → Course) : (s.modCourse c f).rrAccept = s.rrAccept := rfl
@[simp] theorem State.modCourse_rrAdmit (s : State) (c : Nat) (f : Course → Course) : (s.modCourse c f).rrAdmit = s.rrAdmit := rfl
@[simp] theorem State.modCourse_turnOf (s : State) (c : Nat) (f : Course → Course) : (s.modCourse c f).turnOf = s.turnOf := rfl
@[simp] theorem State.modCourse_launches (s : State) (c : Nat) (f : Course → Course) : (s.modCourse c f).launches = s.launches := rfl
@[simp] theorem State.modCourse_saved (s : State) (c : Nat) (f : Course → Course) : (s.modCourse c f).saved = s.saved := rfl
@[simp] theorem State.modCourse_psets (s : State) (c : Nat) (f : Course → Course) : (s.modCourse c f).psets = s.psets := rfl
@[simp] theorem State.modCourse_faults (s : State) (c : Nat) (f : Course → Course) : (s.modCourse c f).faults = s.faults := rfl
@[simp] theorem State.modCourse_frid (s : State) (c : Nat) (f : Course → Course) : (s.modCourse c f).frid = s.frid := rfl
@[simp] theorem State.modCourse_counters (s : State) (c : Nat) (f : Course → Course) : (s.modCourse c f).counters = s.counters := rfl
@[simp] theorem State.modCourse_areas (s : State) (c : Nat) (f : Course → Course) : (s.modCourse c f).areas = s.areas := rfl
@[simp] theorem State.modCourse_dieId (s : State) (c : Nat) (f : Course → Course) : (s.modCourse c f).dieId = s.dieId := rfl
@[simp] theorem State.modCourse_link (s : State) (c : Nat) (f : Course → Course) : (s.modCourse c f).link = s.link := rfl
@[simp] theorem State.modCourse_qps (s : State) (c : Nat) (f : Course → Course) : (s.modCourse c f).qps = s.qps := rfl
@[simp] theorem State.modCourse_regs (s : State) (c : Nat) (f : Course → Course) : (s.modCourse c f).regs = s.regs := rfl
@[simp] theorem State.modCourse_regions (s : State) (c : Nat) (f : Course → Course) : (s.modCourse c f).regions = s.regions := rfl
@[simp] theorem State.modCourse_streams (s : State) (c : Nat) (f : Course → Course) : (s.modCourse c f).streams = s.streams := rfl
@[simp] theorem State.modCourse_outbox (s : State) (c : Nat) (f : Course → Course) : (s.modCourse c f).outbox = s.outbox := rfl
@[simp] theorem State.modCourse_fw (s : State) (c : Nat) (f : Course → Course) : (s.modCourse c f).fw = s.fw := rfl
@[simp] theorem State.modCourse_commands (s : State) (c : Nat) (f : Course → Course) : (s.modCourse c f).commands = s.commands := rfl
@[simp] theorem State.modCourse_life (s : State) (c : Nat) (f : Course → Course) : (s.modCourse c f).life = s.life := rfl
@[simp] theorem State.modCourse_throttle (s : State) (c : Nat) (f : Course → Course) : (s.modCourse c f).throttle = s.throttle := rfl
@[simp] theorem State.modCourse_snaps (s : State) (c : Nat) (f : Course → Course) : (s.modCourse c f).snaps = s.snaps := rfl
@[simp] theorem State.modCourse_powered (s : State) (c : Nat) (f : Course → Course) : (s.modCourse c f).powered = s.powered := rfl

/-! ### fly -/

@[simp] theorem State.fly_plan (s : State) (tid : Nat) (op : FlightOp) : (s.fly tid op).plan = s.plan := rfl
@[simp] theorem State.fly_turns (s : State) (tid : Nat) (op : FlightOp) : (s.fly tid op).turns = s.turns := rfl
@[simp] theorem State.fly_fresh (s : State) (tid : Nat) (op : FlightOp) : (s.fly tid op).fresh = s.fresh := rfl
@[simp] theorem State.fly_timebase (s : State) (tid : Nat) (op : FlightOp) : (s.fly tid op).timebase = s.timebase := rfl
@[simp] theorem State.fly_strands (s : State) (tid : Nat) (op : FlightOp) : (s.fly tid op).strands = s.strands := rfl
@[simp] theorem State.fly_teams (s : State) (tid : Nat) (op : FlightOp) : (s.fly tid op).teams = s.teams := rfl
@[simp] theorem State.fly_bundles (s : State) (tid : Nat) (op : FlightOp) : (s.fly tid op).bundles = s.bundles := rfl
@[simp] theorem State.fly_starve (s : State) (tid : Nat) (op : FlightOp) : (s.fly tid op).starve = s.starve := rfl
@[simp] theorem State.fly_courses (s : State) (tid : Nat) (op : FlightOp) : (s.fly tid op).courses = s.courses := rfl
@[simp] theorem State.fly_mem (s : State) (tid : Nat) (op : FlightOp) : (s.fly tid op).mem = s.mem := rfl
@[simp] theorem State.fly_dieCache (s : State) (tid : Nat) (op : FlightOp) : (s.fly tid op).dieCache = s.dieCache := rfl
@[simp] theorem State.fly_rank (s : State) (tid : Nat) (op : FlightOp) : (s.fly tid op).rank = s.rank := rfl
@[simp] theorem State.fly_dieClean (s : State) (tid : Nat) (op : FlightOp) : (s.fly tid op).dieClean = s.dieClean := rfl
@[simp] theorem State.fly_peerLines (s : State) (tid : Nat) (op : FlightOp) : (s.fly tid op).peerLines = s.peerLines := rfl
@[simp] theorem State.fly_writers (s : State) (tid : Nat) (op : FlightOp) : (s.fly tid op).writers = s.writers := rfl
@[simp] theorem State.fly_walkCache (s : State) (tid : Nat) (op : FlightOp) : (s.fly tid op).walkCache = s.walkCache := rfl
@[simp] theorem State.fly_misses (s : State) (tid : Nat) (op : FlightOp) : (s.fly tid op).misses = s.misses := rfl
@[simp] theorem State.fly_missWait (s : State) (tid : Nat) (op : FlightOp) : (s.fly tid op).missWait = s.missWait := rfl
@[simp] theorem State.fly_afresh (s : State) (tid : Nat) (op : FlightOp) : (s.fly tid op).afresh = s.afresh := rfl
@[simp] theorem State.fly_words (s : State) (tid : Nat) (op : FlightOp) : (s.fly tid op).words = s.words := rfl
@[simp] theorem State.fly_brickPart (s : State) (tid : Nat) (op : FlightOp) : (s.fly tid op).brickPart = s.brickPart := rfl
@[simp] theorem State.fly_troot (s : State) (tid : Nat) (op : FlightOp) : (s.fly tid op).troot = s.troot := rfl
@[simp] theorem State.fly_trootSet (s : State) (tid : Nat) (op : FlightOp) : (s.fly tid op).trootSet = s.trootSet := rfl
@[simp] theorem State.fly_tlb (s : State) (tid : Nat) (op : FlightOp) : (s.fly tid op).tlb = s.tlb := rfl
@[simp] theorem State.fly_keys (s : State) (tid : Nat) (op : FlightOp) : (s.fly tid op).keys = s.keys := rfl
@[simp] theorem State.fly_handles (s : State) (tid : Nat) (op : FlightOp) : (s.fly tid op).handles = s.handles := rfl
@[simp] theorem State.fly_bindings (s : State) (tid : Nat) (op : FlightOp) : (s.fly tid op).bindings = s.bindings := rfl
@[simp] theorem State.fly_rings (s : State) (tid : Nat) (op : FlightOp) : (s.fly tid op).rings = s.rings := rfl
@[simp] theorem State.fly_queues (s : State) (tid : Nat) (op : FlightOp) : (s.fly tid op).queues = s.queues := rfl
@[simp] theorem State.fly_seq (s : State) (tid : Nat) (op : FlightOp) : (s.fly tid op).seq = s.seq := rfl
@[simp] theorem State.fly_rrAccept (s : State) (tid : Nat) (op : FlightOp) : (s.fly tid op).rrAccept = s.rrAccept := rfl
@[simp] theorem State.fly_rrAdmit (s : State) (tid : Nat) (op : FlightOp) : (s.fly tid op).rrAdmit = s.rrAdmit := rfl
@[simp] theorem State.fly_turnOf (s : State) (tid : Nat) (op : FlightOp) : (s.fly tid op).turnOf = s.turnOf := rfl
@[simp] theorem State.fly_launches (s : State) (tid : Nat) (op : FlightOp) : (s.fly tid op).launches = s.launches := rfl
@[simp] theorem State.fly_saved (s : State) (tid : Nat) (op : FlightOp) : (s.fly tid op).saved = s.saved := rfl
@[simp] theorem State.fly_psets (s : State) (tid : Nat) (op : FlightOp) : (s.fly tid op).psets = s.psets := rfl
@[simp] theorem State.fly_faults (s : State) (tid : Nat) (op : FlightOp) : (s.fly tid op).faults = s.faults := rfl
@[simp] theorem State.fly_frid (s : State) (tid : Nat) (op : FlightOp) : (s.fly tid op).frid = s.frid := rfl
@[simp] theorem State.fly_counters (s : State) (tid : Nat) (op : FlightOp) : (s.fly tid op).counters = s.counters := rfl
@[simp] theorem State.fly_areas (s : State) (tid : Nat) (op : FlightOp) : (s.fly tid op).areas = s.areas := rfl
@[simp] theorem State.fly_dieId (s : State) (tid : Nat) (op : FlightOp) : (s.fly tid op).dieId = s.dieId := rfl
@[simp] theorem State.fly_link (s : State) (tid : Nat) (op : FlightOp) : (s.fly tid op).link = s.link := rfl
@[simp] theorem State.fly_qps (s : State) (tid : Nat) (op : FlightOp) : (s.fly tid op).qps = s.qps := rfl
@[simp] theorem State.fly_regs (s : State) (tid : Nat) (op : FlightOp) : (s.fly tid op).regs = s.regs := rfl
@[simp] theorem State.fly_regions (s : State) (tid : Nat) (op : FlightOp) : (s.fly tid op).regions = s.regions := rfl
@[simp] theorem State.fly_streams (s : State) (tid : Nat) (op : FlightOp) : (s.fly tid op).streams = s.streams := rfl
@[simp] theorem State.fly_outbox (s : State) (tid : Nat) (op : FlightOp) : (s.fly tid op).outbox = s.outbox := rfl
@[simp] theorem State.fly_fw (s : State) (tid : Nat) (op : FlightOp) : (s.fly tid op).fw = s.fw := rfl
@[simp] theorem State.fly_commands (s : State) (tid : Nat) (op : FlightOp) : (s.fly tid op).commands = s.commands := rfl
@[simp] theorem State.fly_life (s : State) (tid : Nat) (op : FlightOp) : (s.fly tid op).life = s.life := rfl
@[simp] theorem State.fly_throttle (s : State) (tid : Nat) (op : FlightOp) : (s.fly tid op).throttle = s.throttle := rfl
@[simp] theorem State.fly_snaps (s : State) (tid : Nat) (op : FlightOp) : (s.fly tid op).snaps = s.snaps := rfl
@[simp] theorem State.fly_powered (s : State) (tid : Nat) (op : FlightOp) : (s.fly tid op).powered = s.powered := rfl

/-! ### setHead -/

@[simp] theorem State.setHead_plan (s : State) (b : Bundle) : (s.setHead b).plan = s.plan := rfl
@[simp] theorem State.setHead_turns (s : State) (b : Bundle) : (s.setHead b).turns = s.turns := rfl
@[simp] theorem State.setHead_fresh (s : State) (b : Bundle) : (s.setHead b).fresh = s.fresh := rfl
@[simp] theorem State.setHead_nextId (s : State) (b : Bundle) : (s.setHead b).nextId = s.nextId := rfl
@[simp] theorem State.setHead_timebase (s : State) (b : Bundle) : (s.setHead b).timebase = s.timebase := rfl
@[simp] theorem State.setHead_strands (s : State) (b : Bundle) : (s.setHead b).strands = s.strands := rfl
@[simp] theorem State.setHead_teams (s : State) (b : Bundle) : (s.setHead b).teams = s.teams := rfl
@[simp] theorem State.setHead_flights (s : State) (b : Bundle) : (s.setHead b).flights = s.flights := rfl
@[simp] theorem State.setHead_starve (s : State) (b : Bundle) : (s.setHead b).starve = s.starve := rfl
@[simp] theorem State.setHead_courses (s : State) (b : Bundle) : (s.setHead b).courses = s.courses := rfl
@[simp] theorem State.setHead_mem (s : State) (b : Bundle) : (s.setHead b).mem = s.mem := rfl
@[simp] theorem State.setHead_dieCache (s : State) (b : Bundle) : (s.setHead b).dieCache = s.dieCache := rfl
@[simp] theorem State.setHead_rank (s : State) (b : Bundle) : (s.setHead b).rank = s.rank := rfl
@[simp] theorem State.setHead_dieClean (s : State) (b : Bundle) : (s.setHead b).dieClean = s.dieClean := rfl
@[simp] theorem State.setHead_peerLines (s : State) (b : Bundle) : (s.setHead b).peerLines = s.peerLines := rfl
@[simp] theorem State.setHead_writers (s : State) (b : Bundle) : (s.setHead b).writers = s.writers := rfl
@[simp] theorem State.setHead_walkCache (s : State) (b : Bundle) : (s.setHead b).walkCache = s.walkCache := rfl
@[simp] theorem State.setHead_misses (s : State) (b : Bundle) : (s.setHead b).misses = s.misses := rfl
@[simp] theorem State.setHead_missWait (s : State) (b : Bundle) : (s.setHead b).missWait = s.missWait := rfl
@[simp] theorem State.setHead_afresh (s : State) (b : Bundle) : (s.setHead b).afresh = s.afresh := rfl
@[simp] theorem State.setHead_words (s : State) (b : Bundle) : (s.setHead b).words = s.words := rfl
@[simp] theorem State.setHead_brickPart (s : State) (b : Bundle) : (s.setHead b).brickPart = s.brickPart := rfl
@[simp] theorem State.setHead_troot (s : State) (b : Bundle) : (s.setHead b).troot = s.troot := rfl
@[simp] theorem State.setHead_trootSet (s : State) (b : Bundle) : (s.setHead b).trootSet = s.trootSet := rfl
@[simp] theorem State.setHead_tlb (s : State) (b : Bundle) : (s.setHead b).tlb = s.tlb := rfl
@[simp] theorem State.setHead_keys (s : State) (b : Bundle) : (s.setHead b).keys = s.keys := rfl
@[simp] theorem State.setHead_handles (s : State) (b : Bundle) : (s.setHead b).handles = s.handles := rfl
@[simp] theorem State.setHead_bindings (s : State) (b : Bundle) : (s.setHead b).bindings = s.bindings := rfl
@[simp] theorem State.setHead_rings (s : State) (b : Bundle) : (s.setHead b).rings = s.rings := rfl
@[simp] theorem State.setHead_queues (s : State) (b : Bundle) : (s.setHead b).queues = s.queues := rfl
@[simp] theorem State.setHead_seq (s : State) (b : Bundle) : (s.setHead b).seq = s.seq := rfl
@[simp] theorem State.setHead_rrAccept (s : State) (b : Bundle) : (s.setHead b).rrAccept = s.rrAccept := rfl
@[simp] theorem State.setHead_rrAdmit (s : State) (b : Bundle) : (s.setHead b).rrAdmit = s.rrAdmit := rfl
@[simp] theorem State.setHead_turnOf (s : State) (b : Bundle) : (s.setHead b).turnOf = s.turnOf := rfl
@[simp] theorem State.setHead_launches (s : State) (b : Bundle) : (s.setHead b).launches = s.launches := rfl
@[simp] theorem State.setHead_saved (s : State) (b : Bundle) : (s.setHead b).saved = s.saved := rfl
@[simp] theorem State.setHead_psets (s : State) (b : Bundle) : (s.setHead b).psets = s.psets := rfl
@[simp] theorem State.setHead_faults (s : State) (b : Bundle) : (s.setHead b).faults = s.faults := rfl
@[simp] theorem State.setHead_frid (s : State) (b : Bundle) : (s.setHead b).frid = s.frid := rfl
@[simp] theorem State.setHead_counters (s : State) (b : Bundle) : (s.setHead b).counters = s.counters := rfl
@[simp] theorem State.setHead_areas (s : State) (b : Bundle) : (s.setHead b).areas = s.areas := rfl
@[simp] theorem State.setHead_dieId (s : State) (b : Bundle) : (s.setHead b).dieId = s.dieId := rfl
@[simp] theorem State.setHead_link (s : State) (b : Bundle) : (s.setHead b).link = s.link := rfl
@[simp] theorem State.setHead_qps (s : State) (b : Bundle) : (s.setHead b).qps = s.qps := rfl
@[simp] theorem State.setHead_regs (s : State) (b : Bundle) : (s.setHead b).regs = s.regs := rfl
@[simp] theorem State.setHead_regions (s : State) (b : Bundle) : (s.setHead b).regions = s.regions := rfl
@[simp] theorem State.setHead_streams (s : State) (b : Bundle) : (s.setHead b).streams = s.streams := rfl
@[simp] theorem State.setHead_outbox (s : State) (b : Bundle) : (s.setHead b).outbox = s.outbox := rfl
@[simp] theorem State.setHead_fw (s : State) (b : Bundle) : (s.setHead b).fw = s.fw := rfl
@[simp] theorem State.setHead_commands (s : State) (b : Bundle) : (s.setHead b).commands = s.commands := rfl
@[simp] theorem State.setHead_life (s : State) (b : Bundle) : (s.setHead b).life = s.life := rfl
@[simp] theorem State.setHead_throttle (s : State) (b : Bundle) : (s.setHead b).throttle = s.throttle := rfl
@[simp] theorem State.setHead_snaps (s : State) (b : Bundle) : (s.setHead b).snaps = s.snaps := rfl
@[simp] theorem State.setHead_powered (s : State) (b : Bundle) : (s.setHead b).powered = s.powered := rfl

/-! ### stopBefore -/

@[simp] theorem State.stopBefore_plan (s : State) (b : Bundle) (q : Strand → BitVec 4) : (s.stopBefore b q).plan = s.plan := rfl
@[simp] theorem State.stopBefore_turns (s : State) (b : Bundle) (q : Strand → BitVec 4) : (s.stopBefore b q).turns = s.turns := rfl
@[simp] theorem State.stopBefore_fresh (s : State) (b : Bundle) (q : Strand → BitVec 4) : (s.stopBefore b q).fresh = s.fresh := rfl
@[simp] theorem State.stopBefore_nextId (s : State) (b : Bundle) (q : Strand → BitVec 4) : (s.stopBefore b q).nextId = s.nextId := rfl
@[simp] theorem State.stopBefore_timebase (s : State) (b : Bundle) (q : Strand → BitVec 4) : (s.stopBefore b q).timebase = s.timebase := rfl
@[simp] theorem State.stopBefore_teams (s : State) (b : Bundle) (q : Strand → BitVec 4) : (s.stopBefore b q).teams = s.teams := rfl
@[simp] theorem State.stopBefore_flights (s : State) (b : Bundle) (q : Strand → BitVec 4) : (s.stopBefore b q).flights = s.flights := rfl
@[simp] theorem State.stopBefore_starve (s : State) (b : Bundle) (q : Strand → BitVec 4) : (s.stopBefore b q).starve = s.starve := rfl
@[simp] theorem State.stopBefore_courses (s : State) (b : Bundle) (q : Strand → BitVec 4) : (s.stopBefore b q).courses = s.courses := rfl
@[simp] theorem State.stopBefore_mem (s : State) (b : Bundle) (q : Strand → BitVec 4) : (s.stopBefore b q).mem = s.mem := rfl
@[simp] theorem State.stopBefore_dieCache (s : State) (b : Bundle) (q : Strand → BitVec 4) : (s.stopBefore b q).dieCache = s.dieCache := rfl
@[simp] theorem State.stopBefore_rank (s : State) (b : Bundle) (q : Strand → BitVec 4) : (s.stopBefore b q).rank = s.rank := rfl
@[simp] theorem State.stopBefore_dieClean (s : State) (b : Bundle) (q : Strand → BitVec 4) : (s.stopBefore b q).dieClean = s.dieClean := rfl
@[simp] theorem State.stopBefore_peerLines (s : State) (b : Bundle) (q : Strand → BitVec 4) : (s.stopBefore b q).peerLines = s.peerLines := rfl
@[simp] theorem State.stopBefore_writers (s : State) (b : Bundle) (q : Strand → BitVec 4) : (s.stopBefore b q).writers = s.writers := rfl
@[simp] theorem State.stopBefore_walkCache (s : State) (b : Bundle) (q : Strand → BitVec 4) : (s.stopBefore b q).walkCache = s.walkCache := rfl
@[simp] theorem State.stopBefore_misses (s : State) (b : Bundle) (q : Strand → BitVec 4) : (s.stopBefore b q).misses = s.misses := rfl
@[simp] theorem State.stopBefore_missWait (s : State) (b : Bundle) (q : Strand → BitVec 4) : (s.stopBefore b q).missWait = s.missWait := rfl
@[simp] theorem State.stopBefore_afresh (s : State) (b : Bundle) (q : Strand → BitVec 4) : (s.stopBefore b q).afresh = s.afresh := rfl
@[simp] theorem State.stopBefore_words (s : State) (b : Bundle) (q : Strand → BitVec 4) : (s.stopBefore b q).words = s.words := rfl
@[simp] theorem State.stopBefore_brickPart (s : State) (b : Bundle) (q : Strand → BitVec 4) : (s.stopBefore b q).brickPart = s.brickPart := rfl
@[simp] theorem State.stopBefore_troot (s : State) (b : Bundle) (q : Strand → BitVec 4) : (s.stopBefore b q).troot = s.troot := rfl
@[simp] theorem State.stopBefore_trootSet (s : State) (b : Bundle) (q : Strand → BitVec 4) : (s.stopBefore b q).trootSet = s.trootSet := rfl
@[simp] theorem State.stopBefore_tlb (s : State) (b : Bundle) (q : Strand → BitVec 4) : (s.stopBefore b q).tlb = s.tlb := rfl
@[simp] theorem State.stopBefore_keys (s : State) (b : Bundle) (q : Strand → BitVec 4) : (s.stopBefore b q).keys = s.keys := rfl
@[simp] theorem State.stopBefore_handles (s : State) (b : Bundle) (q : Strand → BitVec 4) : (s.stopBefore b q).handles = s.handles := rfl
@[simp] theorem State.stopBefore_bindings (s : State) (b : Bundle) (q : Strand → BitVec 4) : (s.stopBefore b q).bindings = s.bindings := rfl
@[simp] theorem State.stopBefore_rings (s : State) (b : Bundle) (q : Strand → BitVec 4) : (s.stopBefore b q).rings = s.rings := rfl
@[simp] theorem State.stopBefore_queues (s : State) (b : Bundle) (q : Strand → BitVec 4) : (s.stopBefore b q).queues = s.queues := rfl
@[simp] theorem State.stopBefore_seq (s : State) (b : Bundle) (q : Strand → BitVec 4) : (s.stopBefore b q).seq = s.seq := rfl
@[simp] theorem State.stopBefore_rrAccept (s : State) (b : Bundle) (q : Strand → BitVec 4) : (s.stopBefore b q).rrAccept = s.rrAccept := rfl
@[simp] theorem State.stopBefore_rrAdmit (s : State) (b : Bundle) (q : Strand → BitVec 4) : (s.stopBefore b q).rrAdmit = s.rrAdmit := rfl
@[simp] theorem State.stopBefore_turnOf (s : State) (b : Bundle) (q : Strand → BitVec 4) : (s.stopBefore b q).turnOf = s.turnOf := rfl
@[simp] theorem State.stopBefore_launches (s : State) (b : Bundle) (q : Strand → BitVec 4) : (s.stopBefore b q).launches = s.launches := rfl
@[simp] theorem State.stopBefore_saved (s : State) (b : Bundle) (q : Strand → BitVec 4) : (s.stopBefore b q).saved = s.saved := rfl
@[simp] theorem State.stopBefore_psets (s : State) (b : Bundle) (q : Strand → BitVec 4) : (s.stopBefore b q).psets = s.psets := rfl
@[simp] theorem State.stopBefore_faults (s : State) (b : Bundle) (q : Strand → BitVec 4) : (s.stopBefore b q).faults = s.faults := rfl
@[simp] theorem State.stopBefore_frid (s : State) (b : Bundle) (q : Strand → BitVec 4) : (s.stopBefore b q).frid = s.frid := rfl
@[simp] theorem State.stopBefore_counters (s : State) (b : Bundle) (q : Strand → BitVec 4) : (s.stopBefore b q).counters = s.counters := rfl
@[simp] theorem State.stopBefore_areas (s : State) (b : Bundle) (q : Strand → BitVec 4) : (s.stopBefore b q).areas = s.areas := rfl
@[simp] theorem State.stopBefore_dieId (s : State) (b : Bundle) (q : Strand → BitVec 4) : (s.stopBefore b q).dieId = s.dieId := rfl
@[simp] theorem State.stopBefore_link (s : State) (b : Bundle) (q : Strand → BitVec 4) : (s.stopBefore b q).link = s.link := rfl
@[simp] theorem State.stopBefore_qps (s : State) (b : Bundle) (q : Strand → BitVec 4) : (s.stopBefore b q).qps = s.qps := rfl
@[simp] theorem State.stopBefore_regs (s : State) (b : Bundle) (q : Strand → BitVec 4) : (s.stopBefore b q).regs = s.regs := rfl
@[simp] theorem State.stopBefore_regions (s : State) (b : Bundle) (q : Strand → BitVec 4) : (s.stopBefore b q).regions = s.regions := rfl
@[simp] theorem State.stopBefore_streams (s : State) (b : Bundle) (q : Strand → BitVec 4) : (s.stopBefore b q).streams = s.streams := rfl
@[simp] theorem State.stopBefore_outbox (s : State) (b : Bundle) (q : Strand → BitVec 4) : (s.stopBefore b q).outbox = s.outbox := rfl
@[simp] theorem State.stopBefore_fw (s : State) (b : Bundle) (q : Strand → BitVec 4) : (s.stopBefore b q).fw = s.fw := rfl
@[simp] theorem State.stopBefore_commands (s : State) (b : Bundle) (q : Strand → BitVec 4) : (s.stopBefore b q).commands = s.commands := rfl
@[simp] theorem State.stopBefore_life (s : State) (b : Bundle) (q : Strand → BitVec 4) : (s.stopBefore b q).life = s.life := rfl
@[simp] theorem State.stopBefore_throttle (s : State) (b : Bundle) (q : Strand → BitVec 4) : (s.stopBefore b q).throttle = s.throttle := rfl
@[simp] theorem State.stopBefore_snaps (s : State) (b : Bundle) (q : Strand → BitVec 4) : (s.stopBefore b q).snaps = s.snaps := rfl
@[simp] theorem State.stopBefore_powered (s : State) (b : Bundle) (q : Strand → BitVec 4) : (s.stopBefore b q).powered = s.powered := rfl

/-! ### setG -/

@[simp] theorem Strand.setG_sid (x : Strand) (r : GReg) (v : Word) : (x.setG r v).sid = x.sid := rfl
@[simp] theorem Strand.setG_tid (x : Strand) (r : GReg) (v : Word) : (x.setG r v).tid = x.tid := rfl
@[simp] theorem Strand.setG_strandId (x : Strand) (r : GReg) (v : Word) : (x.setG r v).strandId = x.strandId := rfl
@[simp] theorem Strand.setG_age (x : Strand) (r : GReg) (v : Word) : (x.setG r v).age = x.age := rfl
@[simp] theorem Strand.setG_pc (x : Strand) (r : GReg) (v : Word) : (x.setG r v).pc = x.pc := rfl
@[simp] theorem Strand.setG_p (x : Strand) (r : GReg) (v : Word) : (x.setG r v).p = x.p := rfl
@[simp] theorem Strand.setG_maxabs (x : Strand) (r : GReg) (v : Word) : (x.setG r v).maxabs = x.maxabs := rfl
@[simp] theorem Strand.setG_rng (x : Strand) (r : GReg) (v : Word) : (x.setG r v).rng = x.rng := rfl
@[simp] theorem Strand.setG_ld (x : Strand) (r : GReg) (v : Word) : (x.setG r v).ld = x.ld := rfl
@[simp] theorem Strand.setG_st (x : Strand) (r : GReg) (v : Word) : (x.setG r v).st = x.st := rfl
@[simp] theorem Strand.setG_mx (x : Strand) (r : GReg) (v : Word) : (x.setG r v).mx = x.mx := rfl
@[simp] theorem Strand.setG_cp (x : Strand) (r : GReg) (v : Word) : (x.setG r v).cp = x.cp := rfl
@[simp] theorem Strand.setG_clkhi (x : Strand) (r : GReg) (v : Word) : (x.setG r v).clkhi = x.clkhi := rfl
@[simp] theorem Strand.setG_yielded (x : Strand) (r : GReg) (v : Word) : (x.setG r v).yielded = x.yielded := rfl
@[simp] theorem Strand.setG_since (x : Strand) (r : GReg) (v : Word) : (x.setG r v).since = x.since := rfl
@[simp] theorem Strand.setG_cls (x : Strand) (r : GReg) (v : Word) : (x.setG r v).cls = x.cls := rfl
@[simp] theorem Strand.setG_state (x : Strand) (r : GReg) (v : Word) : (x.setG r v).state = x.state := rfl
@[simp] theorem Strand.setG_tvec (x : Strand) (r : GReg) (v : Word) : (x.setG r v).tvec = x.tvec := rfl
@[simp] theorem Strand.setG_epc (x : Strand) (r : GReg) (v : Word) : (x.setG r v).epc = x.epc := rfl
@[simp] theorem Strand.setG_ecause (x : Strand) (r : GReg) (v : Word) : (x.setG r v).ecause = x.ecause := rfl
@[simp] theorem Strand.setG_eva (x : Strand) (r : GReg) (v : Word) : (x.setG r v).eva = x.eva := rfl
@[simp] theorem Strand.setG_eclause (x : Strand) (r : GReg) (v : Word) : (x.setG r v).eclause = x.eclause := rfl
@[simp] theorem Strand.setG_ediff (x : Strand) (r : GReg) (v : Word) : (x.setG r v).ediff = x.ediff := rfl
@[simp] theorem Strand.setG_efrid (x : Strand) (r : GReg) (v : Word) : (x.setG r v).efrid = x.efrid := rfl
@[simp] theorem Strand.setG_owned (x : Strand) (r : GReg) (v : Word) : (x.setG r v).owned = x.owned := rfl
@[simp] theorem Strand.setG_sample (x : Strand) (r : GReg) (v : Word) : (x.setG r v).sample = x.sample := rfl
@[simp] theorem Strand.setG_rdepth (x : Strand) (r : GReg) (v : Word) : (x.setG r v).rdepth = x.rdepth := rfl
@[simp] theorem Strand.setG_side (x : Strand) (r : GReg) (v : Word) : (x.setG r v).side = x.side := rfl
@[simp] theorem Strand.setG_report (x : Strand) (r : GReg) (v : Word) : (x.setG r v).report = x.report := rfl
@[simp] theorem Strand.setG_strong (x : Strand) (r : GReg) (v : Word) : (x.setG r v).strong = x.strong := rfl
@[simp] theorem Strand.setG_heldVa (x : Strand) (r : GReg) (v : Word) : (x.setG r v).heldVa = x.heldVa := rfl
@[simp] theorem Strand.setG_heldLen (x : Strand) (r : GReg) (v : Word) : (x.setG r v).heldLen = x.heldLen := rfl

/-! ### setP -/

@[simp] theorem Strand.setP_sid (x : Strand) (q : PReg) (v : Bool) : (x.setP q v).sid = x.sid := by unfold Strand.setP; split <;> rfl
@[simp] theorem Strand.setP_tid (x : Strand) (q : PReg) (v : Bool) : (x.setP q v).tid = x.tid := by unfold Strand.setP; split <;> rfl
@[simp] theorem Strand.setP_strandId (x : Strand) (q : PReg) (v : Bool) : (x.setP q v).strandId = x.strandId := by unfold Strand.setP; split <;> rfl
@[simp] theorem Strand.setP_age (x : Strand) (q : PReg) (v : Bool) : (x.setP q v).age = x.age := by unfold Strand.setP; split <;> rfl
@[simp] theorem Strand.setP_pc (x : Strand) (q : PReg) (v : Bool) : (x.setP q v).pc = x.pc := by unfold Strand.setP; split <;> rfl
@[simp] theorem Strand.setP_g (x : Strand) (q : PReg) (v : Bool) : (x.setP q v).g = x.g := by unfold Strand.setP; split <;> rfl
@[simp] theorem Strand.setP_maxabs (x : Strand) (q : PReg) (v : Bool) : (x.setP q v).maxabs = x.maxabs := by unfold Strand.setP; split <;> rfl
@[simp] theorem Strand.setP_rng (x : Strand) (q : PReg) (v : Bool) : (x.setP q v).rng = x.rng := by unfold Strand.setP; split <;> rfl
@[simp] theorem Strand.setP_ld (x : Strand) (q : PReg) (v : Bool) : (x.setP q v).ld = x.ld := by unfold Strand.setP; split <;> rfl
@[simp] theorem Strand.setP_st (x : Strand) (q : PReg) (v : Bool) : (x.setP q v).st = x.st := by unfold Strand.setP; split <;> rfl
@[simp] theorem Strand.setP_mx (x : Strand) (q : PReg) (v : Bool) : (x.setP q v).mx = x.mx := by unfold Strand.setP; split <;> rfl
@[simp] theorem Strand.setP_cp (x : Strand) (q : PReg) (v : Bool) : (x.setP q v).cp = x.cp := by unfold Strand.setP; split <;> rfl
@[simp] theorem Strand.setP_clkhi (x : Strand) (q : PReg) (v : Bool) : (x.setP q v).clkhi = x.clkhi := by unfold Strand.setP; split <;> rfl
@[simp] theorem Strand.setP_yielded (x : Strand) (q : PReg) (v : Bool) : (x.setP q v).yielded = x.yielded := by unfold Strand.setP; split <;> rfl
@[simp] theorem Strand.setP_since (x : Strand) (q : PReg) (v : Bool) : (x.setP q v).since = x.since := by unfold Strand.setP; split <;> rfl
@[simp] theorem Strand.setP_cls (x : Strand) (q : PReg) (v : Bool) : (x.setP q v).cls = x.cls := by unfold Strand.setP; split <;> rfl
@[simp] theorem Strand.setP_state (x : Strand) (q : PReg) (v : Bool) : (x.setP q v).state = x.state := by unfold Strand.setP; split <;> rfl
@[simp] theorem Strand.setP_tvec (x : Strand) (q : PReg) (v : Bool) : (x.setP q v).tvec = x.tvec := by unfold Strand.setP; split <;> rfl
@[simp] theorem Strand.setP_epc (x : Strand) (q : PReg) (v : Bool) : (x.setP q v).epc = x.epc := by unfold Strand.setP; split <;> rfl
@[simp] theorem Strand.setP_ecause (x : Strand) (q : PReg) (v : Bool) : (x.setP q v).ecause = x.ecause := by unfold Strand.setP; split <;> rfl
@[simp] theorem Strand.setP_eva (x : Strand) (q : PReg) (v : Bool) : (x.setP q v).eva = x.eva := by unfold Strand.setP; split <;> rfl
@[simp] theorem Strand.setP_eclause (x : Strand) (q : PReg) (v : Bool) : (x.setP q v).eclause = x.eclause := by unfold Strand.setP; split <;> rfl
@[simp] theorem Strand.setP_ediff (x : Strand) (q : PReg) (v : Bool) : (x.setP q v).ediff = x.ediff := by unfold Strand.setP; split <;> rfl
@[simp] theorem Strand.setP_efrid (x : Strand) (q : PReg) (v : Bool) : (x.setP q v).efrid = x.efrid := by unfold Strand.setP; split <;> rfl
@[simp] theorem Strand.setP_owned (x : Strand) (q : PReg) (v : Bool) : (x.setP q v).owned = x.owned := by unfold Strand.setP; split <;> rfl
@[simp] theorem Strand.setP_sample (x : Strand) (q : PReg) (v : Bool) : (x.setP q v).sample = x.sample := by unfold Strand.setP; split <;> rfl
@[simp] theorem Strand.setP_rdepth (x : Strand) (q : PReg) (v : Bool) : (x.setP q v).rdepth = x.rdepth := by unfold Strand.setP; split <;> rfl
@[simp] theorem Strand.setP_side (x : Strand) (q : PReg) (v : Bool) : (x.setP q v).side = x.side := by unfold Strand.setP; split <;> rfl
@[simp] theorem Strand.setP_report (x : Strand) (q : PReg) (v : Bool) : (x.setP q v).report = x.report := by unfold Strand.setP; split <;> rfl
@[simp] theorem Strand.setP_poison (x : Strand) (q : PReg) (v : Bool) : (x.setP q v).poison = x.poison := by unfold Strand.setP; split <;> rfl
@[simp] theorem Strand.setP_wrote (x : Strand) (q : PReg) (v : Bool) : (x.setP q v).wrote = x.wrote := by unfold Strand.setP; split <;> rfl
@[simp] theorem Strand.setP_strong (x : Strand) (q : PReg) (v : Bool) : (x.setP q v).strong = x.strong := by unfold Strand.setP; split <;> rfl
@[simp] theorem Strand.setP_heldVa (x : Strand) (q : PReg) (v : Bool) : (x.setP q v).heldVa = x.heldVa := by unfold Strand.setP; split <;> rfl
@[simp] theorem Strand.setP_heldLen (x : Strand) (q : PReg) (v : Bool) : (x.setP q v).heldLen = x.heldLen := by unfold Strand.setP; split <;> rfl

/-! ### setCtr -/

@[simp] theorem Strand.setCtr_sid (x : Strand) (k : Ctr) (n : Nat) : (x.setCtr k n).sid = x.sid := by cases k <;> rfl
@[simp] theorem Strand.setCtr_tid (x : Strand) (k : Ctr) (n : Nat) : (x.setCtr k n).tid = x.tid := by cases k <;> rfl
@[simp] theorem Strand.setCtr_strandId (x : Strand) (k : Ctr) (n : Nat) : (x.setCtr k n).strandId = x.strandId := by cases k <;> rfl
@[simp] theorem Strand.setCtr_age (x : Strand) (k : Ctr) (n : Nat) : (x.setCtr k n).age = x.age := by cases k <;> rfl
@[simp] theorem Strand.setCtr_pc (x : Strand) (k : Ctr) (n : Nat) : (x.setCtr k n).pc = x.pc := by cases k <;> rfl
@[simp] theorem Strand.setCtr_g (x : Strand) (k : Ctr) (n : Nat) : (x.setCtr k n).g = x.g := by cases k <;> rfl
@[simp] theorem Strand.setCtr_p (x : Strand) (k : Ctr) (n : Nat) : (x.setCtr k n).p = x.p := by cases k <;> rfl
@[simp] theorem Strand.setCtr_maxabs (x : Strand) (k : Ctr) (n : Nat) : (x.setCtr k n).maxabs = x.maxabs := by cases k <;> rfl
@[simp] theorem Strand.setCtr_rng (x : Strand) (k : Ctr) (n : Nat) : (x.setCtr k n).rng = x.rng := by cases k <;> rfl
@[simp] theorem Strand.setCtr_clkhi (x : Strand) (k : Ctr) (n : Nat) : (x.setCtr k n).clkhi = x.clkhi := by cases k <;> rfl
@[simp] theorem Strand.setCtr_yielded (x : Strand) (k : Ctr) (n : Nat) : (x.setCtr k n).yielded = x.yielded := by cases k <;> rfl
@[simp] theorem Strand.setCtr_since (x : Strand) (k : Ctr) (n : Nat) : (x.setCtr k n).since = x.since := by cases k <;> rfl
@[simp] theorem Strand.setCtr_cls (x : Strand) (k : Ctr) (n : Nat) : (x.setCtr k n).cls = x.cls := by cases k <;> rfl
@[simp] theorem Strand.setCtr_state (x : Strand) (k : Ctr) (n : Nat) : (x.setCtr k n).state = x.state := by cases k <;> rfl
@[simp] theorem Strand.setCtr_tvec (x : Strand) (k : Ctr) (n : Nat) : (x.setCtr k n).tvec = x.tvec := by cases k <;> rfl
@[simp] theorem Strand.setCtr_epc (x : Strand) (k : Ctr) (n : Nat) : (x.setCtr k n).epc = x.epc := by cases k <;> rfl
@[simp] theorem Strand.setCtr_ecause (x : Strand) (k : Ctr) (n : Nat) : (x.setCtr k n).ecause = x.ecause := by cases k <;> rfl
@[simp] theorem Strand.setCtr_eva (x : Strand) (k : Ctr) (n : Nat) : (x.setCtr k n).eva = x.eva := by cases k <;> rfl
@[simp] theorem Strand.setCtr_eclause (x : Strand) (k : Ctr) (n : Nat) : (x.setCtr k n).eclause = x.eclause := by cases k <;> rfl
@[simp] theorem Strand.setCtr_ediff (x : Strand) (k : Ctr) (n : Nat) : (x.setCtr k n).ediff = x.ediff := by cases k <;> rfl
@[simp] theorem Strand.setCtr_efrid (x : Strand) (k : Ctr) (n : Nat) : (x.setCtr k n).efrid = x.efrid := by cases k <;> rfl
@[simp] theorem Strand.setCtr_owned (x : Strand) (k : Ctr) (n : Nat) : (x.setCtr k n).owned = x.owned := by cases k <;> rfl
@[simp] theorem Strand.setCtr_sample (x : Strand) (k : Ctr) (n : Nat) : (x.setCtr k n).sample = x.sample := by cases k <;> rfl
@[simp] theorem Strand.setCtr_rdepth (x : Strand) (k : Ctr) (n : Nat) : (x.setCtr k n).rdepth = x.rdepth := by cases k <;> rfl
@[simp] theorem Strand.setCtr_side (x : Strand) (k : Ctr) (n : Nat) : (x.setCtr k n).side = x.side := by cases k <;> rfl
@[simp] theorem Strand.setCtr_report (x : Strand) (k : Ctr) (n : Nat) : (x.setCtr k n).report = x.report := by cases k <;> rfl
@[simp] theorem Strand.setCtr_poison (x : Strand) (k : Ctr) (n : Nat) : (x.setCtr k n).poison = x.poison := by cases k <;> rfl
@[simp] theorem Strand.setCtr_wrote (x : Strand) (k : Ctr) (n : Nat) : (x.setCtr k n).wrote = x.wrote := by cases k <;> rfl
@[simp] theorem Strand.setCtr_strong (x : Strand) (k : Ctr) (n : Nat) : (x.setCtr k n).strong = x.strong := by cases k <;> rfl
@[simp] theorem Strand.setCtr_heldVa (x : Strand) (k : Ctr) (n : Nat) : (x.setCtr k n).heldVa = x.heldVa := by cases k <;> rfl
@[simp] theorem Strand.setCtr_heldLen (x : Strand) (k : Ctr) (n : Nat) : (x.setCtr k n).heldLen = x.heldLen := by cases k <;> rfl

/-! ### raise -/

@[simp] theorem Strand.raise_sid (x : Strand) (k : Ctr) : (x.raise k).sid = x.sid := by cases k <;> rfl
@[simp] theorem Strand.raise_tid (x : Strand) (k : Ctr) : (x.raise k).tid = x.tid := by cases k <;> rfl
@[simp] theorem Strand.raise_strandId (x : Strand) (k : Ctr) : (x.raise k).strandId = x.strandId := by cases k <;> rfl
@[simp] theorem Strand.raise_age (x : Strand) (k : Ctr) : (x.raise k).age = x.age := by cases k <;> rfl
@[simp] theorem Strand.raise_pc (x : Strand) (k : Ctr) : (x.raise k).pc = x.pc := by cases k <;> rfl
@[simp] theorem Strand.raise_g (x : Strand) (k : Ctr) : (x.raise k).g = x.g := by cases k <;> rfl
@[simp] theorem Strand.raise_p (x : Strand) (k : Ctr) : (x.raise k).p = x.p := by cases k <;> rfl
@[simp] theorem Strand.raise_maxabs (x : Strand) (k : Ctr) : (x.raise k).maxabs = x.maxabs := by cases k <;> rfl
@[simp] theorem Strand.raise_rng (x : Strand) (k : Ctr) : (x.raise k).rng = x.rng := by cases k <;> rfl
@[simp] theorem Strand.raise_clkhi (x : Strand) (k : Ctr) : (x.raise k).clkhi = x.clkhi := by cases k <;> rfl
@[simp] theorem Strand.raise_yielded (x : Strand) (k : Ctr) : (x.raise k).yielded = x.yielded := by cases k <;> rfl
@[simp] theorem Strand.raise_since (x : Strand) (k : Ctr) : (x.raise k).since = x.since := by cases k <;> rfl
@[simp] theorem Strand.raise_cls (x : Strand) (k : Ctr) : (x.raise k).cls = x.cls := by cases k <;> rfl
@[simp] theorem Strand.raise_state (x : Strand) (k : Ctr) : (x.raise k).state = x.state := by cases k <;> rfl
@[simp] theorem Strand.raise_tvec (x : Strand) (k : Ctr) : (x.raise k).tvec = x.tvec := by cases k <;> rfl
@[simp] theorem Strand.raise_epc (x : Strand) (k : Ctr) : (x.raise k).epc = x.epc := by cases k <;> rfl
@[simp] theorem Strand.raise_ecause (x : Strand) (k : Ctr) : (x.raise k).ecause = x.ecause := by cases k <;> rfl
@[simp] theorem Strand.raise_eva (x : Strand) (k : Ctr) : (x.raise k).eva = x.eva := by cases k <;> rfl
@[simp] theorem Strand.raise_eclause (x : Strand) (k : Ctr) : (x.raise k).eclause = x.eclause := by cases k <;> rfl
@[simp] theorem Strand.raise_ediff (x : Strand) (k : Ctr) : (x.raise k).ediff = x.ediff := by cases k <;> rfl
@[simp] theorem Strand.raise_efrid (x : Strand) (k : Ctr) : (x.raise k).efrid = x.efrid := by cases k <;> rfl
@[simp] theorem Strand.raise_owned (x : Strand) (k : Ctr) : (x.raise k).owned = x.owned := by cases k <;> rfl
@[simp] theorem Strand.raise_sample (x : Strand) (k : Ctr) : (x.raise k).sample = x.sample := by cases k <;> rfl
@[simp] theorem Strand.raise_rdepth (x : Strand) (k : Ctr) : (x.raise k).rdepth = x.rdepth := by cases k <;> rfl
@[simp] theorem Strand.raise_side (x : Strand) (k : Ctr) : (x.raise k).side = x.side := by cases k <;> rfl
@[simp] theorem Strand.raise_report (x : Strand) (k : Ctr) : (x.raise k).report = x.report := by cases k <;> rfl
@[simp] theorem Strand.raise_poison (x : Strand) (k : Ctr) : (x.raise k).poison = x.poison := by cases k <;> rfl
@[simp] theorem Strand.raise_wrote (x : Strand) (k : Ctr) : (x.raise k).wrote = x.wrote := by cases k <;> rfl
@[simp] theorem Strand.raise_strong (x : Strand) (k : Ctr) : (x.raise k).strong = x.strong := by cases k <;> rfl
@[simp] theorem Strand.raise_heldVa (x : Strand) (k : Ctr) : (x.raise k).heldVa = x.heldVa := by cases k <;> rfl
@[simp] theorem Strand.raise_heldLen (x : Strand) (k : Ctr) : (x.raise k).heldLen = x.heldLen := by cases k <;> rfl

/-! ### setPair -/

@[simp] theorem Strand.setPair_sid (x : Strand) (r : GReg) (v : DWord) : (x.setPair r v).sid = x.sid := rfl
@[simp] theorem Strand.setPair_tid (x : Strand) (r : GReg) (v : DWord) : (x.setPair r v).tid = x.tid := rfl
@[simp] theorem Strand.setPair_strandId (x : Strand) (r : GReg) (v : DWord) : (x.setPair r v).strandId = x.strandId := rfl
@[simp] theorem Strand.setPair_age (x : Strand) (r : GReg) (v : DWord) : (x.setPair r v).age = x.age := rfl
@[simp] theorem Strand.setPair_pc (x : Strand) (r : GReg) (v : DWord) : (x.setPair r v).pc = x.pc := rfl
@[simp] theorem Strand.setPair_p (x : Strand) (r : GReg) (v : DWord) : (x.setPair r v).p = x.p := rfl
@[simp] theorem Strand.setPair_maxabs (x : Strand) (r : GReg) (v : DWord) : (x.setPair r v).maxabs = x.maxabs := rfl
@[simp] theorem Strand.setPair_rng (x : Strand) (r : GReg) (v : DWord) : (x.setPair r v).rng = x.rng := rfl
@[simp] theorem Strand.setPair_ld (x : Strand) (r : GReg) (v : DWord) : (x.setPair r v).ld = x.ld := rfl
@[simp] theorem Strand.setPair_st (x : Strand) (r : GReg) (v : DWord) : (x.setPair r v).st = x.st := rfl
@[simp] theorem Strand.setPair_mx (x : Strand) (r : GReg) (v : DWord) : (x.setPair r v).mx = x.mx := rfl
@[simp] theorem Strand.setPair_cp (x : Strand) (r : GReg) (v : DWord) : (x.setPair r v).cp = x.cp := rfl
@[simp] theorem Strand.setPair_clkhi (x : Strand) (r : GReg) (v : DWord) : (x.setPair r v).clkhi = x.clkhi := rfl
@[simp] theorem Strand.setPair_yielded (x : Strand) (r : GReg) (v : DWord) : (x.setPair r v).yielded = x.yielded := rfl
@[simp] theorem Strand.setPair_since (x : Strand) (r : GReg) (v : DWord) : (x.setPair r v).since = x.since := rfl
@[simp] theorem Strand.setPair_cls (x : Strand) (r : GReg) (v : DWord) : (x.setPair r v).cls = x.cls := rfl
@[simp] theorem Strand.setPair_state (x : Strand) (r : GReg) (v : DWord) : (x.setPair r v).state = x.state := rfl
@[simp] theorem Strand.setPair_tvec (x : Strand) (r : GReg) (v : DWord) : (x.setPair r v).tvec = x.tvec := rfl
@[simp] theorem Strand.setPair_epc (x : Strand) (r : GReg) (v : DWord) : (x.setPair r v).epc = x.epc := rfl
@[simp] theorem Strand.setPair_ecause (x : Strand) (r : GReg) (v : DWord) : (x.setPair r v).ecause = x.ecause := rfl
@[simp] theorem Strand.setPair_eva (x : Strand) (r : GReg) (v : DWord) : (x.setPair r v).eva = x.eva := rfl
@[simp] theorem Strand.setPair_eclause (x : Strand) (r : GReg) (v : DWord) : (x.setPair r v).eclause = x.eclause := rfl
@[simp] theorem Strand.setPair_ediff (x : Strand) (r : GReg) (v : DWord) : (x.setPair r v).ediff = x.ediff := rfl
@[simp] theorem Strand.setPair_efrid (x : Strand) (r : GReg) (v : DWord) : (x.setPair r v).efrid = x.efrid := rfl
@[simp] theorem Strand.setPair_owned (x : Strand) (r : GReg) (v : DWord) : (x.setPair r v).owned = x.owned := rfl
@[simp] theorem Strand.setPair_sample (x : Strand) (r : GReg) (v : DWord) : (x.setPair r v).sample = x.sample := rfl
@[simp] theorem Strand.setPair_rdepth (x : Strand) (r : GReg) (v : DWord) : (x.setPair r v).rdepth = x.rdepth := rfl
@[simp] theorem Strand.setPair_side (x : Strand) (r : GReg) (v : DWord) : (x.setPair r v).side = x.side := rfl
@[simp] theorem Strand.setPair_report (x : Strand) (r : GReg) (v : DWord) : (x.setPair r v).report = x.report := rfl
@[simp] theorem Strand.setPair_strong (x : Strand) (r : GReg) (v : DWord) : (x.setPair r v).strong = x.strong := rfl
@[simp] theorem Strand.setPair_heldVa (x : Strand) (r : GReg) (v : DWord) : (x.setPair r v).heldVa = x.heldVa := rfl
@[simp] theorem Strand.setPair_heldLen (x : Strand) (r : GReg) (v : DWord) : (x.setPair r v).heldLen = x.heldLen := rfl

end Sys2Proof.Machine
end

