-- ==== Sys2Proof/Laws/Words.lean ====
section
/-! SUPPORT. What a word does to its bundle, once for each shape of word: fixed-latency words, and words whose lanes put
operations in flight. -/

namespace Sys2Proof.Machine

/-! ### Looking strands up -/

theorem strand?_map (s : State) (g : Strand → Strand) (hg : ∀ x, (g x).sid = x.sid) (j : Nat) :
    ({ s with strands := s.strands.map g } : State).strand? j = (s.strand? j).map g := by
  simp only [State.strand?, List.find?_map]
  congr 2
  funext x
  simp [hg]

theorem strand?_sid {s : State} {j : Nat} {x : Strand} (h : s.strand? j = some x) : x.sid = j := by
  simpa using List.find?_some h

theorem strand?_modStrand (s : State) (i j : Nat) (f : Strand → Strand) (hf : ∀ x, (f x).sid = x.sid) :
    (s.modStrand i f).strand? j = if j = i then (s.strand? j).map f else s.strand? j := by
  unfold State.modStrand
  rw [strand?_map]
  · cases h : s.strand? j with
    | none => simp
    | some x =>
      have := strand?_sid h
      by_cases hj : j = i <;> simp [this, hj]
  · intro x; by_cases h : x.sid = i <;> simp [h, hf]

@[simp] theorem outside_modStrand (s : State) (i : Nat) (f : Strand → Strand) :
    (s.modStrand i f).outside = s.outside := rfl

theorem Agree.refl (s : State) : Agree s s := ⟨rfl, fun _ => rfl⟩

theorem Agree.trans {s t u : State} (h : Agree s t) (k : Agree t u) : Agree s u :=
  ⟨h.1.trans k.1, fun j => (h.2 j).trans (k.2 j)⟩

/-- Moving strands that keep their contents agrees. -/
theorem agree_map (s : State) (g : Strand → Strand) (bs : List Bundle) (hs : ∀ x, (g x).sid = x.sid)
    (hg : ∀ x, (g x).content = x.content) : Agree { s with strands := s.strands.map g, bundles := bs } s := by
  refine ⟨rfl, fun j => ?_⟩
  have := strand?_map s g hs j
  simp only [State.contents]
  rw [show ({ s with strands := s.strands.map g, bundles := bs } : State).strand? j = (s.strand? j).map g from this]
  cases s.strand? j <;> simp [hg]

/-! ### Where strands go -/

@[simp] theorem readyOr_sid (x : Strand) (n : Nat) (m : BitVec 4) : (x.readyOr n m).sid = x.sid := by
  unfold Strand.readyOr; split <;> rfl

@[simp] theorem readyOr_content (x : Strand) (n : Nat) (m : BitVec 4) : (x.readyOr n m).content = x.content := by
  unfold Strand.readyOr; split <;> rfl

@[simp] theorem arrive_sid (x : Strand) (s : State) (core : Nat) (pc : DWord) (m : BitVec 4) :
    (x.arrive s core pc m).sid = x.sid := by simp [Strand.arrive]

@[simp] theorem arrive_content (x : Strand) (s : State) (core : Nat) (pc : DWord) (m : BitVec 4) :
    (x.arrive s core pc m).content = x.content := by simp [Strand.arrive]; rfl

@[simp] theorem leaveAt_sid (x : Strand) (s : State) (core : Nat) (pc : DWord) (cls : Option Cls) (m : BitVec 4) :
    (x.leaveAt s core pc cls m).sid = x.sid := by
  unfold Strand.leaveAt; cases cls <;> simp; split <;> simp

@[simp] theorem leaveAt_content (x : Strand) (s : State) (core : Nat) (pc : DWord) (cls : Option Cls) (m : BitVec 4) :
    (x.leaveAt s core pc cls m).content = x.content := by
  unfold Strand.leaveAt; cases cls <;> simp; split <;> simp; rfl

theorem regroup_agree (r : Run) (n : Nat) (sw : Bool) : Agree (r.regroup n sw) r.s := by
  unfold Run.regroup
  apply agree_map
  · intro x; simp only []; split <;> simp
  · intro x; simp only []; split <;> simp

theorem setHead_agree (s : State) (b : Bundle) : Agree (s.setHead b) s := ⟨rfl, fun _ => rfl⟩

/-- The end of a word with no lane held on a page moves strands and bundles and nothing else. -/
theorem finish_agree (c : Ctl) (r : Run) (h : r.held = []) : Agree (r.finish c) r.s := by
  unfold Run.finish
  simp only [h, List.length_nil, holdPages]
  split
  · exact regroup_agree _ _ _
  · exact setHead_agree _ _

/-! ### Fixed-latency words -/

/-- What `wordOfStrand` can do: the word in each lane, and strands going on. -/
theorem wordOfStrand_agree (c : Ctl) (z f : Strand → Strand) (b : Bundle) (s : State) :
    Agree (wordOfStrand c z f b s) (s.lanesDo b c z f) :=
  finish_agree c _ rfl

theorem sets_of_wordOfStrand {i : Instr} {c : Ctl} {z : Strand → Strand} {f : State → Bundle → Strand → Strand}
    {pre : State → Bundle → Prop} (h : ∀ s, exec i s = inBundle s (fun b s => wordOfStrand c z (f s b) b s)) :
    Sets i c z f pre := by
  intro s b r hb _
  refine ⟨wordOfStrand c z (f s b) b s, ?_, wordOfStrand_agree ..⟩
  rw [h, inBundle, hb]

/-! ### Words that act lane by lane -/

@[simp] theorem flyAll_nil (s : State) : s.flyAll [] = s := rfl

theorem flyAll_append (s : State) (a b : List (Nat × FlightOp)) : s.flyAll (a ++ b) = (s.flyAll a).flyAll b := by
  simp [State.flyAll]

/-- Everything outside strands, bundles and what is in flight. -/
def State.background (s : State) : State := { s with strands := [], bundles := [], flights := [], nextId := 0 }

theorem fly_background (s : State) (t : Nat) (o : FlightOp) : (s.fly t o).background = s.background := rfl

theorem flyAll_background (ops : List (Nat × FlightOp)) : ∀ s : State, (s.flyAll ops).background = s.background := by
  induction ops with
  | nil => intro s; rfl
  | cons o r ih => intro s; exact (ih _).trans (fly_background ..)

theorem fly_strands (s : State) (t : Nat) (o : FlightOp) : (s.fly t o).strands = s.strands := rfl

theorem flyAll_strands (ops : List (Nat × FlightOp)) : ∀ s : State, (s.flyAll ops).strands = s.strands := by
  induction ops with
  | nil => intro s; rfl
  | cons o r ih => intro s; exact (ih _).trans (fly_strands ..)

/-- Putting in flight sees only what is outside strands and bundles. -/
theorem flyAll_outside (ops : List (Nat × FlightOp)) :
    ∀ s t : State, s.outside = t.outside → (s.flyAll ops).outside = (t.flyAll ops).outside := by
  induction ops with
  | nil => intro s t h; exact h
  | cons o r ih =>
    intro s t h
    apply ih
    have hf : s.flights = t.flights := show s.outside.flights = t.outside.flights by rw [h]
    have hn : s.nextId = t.nextId := show s.outside.nextId = t.outside.nextId by rw [h]
    have ht : s.teams = t.teams := show s.outside.teams = t.outside.teams by rw [h]
    have e : (s.fly o.1 o.2).outside =
      { s.outside with flights := s.flights ++ [⟨s.nextId, o.1, s.seqOf o.1, s.coreOf o.1, none, o.2⟩], nextId := s.nextId + 1 } := rfl
    have e' : (t.fly o.1 o.2).outside =
      { t.outside with flights := t.flights ++ [⟨t.nextId, o.1, t.seqOf o.1, t.coreOf o.1, none, o.2⟩], nextId := t.nextId + 1 } := rfl
    rw [e, e', h]
    simp only [hf, hn, State.seqOf, State.coreOf, State.team?, ht]

/-- What one lane does in a machine `u`, by what its strand was in `s`. -/
def laneThen (s : State) (c : Ctl) (z : Strand → Strand) (f : Strand → Strand → Strand) (ops : Strand → List FlightOp) (u : State) (j : Nat) : State :=
  match s.strand? j with
  | none => u
  | some x =>
    if !x.active c then u
    else if !x.unmasked c then (if c.zeroes then u.modStrand j z else u)
    else (u.modStrand j (f x)).flyAll ((ops x).map (fun o => (x.tid, o)))

/-- Operations of the participating lanes of a list. -/
def opsOf (s : State) (c : Ctl) (ops : Strand → List FlightOp) (js : List Nat) : List (Nat × FlightOp) :=
  ((js.filterMap s.strand?).filter (fun x => x.active c && x.unmasked c)).flatMap (fun x => (ops x).map (fun o => (x.tid, o)))

theorem opsOf_nil (s : State) (c : Ctl) (ops : Strand → List FlightOp) : opsOf s c ops [] = [] := rfl

theorem opsOf_cons (s : State) (c : Ctl) (ops : Strand → List FlightOp) (j : Nat) (js : List Nat) :
    opsOf s c ops (j :: js) = (match s.strand? j with
      | none => []
      | some x => if x.active c && x.unmasked c then (ops x).map (fun o => (x.tid, o)) else []) ++ opsOf s c ops js := by
  unfold opsOf
  cases h : s.strand? j with
  | none => simp [h]
  | some x => by_cases ha : (x.active c && x.unmasked c) = true <;> simp [h, ha]

theorem strand?_flyAll (ops : List (Nat × FlightOp)) (s : State) (j : Nat) : (s.flyAll ops).strand? j = s.strand? j := by
  simp [State.strand?, flyAll_strands]

section
variable {s : State} {c : Ctl} {z : Strand → Strand} {f : Strand → Strand → Strand} {ops : Strand → List FlightOp}

theorem laneThen_outside (u : State) (j : Nat) : (laneThen s c z f ops u j).outside = (u.flyAll (opsOf s c ops [j])).outside := by
  rw [opsOf_cons, opsOf_nil, List.append_nil]
  unfold laneThen
  cases s.strand? j with
  | none => rfl
  | some x =>
    simp only []
    cases ha : x.active c <;> cases hm : x.unmasked c <;> simp
    · split <;> rfl
    · exact flyAll_outside _ _ _ rfl

theorem laneThen_strand? (hz : ∀ x, (z x).sid = x.sid) (hf : ∀ x y, (f x y).sid = y.sid) (u : State) (j k : Nat)
    (hj : u.strand? j = s.strand? j) :
    (laneThen s c z f ops u j).strand? k = if k = j then (u.strand? k).map (laneStep c z (fun x => f x x)) else u.strand? k := by
  unfold laneThen
  by_cases hk : k = j
  · subst hk
    rw [hj]
    cases h : s.strand? k with
    | none => simp [hj, h]
    | some x =>
      simp only []
      cases ha : x.active c <;> cases hm : x.unmasked c <;> simp [laneStep, ha, hm, hj, h]
      · cases c.zeroes <;> simp [strand?_modStrand, hz, hj, h]
      · simp [strand?_flyAll, strand?_modStrand, hf, hj, h]
  · simp only [hk, if_false]
    cases h : s.strand? j with
    | none => rfl
    | some x =>
      simp only []
      cases ha : x.active c <;> cases hm : x.unmasked c <;> simp
      · cases c.zeroes <;> simp [strand?_modStrand, hz, hk]
      · simp [strand?_flyAll, strand?_modStrand, hf, hk]

theorem laneThen_background (u : State) (j : Nat) : (laneThen s c z f ops u j).background = u.background := by
  have h : (laneThen s c z f ops u j).background = (laneThen s c z f ops u j).outside.background := rfl
  rw [h, laneThen_outside]
  exact flyAll_background _ _

theorem foldl_laneThen (hz : ∀ x, (z x).sid = x.sid) (hf : ∀ x y, (f x y).sid = y.sid) (L : List Nat) :
    ∀ u : State, L.Nodup → (∀ j ∈ L, u.strand? j = s.strand? j) →
      (L.foldl (laneThen s c z f ops) u).outside = (u.flyAll (opsOf s c ops L)).outside ∧
      ∀ k, (L.foldl (laneThen s c z f ops) u).strand? k =
        if k ∈ L then (u.strand? k).map (laneStep c z (fun x => f x x)) else u.strand? k := by
  induction L with
  | nil => intro u _ _; simp [opsOf_nil]
  | cons j js ih =>
    intro u hn hu
    rw [List.nodup_cons] at hn
    have hj := hu j (List.mem_cons_self ..)
    have hs := laneThen_strand? (s := s) (ops := ops) (c := c) hz hf u j
    obtain ⟨ho, hk⟩ := ih (laneThen s c z f ops u j) hn.2 (fun k hk => by
      rw [hs k hj, if_neg (by rintro rfl; exact hn.1 hk), hu k (List.mem_cons_of_mem _ hk)])
    refine ⟨?_, fun k => ?_⟩
    · rw [List.foldl_cons, ho]
      rw [show opsOf s c ops (j :: js) = opsOf s c ops [j] ++ opsOf s c ops js by
        rw [opsOf_cons, opsOf_cons s c ops j [], opsOf_nil, List.append_nil], flyAll_append]
      exact flyAll_outside _ _ _ (laneThen_outside u j)
    · rw [List.foldl_cons, hk, hs k hj]
      by_cases h1 : k = j
      · subst h1; simp [hn.1]
      · simp [h1]

/-- The machine's fold over lanes does `laneThen` in each, when every participating lane goes on. -/
theorem fold_lane {act : State → Bundle → Strand → LaneOut} {b : Bundle} {m : Strand → BitVec 4}
    (hz : ∀ x, (z x).sid = x.sid) (hf : ∀ x y, (f x y).sid = y.sid) (L : List Nat) :
    ∀ r : Run, L.Nodup → r.b = b → r.held = [] → r.s.background = s.background → (∀ j ∈ L, r.s.strand? j = s.strand? j) →
      (∀ u, u.background = s.background → ∀ j ∈ L, ∀ x, s.strand? j = some x → x.active c = true → x.unmasked c = true →
        act u b x = .go ((u.modStrand x.sid (f x)).flyAll ((ops x).map (fun o => (x.tid, o)))) (m x)) →
      (L.foldl (Run.lane c z act) r).s = L.foldl (laneThen s c z f ops) r.s ∧ (L.foldl (Run.lane c z act) r).held = [] := by
  induction L with
  | nil => intro r _ _ hh _ _ _; exact ⟨rfl, hh⟩
  | cons j js ih =>
    intro r hn hb hh hg hu ha
    rw [List.nodup_cons] at hn
    have hj := hu j (List.mem_cons_self ..)
    have key : (Run.lane c z act r j).s = laneThen s c z f ops r.s j ∧ (Run.lane c z act r j).b = b ∧
        (Run.lane c z act r j).held = [] := by
      unfold Run.lane laneThen
      rw [hj]
      cases h : s.strand? j with
      | none => exact ⟨rfl, hb, hh⟩
      | some x =>
        have hx := strand?_sid h
        simp only []
        cases h1 : x.active c
        · exact ⟨rfl, hb, hh⟩
        · cases h2 : x.unmasked c
          · cases h3 : c.zeroes <;> exact ⟨rfl, hb, hh⟩
          · simp only [Bool.not_true, Bool.false_eq_true, if_false]
            rw [hb, ha r.s hg j (List.mem_cons_self ..) x h h1 h2, hx]
            exact ⟨rfl, rfl, hh⟩
    simp only [List.foldl_cons]
    rw [← key.1]
    apply ih _ hn.2 key.2.1 key.2.2
    · rw [key.1, laneThen_background, hg]
    · intro k hk
      rw [key.1, laneThen_strand? hz hf _ _ _ hj, if_neg (by rintro rfl; exact hn.1 hk), hu k (List.mem_cons_of_mem _ hk)]
    · exact fun u hu' k hk => ha u hu' k (List.mem_cons_of_mem _ hk)

end

/-- What a lane-by-lane word can do when every participating lane goes on. -/
theorem wordByLane_agree {s : State} {b : Bundle} {c : Ctl} {z : Strand → Strand} {f : Strand → Strand → Strand} {ops : Strand → List FlightOp}
    {act : State → Bundle → Strand → LaneOut} {m : Strand → BitVec 4}
    (hz : ∀ x, (z x).sid = x.sid) (hf : ∀ x y, (f x y).sid = y.sid)
    (ha : ∀ u, u.background = s.background → ∀ x ∈ s.taking c b,
        act u b x = .go ((u.modStrand x.sid (f x)).flyAll ((ops x).map (fun o => (x.tid, o)))) (m x)) :
    Agree (wordByLane c z act b s)
      ((s.lanesDo b c z (fun x => f x x)).flyAll ((s.taking c b).flatMap (fun x => (ops x).map (fun o => (x.tid, o))))) := by
  have hn := List.nodup_dedup b.lanes
  obtain ⟨h1, h2⟩ := fold_lane (s := s) (c := c) (z := z) (f := f) (ops := ops) (act := act) (b := b) (m := m) hz hf
    b.lanes.dedup ⟨s, b, [], [], false⟩ hn rfl rfl rfl (fun _ _ => rfl)
    (fun u hu j hj x hx h1 h2 => ha u hu x (by
      simp only [State.taking, List.mem_filter, List.mem_filterMap]
      exact ⟨⟨j, hj, hx⟩, by simp [h1, h2]⟩))
  obtain ⟨h3, h4⟩ := foldl_laneThen (s := s) (c := c) (ops := ops) hz hf b.lanes.dedup s hn (fun _ _ => rfl)
  refine (finish_agree c _ h2).trans ⟨?_, fun j => ?_⟩
  · rw [h1, h3]; exact flyAll_outside _ _ _ rfl
  · simp only [State.contents]
    rw [h1, h4, strand?_flyAll]
    unfold State.lanesDo
    rw [strand?_map]
    · cases h : s.strand? j with
      | none => simp
      | some x =>
        have := strand?_sid h
        by_cases hj : j ∈ b.lanes <;> simp [this, hj]
    · intro x
      by_cases h : b.lanes.contains x.sid = true
      · simp only [h, if_true, laneStep]
        split; · rfl
        split
        · split
          · exact hz x
          · rfl
        · exact hf x x
      · simp only [h, if_false, Bool.false_eq_true]

theorem flies_of_wordByLane {i : Instr} {c : Ctl} {z : Strand → Strand} {f : State → Bundle → Strand → Strand → Strand}
    {ops : State → Bundle → Strand → List FlightOp} {pre : State → Bundle → Prop}
    {act : State → State → Bundle → Strand → LaneOut} (m : State → Bundle → Strand → BitVec 4)
    (hz : ∀ x, (z x).sid = x.sid) (hf : ∀ s b x y, (f s b x y).sid = y.sid)
    (h : ∀ s b r, s.bundles = b :: r → pre s b → exec i s = inBundle s (wordByLane c z (act s)))
    (ha : ∀ s b, pre s b → ∀ u, u.background = s.background → ∀ x ∈ s.taking c b,
        act s u b x = .go ((u.modStrand x.sid (f s b x)).flyAll ((ops s b x).map (fun o => (x.tid, o)))) (m s b x)) :
    Flies i c z (fun s b x => f s b x x) ops pre := by
  intro s b r hb hp
  refine ⟨wordByLane c z (act s) b s, ?_, wordByLane_agree (m := m s b) hz (hf s b) (ha s b hp)⟩
  rw [h s b r hb hp, inBundle, hb]

/-- A lane-by-lane word that puts nothing in flight. -/
theorem sets_of_wordByLane {i : Instr} {c : Ctl} {z : Strand → Strand} {f : State → Bundle → Strand → Strand → Strand}
    {pre : State → Bundle → Prop} {act : State → State → Bundle → Strand → LaneOut} (m : Strand → BitVec 4)
    (hz : ∀ x, (z x).sid = x.sid) (hf : ∀ s b x y, (f s b x y).sid = y.sid)
    (h : ∀ s b r, s.bundles = b :: r → pre s b → exec i s = inBundle s (wordByLane c z (act s)))
    (ha : ∀ s b, pre s b → ∀ u, u.background = s.background → ∀ x ∈ s.taking c b,
        act s u b x = .go (u.modStrand x.sid (f s b x)) (m x)) :
    Sets i c z (fun s b x => f s b x x) pre := by
  intro s b r hb hp
  refine ⟨wordByLane c z (act s) b s, ?_, ?_⟩
  · rw [h s b r hb hp, inBundle, hb]
  · have := wordByLane_agree (s := s) (b := b) (c := c) (f := f s b) (ops := fun _ => []) (m := m) hz (hf s b) (ha s b hp)
    have e : ((s.taking c b).flatMap (fun x => ([] : List FlightOp).map (fun o => (x.tid, o)))) = [] := by simp
    rw [e] at this
    exact this

end Sys2Proof.Machine
end

