-- ==== Sys2Proof/Tests/Slice0.lean ====
section
/-! SUPPORT. Tests: ill-formed terms, words laid out from the tables of the spec, single steps whose results the spec gives,
and for every statement with hypotheses a machine that meets them, clause by clause. -/

namespace Sys2Proof.Tests

set_option Elab.async false

open Sys2Proof.Machine

/-- No guard, no companion word. -/
def c : Ctl := ⟨false, 15, false, none, none⟩
/-- A companion word that masks nothing. -/
def m : Ctl := ⟨false, 15, false, some ⟨15, false, false⟩, none⟩

/-! ### Ill-formed terms -/

theorem test_wf_ok : (Instr.nop c).wf && (Instr.add c .n32 false 4 5 6).wf && (Instr.ffma m .rn false Mods.none 6 4 5 7).wf := by decide
theorem test_wf_guard : (Instr.nop { c with pneg := true }).wf = false := by decide
theorem test_wf_mask : (Instr.and { c with mask := some ⟨15, true, false⟩ } 4 5 6).wf = false := by decide
theorem test_wf_companion_forbidden : (Instr.nop m).wf = false := by decide
theorem test_wf_companion_required : (Instr.mad c .n32 4 5 6 7).wf = false := by decide
theorem test_wf_xrnd_without_companion : (Instr.fadd { c with xrnd := some .rz } .rn false Mods.none 4 5 6).wf = false := by decide
theorem test_wf_xrnd_on_vi : (Instr.movi { m with xrnd := some .rn } 4 5).wf = false := by decide
theorem test_wf_xrnd_mode : (Instr.fsqrt { m with xrnd := some .sr } .rn Mods.none 4 5).wf = false := by decide
theorem test_wf_pair : (Instr.brx c 5).wf = false ∧ (Instr.add c .i64 false 4 6 7).wf = false ∧ (Instr.madl m .i32 4 5 6 7).wf = false := by decide
theorem test_wf_span : (Instr.ld c .n128 .plain .plain 6 2 0).wf = false ∧ (Instr.hitattr c 4).wf = false ∧ (Instr.obst c 0 6 1).wf = false ∧
    (Instr.shfx c 4 6 7 2).wf = false ∧ (Instr.trace c 16 4 5).wf = false := by decide
theorem test_wf_type : (Instr.add c .i16 false 4 5 6).wf = false ∧ (Instr.mul c .i64 4 6 8).wf = false ∧ (Instr.shl c .i32 4 5 6).wf = false ∧
    (Instr.sar c .n32 4 5 6).wf = false ∧ (Instr.fclass c .f16 0 2 5).wf = false ∧ (Instr.hadd2 c .f32 .rn false Mods.none 4 5 6).wf = false ∧
    (Instr.nzcnt c .f64 4 6).wf = false ∧ (Instr.neval c .f32 false 0 3 4 8 1).wf = false := by decide
theorem test_wf_sat : (Instr.add c .i64 true 4 6 8).wf = false ∧ (Instr.breduce c .i32 .rn true .min .whole 4 5).wf = false ∧
    (Instr.cvt c .i32 .f32 .rz true 4 5).wf = false := by decide
theorem test_wf_rounding : (Instr.frnd c .f32 .sr Mods.none 4 5).wf = false ∧ (Instr.fdiv c .rna Mods.none 4 5 6).wf = false ∧
    (Instr.breduce c .f32 .sr false .add .whole 4 5).wf = false ∧ (Instr.cvt c .e8m0 .f32 .rn false 4 5).wf = false := by decide
theorem test_wf_modifiers : (Instr.frcp c ⟨false, true, false, false⟩ 4 5).wf = false ∧
    (Instr.fscale c .f32 .rn ⟨false, false, false, true⟩ 4 5 6).wf = false := by decide
theorem test_wf_width : (Instr.st c .i8 .plain .plain 4 2 0).wf = false ∧ (Instr.atom m .n16 .die .plain .add false false 4 2 6 0).wf = false ∧
    (Instr.lda c .n16 4 2 0).wf = false ∧ (Instr.mwait c .n8 .die 4 2 0).wf = false ∧ (Instr.rld c .n32 4 2).wf = false := by decide
theorem test_wf_scope_and_order : (Instr.ld c .n32 .die .rel 4 2 0).wf = false ∧ (Instr.ld c .n32 .die .acqRemote 4 2 0).wf = false ∧
    (Instr.st c .n32 .plain .rel 4 2 0).wf = false ∧ (Instr.fence c .plain .acq).wf = false ∧ (Instr.syncg c .team).wf = false ∧
    (Instr.cwb c .team 4 2 0).wf = false ∧ (Instr.cinv c .die 4 2 0).wf = false ∧ (Instr.pref c .sys 2 0).wf = false := by decide
theorem test_wf_atom : (Instr.atom m .n64 .die .plain .fadd false false 4 2 6 0).wf = false ∧
    (Instr.atom m .n32 .die .plain .add true false 4 2 6 0).wf = false ∧ (Instr.atom m .n32 .die .plain .cas false false 4 2 7 0).wf = false ∧
    (Instr.atom m .n32 .die .rel .add false true 4 2 6 0).wf = false := by decide
theorem test_wf_registers : (Instr.mtc c .ecause 4).wf = false ∧ (Instr.mts c .strandid 4).wf = false ∧
    (Instr.mmaSp m 1 2 (.mem 6) (.reg 4) 8 0 0 12).wf = false ∧ (Instr.mmaSp m 1 2 (.mem 6) (.ob 1) 8 0 0 12).wf = false ∧
    (Instr.cvtx c .f8e4 .rn false 4 8 5 (some 7)).wf = false := by decide

/-! ### Words laid out from Tables 3.3 to 3.8 and 4.1 and the tables of the entries -/

/-- Each word, with its companion, decodes to its instruction. -/
abbrev Decodes (l : List (DWord × Option DWord × Instr)) : Prop :=
  l.all (fun e => match decode e.1 e.2.1 with
    | .ok d => d.instr == e.2.2 && d.slots == (if e.2.1.isSome then 2 else 1)
    | .error _ => false) = true

/-- Words of the family, laid out from the tables of the spec. -/
theorem test_decode_control : Decodes [
    (0x003E000000FFFFF0#64, none, .bra c 0xFFFFF0),
    (0x005E001E00000000#64, none, .brx c 30),
    (0x007E1E0000000005#64, none, .call c 30 5),
    (0x009E1C1E00000000#64, none, .callx c 28 30),
    (0x00BE001E00000000#64, none, .ret c 30),
    (0x00DE000000000000#64, none, .exit c),
    (0x00FE000000000003#64, none, .yield c 3),
    (0x011E0602AC000008#64, none, .mwait c .n64 .die 6 2 8),
    (0x013E000000000000#64, none, .nop c),
    (0x021E050200000040#64, none, .launch c 5 2 64),
    (0x023E050600080000#64, none, .qstatQ c 5 6),
    (0x023E050600080100#64, none, .qstatLast c 5 6),
    (0x023E050600080200#64, none, .qstatSeq c 5 6),
    (0x031E00000000ABCD#64, none, .trap c 0xABCD),
    (0x033E000000000007#64, none, .brk c 7),
    (0x035E000000000000#64, none, .eret c),
    (0x037E050000080007#64, none, .mfc c 5 .eclause),
    (0x039E000600080001#64, none, .mtc c .tvechi 6)] := by decide

/-- Words of the family, laid out from the tables of the spec. -/
theorem test_decode_integer : Decodes [
    (0x081E040506080000#64, none, .add c .n32 false 4 5 6),
    (0x083E040506008000#64, none, .sub c .i32 true 4 5 6),
    (0x085E040506080000#64, none, .mul c .n32 4 5 6),
    (0x087E040506000000#64, none, .mulh c .i32 4 5 6),
    (0x089E040506080000#64, some 0x7FFE070000000000#64, .mad m .n32 4 5 6 7),
    (0x08BE040506000000#64, some 0x7FFE080000000000#64, .madl m .i32 4 5 6 8),
    (0x08DE040506000000#64, none, .div c .i32 4 5 6),
    (0x08FE040506080000#64, none, .rem c .n32 4 5 6),
    (0x091E040608100000#64, none, .min c .i64 4 6 8),
    (0x093E040608180000#64, none, .max c .n64 4 6 8),
    (0x095E040500008000#64, none, .abs c .i32 true 4 5),
    (0x097E040506080000#64, none, .and c 4 5 6),
    (0x099E040506080000#64, none, .or c 4 5 6),
    (0x09BE040506080000#64, none, .xor c 4 5 6),
    (0x09DE040506080000#64, none, .andn c 4 5 6),
    (0x09FE040500080000#64, none, .not c 4 5),
    (0x0A1E040607180000#64, none, .shl c .n64 4 6 7),
    (0x0A3E040506080000#64, none, .shr c .n32 4 5 6),
    (0x0A5E040506000000#64, none, .sar c .i32 4 5 6),
    (0x0A7E040506080100#64, none, .rot c true 4 5 6),
    (0x0A9E040506080100#64, some 0x7FFE070000000000#64, .catsh m true 4 5 6 7),
    (0x0ABE040500080000#64, none, .popc c 4 5),
    (0x0ADE040500080000#64, none, .clz c 4 5),
    (0x0AFE040500080000#64, none, .ctz c 4 5),
    (0x0B1E040500080000#64, none, .brev c 4 5),
    (0x0B3E040506000000#64, none, .fext c .i32 4 5 6),
    (0x0B5E040506080000#64, some 0x7FFE070000000000#64, .fins m 4 5 6 7),
    (0x0B7E040607080000#64, none, .bsel c 4 6 7),
    (0x0B9E040607080003#64, none, .lea c .n32 4 6 7 3),
    (0x0BBE040608180013#64, none, .sel c .n64 4 6 8 3 true),
    (0x0BDE040600180000#64, none, .mov c .n64 4 6),
    (0x0BFE020506000323#64, none, .cmp c .i32 .le (.or 3) 2 5 6),
    (0x0C1E010203084000#64, none, .pand c true false 1 2 3),
    (0x0C3E010203082000#64, none, .por c false true 1 2 3),
    (0x0C5E010203086000#64, none, .pxor c true true 1 2 3),
    (0x0C7E040000080000#64, none, .ptog c 4),
    (0x0C9E000506080000#64, none, .gtop c 5 6)] := by decide

/-- Words of the family, laid out from the tables of the spec. -/
theorem test_decode_immediate : Decodes [
    (0x0E1E040589ABCDEF#64, none, .addImm c 4 5 0x89ABCDEF),
    (0x0E3E040589ABCDEF#64, none, .subImm c 4 5 0x89ABCDEF),
    (0x0E5E040589ABCDEF#64, none, .mulImm c 4 5 0x89ABCDEF),
    (0x0E7E040589ABCDEF#64, none, .andImm c 4 5 0x89ABCDEF),
    (0x0E9E040589ABCDEF#64, none, .orImm c 4 5 0x89ABCDEF),
    (0x0EBE040589ABCDEF#64, none, .xorImm c 4 5 0x89ABCDEF),
    (0x0EDE040589ABCDEF#64, none, .shlImm c 4 5 0x89ABCDEF),
    (0x0EFE040589ABCDEF#64, none, .shrImm c 4 5 0x89ABCDEF),
    (0x0F1E040589ABCDEF#64, none, .sarImm c 4 5 0x89ABCDEF),
    (0x0FDE040089ABCDEF#64, none, .movi c 4 0x89ABCDEF),
    (0x0FFE04050000ABCD#64, none, .movh c 4 5 0xABCD)] := by decide

/-- Words of the family, laid out from the tables of the spec. -/
theorem test_decode_float : Decodes [
    (0x181E04050649C800#64, none, .fadd c .rz true ⟨true, false, false, true⟩ 4 5 6),
    (0x183E0405064A4800#64, none, .fsub c .ru false ⟨true, false, false, true⟩ 4 5 6),
    (0x185E0405064B4800#64, none, .fmul c .rd false ⟨true, false, false, true⟩ 4 5 6),
    (0x187E0405064C4800#64, some 0x7FFE070000000000#64, .ffma m .rna false ⟨true, false, false, true⟩ 4 5 6 7),
    (0x189E040506484800#64, none, .fmin c ⟨true, false, false, true⟩ 4 5 6),
    (0x18BE040506484800#64, none, .fmax c ⟨true, false, false, true⟩ 4 5 6),
    (0x18DE020506484E13#64, none, .fcmp c ⟨true, false, false, true⟩ .num (.and 3) 2 5 6),
    (0x18FE0206005002A5#64, none, .fclass c .f64 0x2A5 2 6),
    (0x191E0405064D5000#64, none, .fscale c .f32 .sr ⟨true, false, true, false⟩ 4 5 6),
    (0x193E0405004A4000#64, none, .frnd c .f32 .ru ⟨true, false, false, false⟩ 4 5),
    (0x195E040600500000#64, none, .ffrac c .f64 Mods.none 4 6),
    (0x197E040500481000#64, none, .frcp c ⟨false, false, true, false⟩ 4 5),
    (0x199E040500481000#64, none, .frsq c ⟨false, false, true, false⟩ 4 5),
    (0x19DE040500481000#64, none, .fexp2 c ⟨false, false, true, false⟩ 4 5),
    (0x19FE040500481000#64, none, .flog2 c ⟨false, false, true, false⟩ 4 5),
    (0x1A1E040500481000#64, none, .fsin c ⟨false, false, true, false⟩ 4 5),
    (0x1A3E040500481000#64, none, .fcos c ⟨false, false, true, false⟩ 4 5),
    (0x19BE0405004B0000#64, none, .fsqrt c .rd Mods.none 4 5),
    (0x1A5E040506490000#64, none, .fdiv c .rz Mods.none 4 5 6),
    (0x1B1E040608500000#64, none, .dadd c .rn false Mods.none 4 6 8),
    (0x1B3E040608510000#64, none, .dsub c .rz false Mods.none 4 6 8),
    (0x1B5E040608508000#64, none, .dmul c .rn true Mods.none 4 6 8),
    (0x1B7E040608500000#64, some 0x7FFE0A0000000000#64, .dfma m .rn false Mods.none 4 6 8 10),
    (0x1B9E040608500000#64, none, .dmin c Mods.none 4 6 8),
    (0x1BBE040608500000#64, none, .dmax c Mods.none 4 6 8),
    (0x1BDE020608500500#64, none, .dcmp c Mods.none .ge .none 2 6 8),
    (0x1C1E040506580000#64, none, .hadd2 c .f16 .rn false Mods.none 4 5 6),
    (0x1C3E040506600000#64, none, .hmul2 c .bf16 .rn false Mods.none 4 5 6),
    (0x1C5E040506580000#64, some 0x7FFE070000000000#64, .hfma2 m .f16 .rn false Mods.none 4 5 6 7),
    (0x1C7E040506580000#64, none, .hmin2 c .f16 Mods.none 4 5 6),
    (0x1C9E040506600000#64, none, .hmax2 c .bf16 Mods.none 4 5 6)] := by decide

/-- Words of the family, laid out from the tables of the spec. -/
theorem test_decode_convert : Decodes [
    (0x201E040500010009#64, none, .cvt c .i32 .f32 .rz false 4 5),
    (0x203E040600588009#64, none, .cvtpk c .f16 .rn true 4 6),
    (0x205E0C10146D0009#64, none, .cvtx c .f8e4 .sr false 12 16 20 none),
    (0x205E0C10146D0009#64, some 0x7FFE070000000001#64, .cvtx m .f8e4 .sr false 12 16 20 (some 7)),
    (0x207E040000080000#64, none, .amaxrd c 4),
    (0x209E040000080000#64, none, .amaxclr c 4),
    (0x20BE000607080000#64, none, .rngseed c 6 7),
    (0x20DE040000180000#64, none, .rngnext c .n64 4),
    (0x20FE040500300000#64, none, .nzcnt c .i8 4 5),
    (0x211E040500880000#64, none, .nzmask c .f4 4 5)] := by decide

/-- Words of the family, laid out from the tables of the spec. -/
theorem test_decode_team : Decodes [
    (0x221E04000008000F#64, none, .mfs c 4 .clklo),
    (0x223E00050008000A#64, none, .mts c .rng0 5),
    (0x225E043F00080000#64, none, .movs c (.read 4 63)),
    (0x225E3F0500080100#64, none, .movs c (.write 63 5)),
    (0x227E020500080000#64, none, .ksetCount c 2 5),
    (0x227E020607080100#64, none, .ksetMask c 2 6 7),
    (0x227E020000080200#64, none, .ksetFree c 2),
    (0x229E000200080000#64, none, .ksignAbstain c 2),
    (0x229E040200080100#64, none, .ksignStat c 4 2)] := by decide

/-- Words of the family, laid out from the tables of the spec. -/
theorem test_decode_lanes : Decodes [
    (0x281E040500080164#64, none, .xlaneSel c .n32 4 5 (.imm 100)),
    (0x283E040607180000#64, none, .xlaneShift c .n64 4 6 (.reg 7)),
    (0x285E040507080000#64, none, .xlaneRot c .n32 4 5 (.reg 7)),
    (0x287E040500080103#64, none, .xlaneMirr c .n32 4 5 (.imm 3)),
    (0x289E040807080003#64, none, .shfx c 4 8 7 3),
    (0x28BE020300084000#64, none, .vote c (.all 2) true 3),
    (0x28BE040300080300#64, none, .vote c (.ballot 4) false 3),
    (0x28DE040500080103#64, none, .laneMatch c .n32 true 4 5 3),
    (0x28FE040600180003#64, none, .conflict c .n64 4 6 3),
    (0x291E040500080013#64, none, .compact c 4 5 3 true),
    (0x293E040500080003#64, none, .expand c 4 5 3 false),
    (0x295E0C0D04480020#64, none, .breduce c .f32 .rn false .add (.key 4) 12 13),
    (0x297E040500000253#64, none, .bscan c .i32 .rn false .max (.head 3) true 4 5),
    (0x299E040500080109#64, none, .bcast c .n32 4 5 (some 9)),
    (0x29BE080607480313#64, none, .mergek c .f32 .rn false true (some 7) 8 6 3 true)] := by decide

/-- Words of the family, laid out from the tables of the spec. -/
theorem test_decode_memory : Decodes [
    (0x301E040280000040#64, none, .ld c .n32 .plain .plain 4 2 0x40),
    (0x303E0802CEFFFFF0#64, none, .st c .n128 .die .rel 8 2 0xFFFFF0),
    (0x305E040374000002#64, none, .lds c .i16 5 4 3 2),
    (0x307E040300000001#64, none, .sts c .n8 0 4 3 1),
    (0x309E08028C000000#64, none, .gather c .n32 .die .plain 8 2 0),
    (0x30BE0802A0000004#64, none, .scatter c .n64 .plain .plain 8 2 4),
    (0x30DE000208000080#64, none, .pref c .course 2 128),
    (0x30FE2814C8000100#64, none, .lda c .n128 40 20 0x100),
    (0x311E04028D000000#64, some 0x7FFE060000000002#64, .atom m .n32 .die .acq .add false false 4 2 6 0),
    (0x311E04028C000008#64, some 0x7FFE060000000001#64, .atom m .n32 .die .plain .cas false false 4 2 6 8),
    (0x313E070288000010#64, some 0x7FFE000000000000#64, .red m .course .plain .f32 .add 7 2 0x10),
    (0x315E00000E000000#64, none, .fence c .die .rel),
    (0x317E00000C000000#64, none, .syncg c .die),
    (0x319E040200000000#64, none, .keyget c 4 2 0),
    (0x31BE050200000000#64, none, .keypass c 5 2 0),
    (0x31DE000200000000#64, none, .keydrop c 2 0),
    (0x31FE06020C000080#64, none, .cwb c .die 6 2 0x80),
    (0x321E060208000000#64, none, .cinv c .course 6 2 0),
    (0x323E060208000000#64, none, .cdisc c 6 2 0),
    (0x325E050600000308#64, none, .carve c 5 6 3 8),
    (0x327E050200000020#64, none, .cpstat c 5 2 32),
    (0x329E040300000010#64, none, .linit c 4 3 16),
    (0x32BE050300000010#64, none, .arrive c 5 3 16),
    (0x32DE000300000010#64, none, .arwait c 3 16),
    (0x32FE050300000010#64, none, .lwait c 5 3 16),
    (0x331E050300000010#64, none, .lexp c 5 3 16),
    (0x333E020300000010#64, none, .ltry c 2 3 16)] := by decide

/-- Words of the family, laid out from the tables of the spec. -/
theorem test_decode_matrix : Decodes [
    (0x381E014001000022#64, some 0x7FFE080000000000#64, .mma m 1 2 (.reg 64) (.ob 1) 8 0 0),
    (0x383E010602000122#64, some 0x7FFE0800000C0A09#64, .mmaSp m 1 2 (.mem 6) (.ob 2) 8 9 10 12),
    (0x385E010604000121#64, some 0x7FFE080000000A09#64, .mmaCx m 1 2 (.mem 6) (.mem 4) 8 9 10),
    (0x387E001416000102#64, none, .tclr c true 2 20 22),
    (0x389E050000000002#64, none, .wmrd c 2 5),
    (0x38BE000600000002#64, none, .twait c 2 6),
    (0x38DE01080C000000#64, none, .obst c 1 8 12),
    (0x391E080405580173#64, none, .neval c .f16 true 7 3 8 4 5),
    (0x393E050600080000#64, none, .nhandleBind c 5 6),
    (0x393E050600080100#64, none, .nhandleRevoke c 5 6)] := by decide

/-- Words of the family, laid out from the tables of the spec. -/
theorem test_decode_records : Decodes [
    (0x401E100805000000#64, none, .trace c 16 8 5),
    (0x403E100805000000#64, none, .traceE c 16 8 5),
    (0x405E020805000000#64, none, .traceVis c 2 8 5),
    (0x407E100805000000#64, none, .spawn c 16 8 5),
    (0x409E100805000000#64, none, .spawnE c 16 8 5),
    (0x40BE100206000000#64, none, .post c 16 2 6),
    (0x40DE100206000000#64, none, .postE c 16 2 6),
    (0x40FE000000000000#64, none, .retire c),
    (0x411E0400A0000008#64, none, .rld c .n64 4 8),
    (0x413E0800C0000070#64, none, .rst c .n128 8 112),
    (0x415E080000000000#64, none, .hitattr c 8),
    (0x417E000000000100#64, none, .accept c true),
    (0x419E000000000000#64, none, .ignore c),
    (0x41BE020506000055#64, none, .report c 2 5 6 0x55)] := by decide

/-- Words that no entry accepts: a must-be-zero bit, a reserved code, a required companion that is missing, an OP without an
entry, and a companion word by itself. -/
theorem test_decode_refuses : decode 0x081E_0405_0608_0100#64 none = .error .illegalField ∧ decode 0x081E_0405_0698_0000#64 none = .error .illegalField ∧
    decode 0x187E_0604_0548_0000#64 none = .error .missingCompanion ∧ decode 0x001E_0000_0000_0000#64 none = .error .illegalOpcode ∧
    decode 0x7FFE_0700_0000_0000#64 none = .error .strayCompanion := by decide

/-! ### A small machine -/

/-- Three slots of a clause of every class are left. -/
def cls3 : Cls := ⟨63, false, 3, 0⟩
/-- A strand with a handler, issuing at 0x1008. -/
def x0 : Strand := { Strand.fresh 2 1 0 0 0x1008 0 with state := .issuing, cls := some cls3, tvec := 0x4000 }
def tm0 : Team := { Team.fresh 1 5 0 0 .gang loadedKernel 0 0 1 with scu := 1 }
def b0 : Bundle := ⟨0, 0, 5, 0x1008, some cls3, true, [], [2], false⟩
/-- A page that permits everything. -/
def page0 : Page := ⟨0x100000, true, true, true, true, true, false, 0, 0, 0, false⟩
/-- One team of one strand in a bundle on core 0, and a translation of the first 64 KiB for course 0. -/
def m0 : State := { State.reset with strands := [x0], teams := [tm0], bundles := [b0], tlb := [⟨0, 0, page0⟩], nextId := 10 }
/-- The same with other registers in the strand. -/
def withRegs (l : List (GReg × Word)) : Strand := l.foldl (fun x e => x.setG e.1 e.2) x0
def with_ (x : Strand) : State := { m0 with strands := [x] }
/-- The access of an address in that page. -/
def acc (a : Nat) : Acc := ⟨BitVec.ofNat 64 a, 0x100000 + a, page0⟩
/-- The machine with one operation in flight. -/
def flying (op : FlightOp) : State := { m0 with flights := [⟨7, 1, 5, 0, none, op⟩] }
/-- The same operation, accepted. -/
def accepted (op : FlightOp) : State := { m0 with flights := [⟨7, 1, 5, 0, some 1, op⟩] }

/-! ### Single steps whose results the spec gives -/

/-- A strand after a word. -/
def after (i : Instr) (s : State) : Option Strand :=
  match exec i s with
  | .next t => t.strand? 2
  | _ => none

theorem test_add_wraps : (after (.add c .n32 false 4 5 6) (with_ (withRegs [(5, 0xFFFFFFFF), (6, 2)]))).map (·.reg 4) = some 1 := by decide +kernel
theorem test_add_saturates : (after (.add c .i32 true 4 5 6) (with_ (withRegs [(5, 0x7FFFFFFF), (6, 1)]))).map (·.reg 4) = some 0x7FFFFFFF := by
  decide +kernel
theorem test_shift_by_width : (after (.shl c .n32 4 5 6) (with_ (withRegs [(5, 1), (6, 32)]))).map (·.reg 4) = some 0 := by decide +kernel
theorem test_p15_discards : (after (.cmp c .i32 .ne .none 15 5 6) (with_ (withRegs [(5, 1)]))).map (·.pred 15) = some true := by decide +kernel
/-- File 04: FFMA of 2.0, 3.0 and 1.0. -/
theorem test_ffma : (after (.ffma m .rn false Mods.none 6 4 5 7) (with_ (withRegs [(4, 0x40000000), (5, 0x40400000), (7, 0x3F800000)]))).map (·.reg 6) =
    some 0x40E00000 := by decide +kernel
/-- BRA to the header 16 units back: 0x1000 − 0x80 (file 03). -/
theorem test_bra : (after (.bra c 0xFFFFF0) m0).map (·.pc) = some 0xF80 := by decide +kernel
theorem test_trap_saves : (after (.trap c 0x55) m0).map (fun y => (y.pc, y.epc, y.ecause, y.inTrap)) = some (0x4000, 0x1010, 0x55000B, true) := by
  decide +kernel
theorem test_load_misaligned : (after (.ld c .n32 .plain .plain 4 2 2) m0).map (fun y => (y.ecause, y.eva)) = some (0x105, 2) := by decide +kernel
theorem test_step_decodes : (match step (State.reset.withFetchWord 64 0x0FDE_0200_0001_0000) with
    | .next t => (t.strands.map (·.reg 2))
    | _ => []) = [0x10000] := by decide +kernel
theorem test_powered_off : step { State.reset with powered := false, plan := [⟨0, .word 0, [], 0⟩] } = .fault .poweredOff := rfl

/-! ### Machines that meet the hypotheses of the statements -/

theorem alone0 : Alone m0 b0 c x0 := ⟨rfl, rfl, rfl, rfl, rfl⟩
theorem aloneM : Alone m0 b0 m x0 := ⟨rfl, rfl, rfl, rfl, rfl⟩
theorem team0 : m0.team? x0.tid = some tm0 := rfl
theorem check0 : m0.check (coreUnit b0.core) (x0.ea 4 0) 4 accRead (·.read) = .ok (acc 0) := by decide +kernel
theorem taking0 : m0.taking c b0 = [x0] := by decide +kernel

/-- The words of `Sets` and `Flies` need a bundle that issues; IntegerArithmeticWords to LaneCombiningWords, SharedRegisterWrite. -/
theorem witness_issuing_bundle : m0.bundles = b0 :: [] := rfl

/-- LaneExchange: a type the words accept. -/
theorem witness_LaneExchange : Ty.n32 ∈ [Ty.n32, Ty.n64] ∧ Ty.n64 ∈ [Ty.n32, Ty.n64] := by decide

/-- A team whose keyring kg0 is COUNT of 3 with one slot signed by STRANDID `n`, and kg1 the same with none. -/
def signedTeam (n : Nat) : Team :=
  { tm0 with keyrings := (tm0.keyrings.set 0 ⟨.count, 3, 0, 0, 5, [⟨0, 2, n, none, 0, none, 1⟩]⟩).set 1 ⟨.count, 3, 0, 0, 5, []⟩ }
def keyed (n : Nat) : State := { m0 with teams := [signedTeam n] }

/-- Keyrings: a round open and none, a configuration that stands and a new one, a strand that holds a slot and one that does not. -/
theorem witness_Keyrings : Alone (keyed 0) b0 c x0 ∧ (keyed 0).team? x0.tid = some (signedTeam 0) ∧
    ((signedTeam 0).keyrings.get 0).mode = .count ∧ ((signedTeam 0).keyrings.get 0).slots ≠ [] ∧ ((signedTeam 0).keyrings.get 1).slots = [] ∧
    ((signedTeam 0).keyrings.get 1).mode ≠ (countRing (x0.reg 4)).mode ∧ ((signedTeam 0).keyrings.get 2).mode = (countRing (x0.reg 4)).mode ∧
    ((signedTeam 0).keyrings.get 0).slots.any (fun g => g.strandId == x0.strandId) = true ∧
    ((signedTeam 1).keyrings.get 0).slots.any (fun g => g.strandId == x0.strandId) = false ∧
    ((signedTeam 1).keyrings.get 0).slots.length + 1 < ((signedTeam 1).keyrings.get 0).expect :=
  ⟨⟨rfl, rfl, rfl, rfl, rfl⟩, rfl, by decide +kernel⟩

/-- LoadsStoresAndAtomicsIssue: accesses that pass the checks, and a scratchpad access. -/
theorem witness_LoadsStoresAndAtomicsIssue : m0.bundles = b0 :: [] ∧ AccessOk c 4 0 4 accRead (·.read) m0 b0 ∧
    AccessOk c 4 0 4 accWrite (·.write) m0 b0 ∧ (∀ x ∈ m0.strands, x.sid ∈ b0.lanes → m0.cpFull c b0 .n32 .die .rel 4 0 x = 0) ∧
    Alone m0 b0 c x0 ∧ m0.scratchWaits x0 = false ∧ scratchOk m0 x0 0 4 0xFFC 4 := by
  refine ⟨rfl, ?_, ?_, by decide +kernel, alone0, by decide +kernel, by decide +kernel, tm0, rfl, by decide +kernel⟩ <;>
    (rw [AccessOk, taking0]; intro x hx; simp only [List.mem_singleton] at hx; subst hx; exact ⟨acc 0, by decide +kernel⟩)

/-- A second lane beside the first, with the same registers. -/
def x1 : Strand := { x0 with sid := 3, strandId := 1 }
def twoLanes : State := { m0 with strands := [x0, x1], bundles := [{ b0 with lanes := [2, 3] }] }

/-- GatherAndScatterWords: one lane, and two lanes that store to the same bytes. -/
theorem witness_GatherAndScatterWords : (twoLanes.taking c { b0 with lanes := [2, 3] } = [x0, x1] ∧ twoLanes.bundles = [{ b0 with lanes := [2, 3] }] ∧
      ∀ x ∈ [x0, x1], twoLanes.check (coreUnit b0.core) (x.ea 4 0) 4 accWrite (·.write) = .ok (acc 0)) ∧ m0.bundles = b0 :: [] ∧ m0.taking c b0 = x0 :: [] ∧ AccessOk c 4 0 4 accRead (·.read) m0 b0 ∧
    Alone m0 b0 c x0 ∧ m0.check (coreUnit b0.core) (x0.ea 4 124) 4 accWrite (·.write) = .ok (acc 124) := by
  refine ⟨by decide +kernel, rfl, taking0, ?_, alone0, by decide +kernel⟩
  rw [AccessOk, taking0]; intro x hx; simp only [List.mem_singleton] at hx; subst hx; exact ⟨acc 0, by decide +kernel⟩

/-- A key of the block at address 0, held by a team, perhaps passing. -/
def key0 (holder : Nat) (to' : Option Nat) : KeyEntry := ⟨0, 0x100000, holder, to'⟩
/-- An entry of the mapping table that makes the page at 0 a window onto the team's ring at scratchpad address 0. -/
def ringPage : Page := { page0 with home := 2, smidx := 3 }
def ringed : State := { m0 with tlb := [⟨0, 0, ringPage⟩], bindings := [⟨3, 1, 0, 1, true, false⟩] }

/-- KeysFencesAndCacheWordsIssue: a gang's strand with access to a KEYED page, the four states of the key of a KEYPASS, a course with
nothing to release, and CPSTAT of a ring header. -/
theorem witness_KeysFencesAndCacheWordsIssue : keysOk c 4 0 m0 b0 ∧ AccessOk c 4 0 1 0 (fun _ => true) m0 b0 ∧
    (m0.isGang x0.tid = true ∧ m0.keyBusy x0 = false ∧
      m0.check (coreUnit b0.core) (x0.ea 4 0) 1 accWrite (fun p => p.write && p.keyed) = .ok (acc 0)) ∧
    (m0.key? (acc 0).va = none ∧ (∀ k ∈ [key0 1 (some 8), key0 8 none, key0 1 none], ({ m0 with keys := [k] } : State).key? (acc 0).va = some k) ∧
      m0.gangTeam x0.tid 0 = some 1 ∧ m0.gangTeam x0.tid 9 = none) ∧
    (m0.accepted 0 = [] ∧ (m0.course 0).running = none ∧ (m0.course 0).deltas = [] ∧ (m0.course 0).dirty = []) ∧
    (ringed.taking c b0 = [x0] ∧ ringed.check 0 (x0.ea 4 0) 1 accRead (·.read) = .ok ⟨0, 0x100000, ringPage⟩ ∧
      (ringed.ringHeader x0.tid ⟨0, 0x100000, ringPage⟩).isSome) := by
  refine ⟨⟨?_, ?_⟩, ?_, by decide +kernel⟩
  · rw [taking0]; intro x hx; simp only [List.mem_singleton] at hx; subst hx; decide +kernel
  · rw [AccessOk, taking0]; intro x hx; simp only [List.mem_singleton] at hx; subst hx; exact ⟨acc 0, by decide +kernel⟩
  · rw [AccessOk, taking0]; intro x hx; simp only [List.mem_singleton] at hx; subst hx; exact ⟨acc 0, by decide +kernel⟩

/-- ControlTransferWords: aligned targets, and one that is not. -/
theorem witness_ControlTransferWords : (m0.bundles = b0 :: [] ∧ ∀ x ∈ m0.taking c b0, (x.pair 4).toNat % 8 = 0) ∧
    (let x := withRegs [(4, 4)]; Alone (with_ x) b0 c x ∧ (with_ x).team? x.tid = some tm0 ∧ x.trapsTo = true ∧ (x.pair 4).toNat % 8 ≠ 0) := by
  refine ⟨?_, ⟨rfl, rfl, rfl, rfl, rfl⟩, by decide +kernel⟩
  rw [taking0]; exact ⟨rfl, by decide +kernel⟩

/-- What a strand watches in MONITOR. -/
def mon (v : DWord) (written : Bool) : Monitor := ⟨0, .n32, .die, v, acc 0, true, 65536, 0, written⟩
def watching (v : DWord) (w : Bool) : Strand := { x0 with state := .monitor (mon v w), cls := none }

/-- The read of an MWAIT in flight. -/
def monRead : Flight := ⟨7, 1, 5, 0, none, .monitorRead 2⟩
def waiting (v : DWord) : State := { m0 with flights := [monRead], strands := [watching v false] }
def later : State := { with_ (watching 0 true) with timebase := 65536 }

/-- MonitorWaitAndWake: the wait, its read with the value awaited and with another, and its three ends. -/
theorem witness_MonitorWaitAndWake : Alone m0 b0 c x0 ∧ m0.check (coreUnit b0.core) (x0.ea 4 0) 4 accRead (·.read) = .ok (acc 0) ∧
    (waiting 0).flight? 7 = some monRead ∧ (waiting 0).strand? 2 = some (watching 0 false) ∧ (waiting 0).waits monRead 2 (acc 0).pa 4 = false ∧
    (waiting 1).strand? 2 = some (watching 1 false) ∧ (waiting 1).waits monRead 2 (acc 0).pa 4 = false ∧
    (with_ (watching 0 true)).strand? 2 = some (watching 0 true) ∧ (mon 0 true).armed = true ∧ (mon 0 true).written = true ∧
    later.now - (mon 0 true).since = (mon 0 true).remaining :=
  ⟨alone0, check0, rfl, rfl, by decide +kernel, rfl, by decide +kernel, rfl, rfl, rfl, by decide +kernel⟩

/-- A strand in a trap whose EPC is a slot of a clause (INCL 1), or a header. -/
def inHandler (incl : Bool) : Strand := { x0 with eclause := if incl then 0xFF000000 else 0x80000000, epc := 0x2010 }

/-- TrapsAndReturn: a strand with a handler; ERET into a clause, to a header, and outside a trap. -/
theorem witness_TrapsAndReturn : Alone m0 b0 c x0 ∧ m0.team? x0.tid = some tm0 ∧ x0.trapsTo = true ∧
    (∀ i, Alone (with_ (inHandler i)) b0 c (inHandler i)) ∧ (∀ i, (inHandler i).eclause.getLsbD 31 = true ∧ (inHandler i).epc.toNat % 8 = 0 ∧
      (inHandler i).eclause.getLsbD 30 = i) ∧ x0.eclause.getLsbD 31 = false ∧ x0.tvec ≠ 0 :=
  ⟨alone0, rfl, by decide +kernel, fun i => by cases i <;> exact ⟨rfl, rfl, rfl, rfl, rfl⟩, by decide +kernel⟩

/-- A launch of one gang, admitted on every course. -/
def launch0 : Launch where
  seq := 5
  queue := 0
  prio := 0
  courses := 1
  engines := 0
  cmd := Command.ofNat 0
  kernel := loadedKernel
  ext := none
  state := .admitted
  count := some 1
  placed := 1
  waves := 0
  marked := false
  tacc := 0
  tadm := 0
  digest := 0
  saving := false
  spilled := false
  kept := []
  tsize := 65536

/-- A page that cannot be read, and a table that maps nothing. -/
def writeOnly : State := { m0 with tlb := [⟨0, 0, { page0 with read := false }⟩] }
def unmapped : State := { m0 with tlb := [] }

/-- FaultsOfOneStrand: a strand with a handler and one without, a launch of each state; each fault of a load. -/
theorem witness_FaultsOfOneStrand : Alone unmapped b0 c x0 ∧ m0.strand? 2 = some x0 ∧ m0.team? x0.tid = some tm0 ∧
    ({ m0 with launches := [launch0] } : State).launch? tm0.seq = some launch0 ∧
    ((x0.eclause.getLsbD 31 = false ∧ x0.tvec ≠ 0) ∧ ¬((inHandler true).eclause.getLsbD 31 = false ∧ (inHandler true).tvec ≠ 0)) ∧
    (canonical ((withRegs [(5, 0x01000000)]).ea 4 0) = false ∧ canonical (x0.ea 4 2) = true ∧ (x0.ea 4 2).toNat % 4 ≠ 0) ∧
    writeOnly.translate (coreUnit 0) (x0.ea 4 0) = .ok { page0 with read := false } ∧
    unmapped.translate (coreUnit 0) (x0.ea 4 0) = .error .notPresent :=
  ⟨⟨rfl, rfl, rfl, rfl, rfl⟩, rfl, rfl, rfl, by decide +kernel⟩

/-- A latch at scratchpad address 64, the first of the team's four, with one arrival pending. -/
def latch1 : Latch := ⟨0, 0, false, false, false, 1, 1, 0, 0⟩
def x64 : Strand := withRegs [(4, 64)]
def latched : State := { with_ x64 with teams := [{ tm0 with scratch := memPutL 64 (latchBytes latch1) [] }] }

/-- Latches: a latch that an arrival completes, counts at their limit, and an overrun. -/
theorem witness_Latches : Alone latched b0 c x64 ∧ latched.arrivalWaits x64 = false ∧ LatchHere latched x64 (x64.sea 4 0).toNat latch1 ∧
    LatchHere latched x64 (x64.reg 4).toNat latch1 ∧ (x64.reg 4).toNat ≤ 1024 ∧ (withRegs [(4, 1024)]).reg 4 = 1024 ∧
    (latch1.arrive none).isSome ∧ (latch1.arrive none).map Latch.complete = some true ∧ ({ latch1 with penda := 0 } : Latch).arrive none = none ∧
    latched.rings.any (fun r => r.tid == x64.tid && !r.begun.isEmpty) = false ∧ latch1.pendb + (x64.reg 4).toNat < 2 ^ 32 ∧
    latch1.l1u < 256 ∧ latch1.expa < 2048 ∧ Memory.wf ([] : Bytes) = true :=
  ⟨⟨rfl, rfl, rfl, rfl, rfl⟩, by decide +kernel, ⟨_, rfl, by decide +kernel⟩, ⟨_, rfl, by decide +kernel⟩, by decide +kernel⟩

/-- WordsComplete: a bundle that issues, a strand with a handler and one in it, a span that can be read, a strand in MONITOR, and a latch that waits and one
that completes. -/
theorem witness_WordsComplete : m0.bundles = b0 :: [] ∧ Ty.bf16 ∈ [Ty.f16, Ty.bf16] ∧ Ty.f64 ∈ [Ty.f32, Ty.f64] ∧
    (Alone m0 b0 c x0 ∧ x0.trapsTo = true ∧ Alone (with_ (inHandler true)) b0 c (inHandler true) ∧ (inHandler true).inTrap = true ∧
      (inHandler true).epc.toNat % 8 = 0) ∧
    m0.check (coreUnit b0.core) (x0.ea 4 0) 4 accRead (·.read) = .ok (acc 0) ∧
    ((waiting 0).strand? (watching 0 false).sid = some (watching 0 false) ∧ (waiting 0).waits monRead 2 (acc 0).pa 4 = false ∧
      (watching 0 true).state = .monitor (mon 0 true) ∧ (mon 0 true).armed = true ∧ later.now - (mon 0 true).since = (mon 0 true).remaining) ∧
    LatchHere latched x64 (x64.sea 4 0).toNat latch1 ∧ (∀ l1u scu : Byte, (latch1.arrive (some (scu.toNat, l1u.toNat))).isSome) :=
  ⟨rfl, by decide, by decide, ⟨alone0, rfl, ⟨rfl, rfl, rfl, rfl, rfl⟩, rfl, rfl⟩, check0, by decide +kernel, ⟨_, rfl, by decide +kernel⟩,
    fun _ _ => rfl⟩

/-- A course whose tile slot 2 and operand buffer 1 the launch claims. -/
def tile2 : Tile := ⟨some (5, 2), true, 0, 0x100000, 64, 0, 0⟩
def tiled : State := { m0 with courses := m0.courses.set 0 { Course.reset with tiles := Course.reset.tiles.set 2 tile2, obClaim := [none, some 5, none, none] } }

/-- MatrixAndTileWords: a signature that leaves a COUNT round open and one that repeats; a claimed slot, at WM and below it, and buffer. -/
theorem witness_MatrixAndTileWords : Alone (keyed 0) b0 m x0 ∧ (keyed 0).team? x0.tid = some (signedTeam 0) ∧ Alone tiled b0 c x0 ∧
    (((signedTeam 0).keyrings.get 0).retries x0.strandId = true ∧ ((signedTeam 1).keyrings.get 0).retries x0.strandId = false ∧
      ((signedTeam 1).keyrings.get 0).slots.length + 1 < ((signedTeam 1).keyrings.get 0).expect) ∧
    tiled.tclrCheck b0.core 2 x0 4 = .ok (acc 0) ∧ tiled.tile? 0 (tiled.seqOf x0.tid) 2 = some tile2 ∧
    (x0.reg 4).toNat % 16 = 0 ∧ (x0.reg 4).toNat < 16384 ∧ (tiled.course 0).obClaim[1]? = some (some (tiled.seqOf x0.tid)) :=
  ⟨⟨rfl, rfl, rfl, rfl, rfl⟩, rfl, ⟨rfl, rfl, rfl, rfl, rfl⟩, by decide +kernel⟩

/-- A handle of the launch: entry 0, generation 1. -/
def bound0 : Handle := ⟨0, true, 1, 5, 0⟩
def handled : State := { m0 with handles := [bound0] }

/-- NeuralAndLaunchWords: a valid handle and one that is not, a free entry, and a command record that can be read. -/
theorem witness_NeuralAndLaunchWords : handled.bundles = b0 :: [] ∧ Alone handled b0 c x0 ∧
    (handled.validHandle 5 0x10000 = some bound0 ∧ handled.validHandle 5 0 = none ∧ handled.freeHandle.isSome) ∧
    canonical (x0.pair 4) = true ∧ (x0.pair 4).toNat % 64 = 0 ∧ m0.keyBusy x0 = false ∧
    m0.check (coreUnit b0.core) (x0.ea 4 0) 64 accRead (·.read) = .ok (acc 0) :=
  ⟨rfl, ⟨rfl, rfl, rfl, rfl, rfl⟩, by decide +kernel⟩
/-- The kernel of a node, and a launch extension with two nodes, the second a level above the first, and `r` slots for episode records. -/
def nodeKernel0 (n : Nat) : Kernel := { loadedKernel with kind := 2, nodeIdx := n, payload := 64, depth := 3 }
def ext0 (r : Nat) : Ext := ⟨0, 0, 0, 0, 64, r, 16, 100, [], [], [(4, 0), (4, 1)], [nodeKernel0 0, nodeKernel0 1]⟩
def recLaunch (r : Nat) : Launch := { launch0 with ext := some (ext0 r), kernel := nodeKernel0 0, count := some 4, placed := 1 }
def rec0 : Rec := ⟨0, 5, some 0, .owned, 0, none, none, 0⟩
/-- A strand of a wave of some kind that owns slot 0 of course 0. -/
def owner : Strand := { x0 with owned := some 0 }
def waveState (kind : TKind) (x : Strand) (r : Nat) : State := { with_ x with
  teams := [{ tm0 with kind := kind }], launches := [recLaunch r], courses := m0.courses.set 0 { Course.reset with recs := [rec0] } }
def nodeState : State := waveState (.node 0) owner 4

theorem aloneNode : Alone nodeState b0 c owner := ⟨rfl, rfl, rfl, rfl, rfl⟩

/-- NewRecordsAndRays: an owned record; a part with a free slot and one with none; a visibility entry; a POST to the node above. -/
theorem witness_NewRecordsAndRays : Alone nodeState b0 c owner ∧ nodeState.keyBusy owner = false ∧ InRecordLaunch nodeState owner (recLaunch 4) (ext0 4) ∧
    OwnsRecord nodeState owner (recLaunch 4) 0 rec0 ∧ (nodeState.recordRelease owner).slotFree 0 5 none = true ∧
    ((waveState (.node 0) owner 0).recordRelease owner).slotFree 0 5 none = false ∧
    nodeState.check 0 (owner.pair 4) 16 accWrite (·.write) = .ok (acc 0) ∧ (ext0 4).nodeKernel 1 = some (nodeKernel0 1) ∧
    (ext0 4).level 0 < (ext0 4).level 1 ∧ (nodeState.recordRelease owner).slotFree 0 5 (some 1) = true ∧
    (let y := owner.setG 6 1; (y.reg 6).toNat % 65536 = 1 ∧ y.reg (gAt 6 1) = 0) :=
  ⟨aloneNode, by decide +kernel, ⟨rfl, rfl, by decide +kernel⟩, ⟨rfl, rfl⟩, by decide +kernel⟩

/-- RecordOwners: a gang's strand and a wave's; shader strands of the two kinds, with a report and without. -/
theorem witness_RecordOwners : Alone m0 b0 c x0 ∧ Alone nodeState b0 c owner ∧ InRecordLaunch nodeState owner (recLaunch 4) (ext0 4) ∧
    OwnsRecord nodeState owner (recLaunch 4) 0 rec0 ∧ nodeState.taking c b0 = [owner] ∧
    (∀ k ∈ [2, 3], (waveState (.shader k 0) owner 4).shaderKind owner.tid = some k ∧ (waveState (.shader k 0) owner 4).keyBusy owner = false) ∧
    ({ owner with report := some 0 } : Strand).report.isSome = true ∧ owner.report = none :=
  ⟨alone0, aloneNode, ⟨rfl, rfl, by decide +kernel⟩, ⟨rfl, rfl⟩, by decide +kernel⟩

/-- A READY strand at the header 0x100, and a starvation count. -/
def readyState (n : Nat) : State := { with_ { x0 with state := .ready, pc := 0x100, cls := none } with bundles := [], starve := n :: m0.starve.tail }
/-- A bundle at a header that is to be fetched, with the words of a clause of one NOP there; a header that is malformed; and a re-entry. -/
def fetching (hdr : Nat) (cl : Option Cls) : State := { m0 with
  mem := memPutL 0x100100 (leBytes 8 hdr ++ leBytes 8 0x013E000000000000) [],
  bundles := [⟨0, 0, 5, if cl.isSome then 0x108 else 0x100, cl, false, [], [2], false⟩] }

/-- Two READY strands at different headers, the second of which has waited longer. -/
def twoReady : State := { readyState 63 with timebase := 9, strands := [{ x0 with state := .ready, pc := 0x100, cls := none, since := 5 },
  { x1 with state := .ready, pc := 0x200, cls := none }] }

/-- IssueAndFetch. -/
theorem witness_IssueAndFetch : ((twoReady.table 0).map (·.pc) = [0x100, 0x200] ∧ (longestWaiting (twoReady.table 0)).map (·.pc) = some 0x200 ∧
      twoReady.freePipes 0 ≠ [] ∧ twoReady.starve.getD 0 0 = 63 ∧ ((twoReady.table 0).find? (fun x => !x.yielded)).map (·.pc) = some 0x100) ∧ ((readyState 64).table 0).length = 1 ∧ (longestWaiting ((readyState 64).table 0)).isSome ∧ (0x101 : DWord).toNat % 8 ≠ 0 ∧ (readyState 64).freePipes 0 ≠ [] ∧
    (readyState 64).starve.getD 0 0 = 64 ∧ (readyState 63).starve.getD 0 0 = 63 ∧
    (fetching 0x8002000000000000 none).fetchWord 0 0x100 = .ok 0x8002000000000000 ∧ headerOk 0x8002000000000000 = true ∧
    (match (fetching 0x8002000000000000 none).fetchWords 0 1 0x108 with | .ok ws => ws | .error _ => []) = [0x013E000000000000] ∧
    headerOk 0x0002000000000000 = false ∧ (fetching 0x8002000000000000 (some ⟨32, true, 1, 0⟩)).bundles.map (·.fetched) = [false] := by decide +kernel

/-- A load of four bytes in flight, and its flight. -/
def load0 : FlightOp := .load [2] [⟨2, 4, .n32, acc 0, none⟩] .plain .plain false [] .ld
def fl (op : FlightOp) : Flight := ⟨7, 1, 5, 0, none, op⟩
def ac (op : FlightOp) : Flight := ⟨7, 1, 5, 0, some 1, op⟩

theorem fenceless_one (f : Flight) (h : ∀ sid sc o, f.op ≠ .fence sid sc o) (s : State) (e : s.flights = [f]) : Fenceless s := by
  intro g hg; rw [e] at hg; simp only [List.mem_singleton] at hg; subst hg; exact h

/-- LoadsReadTheirTier: the three places of an access, a course with nothing accepted, a byte nobody holds the key of; a load that waits for
nothing and whose registers nobody has written. -/
theorem witness_LoadsReadTheirTier : Fenceless (flying load0) ∧
    (ringed.place ⟨0, 0x100000, ringPage⟩ = .scratch 1 0 ∧ m0.place ⟨0, 0, { page0 with home := 3 }⟩ = .memory ∧ m0.place (acc 0) = .cached) ∧
    m0.accepted 0 = [] ∧ (m0.course 0).deltas = [] ∧ m0.keyAt 0x100000 = none ∧ Scope.atHome .die = true ∧ Scope.atHome .course = false ∧
    ((flying load0).flight? 7 = some (fl load0) ∧ (flying load0).waits (fl load0) 2 0x100000 4 = false ∧
      (let r := (flying load0).readScope 0 1 2 .plain (acc 0) 4 true;
        r.1.destWaits (fl load0) 2 4 1 = false ∧ r.1.strand? 2 = some x0) ∧
      (flying load0).words.getLsbD 0 = true ∧ x0.races [(4, 0)] = false ∧ x0.wrote.getLsbD 4 = false) ∧
    (flying (.qstat 2 4 0 0)).flight? 7 = some (fl (.qstat 2 4 0 0)) ∧ (flying (.cpstat 2 4 0)).flight? 7 = some (fl (.cpstat 2 4 0)) ∧
    (flying (.qstat 2 4 0 0)).destWaits (fl (.qstat 2 4 0 0)) 2 4 1 = false :=
  ⟨fenceless_one (fl load0) (by intro _ _ _; exact nofun) _ rfl, by decide +kernel⟩

/-- A store of one byte, a RED and an ATOM. -/
def store0 : FlightOp := .store [2] (acc 0) [(0x100000, 7)] .plain .plain none
def red0 : FlightOp := .red 2 (acc 0) .n32 .add 1 .die .plain 0
def atom0 : FlightOp := .atom 2 (acc 0) .n32 .add false 1 0 .die .plain false 4 0
def teamAtom0 : FlightOp := .atom 2 (acc 0) .n32 .add false 1 0 .team .plain false 4 0

theorem lonely_of (op : FlightOp) (h : ∀ sid sc o, op ≠ .fence sid sc o) (s : State) (e : s.flights = [ac op]) (hs : ∀ k ∈ s.streams, k.on = false) : Lonely s 7 := by
  refine ⟨fenceless_one (ac op) h _ e, fun g hg hn => ?_, hs⟩
  rw [e] at hg
  rw [List.mem_singleton.mp hg] at hn; exact absurd rfl hn

theorem lonely_one (op : FlightOp) (h : ∀ sid sc o, op ≠ .fence sid sc o) : Lonely (accepted op) 7 :=
  lonely_of op h _ rfl (by show ∀ k ∈ List.replicate 4 Stream.reset, k.on = false; decide +kernel)

theorem drained_one (op : FlightOp) : Drained (accepted op) := by
  show ∀ x ∈ m0.courses, _
  decide +kernel

theorem plain0 : PlainBytes m0 0x100000 := ⟨by decide +kernel, by decide +kernel⟩

/-- StoreAcceptance: an STS, a store that is only accepted, and one to a block whose key its team holds. -/
theorem witness_StoreAcceptance : Fenceless (flying store0) ∧ PlainBytes (flying store0) 0x100000 ∧
    ((flying (.scratchStore 2)).flight? 7 = some (fl (.scratchStore 2)) ∧ (flying (.scratchStore 2)).acceptable (fl (.scratchStore 2)) = true) ∧
    ((flying store0).flight? 7 = some (fl store0) ∧ (flying store0).acceptable (fl store0) = true ∧ (flying store0).place (acc 0) = .cached) ∧
    (flying store0).ownKey 1 (acc 0).pa = false ∧ ({ flying store0 with keys := [key0 1 none] } : State).ownKey 1 (acc 0).pa = true ∧
    (flying store0).accepted 0 = [] ∧ ((flying store0).course 0).deltas = [] ∧ ((flying store0).course 0).dirty = [] :=
  ⟨fenceless_one (fl store0) (by intro _ _ _; exact nofun) _ rfl, plain0, by decide +kernel⟩

/-- AtomicsAndWritesAtHome: each kind of accepted write, an ATOM of DIE scope and one of TEAM scope; operands at the top of their range. -/
theorem witness_AtomicsAndWritesAtHome : (∀ op ∈ [store0, red0, atom0, teamAtom0], Lonely (accepted op) 7 ∧ Drained (accepted op)) ∧
    (∀ op ∈ [store0, red0, atom0, teamAtom0], (accepted op).flight? 7 = some (ac op) ∧ (accepted op).performable (ac op) = true ∧
      (accepted op).keyAt (acc 0).pa = none ∧ 7 < (accepted op).nextId ∧ 0 < (accepted op).courses.length) ∧ PlainBytes (accepted store0) 0x100000 ∧
    ((accepted store0).place (acc 0) = .cached ∧ (accepted atom0).destWaits (ac atom0) 2 4 1 = false ∧
      (accepted teamAtom0).destWaits (ac teamAtom0) 2 4 1 = false ∧ x0.races [(4, 0)] = false) ∧ 2 ^ 32 - 1 < 256 ^ Width.n32.bytes := by
  refine ⟨fun op h => ⟨lonely_one op ?_, drained_one op⟩, by decide +kernel, plain0, by decide +kernel⟩
  simp only [List.mem_cons, List.not_mem_nil, or_false] at h
  rcases h with rfl | rfl | rfl | rfl <;> intro _ _ _ <;> exact nofun

/-- A course with one pending delta element. -/
def deltaState : State := { m0 with courses := m0.courses.set 0 { Course.reset with deltas := [(0x100000, .n32, .add, 1, [5])] } }

def holder8 : Team := Team.fresh 8 5 1 0 .gang loadedKernel 0 24 1
def recalled : State := { accepted store0 with keys := [key0 8 none], teams := [tm0, holder8], courses := m0.courses.set 3 { Course.reset with dirty := [(0x100FFF, 9)] } }

/-- What holds of every course but one, shown on the list. -/
theorem others_of (s : State) (h : Nat) (p : Course → Prop) (l : ∀ e ∈ s.courses.zipIdx, e.2 ≠ h → p e.1) :
    ∀ c x, s.courses[c]? = some x → c ≠ h → p x :=
  fun c x hx hc => l (x, c) (List.mk_mem_zipIdx_iff_getElem?.mpr hx) hc

/-- A delta on a tile that its course has pinned. -/
def pinnedDelta : State := { m0 with courses := m0.courses.set 0 { Course.reset with
  deltas := (deltaState.course 0).deltas, pins := [0x100000 / 128], tiles := Course.reset.tiles.set 2 ⟨some (5, 2), true, 0, 0x100000, 64, 0, 0⟩ } }

/-- RecallAndEviction: a store to a block that another team holds, with a dirty byte in it; one delta, of a block that nobody holds, of one
that a team holds, and of a pinned tile; a line of the die cache, and one that is pinned. -/
theorem witness_RecallAndEviction : Lonely recalled 7 ∧
    (recalled.flight? 7 = some (ac store0) ∧ recalled.performable (ac store0) = true ∧ recalled.keyAt (acc 0).pa = some (key0 8 none) ∧
      (key0 8 none).holder ≠ (ac store0).tid ∧ CanonicalMemory recalled ∧ (acc 0).page.home = 0 ∧ recalled.place (acc 0) = .cached) ∧
    (∀ c x, recalled.courses[c]? = some x → c ≠ recalled.teamCourse 8 → x.dirty = []) ∧
    ((recalled.course (recalled.teamCourse 8)).dirty = [(0x100FFF, 9)] ∧ (key0 8 none).pa ≤ 0x100FFF ∧ 0x100FFF < (key0 8 none).pa + 4096) ∧
    pinnedDelta.keepsDelta 0 0x100000 = true ∧
    (deltaState.keepsDelta 0 0x100000 = false ∧ deltaState.keyAt 0x100000 = none ∧
      ({ deltaState with keys := [key0 8 none] } : State).keyAt 0x100000 = some (key0 8 none)) ∧
    ((deltaState.course 0).deltas = [(0x100000, .n32, .add, 1, [5])] ∧ (∀ x ∈ deltaState.courses, x.dirty = []) ∧ deltaState.flights = [] ∧
      (∀ k ∈ deltaState.streams, k.on = false) ∧ deltaState.pinned (0x100000 / 128) = false ∧
      overlaps (0x100000 / 4 * 4) 4 0x100000 (redBytes .n32) = true) ∧
    ({ m0 with courses := m0.courses.set 0 { Course.reset with pins := [5] } } : State).pinned 5 = true ∧
    (m0.bindings = [] ∧ (∀ x ∈ m0.courses, x.dirty = [] ∧ x.deltas = [] ∧ sortedCells x.clean = true) ∧
      sortedCells ({ m0 with dieCache := [(0x100000, 1)] } : State).dieCache = true ∧ sortedCells m0.dieClean = true ∧ Memory.wf m0.mem = true ∧
      m0.pinned 0x2000 = false) := by
  refine ⟨lonely_one store0 (by intro _ _ _; exact nofun), ?_, others_of _ _ _ (by decide +kernel), by decide +kernel⟩
  unfold CanonicalMemory; decide +kernel

def keyget0 : FlightOp := .keyget 2 (acc 0) 4 0
def keypass0 : FlightOp := .keypass 2 (acc 0) 4 8
def keydrop0 : FlightOp := .keydrop 2 (acc 0) 0
def passing0 : State := { accepted keypass0 with keys := [key0 1 (some 8)] }

/-- KeyLifeCycle: KEYGET with its operation alone, of a block that is FREE, its team's, another's; a full key table; a pass under way; a drop
of a block that is FREE, another's and the team's own. -/
theorem witness_KeyLifeCycle : Fenceless (flying keyget0) ∧ Fenceless passing0 ∧ Fenceless (flying keydrop0) ∧
    ((flying keyget0).flight? 7 = some (fl keyget0) ∧ (flying keyget0).destWaits (fl keyget0) 2 4 1 = false ∧
      (flying keyget0).keyBefore (fl keyget0) 0 = false ∧ (flying keyget0).unaccepted (fl keyget0) 2 = false ∧ (flying keyget0).key? 0 = none ∧
      (flying keyget0).keysOf (acc 0).pa < 4096 ∧ x0.wrote.getLsbD 4 = false ∧
      (∀ h ∈ [1, 8], ({ flying keyget0 with keys := [key0 h none] } : State).key? 0 = some (key0 h none))) ∧
    (({ flying keyget0 with keys := List.replicate 4096 { key0 8 none with block := 1 } } : State).keysOf (acc 0).pa = 4096 ∧
      ({ flying keyget0 with keys := List.replicate 4096 { key0 8 none with block := 1 } } : State).key? 0 = none) ∧
    (passing0.flight? 7 = some (ac keypass0) ∧ passing0.key? 0 = some (key0 1 (some 8)) ∧ passing0.destWaits (ac keypass0) 2 4 1 = false ∧
      CanonicalMemory passing0 ∧ (∀ x ∈ passing0.courses, x.dirty = []) ∧
      passing0.flights.find? (fun g => match g.op with
        | .keypass _ a _ _ => g.acc.isSome && a.va.toNat / 4096 == 0
        | _ => false) = some (ac keypass0) ∧ passing0.lives 8 = false ∧ passing0.lives 1 = true) ∧
    ((flying keydrop0).flight? 7 = some (fl keydrop0) ∧ (flying keydrop0).keyBefore (fl keydrop0) 0 = false ∧
      (flying keydrop0).unaccepted (fl keydrop0) 2 = false ∧ (flying keydrop0).signed 0 2 = false ∧
      ((flying keydrop0).earlier (fl keydrop0) 2).any (fun g => g.op.acquires) = false ∧
      (∀ h ∈ [1, 8], ({ flying keydrop0 with keys := [key0 h none] } : State).key? 0 = some (key0 h none))) := by
  unfold CanonicalMemory
  refine ⟨fenceless_one (fl keyget0) (by intro _ _ _; exact nofun) _ rfl, fenceless_one (ac keypass0) (by intro _ _ _; exact nofun) _ rfl,
    fenceless_one (fl keydrop0) (by intro _ _ _; exact nofun) _ rfl, by decide +kernel, ?_, by decide +kernel⟩
  decide +kernel

def cacheOp0 (what : Fin 3) : FlightOp := .cacheOp 2 (acc 0) what .course 0xFFFFFFFF 0

/-- CacheOperations: the three words of Table 10.4, every word of the line in the mask. -/
theorem witness_CacheOperations : ∀ w : Fin 3, Fenceless (flying (cacheOp0 w)) ∧ (flying (cacheOp0 w)).flight? 7 = some (fl (cacheOp0 w)) ∧
    (flying (cacheOp0 w)).cacheBefore (fl (cacheOp0 w)) (acc 0).pa = false ∧ (flying (cacheOp0 w)).waits (fl (cacheOp0 w)) 2 0x100000 128 = false ∧
    (acc 0).page.home < 2 ∧ (∀ g ∈ (flying (cacheOp0 w)).flights, g.acc = none) ∧ (∀ x ∈ (flying (cacheOp0 w)).courses, x.dirty = [] ∧ x.deltas = []) ∧
    (0 : Nat) < (flying (cacheOp0 w)).courses.length ∧ sortedCells ((flying (cacheOp0 w)).course 0).dirty = true ∧ sortedCells ((flying (cacheOp0 w)).course 0).clean = true ∧
    Memory.wf (flying (cacheOp0 w)).mem = true ∧ (flying (cacheOp0 w)).faults = [] :=
  fun w => ⟨fenceless_one (fl (cacheOp0 w)) (by intro _ _ _; exact nofun) _ rfl, by revert w; decide +kernel⟩

def pref0 : FlightOp := .pref .course (acc 0)
/-- A gang whose one strand stands at its barrier. -/
def atBarrier : State := { with_ { x0 with state := .barrier .die } with bundles := [] }

/-- PrefetchAndBarrierEvents. -/
theorem witness_PrefetchAndBarrierEvents : (flying pref0).flight? 7 = some (fl pref0) ∧ (flying pref0).accepted 0 = [] ∧ ((flying pref0).course 0).deltas = [] ∧
    (flying pref0).keyAt (acc 0).pa = none ∧ (flying pref0).team? 1 = some tm0 ∧ (0 : Nat) < (flying pref0).courses.length ∧
    ringed.bindings.find? (fun b => b.entry == 3 && (ringed.team? b.tid).isSome) = some ⟨3, 1, 0, 1, true, false⟩ ∧ 
    (∀ t ∈ atBarrier.teams, t.extra = 0) ∧ (atBarrier.gangStrands 5 0).map (·.atBarrier) = [true] ∧ atBarrier.flights = [] ∧ atBarrier.barrierReady 5 0 = true ∧ m0.barrierReady 5 0 = false ∧ (atBarrier.gangStrands 5 0).length = 1 := by decide +kernel

/-- An MMA of tile slot 2 with operands from registers or from operand buffers, F16 rows, signed by strand 2. -/
def mmaOp0 : MmaOp := ⟨0, 2, .reg 64, .reg 68, 8, 0, 0, 0⟩
def round0 (a b : Operand) : Round := ⟨3, 5, 1, 0, 0, mmaOp0, 0, 2, 0, 0x100000, page0, [(2, 0)], a, b, [], [], [], [0]⟩
def regRound : Round := round0 (.rows []) (.rows [])
def obRound : Round := round0 (.ob 0) (.ob 1)
/-- A course with a round waiting, at the head of the queue, in the engine. -/
def engine (f : Course → Course) : State := { tiled with courses := tiled.courses.set 0 (f (tiled.course 0)) }
def tclr0 : FlightOp := .tclr [2] (acc 0) false 2 9
def obst0 : FlightOp := .obst 2 1 16 [1]

/-- MatrixRounds: a round waits, heads the queue, runs without operands and with them, in the last rows; a TCLR and an OBST in flight. -/
theorem witness_MatrixRounds : (∀ s ∈ [({ tiled with flights := [fl tclr0] } : State), { tiled with flights := [fl obst0] }], Fenceless s) ∧
    ((engine (fun x => { x with waiting := [regRound] })).tclrAhead 0 regRound = false ∧ Course.reset.queued < 4 ∧
    (engine (fun x => { x with queue := [.round regRound] })).course 0 = { tiled.course 0 with queue := [.round regRound] } ∧ (tiled.course 0).running = none ∧
    (∀ r ∈ [regRound, obRound], (engine (fun x => { x with running := some ⟨r, 0, none⟩ })).operandsReady r = true ∧
      tileOf tiled 0 r = some tile2 ∧ (FmtWord.read r.op.form r.fw).map (·.a) = some .f16) ∧
    (engine (fun x => { x with running := some ⟨regRound, 62, some ([], [])⟩ })).accepted 0 = [] ∧ min 64 (62 + 2) = 64) ∧
    (let s : State := { tiled with flights := [fl tclr0] };
      s.tile? 0 5 2 = some tile2 ∧ tile2.pend = 0 ∧ s.roundBefore (fl tclr0) 2 = false ∧ s.accepted 0 = [] ∧ (∀ k ∈ s.streams, k.on = false) ∧ PlainBytes s 0x100000) ∧
    (let s : State := { tiled with flights := [fl obst0] };
      s.obstBefore (fl obst0) 1 16 = false ∧ 0 < s.courses.length) := by
  refine ⟨fun s h => ?_, by decide +kernel, ?_, by decide +kernel⟩
  · simp only [List.mem_cons, List.not_mem_nil, or_false] at h
    rcases h with rfl | rfl
    exacts [fenceless_one (fl tclr0) (by intro _ _ _; exact nofun) _ rfl, fenceless_one (fl obst0) (by intro _ _ _; exact nofun) _ rfl]
  · unfold PlainBytes; decide +kernel

/-- Rows of a neural layer of sixteen inputs and four outputs, a gather table entry with some of them, and a layer record at address 0. -/
def nrow : NRow := ⟨2, 1, 5, .f16, false, 4, 16, 4, List.replicate 8 0, 0x1008, none, 1⟩
def nentry (n : Nat) : NEntry := ⟨1, 0x10000, 0, List.replicate n nrow, 0, none⟩
def gathering (n : Nat) : State := { m0 with flights := [⟨7, 1, 5, 0, none, .nevalReq nrow 0x10000 0⟩], timebase := 256, courses := m0.courses.set 0 { Course.reset with gather := [nentry n] } }
def layered : State := { m0 with mem := memPutL 0x100000 (leBytes 64 0x1004) [] }

def nres0 : FlightOp := .nevalRes 2 [(4, 0)] 0x10000

/-- NeuralRounds: an entry with room for more than one row, with room for one, and none; an entry 256 cycles old and no tile of that cycle; a layer the
row fits, and a record out of reach; a result in flight for a strand that lives and for one that has ended, and a revocation. -/
theorem witness_NeuralRounds : (∀ n ∈ [62, 63], ((gathering n).course 0).gather.find? (fun e => e.handle == 0x10000 && decide (e.rows.length < 64)) = some (nentry n)) ∧
    (((gathering 64).course 0).gather.find? (fun e => e.handle == 0x10000 && decide (e.rows.length < 64)) = none ∧
    ((gathering 64).course 0).freeEntry = some 0 ∧ (∀ n ∈ [1, 62, 63, 64], ((gathering n).course 0).queue = [] ∧ (gathering n).accepted 0 = [] ∧ Drained (gathering n)) ∧
    (nentry 1).since + 256 ≤ (gathering 1).now) ∧
    (match layered.tileRead 0 0 64 64 with
      | .ok r => (Layer.read r.2).any (fun l => l.fits nrow && (match r.1.tileData 0 l with | .ok d => decide (0 < d.1.courses.length) | .error _ => false))
      | .error _ => false) = true ∧
    (match layered.tileRead 0 2 64 64 with | .error (.trap _) => true | _ => false) = true ∧
    ((flying nres0).flight? 7 = some (fl nres0) ∧ (flying nres0).strand? 2 = some x0 ∧ x0.races [(4, 0)] = false ∧ (flying nres0).words.getLsbD 0 = true ∧
    ({ with_ { x0 with state := .ended } with flights := [fl nres0] } : State).strand? 2 = some { x0 with state := .ended } ∧ x0.state ≠ .ended ∧
    (flying (.revoke 2 4 0x10000)).rowsOf 0x10000 = false ∧ (flying (.revoke 2 4 0x10000)).destWaits (fl (.revoke 2 4 0x10000)) 2 4 1 = false ∧ x0.wrote.getLsbD 4 = false) := by
  unfold Drained; decide +kernel

/-- A ring of two entries at scratchpad address 0, its entries at 256, with COUNT `t` published and one entry begun or none. -/
def par0 : RingPar := ⟨1, 256, 0, 0⟩
def ring0 (t : Word) (b : List Begun) : Ring := ⟨1, 0, t, 0, 0, false, 1, 0, 0, [(t, par0)], [], b, 0⟩
def headed : Team := { tm0 with scratch := memPutL 8 (leBytes 8 (1 + 256 * 2 ^ 32)) [] }
def publish0 : FlightOp := .publish 2 ⟨0, 0x100000, ringPage⟩ 2 .die
def longHead : Team := { tm0 with scratch := memPutL 8 (leBytes 8 (12 + 256 * 2 ^ 32)) [] }
def ringState (r : Ring) (f : List Flight) : State := { ringed with teams := [headed], rings := [r], flights := f, launches := [launch0] }

/-- RingPublications: counts within and beyond the ring's two entries, and the count it has. -/
theorem witness_RingPublications : Lonely (ringState (ring0 0 []) [ac publish0]) 7 ∧ (let s := ringState (ring0 0 []) [ac publish0]
      s.flight? 7 = some (ac publish0) ∧ s.unacted (ac publish0) 2 = false ∧ (s.course 0).running = none ∧ (s.course 0).deltas = [] ∧ (s.course 0).dirty = [] ∧
      CanonicalMemory s ∧ courseOf headed.core < s.courses.length ∧ sortedCells longHead.scratch = true ∧ memGetN longHead.scratch 8 4 % 16 = 12 ∧
      sortedCells headed.scratch = true ∧ s.team? 1 = some headed ∧ s.ringHeader 1 ⟨0, 0x100000, ringPage⟩ = some 0 ∧ s.ring? 1 0 = some (ring0 0 []) ∧
      memGetN headed.scratch 8 4 % 16 = 1) ∧ ((2 : Word) - 0).toNat ≤ 2 ^ 1 ∧ 2 ^ 1 < ((3 : Word) - 0).toNat ∧ ((ring0 0 []).cons, (ring0 0 []).pubs) = (0, []) :=
  ⟨lonely_of publish0 (by intro _ _ _; exact nofun) _ rfl (by decide +kernel), by unfold CanonicalMemory; decide +kernel⟩

/-- A LINEAR entry of 16 bytes from scratchpad 1024 to scratchpad 2048. -/
def entry0 : BitVec 256 := BitVec.ofNat 256 (1024 + 2048 * 2 ^ 64 + 16 * 2 ^ 208 + 0xFF * 2 ^ 232 + 2 ^ 248 + 2 ^ 250)
def e0 : Entry := Entry.ofBits entry0
def begun0 (e : Option (BitVec 256)) : Begun := ⟨0, par0, e, 0, none, []⟩
def ready0 : State := ringState (ring0 1 []) []
def begunState (e : Option (BitVec 256)) : State := ringState (ring0 1 [begun0 e]) []

/-- CopyEntries: an entry that may begin; one begun that can be moved and one beyond the scratchpad. -/
theorem witness_CopyEntries : (headed.carve = none ∧ ready0.beginsFirst (ring0 1 []) = false ∧
      (∀ q ∈ (begunState none).rings, q.tid = 1 → q.base ≠ 0 → q.begun = []) ∧ ({ headed with carve := some (1, 0) } : Team).carve = some (1, 0)) ∧
    (∀ e, (begunState e).ring? 1 0 = some (ring0 1 [begun0 e]) ∧ (begunState e).team? 1 = some headed) ∧
    (ready0.ring? 1 0 = some (ring0 1 []) ∧ ready0.team? 1 = some headed ∧ ready0.launch? headed.seq = some launch0 ∧
      launch0.state = .admitted ∧ headed.saving = false ∧ (ring0 1 []).cons ≠ (ring0 1 []).target ∧ (ring0 1 []).covering = par0 ∧ 256 + 32 ≤ ready0.scratchSize 1 ∧
      (Entry.ofBits (BitVec.ofNat 256 (leNat (readN (ready0.scratchGet 1) 256 32)))).kind ≠ 2 ∧
    (e0.kind = 0 ∧ e0.ssp = 1 ∧ e0.dsp = 1 ∧ e0.stamp = 0 ∧ e0.latch = 0xFF ∧ e0.x = 16 ∧ e0.src + e0.x ≤ (begunState (some entry0)).scratchSize 1 ∧
      e0.dst + e0.x ≤ (begunState (some entry0)).scratchSize 1 ∧ (begunState (some entry0)).scratchSize 1 < 2 ^ 32 ∧ 0 + 32 ≤ e0.dst) ∧
    sortedCells headed.scratch = true) := by
  exact ⟨by decide +kernel, fun _ => ⟨rfl, rfl⟩, by decide +kernel⟩

/-- A store of VALID, LEN 0 and SOFF 0 to mapping entry 3, an entry being unbound, and tables that map address 0 at 64 KiB. -/
def binding0 : FlightOp := .binding 2 ⟨0x200, 0x2F_0200_0030, page0⟩ 1 .die
def unbinding0 (ring : Bool) : State := { m0 with bindings := [⟨3, 1, 0, 1, ring, true⟩], tlb := [⟨0, 0, ringPage⟩] }
def tables0 : Bytes := memPutL 0x8000 (leBytes 8 0x10001) (memPutL 0x10000 (leBytes 8 0x20001) (memPutL 0x20000 (leBytes 8 0x30001) (memPutL 0x30000 (leBytes 8 0x10001F) [])))
def walkedPage : Page := ⟨0x100000, true, true, true, false, false, false, 0, 0, 0, false⟩
def walked : State := { m0 with troot := 0x8000, trootSet := true, tlb := [], mem := tables0, misses := [⟨0, [0], .page walkedPage⟩] }

/-- WindowsAndWalks. -/
theorem witness_WindowsAndWalks : Lonely (accepted binding0) 7 ∧ (let s := accepted binding0;
      s.flight? 7 = some (ac binding0) ∧ (0x2F_0200_0030 : Nat) = s.areas.sm + 16 * 3 ∧ s.bindings = [] ∧ s.keys = [] ∧ s.faults = [] ∧ s.unacted (ac binding0) 2 = false ∧
      (s.course 0).running = none ∧ (s.course 0).deltas = [] ∧ (s.course 0).dirty = [] ∧
      s.place ⟨0x200, 0x2F_0200_0030, page0⟩ = .cached ∧ s.team? 1 = some tm0 ∧ 0 + 1 ≤ tm0.scu) ∧
    (∀ ring, (unbinding0 ring).bindings.find? (fun b => b.entry == 3 && b.unbinding) = some ⟨3, 1, 0, 1, ring, true⟩ ∧ ((unbinding0 ring).team? 1).isSome = true ∧
      (unbinding0 ring).ring? 1 0 = none ∧ (unbinding0 ring).flights = []) ∧
    (walked.misses = [⟨(0x1234 : DWord).toNat / 65536, [0], .page walkedPage⟩] ∧ walked.missWait = [] ∧ walked.afresh = [] ∧ walked.tlb = [] ∧ walked.walkCache.length ≤ 4093 ∧
    walked.walk 0x1234 = .ok ⟨0x100000, true, true, true, false, false, false, 0, 0, 0, false⟩ ∧ walked.reserved 0x101234 = false ∧
    (match walked.walk 0x200000 with | .error _ => true | _ => false) = true) :=
  ⟨lonely_one binding0 (by intro _ _ _; exact nofun), by decide +kernel, by decide +kernel, by decide +kernel⟩

/-- Queue 0, fed by QP 3, enabled or not, with a descriptor in memory that says so; its doorbell; the system unit reaches the same page. -/
def queue0 (en dev : Bool) : Queue := ⟨0, 0, 0, 0, 3, 4, dev, en, false, false, 0, 0, 1, 0⟩
def queued (en dev : Bool) : State := { m0 with qps := [⟨3, []⟩], trootSet := true, queues := m0.queues.set 0 (queue0 en dev), mem := memPutL 0x2F_0000_0000 (leBytes 32 (4 * 2 ^ 128 + 3 * 2 ^ 160)) [] }
def bell0 : Doorbell := ⟨3, 16, 0, 1⟩
/-- A queue with a record to accept. -/
def offered : State := { queued true false with queues := m0.queues.set 0 { queue0 true false with produced := 1 }, tlb := [⟨0, 0, page0⟩, ⟨32, 0, page0⟩] }

/-- A queue between an ABORT and the end of its enablement. -/
def abortedQueue : State := { queued true false with queues := m0.queues.set 0 { queue0 true false with aborting := true } }

/-- The image of a kernel of one strand and sixteen registers at address 0. -/
def imaged : State := { offered with mem := memPutL 0x100000 (leBytes 64 (0x31494B5A + 2 ^ 32 + 2 ^ 48 + 4096 * 2 ^ 64 + 4096 * 2 ^ 96 + 64 * 2 ^ 256) ++
  leBytes 64 (4096 * 2 ^ 32 + 16 * 2 ^ 72 + 2 ^ 96 + 2 ^ 160 + 8 * 2 ^ 256)) [] }
def good0 : Command := Command.ofNat 1

/-- LowestCause: a malformed record, one whose header is not there, and one that passes R80, on no course and on one, with a bad dependence and without. -/
theorem witness_LowestCause : ((Command.ofNat 0).opc ≠ 1 ∧ offered.imageHeader 0 = none) ∧
    (good0.opc = 1 ∧ good0.image = 0 ∧ good0.ctxAddr = 0 ∧ good0.indirect = false ∧ good0.tslots = 0 ∧ good0.extAddr = 0 ∧ good0.kdesc = 0 ∧ good0.depEn = false) ∧
    (match imaged.imageHeader 0 with
      | some h => decide (0 < h.kcount) && (imaged.descriptor 0 h 0).any (fun k => k.passes h && k.kind == 0 && fitsEmpty 1 good0 k)
      | none => false) = true ∧
    ((Command.ofNat 1025).opc = 1 ∧ (Command.ofNat 1025).depEn = true ∧ (Command.ofNat 1025).depSeq = 0) := by decide +kernel

/-- QueuesAndAcceptance: a SUBMIT that is taken, one behind, one too far ahead and one that asks for nothing; one to a disabled queue, one to a queue fed by device
code and one after an ABORT; ENABLE; DISABLE and ABORT with a launch and without; a record that can be read and one that cannot. -/
theorem witness_QueuesAndAcceptance : ((bell0.producer - 2 : Word).getLsbD 31 = true ∧ 2 ^ (queue0 true false).caLog2 < ((17 : Word) - 0).toNat ∧
      ((17 : Word) - 0).getLsbD 31 = false ∧ ¬(0 < ((0 : Word) - 0).toNat) ∧ (queue0 true false).caLog2 = 4 ∧ ({ offered with tlb := [] } : State).sysRead 0 64 = none) ∧ (∀ en dev, Arrives (queued en dev) bell0 ∧ (queued en dev).queue 0 = queue0 en dev) ∧
    Arrives (abortedQueue) bell0 ∧ ((abortedQueue.queue 0).enabled, (abortedQueue.queue 0).devOk, (abortedQueue.queue 0).aborting) = (true, false, true) ∧
    ((bell0.producer - (queue0 true false).produced).getLsbD 31 = false ∧ (bell0.producer - 0).toNat ≤ 2 ^ 4 ∧ 0 < (bell0.producer - 0).toNat) ∧
    ((queued false false).homeN 0x2F_0000_0000 32 / 2 ^ 128 % 16 = 4 ∧ (queued false false).homeN 0x2F_0000_0000 32 / 2 ^ 192 = 0 ∧
      (queued false false).homeN 0x2F_0000_0000 32 / 2 ^ 160 % 2 ^ 24 = 3 ∧ canonical 0 = true) ∧
    (launch0.queue = 0 ∧ launch0.state = .admitted ∧ ([launch0].map (·.seq)).Nodup) ∧ (queued true false).launches = [] ∧
    offered.areas = State.reset.areas ∧ offered.queues.length = 64 ∧ offered.acceptTurn = some 0 ∧ offered.launches = [] ∧ (offered.sysRead 0 64).isSome = true := by
  refine ⟨by decide +kernel, fun en dev => ?_, ?_⟩
  · unfold Arrives; cases en <;> cases dev <;> decide +kernel
  · unfold Arrives; decide +kernel

/-- A launch of one gang to be placed on course 0, from a queue, accepted or admitted. -/
def placing (st : LState) (n : Nat) : Launch := { launch0 with state := st, count := some n, placed := 0 }
def turned (st : LState) (n : Nat) : State := { State.reset with launches := [placing st n] }

/-- AdmissionPlacesGangs: an accepted launch with a gang and with none, and an admitted one with a gang to place. -/
theorem witness_AdmissionPlacesGangs : (∀ p ∈ [(LState.accepted, 1), (.accepted, 0), (.admitted, 1)],
      (turned p.1 p.2).turnOrder = [placing p.1 p.2] ∧ (turned p.1 p.2).launch? 5 = some (placing p.1 p.2)) ∧ (placing .accepted 1).queue < 64 ∧ (turned .accepted 1).areas = State.reset.areas ∧
    (placing .accepted 0).courses &&& ~~~(turned .accepted 0).resumeHolds (placing .accepted 0).prio ≠ 0 ∧ (placing .accepted 0).marked = false ∧
    ((turned .accepted 1).placeGang (placing .accepted 1) 0 ((turned .accepted 1).resumeHolds 0)).isSome = true ∧
    ((turned .accepted 0).queue 0).disabling = false ∧ ((turned .admitted 1).placeGang (placing .admitted 1) 0 0).isSome = true := by decide +kernel

/-- A team whose strand has ended, and launches with nothing left. -/
def calm (l : Launch) (st : SState) : State := { with_ { x0 with state := st } with bundles := [], launches := [l] }
def retiring : State := { State.reset with launches := [launch0] }
theorem calmCourses : ∀ x ∈ m0.courses, x.running = none ∧ x.deltas = [] ∧ x.dirty = [] ∧ x.rounds = [] := by decide +kernel

/-- TeamsAndLaunchesEnd. -/
theorem witness_TeamsAndLaunchesEnd : (∀ l st, Calm (calm l st)) ∧ Calm retiring ∧ (calm launch0 .ended).team? 1 = some tm0 ∧ (∀ x ∈ (calm launch0 .ended).strands, x.state = .ended) ∧
    (∀ x ∈ (calm launch0 .ended).courses, ∀ r ∈ x.rounds, r.tid ≠ 1) ∧
    (retiring.launch? 5 = some launch0 ∧ launch0.state = .admitted ∧ retiring.working launch0 = false ∧ launch0.marked = false ∧ launch0.queue < 64) ∧
    (calm { launch0 with state := .dying 9 } .ready).launch? 5 = some { launch0 with state := .dying 9 } ∧ (m0.teams.map (·.tid)).Nodup := by
  refine ⟨fun l st => ⟨rfl, fun x h => ⟨(calmCourses x h).1, (calmCourses x h).2.1, (calmCourses x h).2.2.1⟩⟩,
    ⟨rfl, fun x h => ⟨(calmCourses x h).1, (calmCourses x h).2.1, (calmCourses x h).2.2.1⟩⟩, rfl, by decide +kernel, fun x h r hr => ?_, by decide +kernel⟩
  rw [(calmCourses x h).2.2.2] at hr; exact nomatch hr

/-! ### The context area -/

/-- A page of 2 MiB through which the system unit reaches the context area of a launch. -/
def areaPage : Page := ⟨0x200000, true, true, true, true, true, false, 3, 0, 0, true⟩
/-- What the area's writes keep. -/
def Reach (s : State) (ts : List Team) : Prop :=
  s.tlb = [⟨0, 0, page0⟩, ⟨32, 0, areaPage⟩] ∧ s.dieId = 0 ∧ s.teams = ts ∧ s.bindings = [] ∧ s.rings = [] ∧ s.afresh = []

theorem reach_check (s : State) (ts : List Team) (h : Reach s ts) (va : DWord) (ha : va.toNat < 2 ^ 21) (k : BitVec 3) (ok : Page → Bool)
    (hok : ok areaPage = true) : s.check unitCourse va 1 k ok = .ok ⟨va, 0x200000 + va.toNat, areaPage⟩ := by
  have hc : canonical va = true := by
    have : va.extractLsb' 55 9 = 0 := by
      apply BitVec.eq_of_toNat_eq; simp [BitVec.extractLsb'_toNat, Nat.shiftRight_eq_div_pow]; omega
    simp [canonical, this]
  have ht : s.translate unitCourse va = .ok areaPage := by
    have : va.toNat / 65536 / 32 = 0 := by omega
    simp [State.translate, State.tlbHit, unitsOf, TlbEntry.holds, h.1, h.2.2.2.2.2, unitCourse, areaPage, this]
  have hr : s.reserved (0x200000 + va.toNat) = false := by
    have a : (0x200000 + va.toNat) % 2 ^ 51 = 0x200000 + va.toNat := Nat.mod_eq_of_lt (by omega)
    have b : (0x200000 + va.toNat) / 2 ^ 51 = 0 := by omega
    simp only [State.reserved, a, b, h.2.1, gddrBytes]
    simp; omega
  have hp : areaPage.addr va = 0x200000 + va.toNat := by
    simp [Page.addr, areaPage]; omega
  simp [State.check, hc, ht, hok, hr, hp, Nat.mod_one]

theorem reach_put (s : State) (ts : List Team) (h : Reach s ts) (a : Acc) (bs : List Byte) (hp : a.page.home = 3) : Reach (s.sysPut a bs) ts := by
  simpa [Reach, State.sysPut, State.place, hp, State.agentMem, State.noteWrite, State.memWrite, State.touch] using h

theorem reach_areaWrite (ts : List Team) (bs : List Byte) (s : State) (h : Reach s ts) (va : DWord) (hb : va.toNat + bs.length ≤ 2 ^ 21) :
    ∃ u, s.areaWrite va bs = some u ∧ Reach u ts := by
  suffices ∀ (l : List (Byte × Nat)) (s : State), Reach s ts → (∀ e ∈ l, e.2 < bs.length) → ∃ u, l.foldl (fun (r : Option State) (e : Byte × Nat) =>
      r.bind (fun s => match s.check unitCourse (va + BitVec.ofNat 64 e.2) 1 accWrite (·.write) with
        | .ok a => some (s.sysPut a [e.1])
        | .error _ => none)) (some s) = some u ∧ Reach u ts from
    this bs.zipIdx s h (fun e he => by have := List.mem_zipIdx he; omega)
  intro l
  induction l with
  | nil => exact fun s h _ => ⟨s, rfl, h⟩
  | cons e l ih =>
    intro s h he
    have hl := he e (List.mem_cons_self ..)
    have hv : (va + BitVec.ofNat 64 e.2).toNat < 2 ^ 21 := by
      rw [BitVec.toNat_add, BitVec.toNat_ofNat]; omega
    rw [List.foldl_cons]
    simp only [Option.bind_some, reach_check s ts h _ hv accWrite (·.write) rfl]
    exact ih _ (reach_put s ts h _ _ rfl) (fun x hx => he x (List.mem_cons_of_mem _ hx))

theorem reach_parts (ts : List Team) (l : Launch) (off : Nat) (ps : List (Nat × List Byte)) (s : State) (h : Reach s ts)
    (hp : ∀ p ∈ ps, (l.ctx (off + p.1)).toNat + p.2.length ≤ 2 ^ 21) :
    ∃ u, ps.foldl (fun (r : Option State) (p : Nat × List Byte) => r.bind (fun s => s.areaWrite (l.ctx (off + p.1)) p.2)) (some s) = some u ∧
      Reach u ts := by
  induction ps generalizing s with
  | nil => exact ⟨s, rfl, h⟩
  | cons p ps ih =>
    obtain ⟨u, e, hu⟩ := reach_areaWrite ts p.2 s h _ (hp p (List.mem_cons_self ..))
    rw [List.foldl_cons, Option.bind_some, e]
    exact ih u hu (fun q hq => hp q (List.mem_cons_of_mem _ hq))

theorem length_leBytes (n v : Nat) : (leBytes n v).length = n := by
  induction n generalizing v with
  | zero => rfl
  | succ n ih => simp [leBytes, ih]

theorem length_flatMap_of {α β : Type} (f : α → List β) (n : Nat) (h : ∀ x, (f x).length = n) (l : List α) : (l.flatMap f).length = n * l.length := by
  induction l with
  | nil => rfl
  | cons x l ih => rw [List.flatMap_cons, List.length_append, h, ih, List.length_cons, Nat.mul_succ, Nat.add_comm]

/-- The parts of a team's image lie in the first 16 KiB of its slot, when the team has one strand with at most 256 registers and no
scratchpad. -/
theorem image_small (s : State) (t : Team) (rank : Strand → Nat) (hr : t.kernel.regs ≤ 256) (hs : t.scu = 0)
    (hn : (s.teamStrands t.tid).length = 1) : ∀ p ∈ s.teamImage t rank, p.1 + p.2.length ≤ 16384 := by
  have hw (ws : List Word) : (wordsBytes ws).length = 4 * ws.length := length_flatMap_of _ 4 (fun _ => length_leBytes ..) ws
  have hring : (t.keyrings.toList.flatMap Keyring.image).length = 256 * 16 := by
    refine (length_flatMap_of Keyring.image 256 (fun _ => length_leBytes ..) _).trans ?_
    rw [Vector.length_toList]
  have hb : ((s.teamStrands t.tid).flatMap (fun x => s.strandBlock x (rank x))).length = 256 * 1 := by
    rw [length_flatMap_of (fun x => s.strandBlock x (rank x)) 256 (fun _ => length_leBytes ..), hn]
  have hg : ((s.teamStrands t.tid).flatMap (fun x => wordsBytes (x.g.toList.take t.kernel.regs))).length ≤ 1024 := by
    obtain ⟨x, hx⟩ := List.length_eq_one_iff.mp hn
    simp only [hx, List.flatMap_cons, List.flatMap_nil, List.append_nil, hw, List.length_take]; omega
  have ho : regsOff t.kernel 1 ≤ 8640 := by unfold regsOff stallOff; split <;> omega
  have hq : scratchOff t.kernel 1 ≤ 9728 := by unfold scratchOff; omega
  intro p hp
  simp only [State.teamImage, List.mem_append, List.mem_cons, List.not_mem_nil, or_false, hn, hs] at hp
  rcases hp with ((rfl | rfl | rfl | rfl) | hp) | rfl | rfl
  · simp [length_leBytes]
  · simp [hw]
  · simp only [hring]; omega
  · simp only [hb]; omega
  · split at hp
    · exact nomatch hp
    · rw [List.mem_singleton] at hp; subst hp; dsimp only
      rw [length_flatMap_of _ 128 (fun x => ?_), hn]
      · unfold stallOff; omega
      · split
        · exact length_leBytes ..
        · exact List.length_replicate
  · dsimp only; omega
  · simp only [readN, List.length_map, List.length_range]; omega

theorem wrote (l : Launch) (t : Team) (rank : Strand → Nat) (u v : State) (hi : u.imageSlot l = some 0)
    (hlim : ¬(l.tsize < scratchOff t.kernel (u.teamStrands t.tid).length + 4096 * t.scu))
    (f : (u.teamImage t rank).foldl (fun (r : Option State) (p : Nat × List Byte) => r.bind (fun s => s.areaWrite (l.ctx (l.slotOff 0 + p.1)) p.2))
      (some u) = some v) : writeTeams l rank [t] u = some (v, [0]) := by
  rw [writeTeams]
  unfold State.writeTeam
  rw [hi]
  simp only [hlim, if_false]
  rw [f]
  rfl

/-- Saving one team of a launch whose context area is at address 0, beside another team of the launch on the same course: the area is written
whole. -/
theorem context_written (s : State) (l : Launch) (t : Team) (ts : List Team) (h : Reach s ts) (hl : l.cmd.ctxAddr = 0) (hc : l.courseList.length = 1)
    (hb : t.block = 0) (hr : t.kernel.regs ≤ 256) (hs : t.scu = 0) (ht : l.tsize = 65536)
    (hi : (s.writeHeader l).any (fun u =>
      u.imageSlot l == some 0 && (u.teamStrands t.tid).length == 1) = true)
    (hrs : s.roundsOf l [t] = []) (ho : ts.any (fun u => u.seq == l.seq && courseOf u.core == courseOf t.core && !([t].any (fun v => v.tid == u.tid))) = true) :
    ∃ u slots, s.writeContext l [t] = some (u, slots) := by
  have ctx (n : Nat) (hn : n < 2 ^ 21) : (l.ctx n).toNat = n := by simp [Launch.ctx, hl]; omega
  obtain ⟨u, e, hu⟩ := reach_areaWrite ts (leBytes 56 (l.tsize + l.courseList.length * 2 ^ 32)) s h (l.ctx 8)
    (by rw [ctx 8 (by omega), length_leBytes]; omega)
  rw [State.writeHeader, e] at hi
  simp only [Option.any_some, Bool.and_eq_true, beq_iff_eq] at hi
  let rank : Strand → Nat := fun x =>
    ((s.strands.filter (fun x => [t.tid].contains x.tid)).filter (fun y => decide (y.age < x.age))).length
  obtain ⟨v, f, hv⟩ := reach_parts ts l (l.slotOff 0) (u.teamImage t rank) u hu
    (fun p hp => by
      have := image_small u t _ hr hs hi.2 p hp
      have : l.slotOff 0 = 0x110000 := by simp [Launch.slotOff, blockOff, hc]
      rw [this, ctx _ (by omega)]; omega)
  have hlim : ¬(l.tsize < scratchOff t.kernel (u.teamStrands t.tid).length + 4096 * t.scu) := by
    simp only [hi.2, hs, ht]; unfold scratchOff regsOff stallOff; split <;> omega
  have hw : writeTeams l rank [t] u = some (v, [0]) := wrote l t rank u v hi.1 hlim f
  have hd : [(courseOf t.core, t.block)].eraseDups = [(courseOf t.core, t.block)] := by
    simp [List.eraseDups, List.eraseDupsBy, List.eraseDupsBy.loop]
  obtain ⟨w, g, hg⟩ := reach_areaWrite ts (leBytes 4 ((v.blockRounds l.seq t.block).length + 0)) v hv (l.ctx (blockOff t.block + 0x10400))
    (by rw [ctx _ (by simp only [blockOff, hb]; omega), length_leBytes]; simp only [blockOff, hb]; omega)
  have hwr : v.writeRounds l [] [t.block] = some w := by
    simpa [State.writeRounds, State.writeCount] using g
  refine ⟨w, [0], ?_⟩
  simp only [State.writeContext, State.writeHeader, blocksOf, List.map_cons, List.map_nil, e, Option.bind_some, hd, hrs]
  rw [hw, Option.bind_some, hwr, Option.bind_some, leaveBlocks, State.leaves, hg.2.2.1, if_pos (by rw [ho]; rfl)]
  rfl

theorem reach_read (s : State) (ts : List Team) (h : Reach s ts) (va : DWord) (n : Nat) (hb : va.toNat + n ≤ 2 ^ 21) :
    s.sysRead va n = some (readN (memGet s.mem) (0x200000 + va.toNat) n) := by
  suffices ∀ l : List Nat, (∀ i ∈ l, i < n) → l.foldr (fun i r =>
      match r, s.check unitCourse (va + BitVec.ofNat 64 i) 1 accRead (·.read) with
      | some bs, .ok a => some (s.sysByte a :: bs)
      | _, _ => none) (some []) = some (l.map (fun i => memGet s.mem (0x200000 + va.toNat + i))) from
    this (List.range n) (fun i hi => List.mem_range.mp hi)
  intro l
  induction l with
  | nil => exact fun _ => rfl
  | cons i l ih =>
    intro hl
    have hi := hl i (List.mem_cons_self ..)
    have hv : (va + BitVec.ofNat 64 i).toNat = va.toNat + i := by
      rw [BitVec.toNat_add, BitVec.toNat_ofNat]; omega
    rw [List.foldr_cons, ih (fun j hj => hl j (List.mem_cons_of_mem _ hj)), reach_check s ts h _ (by omega) accRead (·.read) rfl]
    simp [State.sysByte, State.place, areaPage, hv, Nat.add_assoc]

/-- Memory with TSIZE 65,536 and one course in the context header, and the launch's number and one strand in the header of image slot 0. -/
def oneStrand : Bytes := [(0x20000A, 1), (0x20000C, 1), (0x310008, 5), (0x310014, 1)]

theorem oneStrand_above (a n : Nat) (h : 0x310014 < a) (hb : a + n ≤ 0x400000) : readN (memGet oneStrand) a n = List.replicate n 0 := by
  refine List.eq_replicate_iff.mpr ⟨by simp [readN], fun b hm => ?_⟩
  simp only [readN, List.mem_map, List.mem_range] at hm
  obtain ⟨i, hi, rfl⟩ := hm
  rw [memGet, memDefault]
  have h1 : (0x310014 : Nat) ≠ a + i := by omega
  have h2 : (0x310008 : Nat) ≠ a + i := by omega
  have h3 : (0x20000A : Nat) ≠ a + i := by omega
  have h4 : (0x20000C : Nat) ≠ a + i := by omega
  simp [oneStrand, cellGet, h1, h2, h3, h4]; omega

theorem leNat_zeros (n : Nat) : leNat (List.replicate n 0) = 0 := by
  induction n with
  | zero => rfl
  | succ n ih => rw [List.replicate_succ, leNat, ih]; rfl

theorem head_oneStrand : TeamHeader.ofNat (leNat (readN (memGet oneStrand) (0x200000 + 0x110000) 36)) = ⟨5, 0, 0, 1, 0, 0, 0, 0, 0, 0⟩ := by
  decide +kernel

theorem savedOff_oneStrand (s : State) (ts : List Team) (h : Reach s ts) (hm : s.mem = oneStrand) (l : Launch) (hl : l.cmd.ctxAddr = 0) :
    s.savedOff l 0 = 0x110000 := by
  have : (l.ctx 8).toNat = 8 := by simp [Launch.ctx, hl]
  rw [State.savedOff, reach_read s ts h _ 8 (by omega), hm, this]
  have : blockOff (leNat ((readN (memGet oneStrand) (0x200000 + 8) 8).drop 4)) + leNat ((readN (memGet oneStrand) (0x200000 + 8) 8).take 4) * 0 = 0x110000 := by
    decide +kernel
  exact this

theorem head_read (s : State) (ts : List Team) (h : Reach s ts) (hm : s.mem = oneStrand) (l : Launch) (hl : l.cmd.ctxAddr = 0) :
    s.imageHead l 0 = some ⟨5, 0, 0, 1, 0, 0, 0, 0, 0, 0⟩ := by
  have c : (l.ctx 0x110000).toNat = 0x110000 := by simp [Launch.ctx, hl]
  rw [State.imageHead, savedOff_oneStrand s ts h hm l hl, reach_read s ts h _ 36 (by omega), hm, c, Option.map_some]
  exact congrArg some head_oneStrand

theorem loaded (s : State) (l : Launch) (scope ages core : Nat) (t : SavedTeam) (h : TeamHeader) (k : Kernel) (sr kr bl rg sc : List Byte)
    (hh : s.imageHead l t.slot = some h) (hk : l.kernelAt t.kind h.kdesc = k) (h1 : s.imagePart l t.slot 0x100 0x1000 = some sr)
    (h2 : s.imagePart l t.slot 0x1000 0x1000 = some kr) (h3 : s.imagePart l t.slot 0x2000 (256 * h.strands) = some bl)
    (h4 : s.imagePart l t.slot (regsOff k h.strands) (4 * h.strands * k.regs) = some rg)
    (h5 : s.imagePart l t.slot (scratchOff k h.strands) (4096 * h.scu) = some sc) :
    let p : ImageParts := ⟨sr, kr, bl, if k.kind = 0 then none else s.imagePart l t.slot (stallOff h.strands) (128 * h.strands), rg⟩
    let u : State := { s with nextId := s.nextId + h.strands }
    let xs := u.loadStrands t k h scope core s.nextId ages p
    ¬xs.length < h.strands → s.loadTeam l scope ages t core = u.putLoaded l t.slot (l.loadedTeam t k h core s.nextId p sc) xs := by
  unfold State.loadTeam
  generalize s.imagePart l t.slot = f at h1 h2 h3 h4 h5 ⊢
  intro p u xs hn
  rw [hh, Option.bind_some, hk]
  simp only [h1, h2, h3, h4, h5]
  exact if_neg hn

/-- Restoring a team of one strand that was ready, from a context area whose other bytes are 0. -/
theorem team_restored (s : State) (l : Launch) (scope ages core : Nat) (t : SavedTeam) (y : SavedStrand) (ts : List Team) (h : Reach s ts) (hm : s.mem = oneStrand)
    (hl : l.cmd.ctxAddr = 0) (hs : t.slot = 0) (hy : t.strands = [y]) (hi : y.strandId = 0) (he : y.ended = false)
    (hk : (l.kernelOf t.kind).regs ≤ 256) (hd : (l.kernelOf t.kind).index = 0) :
    ∃ u, s.loadTeam l scope ages t core = some u ∧ u.bindings = [] ∧ u.rings = [] ∧ ∃ tm, u.teams = ts ++ [tm] ∧ tm.tid = t.tid ∧
      tm.seq = l.seqAt 5 ∧ tm.teamId = 0 := by
  have ctx (n : Nat) (hn : n < 2 ^ 21) : (l.ctx n).toNat = n := by simp [Launch.ctx, hl]; omega
  have so := savedOff_oneStrand s ts h hm l hl
  have rd (off m : Nat) (hb : 0x110000 + off + m ≤ 2 ^ 21) (ho : 0x110000 + off < 2 ^ 21) (hz : 0x14 < off) :
      ∃ bs, s.imagePart l t.slot off m = some bs ∧ ∀ a n, leNat ((bs.drop a).take n) = 0 :=
    ⟨_, reach_read s ts h _ _ (by rw [hs, so, ctx _ (by omega)]; omega), fun a n => by
      rw [hm, hs, so, ctx _ (by omega), oneStrand_above _ _ (by omega) (by omega), List.drop_replicate, List.take_replicate, leNat_zeros]⟩
  have un : s.imageHead l t.slot = some ⟨5, 0, 0, 1, 0, 0, 0, 0, 0, 0⟩ := by rw [hs]; exact head_read s ts h hm l hl
  have ke : l.kernelAt t.kind 0 = l.kernelOf t.kind := by simp [Launch.kernelAt, hd]
  have ro : regsOff (l.kernelOf t.kind) 1 ≤ 8640 := by unfold regsOff stallOff; split <;> omega
  have rl : 8448 ≤ regsOff (l.kernelOf t.kind) 1 := by unfold regsOff stallOff; split <;> omega
  have so' : scratchOff (l.kernelOf t.kind) 1 ≤ 9728 := by unfold scratchOff; omega
  have sl : 8448 ≤ scratchOff (l.kernelOf t.kind) 1 := by unfold scratchOff; omega
  obtain ⟨b1, h1, -⟩ := rd 0x100 0x1000 (by omega) (by omega) (by omega)
  obtain ⟨b2, h2, -⟩ := rd 0x1000 0x1000 (by omega) (by omega) (by omega)
  obtain ⟨b3, h3, z3⟩ := rd 0x2000 (256 * 1) (by omega) (by omega) (by omega)
  obtain ⟨b5, h5, -⟩ := rd (regsOff (l.kernelOf t.kind) 1) (4 * 1 * (l.kernelOf t.kind).regs) (by omega) (by omega) (by omega)
  obtain ⟨b6, h6, -⟩ := rd (scratchOff (l.kernelOf t.kind) 1) (4096 * 0) (by omega) (by omega) (by omega)
  have hx (u : State) (stalls : Option (List Byte)) : ∃ x, u.loadStrands t (l.kernelOf t.kind) ⟨5, 0, 0, 1, 0, 0, 0, 0, 0, 0⟩ scope core s.nextId ages ⟨b1, b2, b3, stalls, b5⟩ = [x] ∧ x.state = .ready := by
    have hya : t.strandAt s.nextId 0 = y := by simp [SavedTeam.strandAt, hy, hi]
    have : ∀ c x img, u.blockState c y scope 0 x img = some .ready := fun c x img => by
      have z : blockField 0 280 8 = 0 := by rw [blockField, Nat.zero_div, Nat.zero_mod]
      simp [State.blockState, z, he]
    unfold State.loadStrands
    simp only [List.range_one, List.filterMap_cons, List.filterMap_nil, hya, z3]
    unfold State.loadStrand
    simp only [this, Option.map_some]
    exact ⟨_, rfl, rfl⟩
  obtain ⟨x, hx, hr⟩ := hx { s with nextId := s.nextId + 1 } (if (l.kernelOf t.kind).kind = 0 then none else s.imagePart l t.slot (stallOff 1) (128 * 1))
  rw [loaded s l scope ages core t ⟨5, 0, 0, 1, 0, 0, 0, 0, 0, 0⟩ (l.kernelOf t.kind) b1 b2 b3 b5 b6 un ke h1 h2 h3 h5 h6 (by rw [hx]; exact Nat.lt_irrefl 1), hx]
  rw [State.putLoaded]
  have hcl (sc : Bytes) : x.compareLatch sc = x := by unfold Strand.compareLatch; rw [hr]
  simp only [List.map_cons, List.map_nil, List.foldl_cons, List.foldl_nil, hr, hcl]
  generalize htm : l.loadedTeam t _ _ _ _ _ _ = tm
  obtain ⟨u, e, hu⟩ := reach_areaWrite (ts ++ [tm]) [0] { s with nextId := s.nextId + 1, teams := s.teams ++ [tm], strands := s.strands ++ [x] }
    ⟨h.1, h.2.1, by rw [← h.2.2.1], h.2.2.2.1, h.2.2.2.2⟩ (l.ctx 0x110000) (by rw [ctx _ (by omega)]; exact Nat.le_of_ble_eq_true rfl)
  have o := savedOff_oneStrand { s with nextId := s.nextId + 1, teams := s.teams ++ [tm], strands := s.strands ++ [x] } (ts ++ [tm])
    ⟨h.1, h.2.1, by rw [← h.2.2.1], h.2.2.2.1, h.2.2.2.2⟩ hm l hl
  rw [hs, o]
  subst htm
  exact ⟨u, e, hu.2.2.2.1, hu.2.2.2.2.1, _, hu.2.2.1, rfl, rfl, rfl⟩

/-- A launch of two gangs, the first chosen for pre-emption with its strand in the PC table; an episode team whose strand waits for a record while a wave
waits; and the first gang saved. -/
def saveLaunch : Launch := { launch0 with count := some 2, placed := 2 }
def team1 : Team := { tm0 with saving := true, scu := 0 }
def team2 : Team := Team.fresh 9 5 1 0 .gang loadedKernel 0 0 1
def area0 : Bytes := memPutL 0x200000 (leBytes 8 0x120000) []
def tlb2 : List TlbEntry := [⟨0, 0, page0⟩, ⟨32, 0, areaPage⟩]
def savingState : State := { with_ { x0 with state := .ready } with teams := [team1, team2], bundles := [], launches := [saveLaunch], tlb := tlb2, mem := area0 }
def stallLaunch : Launch := { recLaunch 4 with courses := 1 }
def team3 : Team := { tm0 with kind := .node 0, scu := 0 }
def wave0 : Wave := ⟨5, .node 0 0, [0], [], [], 0, 0⟩
def stallStrand : Strand := { x0 with state := .recordStall ⟨0, none, 0, none, false, 0⟩ }
def stallState : State := { with_ stallStrand with teams := [team3, team2], bundles := [], launches := [stallLaunch], tlb := tlb2, mem := area0, timebase := 101, courses := m0.courses.set 0 { Course.reset with waves := [wave0] } }
def kept0 : SavedStrand := ⟨2, 0, false, false, none, none, 0, 1, none, none, 0, 0, 0, none, none, none, none, 0, 0, 0, (0, none)⟩
def savedTeam0 : SavedTeam := ⟨0, 0, 1, 0, .gang, Vector.replicate 16 Keyring.fresh, [kept0]⟩
def saved0 : Saved := ⟨5, 0, 0, false, [savedTeam0], [], []⟩
def savedState : State := { State.reset with launches := [saveLaunch], saved := [saved0], tlb := tlb2, mem := oneStrand }

/-- GangsAreSavedAndResumed: a gang and a stalled team whose context can be written. -/
theorem witness_GangsAreSaved : (savingState.launch? 5 = some saveLaunch ∧ saveLaunch.state = .admitted ∧
    savingState.teams.filter (fun t => t.seq == 5 && t.saving && (if t.kind = .gang then t.gangId == 0 else t.teamId == 0)) = [team1] ∧
    (∃ x ∈ savingState.strands, x.tid = team1.tid ∧ x.state ≠ .ended) ∧ savingState.drained 5 [1] = true) ∧
    ((stallState.course 0).waves = [wave0] ∧ stallState.extOf 5 = some (ext0 4) ∧ (ext0 4).waveTo < stallState.now - wave0.since ∧
    stallState.stalledTeam 0 5 = some team3 ∧ stallState.launch? 5 = some stallLaunch ∧ stallLaunch.state = .admitted ∧ stallState.drained 5 [1] = true) ∧
    ([team1].filterMap (fun t => ((savingState.beforeSave [1]).settleAll [team1]).team? t.tid) = [team1] ∧
      ((stallState.beforeSave [1]).settleAll [team3]).team? 1 = some team3) ∧
    (∃ u slots, ((savingState.beforeSave [1]).settleAll [team1]).writeContext saveLaunch [team1] = some (u, slots)) ∧
    (∃ u slots, ((stallState.beforeSave [1]).settleAll [team3]).writeContext stallLaunch [team3] = some (u, slots)) := by
  refine ⟨by decide +kernel, by decide +kernel, by decide +kernel, ?_, ?_⟩
  · have h : Reach ((savingState.beforeSave [1]).settleAll [team1]) [team1, team2] := by unfold Reach; decide +kernel
    exact context_written _ _ team1 [team1, team2] h (by decide +kernel) (by decide +kernel) rfl (by decide +kernel) rfl rfl (by decide +kernel) (by decide +kernel) (by decide +kernel)
  · have h : Reach ((stallState.beforeSave [1]).settleAll [team3]) [team3, team2] := by unfold Reach; decide +kernel
    exact context_written _ _ team3 [team3, team2] h (by decide +kernel) (by decide +kernel) rfl (by decide +kernel) rfl rfl (by decide +kernel) (by decide +kernel) (by decide +kernel)

theorem place_saved0 (k : Nat) (hk : k = 0) :
    savedState.free.2.placeSaved saveLaunch saved0 (saveLaunch.courseList.drop k ++ saveLaunch.courseList.take k) = some [(savedTeam0, 0)] := by
  subst hk; decide +kernel

/-- GangsAreSavedAndResumed, its third part. -/
theorem witness_GangsAreResumed : (savedState.launch? 5 = some saveLaunch ∧ saveLaunch.spilled = false ∧
    savedState.saved.find? (fun v => v.seq == 5 && v.gangId == 0) = some saved0 ∧ saveLaunch.mayResume saved0 = true ∧ saved0.rounds = [] ∧ saved0.flights = [] ∧
    (∀ st ∈ saved0.teams, ∀ y ∈ st.strands, y.answer = none ∧ y.granted ≠ some true) ∧ savedState.bindings = [] ∧ savedState.rings = []) ∧
    (let q := savedState.free;
      let k := q.1.toNat % max 1 saveLaunch.courseList.length;
      let gone : State := { q.2 with saved := savedState.saved.filter (fun w => !(w.seq == saved0.seq && w.gangId == saved0.gangId && w.teams.map (·.tid) == saved0.teams.map (·.tid))) };
      ∃ asg b u, q.2.placeSaved saveLaunch saved0 (saveLaunch.courseList.drop k ++ saveLaunch.courseList.take k) = some asg ∧
        loadBlocks saveLaunch ((asg.map (fun p => (p.1.block, courseOf p.2))).eraseDups) gone = some b ∧
        loadTeams saveLaunch (((q.2.savedBarrier saveLaunch saved0).map (·.1)).getD 0) b.nextId asg b = some u ∧ u.bindings = [] ∧ u.rings = [] ∧
        (q.2.savedBarrier saveLaunch saved0).map (·.2) = some 0 ∧
        (u.teams.find? (fun x => (saved0.teams.map (·.tid)).contains x.tid && x.seq == saveLaunch.seq && x.teamId == 0)).isSome = true) ∧
    savedState.savedBarrier saveLaunch { saved0 with teams := [{ savedTeam0 with kind := .node 0 }] } = none := by
  refine ⟨by decide +kernel, ?_, rfl⟩
  intro q k gone
  have hs : q.2.savedBarrier saveLaunch saved0 = some (0, 0) := by
    have := head_read q.2 [] ⟨rfl, rfl, rfl, rfl, rfl, rfl⟩ rfl saveLaunch (by decide +kernel)
    simp only [State.savedBarrier, saved0, List.filter_cons, List.filter_nil, List.filterMap_cons, List.filterMap_nil, beq_self_eq_true, if_true,
      show savedTeam0.kind = TKind.gang from rfl, show savedTeam0.slot = 0 from rfl, this, List.findSome?_cons]
  refine ⟨[(savedTeam0, 0)], gone, ?_⟩
  rw [hs]
  obtain ⟨u, e, hb, hr, tm, ht, h1, h2, h3⟩ := team_restored gone saveLaunch 0 gone.nextId 0 savedTeam0 kept0 [] ⟨rfl, rfl, rfl, rfl, rfl, rfl⟩ rfl
    (by decide +kernel) rfl rfl rfl rfl (by decide +kernel) (by decide +kernel)
  have hl : loadBlocks saveLaunch ([(savedTeam0, 0)].map (fun p => (p.1.block, courseOf p.2))).eraseDups gone = some gone := by
    have : ([(savedTeam0, 0)].map (fun p => (p.1.block, courseOf p.2))).eraseDups = [(0, 0)] := by decide +kernel
    have h : (!saveLaunch.claims) = true := by decide +kernel
    rw [this, loadBlocks, h, Bool.or_true, if_pos (Eq.refl true), loadBlocks]
  refine ⟨u, place_saved0 k (Nat.mod_one _), hl, ?_, hb, hr, rfl, ?_⟩
  · simp only [loadTeams, Option.map_some, Option.getD_some, e, Option.bind_some]
  · rw [ht, List.nil_append, List.find?_cons, h1, h2, h3]; rfl

/-! ### Backing pages -/

/-- Tables of one leaf, of a window of mapping entry 3 at address 0; the entry is being unbound. -/
def windowTables : Bytes := memPutL 0x8000 (leBytes 8 0x10001) (memPutL 0x10000 (leBytes 8 0x20001) (memPutL 0x20000 (leBytes 8 0x30001)
  (memPutL 0x30000 (leBytes 8 (0x10021F + 3 * 2 ^ 52)) [])))
def windowed : State := { unbinding0 true with troot := 0x8000, trootSet := true, mem := windowTables }

theorem flatMap_first {α : Type} (f : Nat → List α) (n : Nat) (h : ∀ i, 0 < i → i < n + 1 → f i = []) : (List.range (n + 1)).flatMap f = f 0 := by
  rw [List.range_succ_eq_map, List.flatMap_cons, List.flatMap_eq_nil_iff.mpr, List.append_nil]
  intro i hi
  obtain ⟨j, hj, rfl⟩ := List.mem_map.mp hi
  exact h _ (Nat.succ_pos j) (by have := List.mem_range.mp hj; omega)

/-- Where the tables list nothing, they read as 0. -/
theorem windowed_zero (p : Nat) (h : p < 0x40000) (hp : ∀ a ∈ [0x8000, 0x10000, 0x20000, 0x30000], p + 8 ≤ a ∨ a + 8 ≤ p) : windowed.homeN p 8 = 0 := by
  have e : readN windowed.home p 8 = List.replicate 8 0 := by
    refine List.eq_replicate_iff.mpr ⟨by simp [readN], fun b hm => ?_⟩
    simp only [readN, List.mem_map, List.mem_range] at hm
    obtain ⟨i, hi, rfl⟩ := hm
    simp only [List.mem_cons, List.not_mem_nil, or_false, forall_eq_or_imp, forall_eq] at hp
    have m : windowed.mem = [(32768, 1), (32770, 1), (65536, 1), (65538, 2), (131072, 1), (131074, 3), (196608, 31), (196609, 2), (196610, 16), (196614, 48)] := by decide +kernel
    have d : windowed.dieCache = [] ∧ windowed.dieClean = [] := by decide +kernel
    have g (a : Nat) (v : Byte) (r : Bytes) (n : a ≠ p + i) (h : cellGet r (p + i) = none) : cellGet ((a, v) :: r) (p + i) = none := by
      simp [cellGet, n, h]
    have z : cellGet windowed.mem (p + i) = none := by
      rw [m]; repeat (refine g _ _ _ (by omega) ?_)
      rfl
    simp only [State.home, d.1, d.2, cellGet, Option.getD_none, memGet, z, memDefault]
    rw [if_neg (by omega)]
  rw [State.homeN, e, leNat_zeros]

theorem windowed_table (t : Nat) (ht : t ∈ [0x8000, 0x10000, 0x20000, 0x30000]) (n i : Nat) (hi : 0 < i) (hn : i < n + 1) (h : n ≤ 4095) :
    windowed.homeN (t + 8 * i) 8 = 0 := by
  simp only [List.mem_cons, List.not_mem_nil, or_false] at ht
  refine windowed_zero _ (by omega) fun a ha => ?_
  simp only [List.mem_cons, List.not_mem_nil, or_false] at ha
  omega

/-- WindowsAndWalks and PrefetchAndBarrierEvents, their clauses over a window with one backing page. -/
theorem witness_BackingPages : windowed.backingPages 3 = [0x100000] ∧ 0x100000 % 4 = 0 ∧
    windowed.bindings.find? (fun b => b.entry == 3 && b.unbinding) = some ⟨3, 1, 0, 1, true, true⟩ := by
  refine ⟨?_, by decide +kernel⟩
  have h0 : windowed.homeN 0x8000 8 = 0x10001 ∧ windowed.homeN 0x10000 8 = 0x20001 ∧ windowed.homeN 0x20000 8 = 0x30001 ∧
      windowed.homeN 0x30000 8 = 0x10021F + 3 * 2 ^ 52 := by decide +kernel
  have n1 : windowed.nextTable 0x10001 32768 = .ok 0x10000 := by decide +kernel
  have n2 : windowed.nextTable 0x20001 16384 = .ok 0x20000 := by decide +kernel
  have n3 : windowed.nextTable 0x30001 256 = .ok 0x30000 := by decide +kernel
  have tr : windowed.troot = 0x8000 := by decide +kernel
  have lv : windowed.windowLeaves 0x30001 = [⟨0x100000, true, true, true, false, false, false, 2, 0, 3, false⟩] := by decide +kernel
  have l0 : windowed.windowLeaves 0 = [] := rfl
  unfold State.backingPages
  simp only [tr]
  rw [flatMap_first _ 4095 (fun i hi hn => by simp only [windowed_table 0x8000 (by decide) 4095 i hi hn (Nat.le_refl _)]; rfl)]
  simp only [Nat.mul_zero, Nat.add_zero, h0, n1]
  rw [flatMap_first _ 4095 (fun i hi hn => by simp only [windowed_table 0x10000 (by decide) 4095 i hi hn (Nat.le_refl _)]; rfl)]
  simp only [Nat.mul_zero, Nat.add_zero, h0, n2]
  rw [flatMap_first _ 2047 (fun i hi hn => by simp only [windowed_table 0x20000 (by decide) 2047 i hi hn (by omega), l0])]
  simp only [Nat.mul_zero, Nat.add_zero, h0, lv]
  decide +kernel
/-- A machine with the record launch alone, admitted, and what course 0 holds. -/
def recState (x : Course) : State := { m0 with strands := [], teams := [], bundles := [], launches := [recLaunch 4], courses := m0.courses.set 0 x, timebase := 101 }
def bin0 : Bin := ⟨0, 5, .node 0 0, [(0, 0)], none⟩

/-- RecordsBecomeWaves: an entry record to create, a bin that has waited beyond WAVETO, a wave with room. -/
theorem witness_RecordsBecomeWaves : (let s := recState Course.reset
      s.launch? 5 = some (recLaunch 4) ∧ (recLaunch 4).state = .admitted ∧ (recLaunch 4).count = some 4 ∧ (recLaunch 4).placed < 4 ∧
      (ext0 4).nodeKernel (recLaunch 4).kernel.nodeIdx = some (nodeKernel0 0) ∧ 2 ≤ (nodeKernel0 0).width ∧ (recLaunch 4).nthCourse 1 = 0 ∧ s.slotFree 0 5 (some 0) = true) ∧
    ((recState { Course.reset with bins := [bin0], recs := [rec0] }).course 0).bins = [bin0] ∧ (recLaunch 4).flows = true ∧
    (ext0 4).keyKernel bin0.key = some (nodeKernel0 0) ∧ bin0.recs.length < 2 * (nodeKernel0 0).width ∧ (ext0 4).waveTo < (recState Course.reset).now - 0 ∧
    ((recState { Course.reset with waves := [wave0] }).course 0).waves = [wave0] ∧ (recState { Course.reset with waves := [wave0] }).waveCores 0 wave0 ≠ [] ∧
    (recState { Course.reset with waves := [wave0] }).stalledFirst 0 = false := by decide +kernel

/-- A ray towards x with `d` stack entries, and a void one; a course whose unit 0 holds the ray; a bin from which one can be handed over. -/
def rayImage (d : Nat) : BitVec 1024 := BitVec.ofNat 1024 (0x3F800000 * 2 ^ 128 + 0x3F800000 * 2 ^ 224 + d * 2 ^ 896 + 0xFFFFFF * 2 ^ 1000)
def rayRec (d : Nat) (st : RState) : Rec := { rec0 with image := rayImage d, state := st }
def travBin : Bin := ⟨0, 5, .trav 0 0, [(0, 0)], none⟩
def travelling : State := recState { Course.reset with recs := [rayRec 1 .traversing], trav := [(0, 5, 0)] }
def waitingRay : State := recState { Course.reset with recs := [rayRec 1 .binned], bins := [travBin], curBin := some 0 }

/-- Traversal: a record to hand over; a step that goes on, one whose side block is on a missing page; a requested brick; the three steps without a node. -/
theorem witness_Traversal : ((waitingRay.course 0).bins = [travBin] ∧ (waitingRay.course 0).curBin = some travBin.idx ∧ (waitingRay.course 0).served < 4096 ∧ (waitingRay.course 0).arrivals = [] ∧
      waitingRay.handable 0 travBin = [0]) ∧
    ((travelling.course 0).trav.find? (fun t => t.1 == 0) = some (0, 5, 0) ∧ travelling.launch? 5 = some (recLaunch 4) ∧ travelling.rec? 0 5 0 = some (rayRec 1 .traversing) ∧
      (match (travelling.count 0 13 1).getSide 0 5 0 with
        | .ok q => (match q.1.rayStep (recLaunch 4) (ext0 4) 0 (rayRec 1 .traversing) q.2 0 with
          | .ok o => o.fate == .more && (o.s.stackFault (recLaunch 4) (ext0 4) 0 0 o.r.puts).isNone
          | .error _ => false)
        | .error _ => false) = true ∧
      (match (({ travelling with tlb := [] } : State).count 0 13 1).getSide 0 5 0 with | .error (.page _ _) => true | _ => false) = true) ∧
    ((recState { Course.reset with brickReq := [7] }).course 0).brickReq.contains 7 = true ∧
    (Ray.void ⟨0, 0, []⟩ = true ∧ ∀ d ∈ [0, 1, 4], Ray.void ⟨rayImage d, 0, []⟩ = false ∧ Ray.node ⟨rayImage d, 0, []⟩ = refNone ∧ Ray.depth ⟨rayImage d, 0, []⟩ = d) := by
  decide +kernel

/-- A cause not yet posted, and a posted record that holds the strand, with the answer `a` to be carried out. -/
def cause0 : FRec := ⟨3, none, .data, 1, 0x2000, 5, 0, 0, 0, 0, 1, none, false⟩
def posted (a : Fin 5) : FRec := { cause0 with frid := some 1, answer := some a }
def held0 : Strand := { x0 with state := .faultHeld 3, cls := none }
def answering (a : Fin 5) : State := { with_ held0 with bundles := [], faults := [posted a] }
def causing : State := { with_ held0 with bundles := [], faults := [cause0] }

def rewritten : State := { m0 with faults := [{ posted 0 with answer := none, restore := true }] }

/-- FaultRecords: a cause to post; the five answers of a record that holds one strand; a record whose bytes are to be put back. -/
theorem witness_FaultRecords : (∀ y ∈ (answering 2).strands, ∀ z, y.state ≠ .recordStall z) ∧
    (causing.faults.find? (fun r => r.frid.isNone) = some cause0 ∧ causing.recordFree (causing.frid + 1) = true ∧ cause0.seq < 2 ^ 32 ∧
    (∀ a, (answering a).strands.filter (fun x => x.state == .faultHeld (posted a).cause) = [held0] ∧ (answering a).strand? held0.sid = some held0 ∧
      (answering a).team? held0.tid = some tm0 ∧ (posted a).kind = .data ∧ (answering a).saved = [] ∧ (∀ y ∈ (answering a).courses, y.recs = []) ∧
      (answering a).answered 1 a = some (posted a)) ∧ held0.trapsTo = true ∧
    rewritten.faults.find? (fun r => r.frid == some 1 && r.restore) = some { posted 0 with answer := none, restore := true } ∧ rewritten.flights = []) := by
  refine ⟨fun y hy z => ?_, by decide +kernel⟩
  rw [List.mem_singleton.mp hy]; exact nofun

/-- A KEYED block that the team holds, with one dirty byte. -/
def keyedDirty : State := { m0 with keys := [key0 1 none], courses := m0.courses.set 0 { Course.reset with dirty := [(0x100000, 7)] }, launches := [launch0] }

/-- A delta with two contributors, of which the later is the launch. -/
def sharedDelta : State := { m0 with launches := [launch0], courses := m0.courses.set 0 { Course.reset with deltas := [(0x100000, .n32, .add, 1, [4, 5])] } }

/-- A delta on a bound tile. -/
def tiledDelta : State := { m0 with launches := [launch0], courses := m0.courses.set 0 { tiled.course 0 with deltas := (deltaState.course 0).deltas } }

def linked : State := { m0 with link := .up }

/-- MachineChecksAndLinkLoss: a delta on no bound tile and on one, and a KEYED byte at the word, and a pair whose link is up. -/
theorem witness_MachineChecksAndLinkLoss : ((deltaState.course 0).deltas = [(0x100000, .n32, .add, 1, [5])] ∧
      overlaps 0x100000 (deltaBytes (0x100000, .n32, .add, 1, [5])) 0x100000 4 = true ∧ 0x100000 / 128 = 0x100000 / 128 ∧ 0 < deltaState.courses.length ∧
      (deltaState.course 0).tiles.find? (fun t => t.bound && decide (t.pa ≤ 0x100000) && decide (0x100000 < t.pa + 16384)) = none) ∧
    ((tiledDelta.course 0).deltas = [(0x100000, .n32, .add, 1, [5])] ∧ tiledDelta.launch? 5 = some launch0 ∧
      (tiledDelta.course 0).tiles.find? (fun t => t.bound && decide (t.pa ≤ 0x100000) && decide (0x100000 < t.pa + 16384)) = some tile2 ∧ tile2.claim = some (5, 2)) ∧
    (keyedDirty.keys = [key0 1 none] ∧ (key0 1 none).pa / 4096 = 0x100000 / 4096 ∧ (key0 1 none).passing = none ∧ keyedDirty.teamCourse 1 = 0 ∧
      (keyedDirty.course 0).dirty = [(0x100000, 7)] ∧ keyedDirty.launch? (keyedDirty.seqOf 1) = some launch0) ∧
    ((sharedDelta.course 0).deltas.map (fun e => e.2.2.2.2.getLast?) = [some 5] ∧ sharedDelta.launch? 5 = some launch0) ∧
    (CanonicalMemory keyedDirty ∧ keyedDirty.flights = []) ∧
    linked.link = .up ∧ linked.flights = [] := by
  unfold CanonicalMemory
  refine ⟨?_, ?_, ?_⟩ <;> decide +kernel

/-- QP 3 ready, a registration of the first 64 KiB with rkey 7, and the page the units reach. -/
def reg0 : Reg := ⟨0, 0, 65536, 7, true, true⟩
def hosted : State := { m0 with qps := [⟨3, []⟩], regs := [reg0], tlb := [⟨32, 0, page0⟩] }

/-- HostOperations: two bytes written and read, a doubleword, and a QP that is not ready. -/
theorem witness_HostOperations : (CanonicalMemory hosted ∧ hosted.registered 8 0 2 = none ∧ hosted.registered 7 65535 8 = none) ∧
    (hosted.qpReady 3 = true ∧ hosted.keys = [] ∧ hosted.flights = [] ∧ (∀ x ∈ hosted.courses, x.dirty = []) ∧ (∀ k ∈ hosted.streams, k.on = false) ∧
    hosted.registered 7 0 2 = some reg0 ∧ hosted.registered 7 0 8 = some reg0 ∧
    hosted.hostAccs 0 accWrite (·.write) 2 = some [acc 0, acc 1] ∧ hosted.hostAccs 0 accRead (·.read) 2 = some [acc 0, acc 1] ∧
    hosted.check unitCourse 0 8 (accRead ||| accWrite) (fun p => p.read && p.write) = .ok (acc 0) ∧ (acc 0).page.home = 0 ∧ hosted.qpReady 4 = false) ∧
    (∀ k < 2, ∃ a, [acc 0, acc 1][k]? = some a ∧ a.pa = ([acc 0, acc 1].headD default).pa + k ∧ hosted.place a = .cached ∧ PlainBytes hosted a.pa) ∧
    (∀ k < 8, PlainBytes hosted ((acc 0).pa + k)) := by
  refine ⟨by unfold CanonicalMemory; decide +kernel, by decide +kernel, fun k hk => ?_, ?_⟩
  · match k, hk with
    | 0, _ => exact ⟨acc 0, rfl, rfl, by unfold PlainBytes; decide +kernel⟩
    | 1, _ => exact ⟨acc 1, rfl, rfl, by unfold PlainBytes; decide +kernel⟩
  · unfold PlainBytes; decide +kernel

/-- QPN 1 up, and a management command with its first and fourth argument. -/
def managed : State := { m0 with fw := { m0.fw with linkUp := true } }
def mgmt (a0 a1 a3 : DWord) : MgmtMsg := ⟨9, 128, a0, a1, 0, a3, 0, 0, 0, []⟩
/-- The same machine with nothing live, course 0 fenced and the pair link up, and a page the units reach. -/
def serviced : State := { managed with teams := [], strands := [], bundles := [], link := .up, tlb := [⟨32, 0, page0⟩], courses := m0.courses.set 0 { Course.reset with fenced := true } }

/-- ServiceCommands. -/
theorem witness_ServiceCommands : (∀ x ∈ serviced.strands, ∀ a z, x.state ≠ .monitor a ∧ x.state ≠ .recordStall z) ∧
    (Ready managed (mgmt 0 0 0) ∧ Ready serviced (mgmt 0 8 0) ∧ (serviced.sysRead 0 8).isSome = true ∧ 0 < serviced.courses.length ∧
    serviced.launches = [] ∧ (∀ tm ∈ serviced.teams, courseOf tm.core ≠ 0) ∧ (serviced.course 0).fenced = true ∧ serviced.link = .up ∧ Calm serviced ∧
    (∀ x ∈ serviced.courses, x.rounds = [] ∧ x.recs = [])) :=
  ⟨fun x (h : x ∈ ([] : List Strand)) => (nomatch h), by unfold Ready Calm; decide +kernel⟩

def shortMsg : MgmtMsg := { mgmt 0 0 0 with len := 63 }

/-- ManagementCommands: a value of ARG0 and of the flags for each clause of the tables; QPN 1 down, a short message, a command behind another, and
an OP of no command. -/
theorem witness_ManagementCommands : (∀ a0 a1 a3, Ready managed (mgmt a0 a1 a3)) ∧ ((0x8000 % 32768 = 0 ∧ 0x8000 % 2 ^ 51 < 0x3000000000 ∧ 0x8000 / 2 ^ 51 = managed.dieId) ∧
    managed.launches = [] ∧ managed.saved = [] ∧ (∀ x ∈ managed.courses, x.bricks = []) ∧ (mgmt 0 0 0x400000000).arg3.getLsbD 34 = true ∧
    (mgmt 0 0 0).arg3.getLsbD 34 = false ∧ (mgmt 0 0x8000000000000000 0).arg1.getLsbD 63 = true ∧ (mgmt 0 0 0).arg1.getLsbD 63 = false) ∧
    (managed.streams[0]? = some Stream.reset ∧ (Stream.reset.busy.isNone && Stream.reset.pending.isNone) = true ∧ (mgmt 2 0 0).arg0.getLsbD 63 = false ∧
    (mgmt 0x8000000000000002 0 0).arg0.getLsbD 63 = true ∧ 2 ≤ (mgmt 0x8000000000000002 0 0).arg0.toNat % 1024 ∧ (mgmt 2 0 0).arg4.toNat / 2 ^ 24 % 4 ≠ 3 ∧
    m0.fw.linkUp = false ∧ shortMsg.len < 64 ∧ ((9, 0, mgmt 0 0 0) : Nat × Nat × MgmtMsg) ≠ (10, 0, mgmt 0 0 0) ∧
    (([6, 1] : List Byte).getD 0 0 = 6 ∧ ([6, 1] : List Byte).getD 1 0 = 1 ∧ (99, 0) ∉ knownCommands ∧ (∀ e ∈ knownCommands, (99, 0) ≠ e) ∧
      leNat ((([2, 3, 0, 0] : List Byte).drop 0).take 1) % 64 = 2 ∧ leNat ((([2, 3, 0, 0] : List Byte).drop 1).take 1) % 4 = 3) ∧ knownCommands.contains ((99 : Byte).toNat, (0 : Byte).toNat) = false) :=
  ⟨fun _ _ _ => ⟨rfl, rfl, Nat.le_of_ble_eq_true rfl⟩, by decide +kernel, by decide +kernel⟩

/-- DeviceEvents: temperatures at the limits, QPN 1 down, up and booting, a lane. -/
theorem witness_DeviceEvents : 115 ≤ 115 ∧ 105 < 106 ∧ 105 ≤ 105 ∧ m0.fw.linkUp = false ∧
    (({ m0.fw with linkUp := true, booting := true } : Firmware).linkUp = true ∧ ({ m0.fw with linkUp := true, booting := true } : Firmware).booting = true) ∧ 7 < 8 := by decide +kernel

/-- A machine with a link, a dirty line in course 0, a full miss table and one with the walk of page 32; a page of the peer. -/
def moved : State := { m0 with link := .up, tlb := [⟨0, 0, page0⟩], courses := m0.courses.set 0 { Course.reset with dirty := [(0x100000, 7)] } }
def missing (n : Nat) : State := { m0 with misses := List.replicate n ⟨7, [3], .absent⟩ }
def peerPa : Nat := 2 ^ 51 + 0x100000

/-- DeviceEvents, the moves of the device: a page that misses with room in the miss table and without, and one whose walk is in flight; a translation to copy; a line
to drop, and one that the course does not hold; memory that the peer reads and writes, here and in its own; a register, and an entry of a ring. -/
theorem witness_DeviceMoves : (canonical 0x200000 = true ∧ m0.tlbHit 1 32 = none ∧ m0.missWait = [] ∧ m0.misses = [] ∧
      (∀ m ∈ (missing 1).misses, m.vpage = 7 ∧ 1 ∉ m.units) ∧ (missing 1).misses ≠ [] ∧ (missing 1).tlbHit 1 7 = none) ∧
    ((missing 4096).misses.length = 4096 ∧ ∀ m ∈ (missing 4096).misses, m.vpage ≠ 32) ∧
    m0.tlb.find? (fun e => e.unit == courseOf 0 && e.holds ((0x1234 : DWord).toNat / 65536)) = some ⟨0, 0, page0⟩ ∧
    ((moved.course 0).valid.contains 8192 = true ∧ (moved.course 0).pins.contains 8192 = false ∧ (moved.course 0).valid.contains 9 = false ∧ CanonicalMemory moved ∧ moved.flights = [] ∧
      (moved.course 0).deltas = [] ∧ 0 < moved.courses.length ∧ sortedCells (moved.course 0).dirty = true ∧ sortedCells (moved.course 0).clean = true) ∧
    (∀ k x, moved.courses[k]? = some x → k ≠ 0 → x.dirty = []) ∧
    (linked.fromPeer 0x100000 8 = true ∧ linked.keys = [] ∧ linked.flights = [] ∧ (∀ x ∈ linked.courses, x.dirty = []) ∧ CanonicalMemory linked ∧ linked.dieClean = [] ∧
      linked.foreign 0x100000 = false) ∧ (∀ i < 8, PlainBytes linked (0x100000 + i)) ∧
    (linked.link = .up ∧ linked.foreign peerPa = true ∧ linked.reserved peerPa = false ∧ linked.reserved (peerPa + 7) = false ∧ ∀ i < 8, linked.foreign (peerPa + i) = true) ∧
    m0.strand? 2 = some x0 ∧ (∀ e, (begunState e).ring? 1 0 = some (ring0 1 [begun0 e])) ∧ (ring0 1 [begun0 none]).begun = begun0 none :: [] := by
  unfold CanonicalMemory PlainBytes
  refine ⟨by decide +kernel, ⟨List.length_replicate, fun m hm => ?_⟩, by decide +kernel, by decide +kernel, others_of _ _ _ (by decide +kernel), by decide +kernel, by decide +kernel, by decide +kernel,
    rfl, fun _ => rfl, rfl⟩
  rw [(List.mem_replicate.mp hm).2]; decide

/-- A stream engine with a trigger, its descriptor at address 0: a frame of no pixels, and one with an odd width; and an engine that is busy. -/
def trigged (bits : Nat) : State := { hosted with mem := memPutL 0x100000 (leBytes 64 bits) [], streams := m0.streams.set 0 { Stream.reset with on := true, pending := some 5 } }
def late : State := { m0 with timebase := 1048576 }
def busy0 : Stream := { Stream.reset with on := true, busy := some (1, 5, some [], 0) }
def trigger0 : FlightOp := .trigger 2 1 (acc 56) 1 .die
/-- Its descriptor can be written. -/
def ending : State := { hosted with streams := m0.streams.set 0 busy0 }

/-- CountersAndStreams: a snapshot that is due, a trigger in flight, a good frame, a malformed one and one whose surface is out of reach, a busy engine. -/
theorem witness_CountersAndStreams : (late.snaps < late.now / 1048576 ∧ late.courses.length = 32 ∧ late.counters.length = 32 ∧ ∀ x ∈ late.courses, x.counters.length = 32) ∧
    ((accepted trigger0).flight? 7 = some (ac trigger0) ∧ (accepted trigger0).flights = [ac trigger0] ∧ (accepted trigger0).unacted (ac trigger0) 2 = false ∧
      (accepted trigger0).streams[0]? = some Stream.reset) ∧
    (trigged 0).streams[0]? = some { Stream.reset with on := true, pending := some 5 } ∧ ((trigged 0).sysRead 0 64).isSome = true ∧
    (FrameDesc.ofNat (2 ^ 320)).malformed = true ∧ (FrameDesc.ofNat 0).malformed = false ∧ (trigged 0).compose false (FrameDesc.ofNat 0) = some [] ∧
    (FrameDesc.ofNat (2 ^ 321 + 2 ^ 337 + 2 ^ 100)).malformed = false ∧ (trigged 0).compose false (FrameDesc.ofNat (2 ^ 321 + 2 ^ 337 + 2 ^ 100)) = none ∧
    (ending.streams[0]? = some busy0 ∧ ending.check unitCourse (busy0.desc + 4) 4 accWrite (·.write) = .ok (acc 4) ∧
      (ending.putDesc (busy0.desc + 4) 0).check unitCourse (busy0.desc + 60) 4 accWrite (·.write) = .ok (acc 60) ∧ ending.place (acc 4) = .cached ∧
      ending.place (acc 60) = .cached ∧ ending.keys = [] ∧ ending.flights = [] ∧ (∀ x ∈ ending.courses, x.dirty = []) ∧ (acc 4).pa + 4 ≤ (acc 60).pa ∧
      (1 : BitVec 4).getLsbD 0 = true) ∧
    busy0.busy = some (1, 5, some [], 0) ∧ ({ Stream.reset with on := true, pending := some 5 } : Stream).next = none := by decide +kernel

/-- The ADD of SpecWordsDecode, its fetched clause on a bundle, and turns for it and for an event. -/
def addWord : DWord := 0x081E_0405_0608_0000#64
def fetched (w : DWord) (cl : Cls) (x : Strand) : State := { with_ x with bundles := [{ b0 with words := [w], cls := some cl }] }
def planned (mv : Move) (s : State) : State := { s with plan := [⟨1, mv, [], BitVec.allOnes 64⟩] }
def adding : State := planned (.word 0) (fetched addWord cls3 x0)
/-- The instruction a word decodes to. -/
def instrOf (w : DWord) : Option Instr := match decode w none with | .ok d => some d.instr | .error _ => none
def infoOf (w : DWord) : Option Info := (instrOf w).bind Instr.info

/-- StepRunsTheTurn: a turn of the plan and none, one whose place in the cycle is still to come and one whose place has gone by, an event, a
move of the device, a word that passes every check, a machine that is off. -/
theorem witness_StepRunsTheTurn : (planned (.word 0) m0).plan = ⟨1, .word 0, [], BitVec.allOnes 64⟩ :: [] ∧ m0.plan = [] ∧
    (m0.rank ≤ m0.rankOf m0.turn.move ∧ adding.readsLate adding.turn.move = false ∧ adding.rankOf adding.turn.move < ({ adding with rank := 100 } : State).rank) ∧
    ((planned (.event .admissionTurn) m0).turn.move = .event .admissionTurn ∧ Instr.info .admissionTurn = none ∧ m0.powered = true) ∧
    (planned (.device (.corrected 0)) m0).turn.move = .device (.corrected 0) ∧
    (adding.turn.move = .word 0 ∧ adding.powered = true ∧ adding.afterTurn.bundles.map (fun b => (b.cls, b.words, b.lanes)) = [(some cls3, [addWord], [2])] ∧
      (infoOf addWord).any (fun m => !clauseFault cls3 1 m && fullFor m x0 == 0 && x0.badReads m == 0 && m.fits tm0.kernel.regs) = true ∧
      adding.afterTurn.strand? 2 = some x0 ∧ adding.afterTurn.team? 1 = some tm0) ∧
    ({ m0 with powered := false } : State).powered = false := by decide +kernel

/-- IssueFaults: words for the four causes, and a strand with a handler. -/
theorem witness_IssueFaults : (fetched 0 cls3 x0).bundles.map (·.lanes) = [[x0.sid]] ∧ (fetched 0 cls3 x0).strand? x0.sid = some x0 ∧
    (fetched 0 cls3 x0).team? x0.tid = some tm0 ∧ x0.trapsTo = true ∧ decode 0x001E_0000_0000_0000#64 none = .error .illegalOpcode ∧
    decode 0x081E_0405_0608_0100#64 none = .error .illegalField ∧ DecodeError.illegalField ≠ .illegalOpcode ∧
    (infoOf addWord).any (fun m => clauseFault ⟨0, false, 3, 0⟩ 1 m) = true ∧
    (infoOf addWord).any (fun m => !clauseFault cls3 1 m && !m.fits ({ loadedKernel with regs := 4 } : Kernel).regs) = true := by decide +kernel

/-- An LD of R8 from R20 at 0x40, with SW, of a strand whose LD stands at 255. -/
def loadWord : DWord := 0xB01E_0814_8000_0040#64
def fullLd : Strand := { x0 with ld := 255 }
def loading (s : State) : State := { s with strands := [fullLd], bundles := [{ b0 with words := [loadWord] }] }

/-- CountersAndClauses: a load with LD at its limit, and one whose address faults; a strand parked on that; a bundle before its last slot and at it; a load with SW. -/
theorem witness_CountersAndClauses : ((infoOf loadWord).any (fun m => !clauseFault cls3 1 m && m.fits tm0.kernel.regs) = true ∧
    (match instrOf loadWord, infoOf loadWord with
      | some i, some m => (loading m0).overFor { b0 with words := [loadWord] } i m fullLd != 0 && (loading { m0 with tlb := [] }).overFor { b0 with words := [loadWord] } i m fullLd == 0
      | _, _ => false) = true ∧
    (({ x0 with state := .parkedFull (Ctr.bit .ld), ld := 255 } : Strand).state = .parkedFull (Ctr.bit .ld) ∧ (255 : Nat) ≤ 255) ∧
    m0.bundles = b0 :: [] ∧ b0.cls = some cls3 ∧ 1 < cls3.left ∧ ({ cls3 with left := 1 } : Cls).left = 1 ∧ c.mask = none ∧ ({ c with sw := true } : Ctl).sw = true ∧
    m0.check (coreUnit b0.core) (x0.ea 4 0) 4 accRead (·.read) = .ok (acc 0)) ∧ Alone m0 b0 { c with sw := true } x0 := by
  refine ⟨by decide +kernel, ⟨rfl, rfl, rfl, rfl, rfl⟩⟩

/-- EncodingRoundTrip and OnlyEncodingsDecode: well-formed words of one slot and of two, slots that follow, words that decode and words of each refusal. -/
theorem witness_Encodings : (Instr.wf (.add c .n32 false 4 5 6) = true ∧ (Instr.info (.add c .n32 false 4 5 6)).isSome = true) ∧
    (Instr.wf (.ffma m .rn false Mods.none 6 4 5 7) = true ∧ (Instr.info (.ffma m .rn false Mods.none 6 4 5 7)).isSome = true) ∧ isComp addWord = false ∧
    (instrOf addWord).isSome = true ∧ isComp 0x7FFE_0700_0000_0000#64 = true ∧ compRule ((0x001E_0000_0000_0000#64).extractLsb' 53 10) = none ∧
    compRule ((0x187E_0604_0548_0000#64).extractLsb' 53 10) = some .required ∧ isComp 0x187E_0604_0548_0000#64 = false := by decide +kernel

/-- MemoryStaysCanonical and MemoryReadAfterWrite: a machine of the canonical form whose next step is taken, and a memory with a byte in it. -/
theorem witness_CanonicalMemory : CanonicalMemory adding ∧ (match step adding with | .next t => t.strands.length | _ => 0) = 1 ∧
    (Memory.wf layered.mem = true ∧ layered.mem.length = 2) := by
  unfold CanonicalMemory; decide +kernel

end Sys2Proof.Tests
end

/-! Integer, field, predicate and immediate words (file 05): each word is one shape of fixed-latency word, and what it writes is the
model's exact result read as a machine word. -/

namespace Sys2Proof.Machine

/-! ### Reducing exact integers to machine words -/

theorem ofInt_sub (w : Nat) (x y : Int) : BitVec.ofInt w (x - y) = BitVec.ofInt w x - BitVec.ofInt w y := by
  rw [Int.sub_eq_add_neg, BitVec.ofInt_add, BitVec.ofInt_neg, BitVec.sub_eq_add_neg]

theorem ofInt_toNat_zeroExtend {v : Nat} (w : Nat) (x : BitVec v) : BitVec.ofInt w (x.toNat : Int) = x.zeroExtend w := by
  rw [BitVec.ofInt_natCast, BitVec.ofNat_toNat]

theorem ofInt_toNat {w : Nat} (x : BitVec w) : BitVec.ofInt w (x.toNat : Int) = x :=
  (ofInt_toNat_zeroExtend w x).trans x.setWidth_eq

/-- The high half of an exact product, reduced, is the high half of the product reduced to twice the width. -/
theorem ofInt_div_two_pow_32 (v : Int) : BitVec.ofInt 32 (v / 2 ^ 32) = (BitVec.ofInt 64 v).extractLsb' 32 32 := by
  apply BitVec.eq_of_toNat_eq
  rw [BitVec.toNat_ofInt, BitVec.extractLsb'_toNat, BitVec.toNat_ofInt, Nat.shiftRight_eq_div_pow]
  omega

theorem ofInt_mulh_toInt (x y : Word) :
    BitVec.ofInt 32 (x.toInt * y.toInt / 2 ^ 32) = (x.signExtend 64 * y.signExtend 64).extractLsb' 32 32 := by
  rw [ofInt_div_two_pow_32, BitVec.ofInt_mul]; rfl

theorem ofInt_mulh_toNat (x y : Word) :
    BitVec.ofInt 32 ((x.toNat : Int) * y.toNat / 2 ^ 32) = (x.zeroExtend 64 * y.zeroExtend 64).extractLsb' 32 32 := by
  rw [ofInt_div_two_pow_32, BitVec.ofInt_mul, ofInt_toNat_zeroExtend, ofInt_toNat_zeroExtend]

theorem ofInt_madl_toInt (x y : Word) (z : DWord) :
    BitVec.ofInt 64 (x.toInt * y.toInt + z.toInt) = x.signExtend 64 * y.signExtend 64 + z := by
  rw [BitVec.ofInt_add, BitVec.ofInt_mul, BitVec.ofInt_toInt]; rfl

theorem ofInt_madl_toNat (x y : Word) (z : DWord) :
    BitVec.ofInt 64 ((x.toNat : Int) * y.toNat + z.toNat) = x.zeroExtend 64 * y.zeroExtend 64 + z := by
  rw [BitVec.ofInt_add, BitVec.ofInt_mul, ofInt_toNat, ofInt_toNat_zeroExtend, ofInt_toNat_zeroExtend]

theorem ofInt_min_toInt {w : Nat} (x y : BitVec w) :
    BitVec.ofInt w (min x.toInt y.toInt) = if x.sle y then x else y := by
  simp only [BitVec.sle, decide_eq_true_eq, min_def, apply_ite (BitVec.ofInt w), BitVec.ofInt_toInt]

theorem ofInt_max_toInt {w : Nat} (x y : BitVec w) :
    BitVec.ofInt w (max x.toInt y.toInt) = if x.sle y then y else x := by
  simp only [BitVec.sle, decide_eq_true_eq, max_def, apply_ite (BitVec.ofInt w), BitVec.ofInt_toInt]

theorem ofInt_min_toNat {w : Nat} (x y : BitVec w) :
    BitVec.ofInt w (min (x.toNat : Int) y.toNat) = if x.ule y then x else y := by
  simp only [BitVec.ule, decide_eq_true_eq, min_def, apply_ite (BitVec.ofInt w), ofInt_toNat, Int.ofNat_le]

theorem ofInt_max_toNat {w : Nat} (x y : BitVec w) :
    BitVec.ofInt w (max (x.toNat : Int) y.toNat) = if x.ule y then y else x := by
  simp only [BitVec.ule, decide_eq_true_eq, max_def, apply_ite (BitVec.ofInt w), ofInt_toNat, Int.ofNat_le]

theorem ofInt_natAbs_toInt {w : Nat} (x : BitVec w) : BitVec.ofInt w (x.toInt.natAbs : Int) = x.abs := by
  rw [BitVec.abs_eq, BitVec.msb_eq_toInt]
  by_cases h : x.toInt < 0
  · rw [if_pos (by simpa using h), Int.ofNat_natAbs_of_nonpos h.le, BitVec.ofInt_neg, BitVec.ofInt_toInt]
  · rw [if_neg (by simpa using h), Int.natAbs_of_nonneg (not_lt.1 h), BitVec.ofInt_toInt]

/-- Only the least value has a magnitude that the signed range does not hold. -/
theorem ofInt_min_natAbs_toInt {w : Nat} (hw : 0 < w) (x : BitVec w) :
    BitVec.ofInt w (min (x.toInt.natAbs : Int) (2 ^ (w - 1) - 1)) = if x = BitVec.intMin w then BitVec.intMax w else x.abs := by
  by_cases h : x = BitVec.intMin w
  · have e : min ((BitVec.intMin w).toInt.natAbs : Int) (2 ^ (w - 1) - 1) = (BitVec.intMax w).toInt := by
      rw [BitVec.toInt_intMin_of_pos hw, BitVec.toInt_intMax]
      omega
    rw [if_pos h, h, e, BitVec.ofInt_toInt]
  · have e : min (x.toInt.natAbs : Int) (2 ^ (w - 1) - 1) = x.toInt.natAbs := by
      rw [← BitVec.toInt_abs_eq_natAbs_of_ne_intMin h]
      exact min_eq_left (Int.le_sub_one_of_lt BitVec.toInt_lt)
    rw [if_neg h, e, ofInt_natAbs_toInt]

theorem ofNat_shlVal {w : Nat} (x : BitVec w) (n : Nat) : BitVec.ofNat w (shlVal w x.toNat n) = x <<< n := by
  unfold shlVal
  split
  · next h => rw [BitVec.shiftLeft_eq_zero h]
  · rw [← Nat.shiftLeft_eq]; rfl

theorem ofNat_shrVal {w : Nat} (x : BitVec w) (n : Nat) : BitVec.ofNat w (shrVal w x.toNat n) = x >>> n := by
  have e : shrVal w x.toNat n = (x >>> n).toNat := by
    rw [BitVec.toNat_ushiftRight, Nat.shiftRight_eq_div_pow, shrVal]
    split
    · next h => exact (Nat.div_eq_of_lt (x.isLt.trans_le (Nat.pow_le_pow_right (by decide) h))).symm
    · rfl
  rw [e, BitVec.ofNat_toNat, BitVec.setWidth_eq]

theorem ofInt_sarVal {w : Nat} (x : BitVec w) (n : Nat) : BitVec.ofInt w (sarVal w x.toInt n) = x.sshiftRight n := by
  rw [BitVec.sshiftRight_eq, Int.shiftRight_eq_div_pow, sarVal]
  congr 1
  rcases le_total n (w - 1) with hn | hn
  · rw [min_eq_left hn]; norm_cast
  · rw [min_eq_right hn]
    have hlt : x.toInt < 2 ^ (w - 1) := BitVec.toInt_lt
    have hle : -2 ^ (w - 1) ≤ x.toInt := BitVec.le_toInt x
    have hpow : (2 : Int) ^ (w - 1) ≤ ((2 ^ n : Nat) : Int) := by exact_mod_cast Nat.pow_le_pow_right (by decide) hn
    rcases lt_or_ge x.toInt 0 with h | h
    · rw [Int.ediv_eq_neg_one_of_neg_of_le h (by omega), Int.ediv_eq_neg_one_of_neg_of_le h (by omega)]
    · rw [Int.ediv_eq_zero_of_lt h hlt, Int.ediv_eq_zero_of_lt h (by omega)]

/-! ### Bit counts -/

theorem clzAuxRec_eq_clzFrom (a : Word) : ∀ n < 32, a.clzAuxRec n = BitVec.ofNat 32 (31 - n + clzFrom a (n + 1))
  | 0, _ => by
    rw [BitVec.clzAuxRec_zero, clzFrom, clzFrom]
    split <;> rfl
  | n + 1, hn => by
    rw [BitVec.clzAuxRec_succ, clzFrom]
    split
    · rfl
    · rw [clzAuxRec_eq_clzFrom a n (by omega)]
      congr 1
      omega

theorem ofNat_clzFrom (a : Word) : BitVec.ofNat 32 (clzFrom a 32) = a.clz := by
  rw [BitVec.clz, clzAuxRec_eq_clzFrom a (32 - 1) (by decide)]
  simp

/-- Counting up from bit k is counting down in the reversed word. -/
theorem ctzFrom_eq_clzFrom_reverse (a : Word) : ∀ n k, k + n = 32 → ctzFrom a k n = clzFrom a.reverse n
  | 0, _, _ => rfl
  | n + 1, k, h => by
    have hk : 31 - n = k := by omega
    rw [ctzFrom, clzFrom, ctzFrom_eq_clzFrom_reverse a n (k + 1) (by omega), BitVec.getLsbD_reverse, BitVec.getMsbD]
    simp [hk, show n < 32 by omega]

theorem ofNat_ctzFrom (a : Word) : BitVec.ofNat 32 (ctzFrom a 0 32) = a.ctz := by
  rw [ctzFrom_eq_clzFrom_reverse a 32 0 rfl, ofNat_clzFrom, BitVec.ctz_eq_reverse_clz]

theorem cpopNatRec_eq_length_filter {w : Nat} (a : BitVec w) :
    ∀ n, a.cpopNatRec n 0 = ((List.range n).filter (fun k => a.getLsbD k)).length
  | 0 => BitVec.cpopNatRec_zero_self
  | n + 1 => by
    rw [BitVec.cpopNatRec_succ, BitVec.cpopNatRec_eq, cpopNatRec_eq_length_filter a n, List.range_succ, List.filter_append,
      List.length_append]
    cases h : a.getLsbD n <;> simp [h]

theorem ofNat_popcount (a : Word) : BitVec.ofNat 32 (popcount a) = a.cpop := by
  rw [BitVec.cpop, cpopNatRec_eq_length_filter, popcount]

/-! ### Words laid out digit by digit -/

theorem sum_digits_lt {B : Nat} {d : Nat → Nat} (hd : ∀ k, d k < B) :
    ∀ n, ((List.range n).map (fun k => d k * B ^ k)).sum < B ^ n
  | 0 => by simp
  | n + 1 => by
    have ih := sum_digits_lt hd n
    have := Nat.mul_le_mul_right (B ^ n) (hd n)
    simp only [List.range_succ, List.map_append, List.map_cons, List.map_nil, List.sum_append, List.sum_singleton, pow_succ']
    rw [Nat.succ_mul] at this
    omega

theorem sum_digits_div_mod {B : Nat} {d : Nat → Nat} (hd : ∀ k, d k < B) {j : Nat} :
    ∀ n, j < n → ((List.range n).map (fun k => d k * B ^ k)).sum / B ^ j % B = d j
  | n + 1, hj => by
    have hB : 0 < B := Nat.zero_lt_of_lt (hd 0)
    simp only [List.range_succ, List.map_append, List.map_cons, List.map_nil, List.sum_append, List.sum_singleton]
    rcases Nat.lt_succ_iff_lt_or_eq.1 hj with h | rfl
    · obtain ⟨m, rfl⟩ := Nat.exists_eq_add_of_lt h
      rw [show d (j + m + 1) * B ^ (j + m + 1) = d (j + m + 1) * B ^ m * B * B ^ j by ring,
        Nat.add_mul_div_right _ _ (pow_pos hB j), Nat.add_mul_mod_self_right, sum_digits_div_mod hd _ h]
    · rw [Nat.add_mul_div_right _ _ (pow_pos hB j), Nat.div_eq_of_lt (sum_digits_lt hd j), Nat.zero_add, Nat.mod_eq_of_lt (hd j)]

/-- The bits of a number that is a sum of distinct powers of two. -/
theorem testBit_sum_bits (p : Nat → Bool) (n j : Nat) :
    ((List.range n).map (fun k => if p k then 2 ^ k else 0)).sum.testBit j = (decide (j < n) && p j) := by
  have e : (fun k => if p k then 2 ^ k else 0) = (fun k => (p k).toNat * 2 ^ k) := by
    funext k; cases p k <;> simp
  have hd : ∀ k, (p k).toNat < 2 := fun k => Bool.toNat_lt _
  rw [e]
  rcases lt_or_ge j n with h | h
  · rw [Nat.testBit_eq_decide_div_mod_eq, sum_digits_div_mod hd n h]
    cases p j <;> simp [h]
  · rw [Nat.testBit_lt_two_pow ((sum_digits_lt hd n).trans_le (Nat.pow_le_pow_right (by decide) h))]
    simp [h]

theorem testBit_brev (n a j : Nat) : (brev n a).testBit j = (decide (j < n) && a.testBit (n - 1 - j)) :=
  testBit_sum_bits (fun k => a.testBit (n - 1 - k)) n j

theorem ofNat_brev {w : Nat} (x : BitVec w) : BitVec.ofNat w (brev w x.toNat) = x.reverse := by
  apply BitVec.eq_of_getLsbD_eq
  intro i hi
  rw [BitVec.getLsbD_ofNat, testBit_brev, BitVec.getLsbD_reverse, BitVec.getMsbD, BitVec.testBit_toNat]
  simp [hi]

/-! ### Bit fields, byte selection and scaled indices -/

theorem fextVal_n32 (a b : Word) :
    fextVal .n32 a b = BitVec.ofNat 32 (a.toNat / 2 ^ (b.toNat % 32) % 2 ^ (fieldTop b - b.toNat % 32 + 1)) := rfl

/-- The top bit of an extracted field is the operand's bit at the field's top. -/
theorem testBit_field_top (a b : Word) :
    (a.toNat / 2 ^ fieldLsb b % 2 ^ fieldBits b).testBit (fieldBits b - 1) = a.getLsbD (fieldTop b) := by
  have h : fieldLsb b + (fieldBits b - 1) = fieldTop b := by simp only [fieldLsb, fieldBits, fieldTop]; omega
  have hlt : fieldBits b - 1 < fieldBits b := by simp only [fieldBits]; omega
  rw [Nat.testBit_mod_two_pow, Nat.testBit_div_two_pow, add_comm, h, BitVec.testBit_toNat]
  simp [hlt]

theorem fextVal_i32 (a b : Word) :
    fextVal .i32 a b =
      if a.getLsbD (fieldTop b)
        then BitVec.ofInt 32 ((a.toNat / 2 ^ (b.toNat % 32) % 2 ^ (fieldTop b - b.toNat % 32 + 1) : Nat)
          - 2 ^ (fieldTop b - b.toNat % 32 + 1))
        else BitVec.ofNat 32 (a.toNat / 2 ^ (b.toNat % 32) % 2 ^ (fieldTop b - b.toNat % 32 + 1)) := by
  rw [← testBit_field_top]
  rfl

theorem getLsbD_finsVal (a b v : Word) {k : Nat} (hk : k < 32) :
    (finsVal a b v).getLsbD k =
      if b.toNat % 32 ≤ k ∧ k ≤ fieldTop b then a.getLsbD (k - b.toNat % 32) else v.getLsbD k := by
  have hm : (decide (fieldLsb b ≤ k) && decide (k - fieldLsb b < fieldBits b)) =
      decide (b.toNat % 32 ≤ k ∧ k ≤ fieldTop b) := by
    rw [← Bool.decide_and, decide_eq_decide]
    simp only [fieldLsb, fieldBits, fieldTop]
    omega
  simp only [finsVal, BitVec.getLsbD_or, BitVec.getLsbD_and, BitVec.getLsbD_not, BitVec.getLsbD_shiftLeft,
    BitVec.getLsbD_ofNat, Nat.testBit_mul_two_pow, Nat.testBit_two_pow_sub_one, hm, hk, decide_true, Bool.true_and]
  by_cases h : b.toNat % 32 ≤ k ∧ k ≤ fieldTop b
  · simp [h, fieldLsb, not_lt.2 h.1]
  · simp [h]

theorem brev_lt (n a : Nat) : brev n a < 2 ^ n :=
  Nat.lt_pow_two_of_testBit _ fun i hi => by simp [testBit_brev, not_lt.2 hi]

theorem bselByte_lt (v : DWord) (c : Nat) : bselByte v c < 256 := by
  unfold bselByte
  split
  · exact Nat.mod_lt _ (by decide)
  · decide
  · dsimp only
    split <;> decide
  · exact brev_lt 8 _

theorem extractLsb'_ofNat_byte {S : Nat} (hS : S < 2 ^ 32) (k : Nat) :
    (BitVec.ofNat 32 S).extractLsb' (8 * k) 8 = BitVec.ofNat 8 (S / 256 ^ k % 256) := by
  apply BitVec.eq_of_toNat_eq
  rw [BitVec.extractLsb'_toNat, BitVec.toNat_ofNat, BitVec.toNat_ofNat, Nat.mod_eq_of_lt hS, Nat.shiftRight_eq_div_pow, pow_mul,
    Nat.mod_mod]
  rfl

/-- Byte k of a word that is put together from four bytes. -/
theorem extractLsb'_sum_bytes {d : Nat → Nat} (hd : ∀ k, d k < 256) {k : Nat} (hk : k < 4) :
    (BitVec.ofNat 32 ((List.range 4).map (fun k => d k * 2 ^ (8 * k))).sum).extractLsb' (8 * k) 8 = BitVec.ofNat 8 (d k) := by
  have hB : ∀ k, 2 ^ (8 * k) = 256 ^ k := fun k => by rw [pow_mul, show 2 ^ 8 = 256 by norm_num]
  have hlt := sum_digits_lt hd 4
  have hmod := sum_digits_div_mod hd 4 hk
  simp only [hB]
  generalize ((List.range 4).map (fun k => d k * 256 ^ k)).sum = S at hlt hmod
  rw [extractLsb'_ofNat_byte (hlt.trans_eq (by norm_num)), hmod]

/-- Byte k of a BSEL result is what `bselByte` says of byte k of its selector. -/
theorem extractLsb'_bselVal (v : DWord) (sel : Word) {k : Nat} (hk : k < 4) :
    (bselVal v sel).extractLsb' (8 * k) 8 = BitVec.ofNat 8 (bselByte v (sel.extractLsb' (8 * k) 8).toNat) := by
  rw [bselVal, extractLsb'_sum_bytes (fun _ => bselByte_lt ..) hk, BitVec.extractLsb'_toNat, Nat.shiftRight_eq_div_pow]

/-- Modes of a BSEL selector byte (R91): copy, clear, fill with the sign, reverse. -/
theorem ofNat_bselByte (v : DWord) (c : Nat) :
    BitVec.ofNat 8 (bselByte v c) =
      let y := v.extractLsb' (8 * (c % 8)) 8
      if c / 8 % 4 = 0 then y
      else if c / 8 % 4 = 1 then 0
      else if c / 8 % 4 = 2 then (if y.msb then 0xFF#8 else 0)
      else y.reverse := by
  have hy : v.toNat / 2 ^ (8 * (c % 8)) % 256 = (v.extractLsb' (8 * (c % 8)) 8).toNat := by
    rw [BitVec.extractLsb'_toNat, Nat.shiftRight_eq_div_pow]
  unfold bselByte
  rw [hy]
  generalize v.extractLsb' (8 * (c % 8)) 8 = y
  have hmsb : y.toNat.testBit 7 = y.msb := by rw [BitVec.testBit_toNat, BitVec.msb_eq_getLsbD_last]
  have hc : c / 8 % 4 < 4 := Nat.mod_lt _ (by decide)
  generalize c / 8 % 4 = mode at hc
  match mode, hc with
  | 0, _ => simp
  | 1, _ => rfl
  | 2, _ => cases h : y.msb <;> simp [hmsb, h]
  | 3, _ => exact ofNat_brev y

theorem ofInt_mul_two_pow (w : Nat) (v : Int) (n : Nat) : BitVec.ofInt w (v * 2 ^ n) = BitVec.ofInt w v <<< n := by
  rw [BitVec.ofInt_mul, BitVec.shiftLeft_eq_mul_twoPow]
  congr 1
  apply BitVec.eq_of_toNat_eq
  rw [BitVec.toNat_twoPow, show ((2 : Int) ^ n) = ((2 ^ n : Nat) : Int) by norm_cast, BitVec.ofInt_natCast, BitVec.toNat_ofNat]

theorem ofInt_lea_toInt (x : DWord) (y : Word) (n : Nat) :
    BitVec.ofInt 64 ((x.toNat : Int) + y.toInt * 2 ^ n) = x + y.signExtend 64 <<< n := by
  rw [BitVec.ofInt_add, ofInt_toNat, ofInt_mul_two_pow]; rfl

theorem ofInt_lea_toNat (x : DWord) (y : Word) (n : Nat) :
    BitVec.ofInt 64 ((x.toNat : Int) + y.toNat * 2 ^ n) = x + y.zeroExtend 64 <<< n := by
  rw [BitVec.ofInt_add, ofInt_toNat, ofInt_mul_two_pow, ofInt_toNat_zeroExtend]

/-! ### Saturation -/

theorem satInt_i32 (v : Int) : Ty.i32.satInt v = max (-2147483648) (min 2147483647 v) := by
  rw [min_comm]; rfl

theorem satInt_n32 (v : Int) : Ty.n32.satInt v = max 0 (min v 4294967295) := rfl

theorem ofInt_satInt_n32_add (a b : Word) :
    BitVec.ofInt 32 (Ty.n32.satInt ((a.toNat : Int) + b.toNat)) = BitVec.ofNat 32 (min 4294967295 (a.toNat + b.toNat)) := by
  have e : Ty.n32.satInt ((a.toNat : Int) + b.toNat) = (min 4294967295 (a.toNat + b.toNat) : Nat) := by
    rw [satInt_n32]
    omega
  rw [e, BitVec.ofInt_natCast]

theorem ofInt_satInt_n32_sub (a b : Word) :
    BitVec.ofInt 32 (Ty.n32.satInt ((a.toNat : Int) - b.toNat)) = BitVec.ofNat 32 (a.toNat - b.toNat) := by
  have e : Ty.n32.satInt ((a.toNat : Int) - b.toNat) = (a.toNat - b.toNat : Nat) := by
    have := a.isLt
    rw [satInt_n32]
    omega
  rw [e, BitVec.ofInt_natCast]

theorem ofInt_satInt_natAbs {w : Nat} {ty : Ty} (hw : 0 < w) (hs : ty.signed = true) (hn : ty.ibits = w) (x : BitVec w) :
    BitVec.ofInt w (ty.satInt x.toInt.natAbs) = if x = BitVec.intMin w then BitVec.intMax w else x.abs := by
  rw [← ofInt_min_natAbs_toInt hw, Ty.satInt, hs, hn, if_pos rfl, max_eq_right]
  have : (0 : Int) < 2 ^ (w - 1) := by positivity
  omega

theorem ofInt_satInt_natAbs_i32 (x : Word) :
    BitVec.ofInt 32 (Ty.i32.satInt x.toInt.natAbs) = if x = 0x80000000#32 then 0x7FFFFFFF#32 else x.abs :=
  ofInt_satInt_natAbs (w := 32) (ty := .i32) (by decide) rfl rfl x

theorem ofInt_satInt_natAbs_i64 (x : DWord) :
    BitVec.ofInt 64 (Ty.i64.satInt x.toInt.natAbs) = if x = 0x8000000000000000#64 then 0x7FFFFFFFFFFFFFFF#64 else x.abs :=
  ofInt_satInt_natAbs (w := 64) (ty := .i64) (by decide) rfl rfl x

/-! ### Integer operands and results of a strand -/

theorem ofInt_val_narrow {ty : Ty} (hty : ty.wide = false) (x : Strand) (r : GReg) :
    BitVec.ofInt 32 (x.val ty r) = x.reg r := by
  cases hs : ty.signed <;> simp [Strand.val, hty, hs, BitVec.ofInt_toInt]

theorem ofInt_val_wide {ty : Ty} (hty : ty.wide = true) (x : Strand) (r : GReg) :
    BitVec.ofInt 64 (x.val ty r) = x.pair r := by
  cases hs : ty.signed <;> simp [Strand.val, hty, hs, BitVec.ofInt_toInt]

/-! ### Predicates of a strand -/

theorem pred_setP (x : Strand) (q j : PReg) (v : Bool) :
    (x.setP q v).pred j = if j = q ∧ j ≠ 15 then v else x.pred j := by
  by_cases hq : q = 15
  · rw [Strand.setP, if_pos hq, if_neg fun h => h.2 (h.1.trans hq)]
  · by_cases hj : j = 15
    · simp [Strand.pred, hj]
    · have hget : (x.p.set q.1 v q.2).get j = if q.1 = j.1 then v else x.p.get j := Vector.getElem_set ..
      have hiff : q.1 = j.1 ↔ j = q := by rw [← Fin.ext_iff, eq_comm]
      simp [Strand.pred, Strand.setP, hj, hq, hget, hiff]

/-- Writing a predicate changes no other part of the strand. -/
theorem setP_withP (x : Strand) (q : PReg) (v : Bool) (p : Vector Bool 16) :
    ({ x.setP q v with p := p } : Strand) = { x with p := p } := by
  unfold Strand.setP; split <;> rfl

theorem combine_eq_combined (x : Strand) (k : Comb) (v : Bool) : x.combine k v = combined x k v := by
  cases k <;> rfl

/-- Predicate k of a strand, false past the last one. -/
def Strand.predBit (x : Strand) (k : Nat) : Bool := if h : k < 16 then x.pred ⟨k, h⟩ else false

theorem predWord_eq_sum_predBit (x : Strand) :
    x.predWord = ((List.range 16).map (fun k => if x.predBit k then 2 ^ k else 0)).sum := by
  unfold Strand.predWord
  congr 2
  funext k
  unfold Strand.predBit
  split <;> simp

theorem getLsbD_predWord (x : Strand) (j : Nat) :
    (BitVec.ofNat 32 x.predWord).getLsbD j = if h : j < 16 then x.pred ⟨j, h⟩ else false := by
  rw [BitVec.getLsbD_ofNat, predWord_eq_sum_predBit, testBit_sum_bits]
  unfold Strand.predBit
  split
  · next h => simp [h, show j < 32 by omega]
  · simp

/-- One step of GTOP: predicate k takes its bit of the value word where the select word names it. -/
def Strand.selectPred (v sel : Word) (x : Strand) (k : Nat) : Strand :=
  if h : k < 16 then (if sel.getLsbD k then x.setP ⟨k, h⟩ (v.getLsbD k) else x) else x

theorem selectPreds_eq_foldl (x : Strand) (v sel : Word) :
    x.selectPreds v sel = (List.range 15).foldl (Strand.selectPred v sel) x := rfl

theorem selectPred_withP (v sel : Word) (x : Strand) (k : Nat) (p : Vector Bool 16) :
    ({ x.selectPred v sel k with p := p } : Strand) = { x with p := p } := by
  unfold Strand.selectPred
  split
  · split
    · exact setP_withP ..
    · rfl
  · rfl

theorem pred_selectPred (v sel : Word) (x : Strand) {k : Nat} (hk : k < 15) (j : PReg) :
    (x.selectPred v sel k).pred j = if j.val = k ∧ sel.getLsbD k then v.getLsbD k else x.pred j := by
  rw [Strand.selectPred, dif_pos (by omega)]
  split
  · next h =>
    have hiff : (j = ⟨k, by omega⟩ ∧ j ≠ 15) ↔ j.val = k := by simp only [Fin.ext_iff, ne_eq]; omega
    simp only [pred_setP, hiff, h, and_true]
  · next h => simp [h]

theorem foldl_selectPred_withP (v sel : Word) (p : Vector Bool 16) (l : List Nat) :
    ∀ x : Strand, ({ l.foldl (Strand.selectPred v sel) x with p := p } : Strand) = { x with p := p } := by
  induction l with
  | nil => exact fun _ => rfl
  | cons k l ih => exact fun x => (ih _).trans (selectPred_withP ..)

theorem pred_foldl_selectPred (v sel : Word) (x : Strand) (j : PReg) :
    ∀ n ≤ 15, ((List.range n).foldl (Strand.selectPred v sel) x).pred j =
      if j.val < n ∧ sel.getLsbD j.val then v.getLsbD j.val else x.pred j
  | 0, _ => by simp
  | n + 1, hn => by
    rw [List.range_succ, List.foldl_append, List.foldl_cons, List.foldl_nil, pred_selectPred v sel _ (by omega),
      pred_foldl_selectPred v sel x j n (by omega)]
    by_cases h : j.val = n
    · subst h; simp
    · have hiff : j.val < n + 1 ↔ j.val < n := by omega
      simp [h, hiff]

theorem pred_selectPreds (x : Strand) (v sel : Word) (j : PReg) :
    (x.selectPreds v sel).pred j = if j ≠ 15 ∧ sel.getLsbD j.val then v.getLsbD j.val else x.pred j := by
  have hiff : j.val < 15 ↔ j ≠ 15 := by simp only [ne_eq, Fin.ext_iff]; omega
  rw [selectPreds_eq_foldl, pred_foldl_selectPred v sel x j 15 le_rfl]
  simp only [hiff]

/-- GTOP writes predicates and nothing else. -/
theorem selectPreds_withP (x : Strand) (v sel : Word) : ({ x.selectPreds v sel with p := x.p } : Strand) = x :=
  foldl_selectPred_withP v sel x.p _ x

/-! ### Fixed-latency words, by the shape of their result -/

section
variable {i : Instr} {c : Ctl} {d : GReg} {q : PReg} {n : Nat} {ty : Ty} {f g : Strand → Strand} {v : Strand → Int}

/-- A word with a span of registers as destination. -/
theorem sets_of_aluWord (h : exec i = aluWord c d n f) (hf : ∀ x, f x = g x) :
    Sets i c (·.zeroSpan d n) (fun _ _ x => g x) := by
  rw [funext hf] at h
  exact sets_of_wordOfStrand (congrFun h)

/-- A word with a predicate as destination. -/
theorem sets_of_predWord (h : exec i = predWord c q f) (hf : ∀ x, f x = g x) :
    Sets i c (·.setP q false) (fun _ _ x => g x) := by
  rw [funext hf] at h
  exact sets_of_wordOfStrand (congrFun h)

/-- An integer result of a 32-bit type is the exact value reduced to a word (R88). -/
theorem sets_of_put_narrow {r : Strand → Word} (hty : ty.wide = false)
    (h : exec i = aluWord c d ty.regs (fun x => x.put ty d (v x))) (hv : ∀ x, BitVec.ofInt 32 (v x) = r x) :
    Sets i c (·.zeroSpan d 1) (fun _ _ x => x.setG d (r x)) := by
  rw [Ty.regs, hty] at h
  refine sets_of_aluWord h fun x => ?_
  rw [Strand.put, hty, ← hv]
  rfl

/-- An integer result of a 64-bit type is the exact value reduced to a pair (R88). -/
theorem sets_of_put_wide {r : Strand → DWord} (hty : ty.wide = true)
    (h : exec i = aluWord c d ty.regs (fun x => x.put ty d (v x))) (hv : ∀ x, BitVec.ofInt 64 (v x) = r x) :
    Sets i c (·.zeroSpan d 2) (fun _ _ x => x.setPair d (r x)) := by
  rw [Ty.regs, hty] at h
  refine sets_of_aluWord h fun x => ?_
  rw [Strand.put, hty, ← hv]
  rfl

end

/-! ### The words of Table 5.4

For each word the first `rfl` is the dispatch of `exec`, and the last argument is the value it writes. -/

/-- Sums, differences and products keep no more than the low bits, so the reading of the operands does not matter (R88). -/
theorem sets_modular_narrow {ty : Ty} (hw : ty.wide = false) (c : Ctl) (d a b cc : GReg) :
    Sets (.add c ty false d a b) c (·.zeroSpan d 1) (fun _ _ x => x.setG d (x.reg a + x.reg b)) ∧
    Sets (.sub c ty false d a b) c (·.zeroSpan d 1) (fun _ _ x => x.setG d (x.reg a - x.reg b)) ∧
    Sets (.mul c ty d a b) c (·.zeroSpan d 1) (fun _ _ x => x.setG d (x.reg a * x.reg b)) ∧
    Sets (.mad c ty d a b cc) c (·.zeroSpan d 1) (fun _ _ x => x.setG d (x.reg a * x.reg b + x.reg cc)) := by
  have hv := ofInt_val_narrow hw
  have hr : ty.regs = 1 := by rw [Ty.regs, hw]; rfl
  exact ⟨
    sets_of_put_narrow hw rfl fun x => (BitVec.ofInt_add ..).trans (by rw [hv, hv]),
    sets_of_put_narrow hw rfl fun x => (ofInt_sub ..).trans (by rw [hv, hv]),
    sets_of_put_narrow hw rfl fun x => (BitVec.ofInt_mul ..).trans (by rw [hv, hv]),
    sets_of_put_narrow hw (by rw [hr]; rfl) fun x => (BitVec.ofInt_add ..).trans (by rw [BitVec.ofInt_mul, hv, hv, hv])⟩

theorem sets_modular_wide {ty : Ty} (hw : ty.wide = true) (c : Ctl) (d a b : GReg) :
    Sets (.add c ty false d a b) c (·.zeroSpan d 2) (fun _ _ x => x.setPair d (x.pair a + x.pair b)) ∧
    Sets (.sub c ty false d a b) c (·.zeroSpan d 2) (fun _ _ x => x.setPair d (x.pair a - x.pair b)) := by
  have hv := ofInt_val_wide hw
  exact ⟨
    sets_of_put_wide hw rfl fun x => (BitVec.ofInt_add ..).trans (by rw [hv, hv]),
    sets_of_put_wide hw rfl fun x => (ofInt_sub ..).trans (by rw [hv, hv])⟩

theorem arithmeticWords : ArithmeticWords := by
  intro c d a b cc
  refine ⟨fun ty hty => sets_modular_narrow ?narrow c d a b cc, fun ty hty => sets_modular_wide ?wide c d a b,
    -- saturating sums and differences
    sets_of_put_narrow rfl rfl fun x => congrArg (BitVec.ofInt 32) (satInt_i32 _),
    sets_of_put_narrow rfl rfl fun x => congrArg (BitVec.ofInt 32) (satInt_i32 _),
    sets_of_put_narrow rfl rfl fun x => ofInt_satInt_n32_add (x.reg a) (x.reg b),
    sets_of_put_narrow rfl rfl fun x => ofInt_satInt_n32_sub (x.reg a) (x.reg b),
    -- the halves and sums of exact products
    sets_of_put_narrow rfl rfl fun x => ofInt_mulh_toInt (x.reg a) (x.reg b),
    sets_of_put_narrow rfl rfl fun x => ofInt_mulh_toNat (x.reg a) (x.reg b),
    sets_of_put_wide (ty := .i64) rfl rfl fun x => ofInt_madl_toInt (x.reg a) (x.reg b) (x.pair cc),
    sets_of_put_wide (ty := .n64) rfl rfl fun x => ofInt_madl_toNat (x.reg a) (x.reg b) (x.pair cc),
    -- the lesser and the greater
    sets_of_put_narrow rfl rfl fun x => ofInt_min_toInt (x.reg a) (x.reg b),
    sets_of_put_narrow rfl rfl fun x => ofInt_min_toNat (x.reg a) (x.reg b),
    sets_of_put_wide rfl rfl fun x => ofInt_min_toInt (x.pair a) (x.pair b),
    sets_of_put_wide rfl rfl fun x => ofInt_min_toNat (x.pair a) (x.pair b),
    sets_of_put_narrow rfl rfl fun x => ofInt_max_toInt (x.reg a) (x.reg b),
    sets_of_put_narrow rfl rfl fun x => ofInt_max_toNat (x.reg a) (x.reg b),
    sets_of_put_wide rfl rfl fun x => ofInt_max_toInt (x.pair a) (x.pair b),
    sets_of_put_wide rfl rfl fun x => ofInt_max_toNat (x.pair a) (x.pair b),
    -- magnitudes
    sets_of_put_narrow rfl rfl fun x => ofInt_natAbs_toInt (x.reg a),
    sets_of_put_wide rfl rfl fun x => ofInt_natAbs_toInt (x.pair a),
    sets_of_put_narrow rfl rfl fun x => ofInt_satInt_natAbs_i32 (x.reg a),
    sets_of_put_wide rfl rfl fun x => ofInt_satInt_natAbs_i64 (x.pair a)⟩
  case narrow => rcases List.mem_pair.1 hty with rfl | rfl <;> rfl
  case wide => rcases List.mem_pair.1 hty with rfl | rfl <;> rfl

/-- The bitwise words are the model's own operations; the counts and the reversal are computed bit by bit. -/
theorem logicWords : LogicWords := fun _ _ a _ => ⟨
  sets_of_aluWord rfl fun _ => rfl,
  sets_of_aluWord rfl fun _ => rfl,
  sets_of_aluWord rfl fun _ => rfl,
  sets_of_aluWord rfl fun _ => rfl,
  sets_of_aluWord rfl fun _ => rfl,
  sets_of_aluWord rfl fun x => congrArg (x.setG _) (ofNat_popcount (x.reg a)),
  sets_of_aluWord rfl fun x => congrArg (x.setG _) (ofNat_clzFrom (x.reg a)),
  sets_of_aluWord rfl fun x => congrArg (x.setG _) (ofNat_ctzFrom (x.reg a)),
  sets_of_aluWord rfl fun x => congrArg (x.setG _) (ofNat_brev (x.reg a))⟩

/-- Settles O1: each word's exact result, reduced to the type's bits, is the machine operation of Table 5.4. -/
theorem integerArithmeticWords : Obligations.IntegerArithmeticWords := ⟨arithmeticWords, logicWords⟩

/-! ### Shifts, fields, selection and moves (R90 to R92) -/

theorem shiftWords : ShiftWords := fun _ _ a b _ => ⟨
  sets_of_put_narrow rfl rfl fun x => (BitVec.ofInt_natCast ..).trans (ofNat_shlVal (x.reg a) (x.reg b).toNat),
  sets_of_put_wide rfl rfl fun x => (BitVec.ofInt_natCast ..).trans (ofNat_shlVal (x.pair a) (x.reg b).toNat),
  sets_of_put_narrow rfl rfl fun x => (BitVec.ofInt_natCast ..).trans (ofNat_shrVal (x.reg a) (x.reg b).toNat),
  sets_of_put_wide rfl rfl fun x => (BitVec.ofInt_natCast ..).trans (ofNat_shrVal (x.pair a) (x.reg b).toNat),
  sets_of_put_narrow rfl rfl fun x => ofInt_sarVal (x.reg a) (x.reg b).toNat,
  sets_of_put_wide rfl rfl fun x => ofInt_sarVal (x.pair a) (x.reg b).toNat,
  sets_of_aluWord rfl fun _ => rfl,
  sets_of_aluWord rfl fun _ => rfl,
  sets_of_aluWord rfl fun _ => rfl,
  sets_of_aluWord rfl fun _ => rfl⟩

theorem sets_fins (c : Ctl) (d a b cc : GReg) :
    Sets (.fins c d a b cc) c (·.zeroSpan d 1) (fun _ _ x => x.setG d (finsVal (x.reg a) (x.reg b) (x.reg cc))) :=
  sets_of_aluWord rfl fun _ => rfl

theorem sets_bsel (c : Ctl) (d a b : GReg) :
    Sets (.bsel c d a b) c (·.zeroSpan d 1) (fun _ _ x => x.setG d (bselVal (x.pair a) (x.reg b))) :=
  sets_of_aluWord rfl fun _ => rfl

theorem fieldSelectAndMoveWords : FieldSelectAndMoveWords := fun c d a b cc sh q inv => ⟨
  sets_of_aluWord rfl fun x => congrArg (x.setG d) (fextVal_n32 (x.reg a) (x.reg b)),
  sets_of_aluWord rfl fun x => congrArg (x.setG d) (fextVal_i32 (x.reg a) (x.reg b)),
  ⟨_, sets_fins c d a b cc, fun x _ hk => getLsbD_finsVal (x.reg a) (x.reg b) (x.reg cc) hk⟩,
  ⟨_, sets_bsel c d a b, fun x _ hk => (extractLsb'_bselVal (x.pair a) (x.reg b) hk).trans (ofNat_bselByte ..)⟩,
  sets_of_put_wide (ty := .n64) rfl rfl fun x => ofInt_lea_toInt (x.pair a) (x.reg b) sh,
  sets_of_put_wide (ty := .n64) rfl rfl fun x => ofInt_lea_toNat (x.pair a) (x.reg b) sh,
  sets_of_put_narrow rfl rfl fun x => (apply_ite (BitVec.ofInt 32) ..).trans (by rw [ofInt_val_narrow rfl, ofInt_val_narrow rfl]),
  sets_of_put_wide rfl rfl fun x => (apply_ite (BitVec.ofInt 64) ..).trans (by rw [ofInt_val_wide rfl, ofInt_val_wide rfl]),
  sets_of_put_narrow rfl rfl fun x => ofInt_val_narrow rfl x a,
  sets_of_put_wide rfl rfl fun x => ofInt_val_wide rfl x a⟩

/-- Settles O2: a count of the width or more shifts everything out, and a field is a quotient and a remainder of the operand. -/
theorem shiftFieldAndMoveWords : Obligations.ShiftFieldAndMoveWords := ⟨shiftWords, fieldSelectAndMoveWords⟩

/-! ### Immediate forms, compares and predicates (R93 to R96) -/

theorem immediateWords : ImmediateWords := fun _ _ a imm _ => ⟨
  sets_of_aluWord rfl fun _ => rfl,
  sets_of_aluWord rfl fun _ => rfl,
  sets_of_aluWord rfl fun _ => rfl,
  sets_of_aluWord rfl fun _ => rfl,
  sets_of_aluWord rfl fun _ => rfl,
  sets_of_aluWord rfl fun _ => rfl,
  sets_of_aluWord rfl fun x => congrArg (x.setG _) (ofNat_shlVal (x.reg a) imm.toNat),
  sets_of_aluWord rfl fun x => congrArg (x.setG _) (ofNat_shrVal (x.reg a) imm.toNat),
  sets_of_aluWord rfl fun x => congrArg (x.setG _) (ofInt_sarVal (x.reg a) imm.toNat),
  sets_of_aluWord rfl fun _ => rfl,
  sets_of_aluWord rfl fun _ => rfl,
  sets_of_wordOfStrand fun _ => rfl⟩

/-- A compare writes its outcome, combined with a predicate read before the write (R93). -/
theorem sets_cmp {fn : CmpFn} {v : Int → Int → Bool} (hv : ∀ m n, fn.holds m n = v m n) (c : Ctl) (ty : Ty) (k : Comb) (d : PReg)
    (a b : GReg) :
    Sets (.cmp c ty fn k d a b) c (·.setP d false) (fun _ _ x => x.setP d (combined x k (v (x.val ty a) (x.val ty b)))) :=
  sets_of_predWord rfl fun x => by rw [Strand.setCmp, combine_eq_combined, hv]

theorem sets_ptog (c : Ctl) (g : GReg) :
    Sets (.ptog c g) c (·.zeroSpan g 1) (fun _ _ x => x.setG g (BitVec.ofNat 32 x.predWord)) :=
  sets_of_aluWord rfl fun _ => rfl

theorem sets_gtop (c : Ctl) (a b : GReg) :
    Sets (.gtop c a b) c (fun x => x.selectPreds 0 (x.reg b)) (fun _ _ x => x.selectPreds (x.reg a) (x.reg b)) :=
  sets_of_wordOfStrand fun _ => rfl

theorem compareAndPredicateWords : CompareAndPredicateWords := fun c k d _ _ _ _ g a b => ⟨
  fun ty _ => ⟨
    sets_cmp (v := fun m n => m == n) (fun _ _ => rfl) c ty k d a b,
    sets_cmp (fn := .ne) (v := fun m n => m != n) (fun m n => decide_not (p := m = n)) c ty k d a b,
    sets_cmp (v := fun m n => decide (m < n)) (fun _ _ => rfl) c ty k d a b,
    sets_cmp (v := fun m n => decide (m ≤ n)) (fun _ _ => rfl) c ty k d a b,
    sets_cmp (v := fun m n => decide (n < m)) (fun _ _ => rfl) c ty k d a b,
    sets_cmp (v := fun m n => decide (n ≤ m)) (fun _ _ => rfl) c ty k d a b⟩,
  sets_of_predWord rfl fun _ => rfl,
  sets_of_predWord rfl fun _ => rfl,
  sets_of_predWord rfl fun _ => rfl,
  ⟨_, sets_ptog c g, getLsbD_predWord⟩,
  ⟨_, _, sets_gtop c a b, fun x j => ⟨pred_selectPreds x (x.reg a) (x.reg b) j,
    (pred_selectPreds x 0 (x.reg b) j).trans (by simp),
    selectPreds_withP x (x.reg a) (x.reg b), selectPreds_withP x 0 (x.reg b)⟩⟩⟩

/-- Settles O3: PTOG lays the predicates out as a sum of powers of two, and GTOP's fold writes each selected one once. -/
theorem immediateAndCompareWords : Obligations.ImmediateAndCompareWords := ⟨immediateWords, compareAndPredicateWords⟩

end Sys2Proof.Machine

/-! Cross-lane words (file 07): each is one fixed-latency word whose lanes see the bundle width and the participating lanes. -/

namespace Sys2Proof.Machine

/-! ### Words over the participating lanes -/

/-- A cross-lane word sets in each lane what `f` makes of the bundle width, the participating lanes and the lane (R149).
`e` is the word's arm of `exec`. -/
theorem sets_of_crossWord {i : Instr} {c : Ctl} {z : Strand → Strand} {f : Nat → Lanes → Strand → Strand}
    {g : State → Bundle → Strand → Strand} (e : State → Host.Outcome State Fault Refusal) (hi : exec i = e)
    (he : ∀ s, e s = crossWord c z f s) (hf : ∀ s b x, f (s.widthOf b) (s.participants c b) x = g s b x) : Sets i c z g := by
  have hg : g = fun s b => f (s.widthOf b) (s.participants c b) := funext₃ fun s b x => (hf s b x).symm
  rw [hg]
  exact sets_of_wordOfStrand fun s => (congrFun hi s).trans (he s)

/-! ### Taking a value from a lane (R152) -/

theorem wide_eq_of_mem {ty : Ty} (hty : ty ∈ [Ty.n32, Ty.n64]) : ty.wide = decide (ty = .n64) := by
  rcases List.mem_pair.1 hty with rfl | rfl <;> rfl

theorem pat_eq_of_mem {ty : Ty} (hty : ty ∈ [Ty.n32, Ty.n64]) (x : Strand) (a : GReg) :
    x.pat ty a = if ty = .n64 then (x.pair a).toNat else (x.reg a).toNat := by
  simp only [Strand.pat, wide_eq_of_mem hty, decide_eq_true_eq]

theorem put_natCast_of_mem {ty : Ty} (hty : ty ∈ [Ty.n32, Ty.n64]) (x : Strand) (d : GReg) (v : Nat) :
    x.put ty d v = if ty = .n64 then x.setPair d (BitVec.ofNat 64 v) else x.setG d (BitVec.ofNat 32 v) := by
  simp only [Strand.put, wide_eq_of_mem hty, decide_eq_true_eq, BitVec.ofInt_natCast]

/-- A source lane counts when it lies from 0 to W − 1. -/
theorem ite_outside_eq_ite_inside {α : Type} (w : Nat) (j : Int) (o : Option α) :
    (if j < 0 ∨ (w : Int) ≤ j then none else o) = if 0 ≤ j ∧ j < w then o else none := by
  have hiff : (j < 0 ∨ (w : Int) ≤ j) ↔ ¬(0 ≤ j ∧ j < w) := by omega
  simp only [hiff, ite_not]

theorem takeFrom_of_mem {ty : Ty} (hty : ty ∈ [Ty.n32, Ty.n64]) (d a : GReg) (w : Nat) (P : Lanes) (x : Strand) (j : Int) :
    takeFrom ty d a w P x j =
      let y := (if 0 ≤ j ∧ j < w then laneOf P j.toNat else none).getD x
      let v := if ty = .n64 then (y.pair a).toNat else (y.reg a).toNat
      if ty = .n64 then x.setPair d (BitVec.ofNat 64 v) else x.setG d (BitVec.ofNat 32 v) := by
  rw [takeFrom, ite_outside_eq_ite_inside, put_natCast_of_mem hty, pat_eq_of_mem hty]

/-- An XLANE word takes its value from lane `j` of the bundle width, the lane's own number and its selector. -/
theorem sets_of_xlane {i : Instr} {c : Ctl} {ty : Ty} {d a : GReg} {sl : LaneSel} {j : Nat → Nat → Nat → Int}
    {g : State → Bundle → Strand → Strand} (e : State → Host.Outcome State Fault Refusal) (hi : exec i = e)
    (he : ∀ s, e s = xlane c ty d a sl j s)
    (hf : ∀ s b x, takeFrom ty d a (s.widthOf b) (s.participants c b) x
      (j (s.widthOf b) (x.strandId % s.widthOf b) (LaneSel.value x sl)) = g s b x) :
    Sets i c (·.zeroSpan d ty.regs) g :=
  sets_of_crossWord e hi he hf

/-! ### Exchanges, votes, matches and conflicts (R152 to R155, R158) -/

theorem laneExchangeWords : LaneExchangeWords := fun c ty sl d a b lg l hty => ⟨
  sets_of_xlane (execXlaneSel c ty d a sl) rfl (fun _ => rfl) fun _ _ _ => takeFrom_of_mem hty ..,
  sets_of_xlane (execXlaneShift c ty d a sl) rfl (fun _ => rfl) fun _ _ _ => takeFrom_of_mem hty ..,
  sets_of_xlane (execXlaneRot c ty d a sl) rfl (fun _ => rfl) fun _ _ _ => takeFrom_of_mem hty ..,
  sets_of_xlane (execXlaneMirr c ty d a sl) rfl (fun _ => rfl) fun _ _ _ => takeFrom_of_mem hty ..,
  sets_of_crossWord (execBcast c ty d a l) rfl (fun _ => rfl) fun _ _ _ => takeFrom_of_mem hty ..,
  sets_of_crossWord (execShfx c d a b lg) rfl (fun _ => rfl) fun _ _ _ => rfl⟩

theorem laneAgreementWords : LaneAgreementWords := fun c ty neg all p q d a _ => ⟨
  sets_of_crossWord (execVote c (.all p) neg q) rfl (fun _ => rfl) fun _ _ _ => rfl,
  sets_of_crossWord (execVote c (.any p) neg q) rfl (fun _ => rfl) fun _ _ _ => rfl,
  -- no lane holds where the model says that not any does
  sets_of_crossWord (execVote c (.uni p) neg q) rfl (fun _ => rfl) fun _ _ x =>
    congrArg (fun u => x.setP p (_ || u)) (List.not_any_eq_all_not ..),
  sets_of_crossWord (execVote c (.ballot d) neg q) rfl (fun _ => rfl) fun _ _ _ => rfl,
  sets_of_crossWord (execLaneMatch c ty all d a q) rfl (fun _ => rfl) fun _ _ _ => rfl,
  sets_of_crossWord (execConflict c ty d a q) rfl (fun _ => rfl) fun _ _ _ => rfl⟩

/-- Settles O11: each word sees the lanes of P, and a source lane counts only when it lies from 0 to W − 1 and in P. -/
theorem laneExchange : Obligations.LaneExchange := ⟨laneExchangeWords, laneAgreementWords⟩

/-! ### Packing, reductions and merges (R156 to R159) -/

theorem toNat_and_magnitude (v : Word) : (v &&& 0x7FFFFFFF#32).toNat = v.toNat % 2 ^ 31 := by
  rw [BitVec.toNat_and]
  exact Nat.and_two_pow_sub_one_eq_mod v.toNat 31

/-- The F32 patterns above infinity, apart from the sign, are those with the top exponent and a fraction: the NaNs. -/
theorem infinity_lt_magnitude_iff (v : Word) :
    0x7F800000 < (v &&& 0x7FFFFFFF#32).toNat ↔ v.extractLsb' 23 8 = 0xFF#8 ∧ v.extractLsb' 0 23 ≠ 0 := by
  have hexp : (v.extractLsb' 23 8).toNat = v.toNat / 2 ^ 23 % 2 ^ 8 := by
    rw [BitVec.extractLsb'_toNat, Nat.shiftRight_eq_div_pow]
  have hfrac : (v.extractLsb' 0 23).toNat = v.toNat % 2 ^ 23 := by rw [BitVec.extractLsb'_toNat, Nat.shiftRight_zero]
  rw [toNat_and_magnitude, ne_eq, ← BitVec.toNat_inj, ← BitVec.toNat_inj, hexp, hfrac]
  simp only [BitVec.toNat_ofNat, BitVec.ofNat_eq_ofNat]
  omega

theorem canonWord_eq_nanCanonical : canonWord = nanCanonical := by
  funext ty v
  simp only [canonWord, nanCanonical, infinity_lt_magnitude_iff]
  rfl

/-- Settles O12: each word is the model's own computation over P, with NaNs recognised by exponent and fraction. -/
theorem laneCombiningWords : Obligations.LaneCombiningWords :=
  fun c ty rnd sat dz inv excl fn sg mg q d a => ⟨
    sets_of_crossWord (execCompact c d a q inv) rfl (fun _ => rfl) fun _ _ _ => rfl,
    sets_of_crossWord (execExpand c d a q inv) rfl (fun _ => rfl) fun _ _ _ => rfl,
    sets_of_crossWord (execBreduce c ty rnd sat fn sg d a) rfl (fun _ => rfl) fun _ _ _ => canonWord_eq_nanCanonical ▸ rfl,
    sets_of_crossWord (execBscan c ty rnd sat fn sg excl d a) rfl (fun _ => rfl) fun _ _ _ => canonWord_eq_nanCanonical ▸ rfl,
    sets_of_crossWord (execMergek c ty rnd sat dz mg d a q inv) rfl (fun _ => rfl) fun _ _ _ => canonWord_eq_nanCanonical ▸ rfl⟩

end Sys2Proof.Machine
